-- ==== Sys2Proof/Word.lean ====
section
/-! DEFINITION. The words of the part and the fixed families of like things (chains, groups, ports, sensors, zones,
event classes), each family an index type and a record with one field per member. -/

namespace Sys2Proof

/-- One byte, on any wire of the part. -/
abbrev Byte := BitVec 8
/-- A power code, 0 to 255 (R1). -/
abbrev Code := BitVec 8
/-- A value of the 32-bit microsecond time base (R7). -/
abbrev Stamp := BitVec 32
/-- An epoch index: 32 bits, after the greatest comes 1 (R40). -/
abbrev EpochIndex := BitVec 32
/-- A segment charge or a chain's epoch total, in nanojoules: 32 bits (R12). -/
abbrev ChainEnergy := BitVec 32
/-- The energy of an epoch record, in nanojoules: 40 bits (R12, R43). -/
abbrev RecordEnergy := BitVec 40
/-- A window sum, X_max, e_allow in nanojoules, or P_g in nanowatts: 48 bits (R12, R57). -/
abbrev WindowWord := BitVec 48
/-- A saturating 16-bit counter (R36, R160). -/
abbrev Count16 := BitVec 16
/-- A saturating 8-bit count (strikes R96, coalesce counts R165). -/
abbrev Count8 := BitVec 8
/-- Four mask bits: chains TX0 to TX3, or ports A to C, or the destinations A, B, C, OWN (R162, R166, R167). -/
abbrev Mask := BitVec 4

/-- The four transmit chains (00_scope.md, 0.5.1). -/
inductive Chain | tx0 | tx1 | tx2 | tx3
deriving DecidableEq, Repr

/-- The two antenna groups. -/
inductive Group | g0 | g1
deriving DecidableEq, Repr

/-- The three client ports. -/
inductive Port | portA | portB | portC
deriving DecidableEq, Repr

/-- The four temperature sensors. -/
inductive Sensor | s0 | s1 | s2 | s3
deriving DecidableEq, Repr

/-- The three thermal zones. -/
inductive Zone | z0 | z1 | z2
deriving DecidableEq, Repr

/-- The twelve event classes of R163, in bit order. -/
inductive EventClass
  | ceiling | overshoot | enforce | unannounced | stale | thermal | trip | sensor | overload | scenario | profile | port
deriving DecidableEq, Repr

/-- One value per chain. -/
structure PerChain (α : Type) where
  tx0 : α
  tx1 : α
  tx2 : α
  tx3 : α
deriving DecidableEq, Repr

/-- One value per group. -/
structure PerGroup (α : Type) where
  g0 : α
  g1 : α
deriving DecidableEq, Repr

/-- One value per port. -/
structure PerPort (α : Type) where
  portA : α
  portB : α
  portC : α
deriving DecidableEq, Repr

/-- One value per sensor. -/
structure PerSensor (α : Type) where
  s0 : α
  s1 : α
  s2 : α
  s3 : α
deriving DecidableEq, Repr

/-- One value per zone. -/
structure PerZone (α : Type) where
  z0 : α
  z1 : α
  z2 : α
deriving DecidableEq, Repr

/-- One value per event class. -/
structure PerClass (α : Type) where
  ceiling : α
  overshoot : α
  enforce : α
  unannounced : α
  stale : α
  thermal : α
  trip : α
  sensor : α
  overload : α
  scenario : α
  profile : α
  port : α
deriving DecidableEq, Repr

namespace PerChain
variable {α β : Type}

def get (v : PerChain α) : Chain → α
  | .tx0 => v.tx0
  | .tx1 => v.tx1
  | .tx2 => v.tx2
  | .tx3 => v.tx3

def build (f : Chain → α) : PerChain α := ⟨f .tx0, f .tx1, f .tx2, f .tx3⟩

def set (v : PerChain α) (i : Chain) (x : α) : PerChain α :=
  match i with
  | .tx0 => ⟨x, v.tx1, v.tx2, v.tx3⟩
  | .tx1 => ⟨v.tx0, x, v.tx2, v.tx3⟩
  | .tx2 => ⟨v.tx0, v.tx1, x, v.tx3⟩
  | .tx3 => ⟨v.tx0, v.tx1, v.tx2, x⟩

def toList (v : PerChain α) : List α := [v.tx0, v.tx1, v.tx2, v.tx3]

@[simp] theorem get_build (f : Chain → α) (i : Chain) : (build f).get i = f i := by cases i <;> rfl
@[simp] theorem get_set_self (v : PerChain α) (i : Chain) (x : α) : (v.set i x).get i = x := by cases i <;> rfl
theorem get_set_of_ne (v : PerChain α) {i j : Chain} (x : α) (h : j ≠ i) : (v.set i x).get j = v.get j := by
  cases i <;> cases j <;> first | rfl | exact absurd rfl h
theorem get_set (v : PerChain α) (i j : Chain) (x : α) : (v.set i x).get j = if j = i then x else v.get j := by
  cases i <;> cases j <;> rfl
@[simp] theorem set_get_self (v : PerChain α) (i : Chain) : v.set i (v.get i) = v := by cases i <;> rfl
theorem ext_get {v w : PerChain α} (h : ∀ i, v.get i = w.get i) : v = w := by
  cases v; cases w
  have h0 := h .tx0; have h1 := h .tx1; have h2 := h .tx2; have h3 := h .tx3
  simp only [get] at h0 h1 h2 h3
  simp [h0, h1, h2, h3]

end PerChain

namespace PerGroup
variable {α : Type}

def get (v : PerGroup α) : Group → α
  | .g0 => v.g0
  | .g1 => v.g1

def build (f : Group → α) : PerGroup α := ⟨f .g0, f .g1⟩

def set (v : PerGroup α) (g : Group) (x : α) : PerGroup α :=
  match g with
  | .g0 => ⟨x, v.g1⟩
  | .g1 => ⟨v.g0, x⟩

@[simp] theorem get_build (f : Group → α) (g : Group) : (build f).get g = f g := by cases g <;> rfl
@[simp] theorem get_set_self (v : PerGroup α) (g : Group) (x : α) : (v.set g x).get g = x := by cases g <;> rfl
theorem get_set (v : PerGroup α) (g h : Group) (x : α) : (v.set g x).get h = if h = g then x else v.get h := by
  cases g <;> cases h <;> rfl

end PerGroup

namespace PerPort
variable {α : Type}

def get (v : PerPort α) : Port → α
  | .portA => v.portA
  | .portB => v.portB
  | .portC => v.portC

def build (f : Port → α) : PerPort α := ⟨f .portA, f .portB, f .portC⟩

def set (v : PerPort α) (p : Port) (x : α) : PerPort α :=
  match p with
  | .portA => ⟨x, v.portB, v.portC⟩
  | .portB => ⟨v.portA, x, v.portC⟩
  | .portC => ⟨v.portA, v.portB, x⟩

@[simp] theorem get_build (f : Port → α) (p : Port) : (build f).get p = f p := by cases p <;> rfl
@[simp] theorem get_set_self (v : PerPort α) (p : Port) (x : α) : (v.set p x).get p = x := by cases p <;> rfl
theorem get_set (v : PerPort α) (p q : Port) (x : α) : (v.set p x).get q = if q = p then x else v.get q := by
  cases p <;> cases q <;> rfl

end PerPort

namespace PerSensor
variable {α : Type}

def get (v : PerSensor α) : Sensor → α
  | .s0 => v.s0
  | .s1 => v.s1
  | .s2 => v.s2
  | .s3 => v.s3

def build (f : Sensor → α) : PerSensor α := ⟨f .s0, f .s1, f .s2, f .s3⟩

@[simp] theorem get_build (f : Sensor → α) (n : Sensor) : (build f).get n = f n := by cases n <;> rfl

end PerSensor

namespace PerZone
variable {α : Type}

def get (v : PerZone α) : Zone → α
  | .z0 => v.z0
  | .z1 => v.z1
  | .z2 => v.z2

def build (f : Zone → α) : PerZone α := ⟨f .z0, f .z1, f .z2⟩

def set (v : PerZone α) (z : Zone) (x : α) : PerZone α :=
  match z with
  | .z0 => ⟨x, v.z1, v.z2⟩
  | .z1 => ⟨v.z0, x, v.z2⟩
  | .z2 => ⟨v.z0, v.z1, x⟩

@[simp] theorem get_build (f : Zone → α) (z : Zone) : (build f).get z = f z := by cases z <;> rfl
@[simp] theorem get_set_self (v : PerZone α) (z : Zone) (x : α) : (v.set z x).get z = x := by cases z <;> rfl
theorem get_set (v : PerZone α) (z y : Zone) (x : α) : (v.set z x).get y = if y = z then x else v.get y := by
  cases z <;> cases y <;> rfl

end PerZone

namespace PerClass
variable {α : Type}

def get (v : PerClass α) : EventClass → α
  | .ceiling => v.ceiling
  | .overshoot => v.overshoot
  | .enforce => v.enforce
  | .unannounced => v.unannounced
  | .stale => v.stale
  | .thermal => v.thermal
  | .trip => v.trip
  | .sensor => v.sensor
  | .overload => v.overload
  | .scenario => v.scenario
  | .profile => v.profile
  | .port => v.port

def build (f : EventClass → α) : PerClass α :=
  ⟨f .ceiling, f .overshoot, f .enforce, f .unannounced, f .stale, f .thermal, f .trip, f .sensor, f .overload,
    f .scenario, f .profile, f .port⟩

def set (v : PerClass α) (k : EventClass) (x : α) : PerClass α := build fun c => if c = k then x else v.get c

@[simp] theorem get_build (f : EventClass → α) (k : EventClass) : (build f).get k = f k := by cases k <;> rfl
theorem get_set (v : PerClass α) (k c : EventClass) (x : α) : (v.set k x).get c = if c = k then x else v.get c := by
  simp [set]
@[simp] theorem get_set_self (v : PerClass α) (k : EventClass) (x : α) : (v.set k x).get k = x := by simp [set]

end PerClass

/-- The chains in index order. -/
def Chain.all : List Chain := [.tx0, .tx1, .tx2, .tx3]
/-- The ports in order. -/
def Port.all : List Port := [.portA, .portB, .portC]
/-- The sensors in order. -/
def Sensor.all : List Sensor := [.s0, .s1, .s2, .s3]
/-- The zones in order. -/
def Zone.all : List Zone := [.z0, .z1, .z2]
/-- The event classes in bit order (R163). -/
def EventClass.all : List EventClass :=
  [.ceiling, .overshoot, .enforce, .unannounced, .stale, .thermal, .trip, .sensor, .overload, .scenario, .profile, .port]

theorem Chain.mem_all (i : Chain) : i ∈ Chain.all := by cases i <;> decide
theorem EventClass.mem_all (k : EventClass) : k ∈ EventClass.all := by cases k <;> decide

end Sys2Proof
end

