-- ==== Sys2Proof/Config.lean ====
section
/-! DEFINITION. The fixed capacities of the part. The spec leaves no result value undefined, so there is no free value
here; the ROM values of the profile are in Machine/Rom.lean. -/

namespace Sys2Proof.Config

/-- Entries an announcement queue holds (R13). -/
def queueCapacity : Nat := 8
/-- Records a ring holds (R42). -/
def ringCapacity : Nat := 1024
/-- Stamps the droop history holds (R123). -/
def historyCapacity : Nat := 8
/-- Bytes of a frame that a port stores (R148, R150). -/
def receiveBufferBytes : Nat := 34
/-- The longest payload a request declares (R150, request header of section 9.10). -/
def longestPayload : Nat := 32
/-- Records a READ_HISTORY returns at most (R58). -/
def historyReadLimit : Nat := 3
/-- The greatest data count of a FLASH_XFER (R154, R176). -/
def longestTransfer : Nat := 24
/-- Bytes the 24-bit flash address space holds (R171). -/
def flashBytes : Nat := 16777216
/-- Bytes of one unit of the protected end (R177). -/
def protectedUnit : Nat := 4096
/-- The age, in microseconds, at which a droop stamp is due for retirement less one (R123). -/
def stampLifetime : Nat := 60000000

end Sys2Proof.Config
end

