-- ==== Sys2Proof/Syntax.lean ====
section
/-! DEFINITION. The commands of the part: one constructor of Instr per row of spec/opcode_table.json, and the data they
carry. The table gives the rows no operand fields; the operands here are the fields the rules name. -/

namespace Sys2Proof

/-- A final ceiling, or a contribution to one: a code or OFF (R1). -/
inductive Ceiling
  | off
  | code (c : Code)
deriving DecidableEq, Repr

/-- A chain's cap: NONE, OFF or a code (R142). -/
inductive Cap
  | uncapped
  | off
  | code (c : Code)
deriving DecidableEq, Repr

/-- A chain's owner (R144). -/
inductive Owner
  | noOwner
  | ownerA
  | ownerB
deriving DecidableEq, Repr

/-- The precharge setting (R45). -/
inductive Precharge
  | full
  | empty
deriving DecidableEq, Repr

/-- The overload level: 0 to 4, or LOCK (section 7.1). -/
inductive OverloadLevel
  | level (n : Nat)
  | lock
deriving DecidableEq, Repr

/-- A ceiling or cap value as two bytes on the wire (R162). -/
structure WireCeiling where
  form : Byte
  code : Byte
deriving DecidableEq, Repr

/-- One raise at the event router: a class and its mask (R163). -/
structure Raise where
  cls : EventClass
  mask : Mask
deriving DecidableEq, Repr

/-- A close notice of the EWU (R40). -/
structure CloseNotice where
  boundary : Stamp
  closing : EpochIndex
deriving DecidableEq, Repr

/-- A ceiling change notice of the CLU (R80). -/
structure CeilingChange where
  chain : Chain
  ceiling : Ceiling
  inhibit : Bool
  stamp : Stamp
deriving DecidableEq, Repr

/-- One chain's part of the epoch energy report (R30). -/
structure ChainReport where
  energy : ChainEnergy
  strikes : Count8
deriving DecidableEq, Repr

/-- The group limits in force: average code, floor code and window length (R136). -/
structure GroupLimits where
  avg : Code
  floor : Code
  window : Nat
deriving DecidableEq, Repr

/-- The policy answer of R47 and, without a map, the start-up policy answer of R146. -/
structure PolicyAnswer where
  scenario : Nat
  limits : PerGroup GroupLimits
  map : Option (PerChain Group)
deriving DecidableEq, Repr

/-- cmax and k of one chain (R6). -/
structure ChainPower where
  cmax : Code
  k : Nat
deriving DecidableEq, Repr

/-- The parameters of the BAU, as the start-up load or a close answer carries them (R29, R172). -/
structure BauParams where
  chains : PerChain ChainPower
  staleMs : Nat
  graceMs : Nat
  threshold : Nat
deriving DecidableEq, Repr

/-- The parameters of the EWU in the start-up load (R172). -/
structure EwuParams where
  tMs : Nat
  precharge : Precharge
  map : PerChain Group
deriving DecidableEq, Repr

/-- One chain of the profile delivery of R75. -/
structure ChainProfile where
  cmax : Code
  k : Nat
  group : Group
  zone : Zone
deriving DecidableEq, Repr

/-- The stage or trip notice of R115. -/
structure StageNotice where
  zone : Zone
  stage : Nat
  backoff : Nat
  trip : Bool
deriving DecidableEq, Repr

/-- One chain of the LIMITS section (section 9.10). -/
structure ChainLimits where
  cmax : Code
  group : Group
  k : Nat
  owner : Owner
deriving DecidableEq, Repr

/-- The LIMITS section (section 9.10, R171). -/
structure LimitsSection where
  chains : PerChain ChainLimits
  aMax : PerGroup Code
  tMs : Nat
  precharge : Precharge
  threshold : Nat
  graceMs : Nat
  staleMs : Nat
  protectedEnd : Nat
  guarded : List Byte
deriving DecidableEq, Repr

/-- One scenario record, before any clamp (R135). -/
structure ScenarioRecord where
  limits : PerGroup GroupLimits
  weights : PerChain Nat
  defaultCaps : PerChain (Option Code)
deriving DecidableEq, Repr

/-- One zone of the THERMAL section (R117): rise holds rise_1 to rise_7, backoff holds backoff_1 to backoff_7. -/
structure ZoneParams where
  members : PerSensor Bool
  rise : List Int
  riseTrip : Int
  hyst : Nat
  dwellMs : Nat
  backoff : List Nat
  faultStage : Nat
deriving DecidableEq, Repr

/-- The THERMAL section (R117). -/
structure ThermalSection where
  tables : PerSensor (List Int)
  periodMs : Nat
  zones : PerZone ZoneParams
  chainZone : PerChain Zone
deriving DecidableEq, Repr

/-- The OVERLOAD section (R132). -/
structure OverloadSection where
  oStep : Nat
  holdMs : Nat
  reStrikeMs : Nat
  releaseMs : Nat
  lockMs : Nat
  chronicS : Nat
deriving DecidableEq, Repr

/-- What the start-up load delivers to the policy store: SCENARIOS, LIMITS, and the chain-to-zone map that the policy
store sends on in the profile delivery (R146, R75; log 14). -/
structure PolicyDelivery where
  scenarios : List ScenarioRecord
  limits : LimitsSection
  zones : PerChain Zone
deriving DecidableEq, Repr

/-- A run of bytes of the flash from an address on. -/
structure FlashBlock where
  base : Nat
  bytes : List Byte
deriving DecidableEq, Repr

/-- What the flash holds while a load reads it; an address in no block reads 0xFF, as erased flash does (R170; log 16). -/
abbrev FlashImage := List FlashBlock

/-- The fields of a FLASH_XFER (R154, R176). -/
structure XferRequest where
  command : Byte
  addressMode : Byte
  address : BitVec 24
  dummy : Byte
  direction : Byte
  count : Byte
  data : List Byte
deriving DecidableEq, Repr

/-- The commands: one constructor per row of spec/opcode_table.json, in the table's order. -/
inductive Instr
  -- the reset input and the edges of a frame
  | reset
  | selectFall (p : Port)
  | selectRise (p : Port) (bytes : List Byte) (partByte : Bool) (strapHigh : Bool)
  -- requests
  | announceNext (p : Port) (chain : Byte) (code : Code) (maxDuration : BitVec 16)
  | announceNow (p : Port) (chain : Byte) (code : Code) (maxDuration : BitVec 16)
  | readCeilings (p : Port)
  | readStatus (p : Port) (page : Byte)
  | readHistory (p : Port) (group : Byte) (offset : BitVec 16) (count : Byte)
  | readThermal (p : Port)
  | readEvents (p : Port)
  | ackEvents (p : Port) (classes : BitVec 16)
  | poll (p : Port)
  | portReset (p : Port)
  | selectScenario (p : Port) (index : Byte)
  | setCap (p : Port) (chain : Byte) (value : WireCeiling)
  | setOwner (p : Port) (chain : Byte) (owner : Byte)
  | setRoute (p : Port) (cls : Byte) (destinations : Byte)
  | loadProfile (p : Port)
  | flashXfer (p : Port) (x : XferRequest) (strapHigh : Bool)
  | deviceReset (p : Port)
  -- transmit bursts and overshoot
  | txenRise (i : Chain)
  | txenFall (i : Chain)
  | staleExpiry (i : Chain)
  | overrunExpiry (i : Chain)
  | graceExpiry (i : Chain)
  | ceilingChangeNotice (n : CeilingChange)
  -- the epoch close
  | epochTimerExpiry
  | bauCloseEvent
  | epochEnergyReport (r : PerChain ChainReport)
  | policyAnswer (a : PolicyAnswer)
  | closeComputation
  | pstCloseNotice (n : CloseNotice)
  | cluCloseNotice (n : CloseNotice)
  -- the ceiling table's inputs
  | activityNotice (i : Chain)
  | quietSummary (quiet : PerChain Bool)
  | groupAllowanceNotice (g : Group) (power : WindowWord)
  | scenarioDelivery (weights : PerChain Nat) (caps : PerChain Cap)
  | capDelivery (i : Chain) (cap : Cap)
  | profileDelivery (chains : PerChain ChainProfile)
  | stageTripNotice (n : StageNotice)
  | levelLockNotice (level : OverloadLevel) (oStep : Nat)
  | enforcementSetRequest (i : Chain) (epoch : EpochIndex)
  | enforcementClearRequest (i : Chain) (epoch : EpochIndex)
  -- start-up
  | startupLoadEnd (flash : FlashImage)
  | pstStartupDelivery (d : PolicyDelivery)
  | startupPolicyAnswer (a : PolicyAnswer)
  | thermalDelivery (t : ThermalSection)
  | overloadDelivery (o : OverloadSection)
  | routingDelivery (r : PerClass Mask)
  | bauLimitsDelivery (b : BauParams)
  | ewuLimitsDelivery (e : EwuParams)
  | bauEntryToRun (entry : Stamp)
  | ewuEntryToRun (entry : Stamp)
  | cluEntryToRun
  | thuEntryToRun (entry : Stamp)
  | ovuEntryToRun (entry : Stamp)
  -- thermal supervision and overload
  | samplingRound (raw : PerSensor (BitVec 10))
  | dwellExpiry (z : Zone)
  | droopRise
  | droopFall
  | reStrikeExpiry
  | holdExpiry
  | releaseExpiry
  | lockExpiry
  | droopStampRetirement
  -- events, flash, the close handshake, the slot
  | eventRaise (r : Raise)
  | reloadEnd (flash : FlashImage)
  | transferEnd (read : List Byte)
  | strapFall (shifted : Nat)
  | bauCloseNotice (n : CloseNotice)
  | bauCloseAnswer (a : Option BauParams)
  | responseStatusByteShifted (p : Port)
deriving DecidableEq, Repr

end Sys2Proof
end

