-- ==== Sys2Proof/Decode.lean ====
section
/-! DEFINITION. The commands that words spell. No row of spec/opcode_table.json gives any bits (every row's fields are
empty): the part has no instruction words, so no word spells a command (log 22). -/

namespace Sys2Proof

/-- The command a word of nbits spells by the table's bits: none, because the table gives no row any bits. -/
def decodeTableWord (_nbits _w : Nat) : Option Instr := none

end Sys2Proof
end

