-- ==== Sys2Proof/Machine/Energy.lean ====
section
/-! DEFINITION. Power codes, ceilings and energy (01_power_codes_and_energy_arithmetic.md). Every product and
sum is formed exactly, as a natural number; what a unit holds has the width of R12 (log 18). -/

namespace Sys2Proof.Machine

/-- The mantissa table M of R2. -/
def mantissas : List Nat :=
  [1000, 1059, 1122, 1189, 1259, 1334, 1413, 1496, 1585, 1679] ++
  [1778, 1884, 1995, 2113, 2239, 2371, 2512, 2661, 2818, 2985] ++
  [3162, 3350, 3548, 3758, 3981, 4217, 4467, 4732, 5012, 5309] ++
  [5623, 5957, 6310, 6683, 7079, 7499, 7943, 8414, 8913, 9441]

/-- lin of a code given as a number (R2). -/
def linNat (c : Nat) : Nat := mantissas.getD (c % 40) 0 * 10 ^ (c / 40)

/-- The linear power of a code in nanowatts (R2). -/
def lin (c : Code) : Nat := linNat c.toNat

/-- The largest code below n whose linear power is at most p, OFF when none is (R3). -/
def codeBelow (p : Nat) : Nat → Ceiling
  | 0 => .off
  | n + 1 => if linNat n ≤ p then .code (BitVec.ofNat 8 n) else codeBelow p n

/-- code_of of R3. -/
def codeOf (p : Nat) : Ceiling := codeBelow p 256

/-- The lesser of two ceilings: OFF is less than every code (R1). -/
def leastCeiling : Ceiling → Ceiling → Ceiling
  | .off, _ => .off
  | .code _, .off => .off
  | .code a, .code b => if a.toNat ≤ b.toNat then .code a else .code b

/-- A transmit code is above a ceiling that is OFF or a smaller code (R1). -/
def exceeds (p : Code) : Ceiling → Bool
  | .off => true
  | .code c => decide (c.toNat < p.toNat)

/-- A code less n codes, clamped at code 0 (R4, R68, R69). -/
def lessCodes (c : Code) (n : Nat) : Code := BitVec.ofNat 8 (c.toNat - n)

/-- The exposure code of a transmit code under an offset k (R4). -/
def exposureCode (p : Code) (k : Nat) : Code := lessCodes p k

/-- The transmit ceiling of an exposure ceiling on a chain with this cmax and k (R5). -/
def transmitCeiling (cmax : Code) (k : Nat) : Ceiling → Ceiling
  | .off => .off
  | .code e => .code (BitVec.ofNat 8 (min cmax.toNat (e.toNat + k)))

/-- E_seg of a segment of d microseconds at a code under an offset: rounded up to a whole nanojoule (R8). -/
def segmentEnergy (p : Code) (k d : Nat) : Nat := (lin (exposureCode p k) * d + 999999) / 1000000

/-- The energy of one epoch at a code: e_avg or e_res of R9. -/
def epochEnergy (c : Code) (tMs : Nat) : Nat := lin c * tMs / 1000

/-- The excess of a record of energy e above e_res (R10). -/
def excess (e eRes : Nat) : Nat := e - eRes

/-- X_max of R10. -/
def windowBound (n eAvg eRes : Nat) : Nat := n * (eAvg - eRes)

/-- P_g of an allowance (R11). -/
def groupPower (eAllow tMs : Nat) : Nat := eAllow * 1000 / tMs

end Sys2Proof.Machine
end

