-- ==== Sys2Proof/Machine/Rom.lean ====
section
/-! DEFINITION. The ROM values: what each unit holds from a device reset until the start-up load delivers a section,
and what stands for a section that is absent or rejected at start-up (R171, R118, R132, R146, R167). -/

namespace Sys2Proof.Machine.Rom

/-- One value for every chain. -/
def everyChain {α : Type} (x : α) : PerChain α := PerChain.build fun _ => x

/-- The ROM groups: TX0 and TX1 in G0, TX2 and TX3 in G1 (R171). -/
def chainGroups : PerChain Group := ⟨.g0, .g0, .g1, .g1⟩

/-- The ROM zones: TX0 and TX1 in Z0, TX2 and TX3 in Z1 (R118). -/
def chainZones : PerChain Zone := ⟨.z0, .z0, .z1, .z1⟩

/-- The ROM owners: TX0 and TX1 of A, TX2 and TX3 of B (R146). -/
def owners : PerChain Owner := ⟨.ownerA, .ownerA, .ownerB, .ownerB⟩

/-- The ROM LIMITS values of R171. -/
def limits : LimitsSection where
  chains := PerChain.build fun i => { cmax := 200, group := chainGroups.get i, k := 0, owner := owners.get i }
  aMax := ⟨160, 160⟩
  tMs := 100
  precharge := .full
  threshold := 4
  graceMs := 2
  staleMs := 20
  protectedEnd := 2
  guarded := []

/-- The group limits of the ROM scenario (R146). -/
def groupLimits : GroupLimits := { avg := 160, floor := 140, window := 1000 }

/-- The ROM scenario of R146. -/
def scenario : ScenarioRecord where
  limits := ⟨groupLimits, groupLimits⟩
  weights := everyChain 8
  defaultCaps := everyChain none

/-- The ROM linearisation table: T[i] = 1200 - 45 * i (R118). -/
def sensorTable : List Int := (List.range 33).map fun (i : Nat) => 1200 - 45 * (i : Int)

/-- The ROM zone parameters but for the membership (R118). -/
def zone (members : PerSensor Bool) : ZoneParams where
  members := members
  rise := [360, 400, 440, 480, 520, 560, 600]
  riseTrip := 680
  hyst := 16
  dwellMs := 2000
  backoff := [4, 8, 12, 16, 24, 32, 48]
  faultStage := 5

/-- The ROM THERMAL values (R118). -/
def thermal : ThermalSection where
  tables := ⟨sensorTable, sensorTable, sensorTable, sensorTable⟩
  periodMs := 50
  zones := ⟨zone ⟨true, true, false, false⟩, zone ⟨true, false, true, false⟩, zone ⟨false, false, false, true⟩⟩
  chainZone := chainZones

/-- The ROM OVERLOAD values (R132). -/
def overload : OverloadSection where
  oStep := 12
  holdMs := 200
  reStrikeMs := 20
  releaseMs := 500
  lockMs := 1000
  chronicS := 10

/-- The ROM routing of R167: bit 0 is A, bit 1 B, bit 2 C, bit 3 OWN. -/
def routing : PerClass Mask where
  ceiling := 0b1100
  overshoot := 0b1100
  enforce := 0b1100
  unannounced := 0b1100
  stale := 0b1100
  thermal := 0b0100
  trip := 0b0111
  sensor := 0b0100
  overload := 0b0100
  scenario := 0b0100
  profile := 0b0100
  port := 0b1100

end Sys2Proof.Machine.Rom
end

