-- ==== Sys2Proof/Machine/State.lean ====
section
/-! DEFINITION. The state of the part: everything the spec gives each unit, as plain data, and the state after reset. -/

namespace Sys2Proof.Machine

/-- Why a step stops with a fault: no reason. The spec describes no condition that stops the part, so this type has no
constructor and no command ends in a fault (INVENTORY.md, Faults; log 21). -/
inductive Fault
deriving DecidableEq, Repr

/-- Why a command has no meaning. -/
inductive Refusal
  /-- Raised by exec for a command that is not modelled yet, with the command's mnemonic: safe, the run stops. -/
  | notModelled (mnemonic : String)
deriving DecidableEq, Repr

/-! ### Input pins -/

/-- The levels of the input lines that are watched for edges, and the strap as last taken (section 0.6). -/
structure Pins where
  txen : PerChain Bool
  droop : Bool
  strap : Bool
deriving DecidableEq, Repr

/-- An edge of a watched line, with the stamp of the microsecond in which it occurs (section 2.4, R122). -/
structure LineEdge where
  rising : Bool
  stamp : Stamp
deriving DecidableEq, Repr

/-! ### Client ports -/

/-- The status codes of R153. -/
inductive Status
  | ok | none | pending | busy | denied | notOwner | badRequest | badLength | badValue | queueFull | noPulse
  | isProtected | aborted
deriving DecidableEq, Repr

/-- One complete response: status, the kind of the request answered, payload (section 9.2). -/
structure Response where
  status : Status
  kind : Byte
  payload : List Byte
deriving DecidableEq, Repr

/-- The response slot of a port (section 9.2). -/
inductive Slot
  | empty
  | pending (kind : Byte)
  | ready (r : Response)
deriving DecidableEq, Repr

/-- A frame in progress: what the slot was at its falling select edge, and whether the first byte has wholly left
(R149, R151). -/
structure Frame where
  startedPending : Bool
  startedReady : Bool
  statusShifted : Bool
deriving DecidableEq, Repr

/-- One client port interface (R148 to R161). frame is some in IN_FRAME and none in IDLE. -/
structure Cpi where
  selectLow : Bool
  waitHigh : Bool
  frame : Option Frame
  rxBuffer : List Byte
  shiftedOut : List Byte
  slot : Slot
  truncated : Count16
  dropped : Count16
deriving DecidableEq, Repr

/-! ### Burst accounting unit -/

/-- An announcement queue entry (R13). max_duration none is absent. -/
structure QueueEntry where
  code : Code
  maxDuration : Option (BitVec 16)
  arrival : Stamp
deriving DecidableEq, Repr

/-- The current segment of an open pulse, with its overshoot mark (R19, R87). -/
structure Segment where
  code : Code
  start : Stamp
  k : Nat
  inhibited : Bool
  marked : Bool
deriving DecidableEq, Repr

/-- An open-pulse record (R19). -/
structure Pulse where
  rise : Stamp
  unannounced : Bool
  maxDuration : Option (BitVec 16)
  overrunDeadline : Option Stamp
  overrunMark : Bool
  segment : Segment
deriving DecidableEq, Repr

/-- The five counters of a chain (R36). -/
structure Counters where
  overshoots : Count16
  unannounced : Count16
  stale : Count16
  enforcements : Count16
  flushed : Count16
deriving DecidableEq, Repr

/-- What the BAU holds for one chain (section 2.1, section 5.1). grace some is RUNNING with that deadline. -/
structure BauChain where
  queue : List QueueEntry
  pulse : Option Pulse
  accumulator : ChainEnergy
  strikes : Count8
  announcedInEpoch : Bool
  pulsedInEpoch : Bool
  heldCeiling : Ceiling
  heldInhibit : Bool
  grace : Option Stamp
  enforced : Bool
  counters : Counters
  power : ChainPower
deriving DecidableEq, Repr

/-- What the BAU holds beside the chains: the running epoch index and the LIMITS parameters (R85, R17). -/
structure BauShared where
  epoch : EpochIndex
  staleMs : Nat
  graceMs : Nat
  threshold : Nat
deriving DecidableEq, Repr

/-- An event that reaches the BAU. Edges, expiries and notices keep their own stamp; a request is stamped when the BAU
takes it (R29). -/
inductive BauEvent
  | rise (i : Chain) (t : Stamp)
  | fall (i : Chain) (t : Stamp)
  | staleExpiry (i : Chain) (t : Stamp)
  | overrunExpiry (i : Chain) (t : Stamp)
  | graceExpiry (i : Chain) (t : Stamp)
  | ceilingChange (n : CeilingChange)
  | announce (p : Port) (chain : Byte) (kind : Byte) (code : Code) (maxDuration : BitVec 16)
  | flush (i : Chain)
deriving DecidableEq, Repr

/-- The burst accounting unit. inRun is set once it has taken the entry to RUN; early holds the transmit-enable edges that
come in RUN before it has, oldest first (R24; log 10). -/
structure Bau where
  inRun : Bool
  shared : BauShared
  chains : PerChain BauChain
  closeNotice : Option CloseNotice
  closeAnswer : Option (Option BauParams)
  held : List BauEvent
  early : List (Chain × LineEdge)
deriving DecidableEq, Repr

/-! ### Exposure window unit -/

/-- The states of the EWU's close work (R41). -/
inductive EwuState
  | stopped | steady | collecting
deriving DecidableEq, Repr

/-- An epoch record (R43). -/
structure EpochRecord where
  epochIndex : EpochIndex
  energy : RecordEnergy
  assumed : Bool
  strikes : Count8
  scenario : Nat
deriving DecidableEq, Repr

/-- The window figures of a group (R57) but for N and the fill, at the widths of R12. -/
structure Figures where
  sWin : WindowWord
  xWin : WindowWord
  xMax : WindowWord
  eAllow : WindowWord
  power : WindowWord
deriving DecidableEq, Repr

/-- What the EWU holds for one group: the ring, oldest first; the limits in force; the figures. -/
structure EwuGroup where
  ring : List EpochRecord
  limits : GroupLimits
  figures : Figures
deriving DecidableEq, Repr

/-- The exposure window unit. timer is the next boundary stamp; closing is the index of the epoch being closed. -/
structure Ewu where
  state : EwuState
  timer : Option Stamp
  epochIndex : EpochIndex
  closing : EpochIndex
  params : EwuParams
  scenario : Nat
  groups : PerGroup EwuGroup
  report : Option (PerChain ChainReport)
  answer : Option PolicyAnswer
  startupAnswer : Option PolicyAnswer
  heldEntry : Option Stamp
deriving DecidableEq, Repr

/-! ### Ceiling unit -/

/-- A binding set (section 4.1). -/
structure Binding where
  exposure : Bool
  thermal : Bool
  overload : Bool
  cap : Bool
  cmax : Bool
  inhibit : Bool
deriving DecidableEq, Repr

/-- An inhibit_causes set (R71). -/
structure Causes where
  loading : Bool
  enforce : Bool
  trip : Bool
  lock : Bool
deriving DecidableEq, Repr

/-- One entry of the ceiling table as the CLU reports it: final ceiling, binding set, causes, inhibit line. -/
structure TableEntry where
  final : Ceiling
  binding : Binding
  causes : Causes
  inhibit : Bool
deriving DecidableEq, Repr

/-- What the CLU holds for one chain: activity, the enforced epoch, the inputs, and the table entry. -/
structure CluChain where
  active : Bool
  activitySinceClose : Bool
  enforcedEpoch : Option EpochIndex
  weight : Nat
  cap : Cap
  profile : ChainProfile
  entry : TableEntry
deriving DecidableEq, Repr

/-- What the CLU holds for one zone (R76). -/
structure ZoneInput where
  stage : Nat
  backoff : Nat
  trip : Bool
deriving DecidableEq, Repr

/-- The ceiling unit. loading is the device state as the CLU has taken it. -/
structure Clu where
  chains : PerChain CluChain
  power : PerGroup WindowWord
  zones : PerZone ZoneInput
  level : OverloadLevel
  oStep : Nat
  loading : Bool
  generation : BitVec 8
  epoch : EpochIndex
  heldSets : List (Chain × EpochIndex)
deriving DecidableEq, Repr

/-! ### Thermal unit -/

/-- The states of a sensor (section 6.1). -/
inductive SensorState
  | ok | suspect | fault
deriving DecidableEq, Repr

/-- What the THU holds for one sensor. -/
structure SensorRecord where
  state : SensorState
  lastRaw : Option (BitVec 10)
  temperature : Option Int
  faultRun : Nat
  goodRun : Nat
deriving DecidableEq, Repr

/-- What the THU holds for one zone. dwell some is RUNNING with that expiry, none is ELAPSED. -/
structure ZoneRecord where
  temperature : Option Int
  stage : Nat
  trip : Bool
  forced : Bool
  dwell : Option Stamp
deriving DecidableEq, Repr

/-- The thermal unit. timer is the stamp of the next round, none while the sample timer is stopped. -/
structure Thu where
  sensors : PerSensor SensorRecord
  zones : PerZone ZoneRecord
  timer : Option Stamp
  params : ThermalSection
deriving DecidableEq, Repr

/-! ### Overload unit -/

/-- The overload unit (section 7.1). inRun is set once it has taken the entry to RUN; early holds the droop edges that come
in RUN before it has, oldest first (R122; log 10); a timer is none while STOPPED. -/
structure Ovu where
  inRun : Bool
  level : OverloadLevel
  droopHeld : Bool
  hold : Option Stamp
  reStrike : Option Stamp
  release : Option Stamp
  lock : Option Stamp
  history : List Stamp
  chronic : Bool
  params : OverloadSection
  early : List LineEdge
deriving DecidableEq, Repr

/-! ### Policy store -/

/-- cmax, k and group of one chain, held for delivery (R141, R147). -/
structure ChainParams where
  cmax : Code
  k : Nat
  group : Group
deriving DecidableEq, Repr

/-- The policy store. The valid entries of the scenario table are the entries of the list, 0 up (R135). -/
structure Pst where
  table : List ScenarioRecord
  active : Nat
  pendingIndex : Option Nat
  limits : PerGroup GroupLimits
  weights : PerChain Nat
  caps : PerChain Cap
  owners : PerChain Owner
  aMax : PerGroup Code
  chainParams : PerChain ChainParams
  chainZone : PerChain Zone
deriving DecidableEq, Repr

/-! ### Event router -/

/-- A class that stands in a pending set: its mask and coalesce count (R165). -/
structure PendingEntry where
  mask : Mask
  count : Count8
deriving DecidableEq, Repr

/-- A pending set: every class stands in it at most once. -/
abbrev PendingSet := PerClass (Option PendingEntry)

/-- The event router: routing table (bit 0 A, 1 B, 2 C, 3 OWN), pending sets, interrupt lines. -/
structure Evr where
  routes : PerClass Mask
  sets : PerPort PendingSet
  irq : PerPort Bool
deriving DecidableEq, Repr

/-! ### Profile loader -/

/-- The loader states of R169. -/
inductive PldState
  | startup | idle | reloading | staged | transfer
deriving DecidableEq, Repr

/-- The result of one section (R172 to R174). -/
inductive SectionResult
  | loaded | rom | rejected | absent
deriving DecidableEq, Repr

/-- A result record (R174). -/
structure LoadResult where
  noImage : Bool
  limits : SectionResult
  scenarios : SectionResult
  thermal : SectionResult
  overload : SectionResult
  routing : SectionResult
  tHeld : Bool
deriving DecidableEq, Repr

/-- The accepted sections of an image (R173): a section not accepted is none. -/
structure Sections where
  limits : Option LimitsSection
  scenarios : Option (List ScenarioRecord)
  thermal : Option ThermalSection
  overload : Option OverloadSection
  routing : Option (PerClass Mask)
deriving DecidableEq, Repr

/-- A transfer in flight: the request, whether it is guarded, and the port whose slot is PENDING (R176, R177). -/
structure Transfer where
  request : XferRequest
  guarded : Bool
  port : Port
deriving DecidableEq, Repr

/-- The profile loader with the flash port. startupResult is none until the reading of the start-up load has ended; from
then on the PLD waits in STARTUP until what the load delivered has been taken (log 36). busOut holds the bytes shifted out on the flash port in the last ended
operation, one list per select period. -/
structure Pld where
  state : PldState
  startupResult : Option LoadResult
  staged : Option Sections
  tMs : Nat
  protectedEnd : Nat
  guardedList : List Byte
  transfer : Option Transfer
  loadPort : Option Port
  flashSelectLow : Bool
  busOut : List (List Byte)
deriving DecidableEq, Repr

/-- The whole part. notices holds what the units have sent each other and not yet taken, oldest first; pending is the
queue of commands that wait. -/
structure State where
  timeBase : Stamp
  pins : Pins
  ports : PerPort Cpi
  bau : Bau
  ewu : Ewu
  clu : Clu
  thu : Thu
  ovu : Ovu
  pst : Pst
  evr : Evr
  pld : Pld
  notices : List Instr
  pending : List Instr
deriving DecidableEq, Repr

/-! ### The values after a device reset -/

/-- A port after a device reset (R161); its select line stands as it is and a low one must first be seen high (R148). -/
def Cpi.reset (selectLow : Bool) : Cpi where
  selectLow := selectLow
  waitHigh := selectLow
  frame := none
  rxBuffer := []
  shiftedOut := []
  slot := .empty
  truncated := 0
  dropped := 0

/-- A chain's share of the BAU after a device reset (R38, R100). -/
def BauChain.reset : BauChain where
  queue := []
  pulse := none
  accumulator := 0
  strikes := 0
  announcedInEpoch := false
  pulsedInEpoch := false
  heldCeiling := .off
  heldInhibit := true
  grace := none
  enforced := false
  counters := { overshoots := 0, unannounced := 0, stale := 0, enforcements := 0, flushed := 0 }
  power := { cmax := 200, k := 0 }

/-- The BAU after a device reset (R38, R100). -/
def Bau.reset : Bau where
  inRun := false
  shared := { epoch := 0, staleMs := 20, graceMs := 2, threshold := 4 }
  chains := Rom.everyChain BauChain.reset
  closeNotice := none
  closeAnswer := none
  held := []
  early := []

/-- A group's share of the EWU after a device reset (R61, R57; log 29). -/
def EwuGroup.reset : EwuGroup where
  ring := []
  limits := { avg := 0, floor := 0, window := 0 }
  figures := { sWin := 0, xWin := 0, xMax := 0, eAllow := 0, power := 0 }

/-- The EWU after a device reset (R61). R61 gives no value for T, the precharge setting and the map, which stand at their
ROM values, nor for the scenario in force and the closing index, which stand at 0 (log 29). -/
def Ewu.reset : Ewu where
  state := .stopped
  timer := none
  epochIndex := 0
  closing := 0
  params := { tMs := Rom.limits.tMs, precharge := Rom.limits.precharge, map := Rom.chainGroups }
  scenario := 0
  groups := ⟨EwuGroup.reset, EwuGroup.reset⟩
  report := none
  answer := none
  startupAnswer := none
  heldEntry := none

/-- A chain's share of the CLU after a device reset (R83). -/
def CluChain.reset (i : Chain) : CluChain where
  active := false
  activitySinceClose := false
  enforcedEpoch := none
  weight := 8
  cap := .uncapped
  profile := { cmax := 200, k := 0, group := Rom.chainGroups.get i, zone := Rom.chainZones.get i }
  entry :=
    { final := .off
      binding := { exposure := true, thermal := false, overload := false, cap := false, cmax := false, inhibit := true }
      causes := { loading := true, enforce := false, trip := false, lock := false }
      inhibit := true }

/-- The CLU after a device reset (R83). -/
def Clu.reset : Clu where
  chains := PerChain.build CluChain.reset
  power := ⟨0, 0⟩
  zones := PerZone.build fun _ => { stage := 0, backoff := 0, trip := false }
  level := .level 0
  oStep := 12
  loading := true
  generation := 0
  epoch := 0
  heldSets := []

/-- The THU after a device reset (R121). -/
def Thu.reset : Thu where
  sensors := PerSensor.build fun _ => { state := .ok, lastRaw := none, temperature := none, faultRun := 0, goodRun := 0 }
  zones := PerZone.build fun _ => { temperature := none, stage := 0, trip := false, forced := false, dwell := none }
  timer := none
  params := Rom.thermal

/-- The OVU after a device reset (R134). -/
def Ovu.reset : Ovu where
  inRun := false
  level := .level 0
  droopHeld := false
  hold := none
  reStrike := none
  release := none
  lock := none
  history := []
  chronic := false
  params := Rom.overload
  early := []

/-- The PST after a device reset (R147). -/
def Pst.reset : Pst where
  table := [Rom.scenario]
  active := 0
  pendingIndex := none
  limits := ⟨Rom.groupLimits, Rom.groupLimits⟩
  weights := Rom.everyChain 8
  caps := Rom.everyChain .uncapped
  owners := Rom.owners
  aMax := ⟨160, 160⟩
  chainParams := PerChain.build fun i => { cmax := 200, k := 0, group := Rom.chainGroups.get i }
  chainZone := Rom.chainZones

/-- The empty pending set. -/
def PendingSet.empty : PendingSet := PerClass.build fun _ => none

/-- The EVR after a device reset (R168). -/
def Evr.reset : Evr where
  routes := Rom.routing
  sets := PerPort.build fun _ => PendingSet.empty
  irq := PerPort.build fun _ => false

/-- The PLD after a device reset (R169). -/
def Pld.reset : Pld where
  state := .startup
  startupResult := none
  staged := none
  tMs := Rom.limits.tMs
  protectedEnd := Rom.limits.protectedEnd
  guardedList := Rom.limits.guarded
  transfer := none
  loadPort := none
  flashSelectLow := false
  busOut := []

/-- The part right after reset. Every input line stands low and every select line high (log 8). -/
def State.reset : State where
  timeBase := 0
  pins := { txen := Rom.everyChain false, droop := false, strap := false }
  ports := PerPort.build fun _ => Cpi.reset false
  bau := Bau.reset
  ewu := Ewu.reset
  clu := Clu.reset
  thu := Thu.reset
  ovu := Ovu.reset
  pst := Pst.reset
  evr := Evr.reset
  pld := Pld.reset
  notices := []
  pending := []

end Sys2Proof.Machine
end

