-- ==== Sys2Proof/Machine/Ops.lean ====
section
/-! DEFINITION. The shared operations: time and counters, effects of a unit with the notices it sends, answers, and the
device reset (the one operation every unit's reset values come from). -/

namespace Sys2Proof.Machine

/-! ### Time (R7) -/

/-- The stamp a number of microseconds after another. -/
def afterUs (t : Stamp) (us : Nat) : Stamp := t + BitVec.ofNat 32 us

/-- The stamp a number of milliseconds after another. -/
def afterMs (t : Stamp) (ms : Nat) : Stamp := afterUs t (ms * 1000)

/-- The duration from the earlier stamp to the later, modulo 2^32 (R7). -/
def elapsed (earlier later : Stamp) : Nat := (later - earlier).toNat

/-- The time base has reached a deadline: it stands at it or less than half a turn beyond it (log 3). -/
def reached (now deadline : Stamp) : Bool := decide (elapsed deadline now < 2147483648)

/-- A running timer whose deadline has been reached; none while it is stopped or not yet due. -/
def dueTimer (now : Stamp) : Option Stamp → Option Stamp
  | none => none
  | some d => if reached now d then some d else none

/-- The epoch index that follows another: after the greatest comes 1 (R40). -/
def nextEpoch (e : EpochIndex) : EpochIndex := if e = BitVec.allOnes 32 then 1 else e + 1

/-! ### Saturating counts (R36, R96, R160, R165) -/

def satInc16 (n : Count16) : Count16 := if n = BitVec.allOnes 16 then n else n + 1
def satInc8 (n : Count8) : Count8 := if n = BitVec.allOnes 8 then n else n + 1
/-- A 16-bit counter raised by k, staying at its greatest value. -/
def satAdd16 (n : Count16) (k : Nat) : Count16 := BitVec.ofNat 16 (min 65535 (n.toNat + k))

/-! ### A unit's effect: its new state and the notices it sends, in order -/

structure Eff (α : Type) where
  val : α
  out : List Instr
deriving DecidableEq, Repr

namespace Eff
variable {α β : Type}

def pure (a : α) : Eff α := ⟨a, []⟩

def andThen (e : Eff α) (f : α → Eff β) : Eff β := ⟨(f e.val).val, e.out ++ (f e.val).out⟩

def map (e : Eff α) (f : α → β) : Eff β := ⟨f e.val, e.out⟩

/-- Sends notices before the rest of the effect. -/
def sendFirst (ms : List Instr) (e : Eff α) : Eff α := ⟨e.val, ms ++ e.out⟩

end Eff

/-- Every chain's effect, the notices in chain order. -/
def runChains {α : Type} (f : Chain → Eff α) : Eff (PerChain α) :=
  ⟨PerChain.build fun i => (f i).val, (f .tx0).out ++ (f .tx1).out ++ (f .tx2).out ++ (f .tx3).out⟩

/-! ### Masks and raises (R163) -/

def chainIndex : Chain → Nat
  | .tx0 => 0
  | .tx1 => 1
  | .tx2 => 2
  | .tx3 => 3

def portIndex : Port → Nat
  | .portA => 0
  | .portB => 1
  | .portC => 2

/-- The mask of the chains that satisfy a test: bit i for TX i (R166). -/
def chainMask (f : Chain → Bool) : Mask :=
  (BitVec.ofBool (f .tx3)) ++ (BitVec.ofBool (f .tx2)) ++ (BitVec.ofBool (f .tx1)) ++ (BitVec.ofBool (f .tx0))

/-- The mask of one chain. -/
def oneChain (i : Chain) : Mask := chainMask fun j => decide (j = i)

/-- The mask of one port: bit 0 A, 1 B, 2 C (R166). -/
def onePort (p : Port) : Mask := 1#4 <<< (portIndex p)

/-- The notice of a raise that names one chain. -/
def raiseChain (k : EventClass) (i : Chain) : Instr := .eventRaise { cls := k, mask := oneChain i }

/-- The notice of a raise with no mask. -/
def raiseBare (k : EventClass) : Instr := .eventRaise { cls := k, mask := 0 }

/-! ### Sending and taking notices -/

/-- Sends notices: they stand under way, in the order sent, until they are taken (log 2). -/
def State.send (s : State) (ms : List Instr) : State := { s with notices := s.notices ++ ms }

/-- A notice is taken: its oldest copy under way, if there is one, is under way no more (log 2). -/
def State.takeNotice (s : State) (m : Instr) : State := { s with notices := s.notices.erase m }

/-! ### Notices whose order a rule states -/

/-- The runs of notices that reach their receiver in the order sent: ceiling changes (R37), enforcement set and clear
requests (R78), stage and trip notices (R115), level and lock notices (R131), the policy store's deliveries to the ceiling
unit (R139), and the raises of each raising block, the three ports apart (R163, 00_scope.md 0.3.1). -/
inductive Lane
  | ceilings | enforcement | stages | levels | policy
  | bauRaises | cluRaises | thuRaises | ovuRaises | pstRaises | pldRaises | portRaises (port : Mask)
deriving DecidableEq, Repr

/-- The lane of a raise: that of the block that raises its class (R163). -/
def raiseLane (r : Raise) : Lane :=
  match r.cls with
  | .ceiling => .cluRaises
  | .overshoot => .bauRaises
  | .enforce => .bauRaises
  | .unannounced => .bauRaises
  | .stale => .bauRaises
  | .thermal => .thuRaises
  | .trip => .thuRaises
  | .sensor => .thuRaises
  | .overload => .ovuRaises
  | .scenario => .pstRaises
  | .profile => .pldRaises
  | .port => .portRaises r.mask

/-- The lane of a notice, none where no rule orders it. The ROUTING delivery of the start-up load comes before the PROFILE
raise of the same load (R172); one sent at a close stands in no lane. -/
def laneOf (loading : Bool) : Instr → Option Lane
  | .ceilingChangeNotice _ => some .ceilings
  | .enforcementSetRequest _ _ => some .enforcement
  | .enforcementClearRequest _ _ => some .enforcement
  | .stageTripNotice _ => some .stages
  | .levelLockNotice _ _ => some .levels
  | .profileDelivery _ => some .policy
  | .scenarioDelivery _ _ => some .policy
  | .capDelivery _ _ => some .policy
  | .eventRaise r => some (raiseLane r)
  | .routingDelivery _ => if loading then some .pldRaises else none
  | _ => none

def State.runBau (f : Bau → Eff Bau) (s : State) : State :=
  { s with bau := (f s.bau).val, notices := s.notices ++ (f s.bau).out }

def State.runEwu (f : Ewu → Eff Ewu) (s : State) : State :=
  { s with ewu := (f s.ewu).val, notices := s.notices ++ (f s.ewu).out }

def State.runClu (f : Clu → Eff Clu) (s : State) : State :=
  { s with clu := (f s.clu).val, notices := s.notices ++ (f s.clu).out }

def State.runThu (f : Thu → Eff Thu) (s : State) : State :=
  { s with thu := (f s.thu).val, notices := s.notices ++ (f s.thu).out }

def State.runOvu (f : Ovu → Eff Ovu) (s : State) : State :=
  { s with ovu := (f s.ovu).val, notices := s.notices ++ (f s.ovu).out }

def State.runPst (f : Pst → Eff Pst) (s : State) : State :=
  { s with pst := (f s.pst).val, notices := s.notices ++ (f s.pst).out }

def State.runPld (f : Pld → Eff Pld) (s : State) : State :=
  { s with pld := (f s.pld).val, notices := s.notices ++ (f s.pld).out }

def State.setEvr (s : State) (e : Evr) : State := { s with evr := e }

def State.setPins (s : State) (x : Pins) : State := { s with pins := x }

/-- One port replaced. -/
def State.setPort (s : State) (p : Port) (c : Cpi) : State := { s with ports := s.ports.set p c }

/-- The slot of a port replaced. -/
def State.setSlot (s : State) (p : Port) (x : Slot) : State := s.setPort p { s.ports.get p with slot := x }

/-- A response fills the slot of a port (R152). -/
def State.answer (s : State) (p : Port) (status : Status) (kind : Byte) (payload : List Byte) : State :=
  s.setSlot p (.ready { status := status, kind := kind, payload := payload })

/-! ### The device -/

/-- The device is in LOADING while the PLD is in STARTUP (R169). -/
def State.isLoading (s : State) : Bool := decide (s.pld.state = .startup)

/-- The oldest notice under way in a lane. -/
def State.frontOf (s : State) (l : Lane) : Option Instr := s.notices.find? fun n => decide (laneOf s.isLoading n = some l)

/-- A notice may be taken now: no notice of its lane is under way before it (R37, R78, R115, R131, R139, R163, R172). -/
def State.inOrder (s : State) (c : Instr) : Bool :=
  match laneOf s.isLoading c with
  | none => true
  | some l =>
    match s.frontOf l with
    | none => true
    | some m => decide (m = c)

/-- A unit takes a notice that a rule orders: in its order it is under way no more and has its effect; out of its order
it cannot come yet and changes nothing (log 2, log 4). -/
def State.taking (c : Instr) (f : State → State) (s : State) : State := if s.inOrder c then f (s.takeNotice c) else s

/-! ### Edges that come before a unit has taken the entry to RUN (R24, R122; log 10) -/

/-- The level of a line before these edges of it, where it stands now at a level. -/
def levelBefore (edges : List LineEdge) (now : Bool) : Bool :=
  match edges with
  | [] => now
  | e :: _ => !e.rising

/-- The edges of one chain's line. -/
def edgesOf (i : Chain) (edges : List (Chain × LineEdge)) : List LineEdge :=
  (edges.filter fun e => decide (e.1 = i)).map Prod.snd

/-! ### The entry to RUN (R172) -/

/-- A delivery of the start-up load, or what a unit sends the ceiling unit on taking one: each is taken before the entry
to RUN (R83, R119, R132, R146, R167, R172). -/
def isStartupDelivery : Instr → Bool
  | .thermalDelivery _ => true
  | .overloadDelivery _ => true
  | .pstStartupDelivery _ => true
  | .bauLimitsDelivery _ => true
  | .ewuLimitsDelivery _ => true
  | .routingDelivery _ => true
  | .profileDelivery _ => true
  | .scenarioDelivery _ _ => true
  | .stageTripNotice _ => true
  | .levelLockNotice _ _ => true
  | _ => false

/-- The start-up load has ended and everything it delivered has been taken. -/
def State.startupDelivered (s : State) : Bool :=
  decide (s.pld.state = .startup) && s.pld.startupResult.isSome && !s.notices.any isStartupDelivery

/-- The reports of the entry to RUN, with the stamp of the entry (R172). -/
def entryReports (t : Stamp) : List Instr :=
  [.bauEntryToRun t, .ewuEntryToRun t, .cluEntryToRun, .thuEntryToRun t, .ovuEntryToRun t]

/-- Once the start-up load has ended and everything it delivered has been taken, the PLD reports the entry to RUN and goes
to IDLE, in the step that takes the last delivery (R172, R169; log 36). -/
def State.enterRunWhenDelivered (s : State) : State :=
  if s.startupDelivered then ({ s with pld := { s.pld with state := .idle } }).send (entryReports s.timeBase) else s

/-- The owner a port stands for; port C owns no chain (R144). -/
def portOwner : Port → Option Owner
  | .portA => some .ownerA
  | .portB => some .ownerB
  | .portC => none

/-- A port owns a chain (section 8.6). -/
def State.owns (s : State) (p : Port) (i : Chain) : Bool := decide (portOwner p = some (s.pst.owners.get i))

/-- The device reset: every unit takes its reset values, the time base restarts, and what was under way is lost
(R169, R148, R161, R38, R61, R83, R121, R134, R147, R168; log 9). The lines into the part and the commands that wait
are outside the part and stand. -/
def State.deviceReset (s : State) : State :=
  { State.reset with
    pins := s.pins
    ports := PerPort.build fun p => Cpi.reset (s.ports.get p).selectLow
    pending := s.pending }

end Sys2Proof.Machine
end

