-- ==== Sys2Proof/Machine/Operands.lean ====
section
/-! DEFINITION. The wire forms: request kinds and payloads, response headers and the layouts of section 9.10, and the
values a byte may carry (R153 to R156, R162, R166, R174). -/

namespace Sys2Proof.Machine

/-! ### Bytes, least significant first (section 0.5.5) -/

/-- A number in n bytes, least significant first. -/
def le : Nat → Nat → List Byte
  | 0, _ => []
  | n + 1, v => BitVec.ofNat 8 v :: le n (v / 256)

/-- The byte at a place, 0 where there is none. -/
def byteAt (b : List Byte) (n : Nat) : Byte := b.getD n 0

/-- The number of one byte. -/
def u8 (b : List Byte) (n : Nat) : Nat := (byteAt b n).toNat

/-- The number of two bytes, least significant first. -/
def u16 (b : List Byte) (n : Nat) : Nat := u8 b n + 256 * u8 b (n + 1)

/-- The number of three bytes, least significant first. -/
def u24 (b : List Byte) (n : Nat) : Nat := u8 b n + 256 * u8 b (n + 1) + 65536 * u8 b (n + 2)

/-- The number of two bytes, least significant first, in two's complement. -/
def s16 (b : List Byte) (n : Nat) : Int := (BitVec.ofNat 16 (u16 b n)).toInt

/-- A signed number in two bytes of two's complement, least significant first. -/
def leSigned16 (v : Int) : List Byte := le 2 (BitVec.ofInt 16 v).toNat

def boolByte (b : Bool) : Byte := if b then 1 else 0

/-- A byte of flags, bit 0 first. -/
def bitsByte : List Bool → Nat
  | [] => 0
  | b :: bs => (if b then 1 else 0) + 2 * bitsByte bs

def flagByte (bs : List Bool) : Byte := BitVec.ofNat 8 (bitsByte bs)

/-! ### Indexes and values carried in bytes -/

def chainOfByte (b : Byte) : Option Chain :=
  match b.toNat with
  | 0 => some .tx0
  | 1 => some .tx1
  | 2 => some .tx2
  | 3 => some .tx3
  | _ => none

def groupOfByte (b : Byte) : Option Group :=
  match b.toNat with
  | 0 => some .g0
  | 1 => some .g1
  | _ => none

def ownerOfByte (b : Byte) : Option Owner :=
  match b.toNat with
  | 0 => some .noOwner
  | 1 => some .ownerA
  | 2 => some .ownerB
  | _ => none

def classOfByte (b : Byte) : Option EventClass := EventClass.all[b.toNat]?

/-- A received cap value: form 0 a code, 1 OFF, 2 NONE, anything above none of the three (R162). -/
def capOfWire (w : WireCeiling) : Option Cap :=
  match w.form.toNat with
  | 0 => some (.code w.code)
  | 1 => some .off
  | 2 => some .uncapped
  | _ => none

def ceilingBytes : Ceiling → List Byte
  | .code c => [0, c]
  | .off => [1, 0]

def capBytes : Cap → List Byte
  | .code c => [0, c]
  | .off => [1, 0]
  | .uncapped => [2, 0]

def ownerByte : Owner → Byte
  | .noOwner => 0
  | .ownerA => 1
  | .ownerB => 2

def zoneByte : Zone → Byte
  | .z0 => 0
  | .z1 => 1
  | .z2 => 2

def sensorByte : SensorState → Byte
  | .ok => 0
  | .suspect => 1
  | .fault => 2

def levelByte : OverloadLevel → Byte
  | .level n => BitVec.ofNat 8 n
  | .lock => 5

def resultByte : SectionResult → Byte
  | .loaded => 0
  | .rom => 1
  | .rejected => 2
  | .absent => 3

/-- The status values of R153. -/
def statusByte : Status → Byte
  | .ok => 0x00
  | .none => 0x01
  | .pending => 0x02
  | .busy => 0x10
  | .denied => 0x11
  | .notOwner => 0x12
  | .badRequest => 0x13
  | .badLength => 0x14
  | .badValue => 0x15
  | .queueFull => 0x16
  | .noPulse => 0x17
  | .isProtected => 0x18
  | .aborted => 0x19

/-! ### What a port shifts out (R149) -/

/-- A response as it is shifted out: status, kind, payload length, payload. -/
def responseBytes (r : Response) : List Byte :=
  [statusByte r.status, r.kind, BitVec.ofNat 8 r.payload.length] ++ r.payload

/-- What the slot gives a frame that starts: the response, a NONE header or a PENDING header (R149). -/
def slotBytes : Slot → List Byte
  | .empty => [statusByte .none, 0, 0]
  | .pending kind => [statusByte .pending, kind, 0]
  | .ready r => responseBytes r

/-- The byte shifted out at a place of the current frame: the response or header, then the fill byte 0xFF (R149). -/
def Cpi.byteOut (c : Cpi) (n : Nat) : Byte := c.shiftedOut.getD n 0xFF

/-! ### Requests (R154) -/

/-- The request kinds of R154. -/
inductive Kind
  | announce | readCeilings | readStatus | readHistory | readThermal | readEvents | ackEvents | poll | portReset
  | selectScenario | setCap | setOwner | setRoute | loadProfile | flashXfer | deviceReset
deriving DecidableEq, Repr

/-- The kind values of R154. -/
def Kind.value : Kind → Byte
  | .announce => 0x01
  | .readCeilings => 0x02
  | .readStatus => 0x03
  | .readHistory => 0x04
  | .readThermal => 0x05
  | .readEvents => 0x06
  | .ackEvents => 0x07
  | .poll => 0x08
  | .portReset => 0x09
  | .selectScenario => 0x10
  | .setCap => 0x11
  | .setOwner => 0x12
  | .setRoute => 0x13
  | .loadProfile => 0x18
  | .flashXfer => 0x19
  | .deviceReset => 0x1F

def Kind.all : List Kind :=
  [.announce, .readCeilings, .readStatus, .readHistory, .readThermal, .readEvents, .ackEvents, .poll, .portReset,
    .selectScenario, .setCap, .setOwner, .setRoute, .loadProfile, .flashXfer, .deviceReset]

/-- The kind a byte names, none when it is a kind of no row (R155). -/
def kindOfByte (b : Byte) : Option Kind := Kind.all.find? fun k => decide (k.value = b)

/-- The ports a kind is permitted on (R154). -/
def Kind.permitted : Kind → Port → Bool
  | .announce, .portC => false
  | .announce, _ => true
  | .selectScenario, p => decide (p = .portC)
  | .setCap, p => decide (p = .portC)
  | .setOwner, p => decide (p = .portC)
  | .setRoute, p => decide (p = .portC)
  | .loadProfile, p => decide (p = .portC)
  | .flashXfer, p => decide (p = .portC)
  | .deviceReset, p => decide (p = .portC)
  | _, _ => true

/-- The fixed payload lengths of R154; FLASH_XFER has its own test. -/
def Kind.fixedLength : Kind → Nat
  | .announce => 5
  | .readStatus => 1
  | .readHistory => 4
  | .ackEvents => 2
  | .selectScenario => 1
  | .setCap => 3
  | .setOwner => 2
  | .setRoute => 2
  | .flashXfer => 8
  | _ => 0

/-- The length of a FLASH_XFER is right: its count is at most 24, and it is 8, with the count added when the direction is
OUT (R154, R176). -/
def xferLengthOk (declared : Nat) (direction count : Byte) : Bool :=
  decide (count.toNat ≤ Config.longestTransfer) &&
    decide (declared = if direction = 1 then 8 + count.toNat else 8)

/-- Check 3 of R151: the declared length is the one the kind requires. -/
def lengthOk (k : Kind) (declared : Nat) (payload : List Byte) : Bool :=
  match k with
  | .flashXfer => decide (8 ≤ declared) && xferLengthOk declared (byteAt payload 6) (byteAt payload 7)
  | k => decide (declared = k.fixedLength)

/-- A request with its fields, as a port delivers it (R154). -/
inductive Request
  | announce (chain : Byte) (kind : Byte) (code : Code) (maxDuration : BitVec 16)
  | readCeilings
  | readStatus (page : Byte)
  | readHistory (group : Byte) (offset : BitVec 16) (count : Byte)
  | readThermal
  | readEvents
  | ackEvents (classes : BitVec 16)
  | poll
  | portReset
  | selectScenario (index : Byte)
  | setCap (chain : Byte) (value : WireCeiling)
  | setOwner (chain : Byte) (owner : Byte)
  | setRoute (cls : Byte) (destinations : Byte)
  | loadProfile
  | flashXfer (x : XferRequest)
  | deviceReset
deriving DecidableEq, Repr

def Request.kind : Request → Kind
  | .announce _ _ _ _ => .announce
  | .readCeilings => .readCeilings
  | .readStatus _ => .readStatus
  | .readHistory _ _ _ => .readHistory
  | .readThermal => .readThermal
  | .readEvents => .readEvents
  | .ackEvents _ => .ackEvents
  | .poll => .poll
  | .portReset => .portReset
  | .selectScenario _ => .selectScenario
  | .setCap _ _ => .setCap
  | .setOwner _ _ => .setOwner
  | .setRoute _ _ => .setRoute
  | .loadProfile => .loadProfile
  | .flashXfer _ => .flashXfer
  | .deviceReset => .deviceReset

/-- The fields of a payload of the right length, in the order of R154. -/
def parsePayload (k : Kind) (b : List Byte) : Request :=
  match k with
  | .announce => .announce (byteAt b 0) (byteAt b 1) (byteAt b 2) (BitVec.ofNat 16 (u16 b 3))
  | .readCeilings => .readCeilings
  | .readStatus => .readStatus (byteAt b 0)
  | .readHistory => .readHistory (byteAt b 0) (BitVec.ofNat 16 (u16 b 1)) (byteAt b 3)
  | .readThermal => .readThermal
  | .readEvents => .readEvents
  | .ackEvents => .ackEvents (BitVec.ofNat 16 (u16 b 0))
  | .poll => .poll
  | .portReset => .portReset
  | .selectScenario => .selectScenario (byteAt b 0)
  | .setCap => .setCap (byteAt b 0) { form := byteAt b 1, code := byteAt b 2 }
  | .setOwner => .setOwner (byteAt b 0) (byteAt b 1)
  | .setRoute => .setRoute (byteAt b 0) (byteAt b 1)
  | .loadProfile => .loadProfile
  | .flashXfer =>
    .flashXfer
      { command := byteAt b 0
        addressMode := byteAt b 1
        address := BitVec.ofNat 24 (u24 b 2)
        dummy := byteAt b 5
        direction := byteAt b 6
        count := byteAt b 7
        data := b.drop 8 }
  | .deviceReset => .deviceReset

/-! ### Payloads of the answers (section 9.10, R155, R156, R174) -/

/-- A history record in 11 bytes. -/
def recordBytes (r : EpochRecord) : List Byte :=
  le 4 r.epochIndex.toNat ++ le 5 r.energy.toNat ++
    [BitVec.ofNat 8 ((if r.assumed then 1 else 0) + 2 * (r.scenario % 8)), r.strikes]

/-- One chain of the ceiling report, 5 bytes. -/
def entryBytes (c : CluChain) : List Byte :=
  ceilingBytes c.entry.final ++
    [flagByte [c.entry.binding.exposure, c.entry.binding.thermal, c.entry.binding.overload, c.entry.binding.cap,
        c.entry.binding.cmax, c.entry.binding.inhibit],
      flagByte [c.entry.inhibit, c.entry.causes.loading, c.entry.causes.enforce, c.entry.causes.trip,
        c.entry.causes.lock],
      boolByte c.active]

/-- The device state byte: 0 LOADING, 1 RUN. It is the state of the PLD (R169), in the answers of READ_CEILINGS and
READ_THERMAL too: between the entry to RUN and the ceiling unit's or the THU's own taking of it they say RUN, beside the
LOADING causes that still stand (R81, R120; the model's choice: log 44). -/
def State.deviceByte (s : State) : Byte := boolByte (!s.isLoading)

/-- The ceiling report of section 9.10, 22 bytes (R81; the device state: log 44). -/
def ceilingReport (s : State) : List Byte :=
  [s.deviceByte, s.clu.generation] ++ entryBytes s.clu.chains.tx0 ++ entryBytes s.clu.chains.tx1 ++
    entryBytes s.clu.chains.tx2 ++ entryBytes s.clu.chains.tx3

/-- The DEVICE page of R156, 32 bytes. -/
def devicePage (s : State) : List Byte :=
  [s.deviceByte] ++ le 4 s.ewu.epochIndex.toNat ++
    [BitVec.ofNat 8 s.pst.active, (match s.pst.pendingIndex with | some j => BitVec.ofNat 8 j | none => 0xFF),
      flagByte ((List.range 8).map fun j => decide (j < s.pst.table.length)),
      s.pst.limits.g0.avg, s.pst.limits.g1.avg, s.pst.limits.g0.floor, s.pst.limits.g1.floor] ++
    le 2 s.pst.limits.g0.window ++ le 2 s.pst.limits.g1.window ++
    capBytes s.pst.caps.tx0 ++ capBytes s.pst.caps.tx1 ++ capBytes s.pst.caps.tx2 ++ capBytes s.pst.caps.tx3 ++
    s.pst.owners.toList.map ownerByte ++
    [levelByte s.ovu.level, boolByte s.ovu.droopHeld, boolByte s.ovu.chronic, BitVec.ofNat 8 s.ovu.history.length]

/-- A GROUP page of R156, 38 bytes. -/
def groupPage (s : State) (g : Group) : List Byte :=
  let w := s.ewu.groups.get g
  le 4 s.ewu.epochIndex.toNat ++ le 6 w.figures.sWin.toNat ++ le 6 w.figures.xWin.toNat ++
    le 6 w.figures.xMax.toNat ++ le 6 w.figures.eAllow.toNat ++ le 6 w.figures.power.toNat ++ le 2 w.limits.window ++ le 2 w.ring.length

/-- One chain of the CHAINS page, 11 bytes. -/
def chainCounters (c : BauChain) : List Byte :=
  [BitVec.ofNat 8 c.queue.length] ++ le 2 c.counters.overshoots.toNat ++ le 2 c.counters.unannounced.toNat ++
    le 2 c.counters.stale.toNat ++ le 2 c.counters.enforcements.toNat ++ le 2 c.counters.flushed.toNat

/-- The CHAINS page of R156, 44 bytes. -/
def chainsPage (s : State) : List Byte :=
  chainCounters s.bau.chains.tx0 ++ chainCounters s.bau.chains.tx1 ++ chainCounters s.bau.chains.tx2 ++
    chainCounters s.bau.chains.tx3

/-- The PORTS page of R156, 12 bytes. -/
def portsPage (s : State) : List Byte :=
  let one (c : Cpi) : List Byte := le 2 c.truncated.toNat ++ le 2 c.dropped.toNat
  one s.ports.portA ++ one s.ports.portB ++ one s.ports.portC

/-- The page a READ_STATUS names, none above 4 (R156). -/
def statusPage (s : State) (page : Byte) : Option (List Byte) :=
  match page.toNat with
  | 0 => some (devicePage s)
  | 1 => some (groupPage s .g0)
  | 2 => some (groupPage s .g1)
  | 3 => some (chainsPage s)
  | 4 => some (portsPage s)
  | _ => none

/-- The records a READ_HISTORY returns: newest first from the offset, at most three (R58, R59). -/
def historyRecords (ring : List EpochRecord) (offset count : Nat) : List EpochRecord :=
  (ring.reverse.drop offset).take (min count Config.historyReadLimit)

/-- The history response of section 9.10. -/
def historyPayload (group : Byte) (ring : List EpochRecord) (records : List EpochRecord) : List Byte :=
  [group] ++ le 2 ring.length ++ [BitVec.ofNat 8 records.length] ++ records.flatMap recordBytes

def optionTemp : Option Int → List Byte
  | some t => leSigned16 t
  | none => leSigned16 (-32768)

def sensorBytes (r : SensorRecord) : List Byte :=
  [sensorByte r.state] ++ le 2 (match r.lastRaw with | some v => v.toNat | none => 65535) ++ optionTemp r.temperature

def zoneBytes (z : ZoneRecord) : List Byte :=
  optionTemp z.temperature ++ [BitVec.ofNat 8 z.stage, flagByte [z.trip, z.forced, z.dwell.isSome]]

/-- The READ_THERMAL payload of R155, 37 bytes (R120; the device state: log 44). -/
def thermalPayload (s : State) : List Byte :=
  [s.deviceByte] ++ Sensor.all.flatMap (fun n => sensorBytes (s.thu.sensors.get n)) ++
    Zone.all.flatMap (fun z => zoneBytes (s.thu.zones.get z)) ++ s.thu.params.chainZone.toList.map zoneByte

/-- A result record of R174, 7 bytes. -/
def resultBytes (r : LoadResult) : List Byte :=
  [boolByte r.noImage, resultByte r.limits, resultByte r.scenarios, resultByte r.thermal, resultByte r.overload,
    resultByte r.routing, boolByte r.tHeld]

end Sys2Proof.Machine
end

