-- ==== Sys2Proof/Machine/Overshoot.lean ====
section
/-! DEFINITION. Judgement of one chain by the BAU: strikes, overshoot, overrun, grace (05_overshoot_and_enforcement.md).
Every function here acts on one chain and what it sends. -/

namespace Sys2Proof.Machine

def Counters.incOvershoots (n : Counters) : Counters := { n with overshoots := satInc16 n.overshoots }
def Counters.incUnannounced (n : Counters) : Counters := { n with unannounced := satInc16 n.unannounced }
def Counters.incStale (n : Counters) : Counters := { n with stale := satInc16 n.stale }
def Counters.incEnforcements (n : Counters) : Counters := { n with enforcements := satInc16 n.enforcements }
def Counters.addFlushed (k : Nat) (n : Counters) : Counters := { n with flushed := satAdd16 n.flushed k }

/-- A strike brings this chain to enforcement: the count reaches a threshold that is not 0 and the chain is not yet
enforced in the epoch (R97; log 19). -/
def enforces (sh : BauShared) (c : BauChain) : Bool :=
  decide (sh.threshold ≠ 0) && decide (c.strikes.toNat = sh.threshold) && !c.enforced

/-- The enforcement test of R97, made after the count has been raised. -/
def enforcementTest (sh : BauShared) (i : Chain) (c : BauChain) : Eff BauChain :=
  if enforces sh c then
    ⟨{ c with enforced := true, counters := c.counters.incEnforcements },
      [raiseChain .enforce i, .enforcementSetRequest i sh.epoch]⟩
  else Eff.pure c

/-- One strike on a chain, and then the enforcement test (R96, R97). -/
def strike (sh : BauShared) (i : Chain) (c : BauChain) : Eff BauChain :=
  enforcementTest sh i { c with strikes := satInc8 c.strikes }

/-- The overshoot mark of the current segment is set (R87). -/
def Pulse.mark (pl : Pulse) : Pulse := { pl with segment := { pl.segment with marked := true } }

/-- The current segment is an overshoot: mark, counter, raise, strike; a running grace timer does not continue (R87). -/
def overshoot (sh : BauShared) (i : Chain) (pl : Pulse) (c : BauChain) : Eff BauChain :=
  (strike sh i { c with pulse := some pl.mark, counters := c.counters.incOvershoots, grace := none }).sendFirst
    [raiseChain .overshoot i]

/-- A segment start is judged: not when the segment is inhibited, otherwise against the held ceiling (R86, R99). -/
def judgeStart (sh : BauShared) (i : Chain) (c : BauChain) : Eff BauChain :=
  match c.pulse with
  | none => Eff.pure c
  | some pl =>
    if pl.segment.inhibited then Eff.pure c
    else if exceeds pl.segment.code c.heldCeiling then overshoot sh i pl c
    else Eff.pure c

/-- A ceiling has fallen below the running, unmarked segment and the timer is stopped: the timer starts at the stamp, or
under a grace interval of 0 the segment is an overshoot at once (R91, R92). The interval is the one in force when the notice
is taken, also where its stamp lies before the boundary of a close already taken (the model's choice: log 40). -/
def graceStart (sh : BauShared) (i : Chain) (t : Stamp) (pl : Pulse) (c : BauChain) : Eff BauChain :=
  if sh.graceMs = 0 then overshoot sh i pl c
  else Eff.pure { c with grace := some (afterMs t sh.graceMs) }

/-- The table of R91: a notice that leaves the inhibit released, judged against the current segment. -/
def judgeDrop (sh : BauShared) (i : Chain) (t : Stamp) (pl : Pulse) (c : BauChain) : Eff BauChain :=
  if pl.segment.marked then Eff.pure c
  else if exceeds pl.segment.code c.heldCeiling then
    match c.grace with
    | some _ => Eff.pure c
    | none => graceStart sh i t pl c
  else Eff.pure { c with grace := none }

/-- The grace deadline expires at a stamp: taken only while the timer is RUNNING and its deadline has been reached; the
current segment is an overshoot and the timer stops (R93). Taken late, after a close, its strike is of the epoch then running
(the model's choice: log 45). -/
def graceExpiryOn (sh : BauShared) (i : Chain) (t : Stamp) (c : BauChain) : Eff BauChain :=
  match dueTimer t c.grace with
  | none => Eff.pure c
  | some _ =>
    match c.pulse with
    | none => Eff.pure { c with grace := none }
    | some pl => overshoot sh i pl { c with grace := none }

/-- The overrun deadline of a pulse not yet judged that has been reached (R89). -/
def overrunDue (t : Stamp) (pl : Pulse) : Bool := !pl.overrunMark && (dueTimer t pl.overrunDeadline).isSome

/-- The overrun deadline expires at a stamp: the pulse overruns, or under inhibit the deadline is only spent (R89).
Taken late, after a close, its strike is of the epoch then running (the model's choice: log 45). -/
def overrunExpiryOn (sh : BauShared) (i : Chain) (t : Stamp) (c : BauChain) : Eff BauChain :=
  match c.pulse with
  | none => Eff.pure c
  | some pl =>
    if overrunDue t pl then
      if pl.segment.inhibited then Eff.pure { c with pulse := some { pl with overrunMark := true } }
      else
        (strike sh i
            { c with pulse := some { pl with overrunMark := true }, counters := c.counters.incOvershoots }).sendFirst
          [raiseChain .overshoot i]
    else Eff.pure c

end Sys2Proof.Machine
end

