-- ==== Sys2Proof/Machine/Burst.lean ====
section
/-! DEFINITION. Transmit burst accounting (02_transmit_burst_accounting.md): queues, pulses, segments, the BAU's part of
the epoch close, and the meanings of the commands the BAU takes. -/

namespace Sys2Proof.Machine

/-! ### Segments (section 2.5) -/

/-- The duration of a segment that ends at a stamp (R7, R8). R7 gives a duration only from an earlier stamp to a later one;
an event held behind a close notice may carry a stamp before that of the segment it ends, where a NOW held before it was
stamped when taken (R29), and the duration is then 0 (log 33). -/
def segmentDuration (g : Segment) (t : Stamp) : Nat := if reached t g.start then elapsed g.start t else 0

/-- What a segment that ends at a stamp is charged: 0 when it is inhibited, E_seg otherwise (R26, R8), held at 32 bits
(R12; log 18). A segment whose end stamp lies before its start stamp is charged 0 (log 33). -/
def segmentCharge (g : Segment) (t : Stamp) : ChainEnergy :=
  if g.inhibited then 0 else BitVec.ofNat 32 (segmentEnergy g.code g.k (segmentDuration g t))

/-- A segment that begins at a stamp at a code, with the chain's k and the held inhibit state (R19). The k is the one in force
when the event is taken, also where the stamp lies before the boundary of a close already taken (the model's choice:
log 41). -/
def newSegment (c : BauChain) (code : Code) (t : Stamp) : Segment :=
  { code := code, start := t, k := c.power.k, inhibited := c.heldInhibit, marked := false }

/-- The current segment ends at a stamp and is charged, and a new one begins there at a code (R25, R26). -/
def cutSegment (pl : Pulse) (code : Code) (t : Stamp) (c : BauChain) : BauChain :=
  { c with
    accumulator := c.accumulator + segmentCharge pl.segment t
    pulse := some { pl with segment := newSegment c code t } }

/-! ### Pulses (section 2.4) -/

/-- A pulse that opens at a stamp, paired with an entry or unannounced (R20, R21). -/
def openPulse (c : BauChain) (t : Stamp) (code : Code) (unannounced : Bool) (maxDuration : Option (BitVec 16)) : Pulse where
  rise := t
  unannounced := unannounced
  maxDuration := maxDuration
  overrunDeadline := maxDuration.map fun d => afterUs t d.toNat
  overrunMark := false
  segment := newSegment c code t

/-- A rise on a chain whose queue is not empty (R20). The activity notice of R35 is sent before what the judgement of the
segment start sends; no rule orders the two (log 35). -/
def pairedRise (sh : BauShared) (i : Chain) (t : Stamp) (e : QueueEntry) (rest : List QueueEntry) (c : BauChain) :
    Eff BauChain :=
  (judgeStart sh i
      { c with
        queue := rest
        pulse := some (openPulse c t e.code false e.maxDuration)
        grace := none
        pulsedInEpoch := true }).sendFirst
    [.activityNotice i]

/-- A rise on a chain whose queue is empty: the unannounced strike comes first, then the segment start (R21, R96). The
activity notice of R35 is sent after UNANNOUNCED and before an enforcement set request of the same event; no rule orders
the two (log 35). -/
def unannouncedRise (sh : BauShared) (i : Chain) (t : Stamp) (c : BauChain) : Eff BauChain :=
  ((strike sh i
      { c with
        pulse := some (openPulse c t c.power.cmax true none)
        grace := none
        pulsedInEpoch := true
        counters := c.counters.incUnannounced }).sendFirst
    [raiseChain .unannounced i, .activityNotice i]).andThen (judgeStart sh i)

/-- A rise at a stamp (R20, R21); a pulse already open takes none (log 4). -/
def riseOn (sh : BauShared) (i : Chain) (t : Stamp) (c : BauChain) : Eff BauChain :=
  match c.pulse with
  | some _ => Eff.pure c
  | none =>
    match c.queue with
    | [] => unannouncedRise sh i t c
    | e :: rest => pairedRise sh i t e rest c

/-- A fall at a stamp: the segment is charged, the pulse closes, the grace timer and the deadline are cancelled (R22). -/
def fallOn (_sh : BauShared) (_i : Chain) (t : Stamp) (c : BauChain) : Eff BauChain :=
  match c.pulse with
  | none => Eff.pure c
  | some pl =>
    Eff.pure { c with accumulator := c.accumulator + segmentCharge pl.segment t, pulse := none, grace := none }

/-! ### The announcement queue (sections 2.2, 2.3, 2.7) -/

/-- max_duration as the wire carries it: 0 is absent (R14). -/
def durationOfWire (d : BitVec 16) : Option (BitVec 16) := if d = 0 then none else some d

/-- An accepted ANNOUNCE NEXT (R15). -/
def announceNextOn (code : Code) (maxDuration : BitVec 16) (t : Stamp) (_sh : BauShared) (i : Chain) (c : BauChain) :
    Eff BauChain :=
  ⟨{ c with
      queue := c.queue ++ [{ code := code, maxDuration := durationOfWire maxDuration, arrival := t }]
      announcedInEpoch := true },
    [.activityNotice i]⟩

/-- An accepted ANNOUNCE NOW: the segment is cut, the grace timer stops, and the new segment is judged at its start
(R16, R94). The activity notice of R35 is sent before what the judgement sends (log 35). -/
def announceNowOn (code : Code) (t : Stamp) (sh : BauShared) (i : Chain) (c : BauChain) : Eff BauChain :=
  match c.pulse with
  | none => Eff.pure c
  | some pl =>
    (judgeStart sh i { cutSegment pl code t c with grace := none, announcedInEpoch := true }).sendFirst
      [.activityNotice i]

/-- The stale deadline of an entry under a stale limit (R17). -/
def staleDeadline (staleMs : Nat) (e : QueueEntry) : Stamp := afterMs e.arrival staleMs

/-- The head is removed as stale (R17). -/
def removeStale (i : Chain) (rest : List QueueEntry) (c : BauChain) : Eff BauChain :=
  ⟨{ c with queue := rest, counters := c.counters.incStale }, [raiseChain .stale i]⟩

/-- The head's stale deadline expires at a stamp; nothing happens when there is no head or it is not due (R17). -/
def staleExpiryOn (sh : BauShared) (i : Chain) (t : Stamp) (c : BauChain) : Eff BauChain :=
  match c.queue with
  | [] => Eff.pure c
  | e :: rest => if reached t (staleDeadline sh.staleMs e) then removeStale i rest c else Eff.pure c

/-- Every head already due at a stamp is removed as stale, one after another (R18). fuel bounds the entries. -/
def recheckStale (sh : BauShared) (i : Chain) (t : Stamp) : Nat → BauChain → Eff BauChain
  | 0, c => Eff.pure c
  | fuel + 1, c => (staleExpiryOn sh i t c).andThen (recheckStale sh i t fuel)

/-- A flush: every entry leaves and counts in the flushed counter (R33). -/
def flushOn (_sh : BauShared) (_i : Chain) (c : BauChain) : Eff BauChain :=
  Eff.pure { c with queue := [], counters := c.counters.addFlushed c.queue.length }

/-! ### Ceiling changes (R37, R27, R91, R92) -/

/-- The inhibit changes under an open pulse: the segment is cut at the same code; an assertion stops the grace timer, and
a release above the new ceiling acts as a drop from a stopped timer (R27, R92). -/
def inhibitChange (sh : BauShared) (i : Chain) (t : Stamp) (pl : Pulse) (c : BauChain) : Eff BauChain :=
  let c1 := { cutSegment pl pl.segment.code t c with grace := none }
  if c.heldInhibit then Eff.pure c1
  else if exceeds pl.segment.code c.heldCeiling then
    graceStart sh i t { pl with segment := newSegment c pl.segment.code t } c1
  else Eff.pure c1

/-- The BAU takes a ceiling change notice for a chain (R37). -/
def ceilingChangeOn (n : CeilingChange) (sh : BauShared) (i : Chain) (c : BauChain) : Eff BauChain :=
  let c1 := { c with heldCeiling := n.ceiling, heldInhibit := n.inhibit }
  match c.pulse with
  | none => Eff.pure c1
  | some pl =>
    if c.heldInhibit = n.inhibit then
      if n.inhibit then Eff.pure c1 else judgeDrop sh i n.stamp pl c1
    else inhibitChange sh i n.stamp pl c1

/-! ### The unit -/

/-- One chain of the BAU takes an event. -/
def State.runChain (i : Chain) (f : BauShared → Chain → BauChain → Eff BauChain) (s : State) : State :=
  s.runBau fun b =>
    ⟨{ b with chains := b.chains.set i (f b.shared i (b.chains.get i)).val }, (f b.shared i (b.chains.get i)).out⟩

/-- The checks of R14 in their order: a refusal, or the chain. A BAU that has not taken the entry to RUN is in LOADING
(log 10). The owner is the one the policy store holds when the BAU takes the request (R14, R144): an ANNOUNCE held behind a
close notice, with a SET_OWNER taken after it, is checked against the new owner, though the flush of that SET_OWNER is held
after it (log 34). -/
def announceCheck (s : State) (p : Port) (chain kind : Byte) (maxDuration : BitVec 16) : Except Status Chain :=
  if !s.bau.inRun then .error .busy
  else
    match chainOfByte chain with
    | none => .error .badValue
    | some i =>
      if kind = 0 then
        if !s.owns p i then .error .notOwner
        else if (s.bau.chains.get i).queue.length < Config.queueCapacity then .ok i
        else .error .queueFull
      else if kind = 1 && maxDuration = 0 then
        if !s.owns p i then .error .notOwner
        else if (s.bau.chains.get i).pulse.isSome then .ok i
        else .error .noPulse
      else .error .badValue

/-- The OK payload of an ANNOUNCE: queue depth, held ceiling, held inhibit state (R155). -/
def announcePayload (c : BauChain) : List Byte :=
  [BitVec.ofNat 8 c.queue.length] ++ ceilingBytes c.heldCeiling ++ [boolByte c.heldInhibit]

/-- The effect of an accepted ANNOUNCE, stamped as the BAU takes it (R15, R16). -/
def acceptAnnounce (i : Chain) (kind : Byte) (code : Code) (maxDuration : BitVec 16) (s : State) : State :=
  if kind = 0 then s.runChain i (announceNextOn code maxDuration s.timeBase)
  else s.runChain i (announceNowOn code s.timeBase)

/-- The BAU takes an ANNOUNCE: refused with a status and nothing else, or accepted and answered (R14, R15, R16). The slot
is EMPTY then (R152; log 23). -/
def takeAnnounce (p : Port) (chain kind : Byte) (code : Code) (maxDuration : BitVec 16) (s : State) : State :=
  match announceCheck s p chain kind maxDuration with
  | .error st => s.answer p st Kind.announce.value []
  | .ok i =>
    let s1 := acceptAnnounce i kind code maxDuration s
    s1.answer p .ok Kind.announce.value (announcePayload (s1.bau.chains.get i))

/-- The BAU takes one event. -/
def bauTake (s : State) : BauEvent → State
  | .rise i t => s.runChain i fun sh j => riseOn sh j t
  | .fall i t => s.runChain i fun sh j => fallOn sh j t
  | .staleExpiry i t => s.runChain i fun sh j => staleExpiryOn sh j t
  | .overrunExpiry i t => s.runChain i fun sh j => overrunExpiryOn sh j t
  | .graceExpiry i t => s.runChain i fun sh j => graceExpiryOn sh j t
  | .ceilingChange n => s.runChain n.chain (ceilingChangeOn n)
  | .announce p chain kind code d => takeAnnounce p chain kind code d s
  | .flush i => s.runChain i flushOn

/-- A held event is an ANNOUNCE of a port. -/
def BauEvent.announcesOn (p : Port) : BauEvent → Bool
  | .announce q _ _ _ _ => decide (q = p)
  | _ => false

/-- The BAU holds an ANNOUNCE of a port, whose frame-end event is not complete: the port takes no falling select edge
before the answer is in its slot (R152, R29; log 23). -/
def State.awaitsAnswer (s : State) (p : Port) : Bool := s.bau.held.any (BauEvent.announcesOn p)

/-- The BAU holds the event while it holds a close notice, and takes it otherwise (R29). -/
def bauReceive (e : BauEvent) (s : State) : State :=
  if s.bau.closeNotice.isSome then { s with bau := { s.bau with held := s.bau.held ++ [e] } }
  else bauTake s e

/-! ### The epoch close at the BAU (section 2.6) -/

/-- The closing epoch of a chain is sealed: the open segment is charged up to the boundary (R28). -/
def sealChain (b : Stamp) (c : BauChain) : BauChain :=
  match c.pulse with
  | none => c
  | some pl => { c with accumulator := c.accumulator + segmentCharge pl.segment b }

/-- A chain's part of the epoch energy report (R30). -/
def chainReport (b : Stamp) (c : BauChain) : ChainReport :=
  { energy := (sealChain b c).accumulator, strikes := c.strikes }

/-- A chain is quiet in the closing epoch (R31). -/
def isQuiet (c : BauChain) : Bool :=
  !c.announcedInEpoch && !c.pulsedInEpoch && c.queue.isEmpty && c.pulse.isNone

/-- A chain opens the next epoch: accumulator, strikes, flags and enforced flag cleared, new parameters taken, and an open
pulse's new segment begun at the boundary with the k now in force (R28, R29, R30, R31, R97). -/
def openEpoch (b : Stamp) (power : ChainPower) (c : BauChain) : BauChain :=
  let c1 := { c with power := power }
  { c1 with
    accumulator := 0
    strikes := 0
    announcedInEpoch := false
    pulsedInEpoch := c.pulse.isSome
    enforced := false
    pulse := c.pulse.map fun pl => { pl with segment := newSegment c1 pl.segment.code b } }

/-- The boundary segment is judged: one that inherits a running grace timer is not (R88). -/
def judgeBoundary (sh : BauShared) (i : Chain) (c : BauChain) : Eff BauChain :=
  match c.grace with
  | some _ => Eff.pure c
  | none => judgeStart sh i c

/-- The parameters of the BAU after a close answer (R29). -/
def sharedAfter (sh : BauShared) (closing : EpochIndex) (a : Option BauParams) : BauShared :=
  match a with
  | none => { sh with epoch := nextEpoch closing }
  | some x => { epoch := nextEpoch closing, staleMs := x.staleMs, graceMs := x.graceMs, threshold := x.threshold }

/-- cmax and k of a chain after a close answer (R29). -/
def powerAfter (c : BauChain) (a : Option BauParams) (i : Chain) : ChainPower :=
  match a with
  | none => c.power
  | some x => x.chains.get i

/-- The stale recheck of R18, when the close changes the stale limit. -/
def recheckAfter (old new : BauShared) (i : Chain) (b : Stamp) (c : BauChain) : Eff BauChain :=
  if old.staleMs = new.staleMs then Eff.pure c else recheckStale new i b c.queue.length c

/-- One chain's part of the close event after the report: the next epoch opens, stale entries leave, the boundary segment
is judged. -/
def closeChain (old new : BauShared) (a : Option BauParams) (b : Stamp) (i : Chain) (c : BauChain) : Eff BauChain :=
  (recheckAfter old new i b (openEpoch b (powerAfter c a i) c)).andThen (judgeBoundary new i)

/-- The close event of the BAU: the report and the quiet summary first (log 13), then every chain: its stale recheck and the
judgement of its boundary segment (R28 to R31, R88). No rule orders the chains within the event; what they raise and send
stands in the order TX0 to TX3 (log 35). -/
def bauClose (n : CloseNotice) (a : Option BauParams) (b : Bau) : Eff Bau :=
  let new := sharedAfter b.shared n.closing a
  let after := runChains fun i => closeChain b.shared new a n.boundary i (b.chains.get i)
  ⟨{ b with shared := new, chains := after.val, closeNotice := none, closeAnswer := none, held := [] },
    [.epochEnergyReport (PerChain.build fun i => chainReport n.boundary (b.chains.get i)),
      .quietSummary (PerChain.build fun i => isQuiet (b.chains.get i))] ++ after.out⟩

/-- The close event and then the events held, in the order of arrival (R29; log 11). -/
def bauCloseEvent (s : State) : State :=
  match s.bau.closeNotice, s.bau.closeAnswer with
  | some n, some a => s.bau.held.foldl bauTake (s.runBau (bauClose n a))
  | _, _ => s

/-- A chain's line as it stood at the stamp of entry: before the edges that came since (R24; log 10). -/
def State.lineAtEntry (s : State) (i : Chain) : Bool := levelBefore (edgesOf i s.bau.early) (s.pins.txen.get i)

/-- An edge of a chain's line as an event of the BAU, with the edge's own stamp (R29). -/
def edgeEvent (e : Chain × LineEdge) : BauEvent := if e.2.rising then .rise e.1 e.2.stamp else .fall e.1 e.2.stamp

/-- The BAU takes an edge that came in RUN before it had taken the entry (R20, R21, R22). -/
def takeEarlyEdge (s : State) (e : Chain × LineEdge) : State := bauTake s (edgeEvent e)

/-- A line found high at the stamp of entry is a rise at that stamp (R24). -/
def riseAtEntry (t : Stamp) (high : Chain → Bool) (s : State) (i : Chain) : State :=
  if high i then s.runChain i fun sh j => riseOn sh j t else s

/-- The BAU is in RUN and the first epoch begins (R24, R100). -/
def State.beginFirstEpoch (s : State) : State :=
  { s with bau := { s.bau with inRun := true, shared := { s.bau.shared with epoch := 1 }, early := [] } }

/-- The BAU takes the entry to RUN: the first epoch begins, each line that was high at the stamp of entry is a rise at that
stamp (R24, R100), and the edges that came since follow in their order, each at its own stamp (R19; log 10). No rule orders
the rises of lines found high together; they are taken in the order TX0 to TX3 (log 35). -/
def bauEntry (t : Stamp) (s : State) : State :=
  s.bau.early.foldl takeEarlyEdge (Chain.all.foldl (riseAtEntry t s.lineAtEntry) s.beginFirstEpoch)

/-- The entry is taken once. A close notice that the BAU has taken before it does not hold it back (the model's choice:
log 43). -/
def takeBauEntry (t : Stamp) (s : State) : State := if s.bau.inRun then s else bauEntry t s

/-- The BAU takes the LIMITS parameters of the start-up load (R172, R38, R85). -/
def bauLimits (x : BauParams) (b : Bau) : Bau :=
  { b with
    shared := { b.shared with staleMs := x.staleMs, graceMs := x.graceMs, threshold := x.threshold }
    chains := PerChain.build fun i => { b.chains.get i with power := x.chains.get i } }

/-! ### Meanings -/

/-- An edge that comes in RUN before the BAU has taken the entry waits for it, with its own stamp; in LOADING the BAU takes
no edge (R24; log 10). -/
def State.awaitEntry (s : State) (i : Chain) (rising : Bool) : State :=
  if s.isLoading then s
  else { s with bau := { s.bau with early := s.bau.early ++ [(i, { rising := rising, stamp := s.timeBase })] } }

/-- A rising edge of a line; in RUN the edge reaches the BAU with its stamp (R20, R21, R24). -/
def lineRises (i : Chain) (s : State) : State :=
  if s.pins.txen.get i then s
  else
    let s1 := s.setPins { s.pins with txen := s.pins.txen.set i true }
    if s.bau.inRun then bauReceive (.rise i s.timeBase) s1 else s1.awaitEntry i true

/-- A falling edge of a line; in RUN the edge reaches the BAU with its stamp (R22, R24). -/
def lineFalls (i : Chain) (s : State) : State :=
  if s.pins.txen.get i then
    let s1 := s.setPins { s.pins with txen := s.pins.txen.set i false }
    if s.bau.inRun then bauReceive (.fall i s.timeBase) s1 else s1.awaitEntry i false
  else s

/-- TXEN_RISE (R20, R21, R24). -/
def execTxenRise (i : Chain) (s : State) : Host.Outcome State Fault Refusal := .next (lineRises i s)

/-- TXEN_FALL (R22, R24). -/
def execTxenFall (i : Chain) (s : State) : Host.Outcome State Fault Refusal := .next (lineFalls i s)

/-- STALE_EXPIRY: the stale deadline of a chain's head expires (R17). -/
def execStaleExpiry (i : Chain) (s : State) : Host.Outcome State Fault Refusal :=
  .next (bauReceive (.staleExpiry i s.timeBase) s)

/-- OVERRUN_EXPIRY: the overrun deadline of a chain's open pulse expires (R89). -/
def execOverrunExpiry (i : Chain) (s : State) : Host.Outcome State Fault Refusal :=
  .next (bauReceive (.overrunExpiry i s.timeBase) s)

/-- GRACE_EXPIRY: the running grace deadline of a chain expires (R93). -/
def execGraceExpiry (i : Chain) (s : State) : Host.Outcome State Fault Refusal :=
  .next (bauReceive (.graceExpiry i s.timeBase) s)

/-- CEILING_CHANGE_NOTICE: the BAU takes a notice of the CLU, in the order the CLU sent them (R37). -/
def execCeilingChangeNotice (n : CeilingChange) (s : State) : Host.Outcome State Fault Refusal :=
  .next (s.taking (.ceilingChangeNotice n) (bauReceive (.ceilingChange n)))

/-- BAU_CLOSE_NOTICE: the close notice reaches the BAU and is held; from then on the BAU holds every event (R29). -/
def execBauCloseNotice (n : CloseNotice) (s : State) : Host.Outcome State Fault Refusal :=
  .next ((s.takeNotice (.bauCloseNotice n)).runBau fun b => Eff.pure { b with closeNotice := some n })

/-- BAU_CLOSE_ANSWER: the policy store's close answer reaches the BAU and is held (R29). -/
def execBauCloseAnswer (a : Option BauParams) (s : State) : Host.Outcome State Fault Refusal :=
  .next ((s.takeNotice (.bauCloseAnswer a)).runBau fun b => Eff.pure { b with closeAnswer := some a })

/-- BAU_CLOSE_EVENT: holding the notice and the answer, the BAU closes the epoch; otherwise nothing (R29). -/
def execBauCloseEvent (s : State) : Host.Outcome State Fault Refusal := .next (bauCloseEvent s)

/-- BAU_LIMITS_DELIVERY: the BAU takes its LIMITS parameters (R172). -/
def execBauLimitsDelivery (x : BauParams) (s : State) : Host.Outcome State Fault Refusal :=
  .next ((s.takeNotice (.bauLimitsDelivery x)).runBau fun b => Eff.pure (bauLimits x b)).enterRunWhenDelivered

/-- BAU_ENTRY_TO_RUN: the BAU takes the entry to RUN, once (R24). -/
def execBauEntryToRun (t : Stamp) (s : State) : Host.Outcome State Fault Refusal :=
  .next (takeBauEntry t (s.takeNotice (.bauEntryToRun t)))

end Sys2Proof.Machine
end

