-- ==== Sys2Proof/Machine/Ceilings.lean ====
section
/-! DEFINITION. Ceiling combination and sharing (04_ceiling_combination_and_sharing.md): shares, contributions, the
recompute and what it reports, and the meanings of the commands the CLU takes. -/

namespace Sys2Proof.Machine

/-! ### Shares (R66) -/

/-- The weight a chain adds to the weight total of a group. -/
def activeWeight (c : Clu) (g : Group) (i : Chain) : Nat :=
  if (c.chains.get i).profile.group = g && (c.chains.get i).active then (c.chains.get i).weight else 0

/-- W_act(g) of R66. -/
def weightTotal (c : Clu) (g : Group) : Nat :=
  activeWeight c g .tx0 + activeWeight c g .tx1 + activeWeight c g .tx2 + activeWeight c g .tx3

/-- P_i of R66: the share of an ACTIVE chain of positive weight. -/
def shareOf (c : Clu) (i : Chain) : Nat :=
  let ch := c.chains.get i
  (c.power.get ch.profile.group).toNat * ch.weight / weightTotal c ch.profile.group

/-- The exposure ceiling of a chain (R66). -/
def exposureCeiling (c : Clu) (i : Chain) : Ceiling :=
  if (c.chains.get i).active && decide (0 < (c.chains.get i).weight) then codeOf (shareOf c i) else .off

/-! ### Contributions (R66, R68 to R71) -/

def exposureContribution (c : Clu) (i : Chain) : Ceiling :=
  transmitCeiling (c.chains.get i).profile.cmax (c.chains.get i).profile.k (exposureCeiling c i)

/-- The zone input of the zone a chain maps to. -/
def zoneOf (c : Clu) (i : Chain) : ZoneInput := c.zones.get (c.chains.get i).profile.zone

def thermalContribution (c : Clu) (i : Chain) : Ceiling :=
  if (zoneOf c i).trip then .off else .code (lessCodes (c.chains.get i).profile.cmax (zoneOf c i).backoff)

def overloadContribution (c : Clu) (i : Chain) : Ceiling :=
  match c.level with
  | .lock => .off
  | .level n => .code (lessCodes (c.chains.get i).profile.cmax (n * c.oStep))

/-- The cap contribution; none takes no part (R70). -/
def capContribution (c : Clu) (i : Chain) : Option Ceiling :=
  match (c.chains.get i).cap with
  | .uncapped => none
  | .off => some .off
  | .code x => some (.code x)

def cmaxContribution (c : Clu) (i : Chain) : Ceiling := .code (c.chains.get i).profile.cmax

/-- inhibit_causes of a chain (R71). -/
def causesOf (c : Clu) (i : Chain) : Causes where
  loading := c.loading
  enforce := (c.chains.get i).enforcedEpoch.isSome
  trip := (zoneOf c i).trip
  lock := decide (c.level = .lock)

/-- A set of causes is not empty. -/
def Causes.any (x : Causes) : Bool := x.loading || x.enforce || x.trip || x.lock

/-- The inhibit contribution; none takes no part (R71). -/
def inhibitContribution (c : Clu) (i : Chain) : Option Ceiling := if (causesOf c i).any then some .off else none

/-- The lesser of a ceiling and a contribution that may take no part. -/
def leastWith (x : Ceiling) : Option Ceiling → Ceiling
  | none => x
  | some y => leastCeiling x y

/-- The final ceiling: the least of the contributions that take part (R72). -/
def finalCeiling (c : Clu) (i : Chain) : Ceiling :=
  leastWith
    (leastWith
      (leastCeiling (leastCeiling (exposureContribution c i) (thermalContribution c i))
        (leastCeiling (overloadContribution c i) (cmaxContribution c i)))
      (capContribution c i))
    (inhibitContribution c i)

/-- The binding set: the contributions that take part and equal the final ceiling (R72). -/
def bindingOf (c : Clu) (i : Chain) : Binding where
  exposure := decide (exposureContribution c i = finalCeiling c i)
  thermal := decide (thermalContribution c i = finalCeiling c i)
  overload := decide (overloadContribution c i = finalCeiling c i)
  cap := decide (capContribution c i = some (finalCeiling c i))
  cmax := decide (cmaxContribution c i = finalCeiling c i)
  inhibit := decide (inhibitContribution c i = some (finalCeiling c i))

/-- The table entry of a chain as the inputs held make it (R72, R80). -/
def tableEntry (c : Clu) (i : Chain) : TableEntry where
  final := finalCeiling c i
  binding := bindingOf c i
  causes := causesOf c i
  inhibit := (causesOf c i).any

/-! ### The recompute (R72, R79, R80) -/

/-- The recompute changes the final ceiling or the inhibit state of a chain. -/
def entryChanges (c : Clu) (i : Chain) : Bool :=
  decide ((tableEntry c i).final ≠ (c.chains.get i).entry.final) ||
    decide ((tableEntry c i).inhibit ≠ (c.chains.get i).entry.inhibit)

/-- The recompute changes the table. -/
def tableChanges (c : Clu) : Bool := Chain.all.any (entryChanges c)

/-- The ceiling change notice for a chain (R80). -/
def changeNotice (now : Stamp) (c : Clu) (i : Chain) : Instr :=
  .ceilingChangeNotice
    { chain := i, ceiling := (tableEntry c i).final, inhibit := (tableEntry c i).inhibit, stamp := now }

/-- What a changing recompute sends: a notice for every changed chain, and the CEILING raise (R79, R80; log 26). -/
def changeNotices (now : Stamp) (c : Clu) : List Instr :=
  (Chain.all.filter (entryChanges c)).map (changeNotice now c) ++
    [.eventRaise { cls := .ceiling, mask := chainMask (entryChanges c) }]

/-- Every entry of the table as the inputs make it. -/
def withTable (c : Clu) : Clu :=
  { c with chains := PerChain.build fun i => { c.chains.get i with entry := tableEntry c i } }

/-- The recompute of R72, with what R79 and R80 report. -/
def recompute (now : Stamp) (c : Clu) : Eff Clu :=
  if tableChanges c then ⟨{ withTable c with generation := c.generation + 1 }, changeNotices now c⟩
  else ⟨withTable c, []⟩

/-! ### Inputs replaced -/

/-- One chain of the CLU replaced. -/
def Clu.setChain (c : Clu) (i : Chain) (f : CluChain → CluChain) : Clu :=
  { c with chains := c.chains.set i (f (c.chains.get i)) }

/-- Every chain of the CLU replaced. -/
def Clu.mapChains (c : Clu) (f : Chain → CluChain → CluChain) : Clu :=
  { c with chains := PerChain.build fun i => f i (c.chains.get i) }

/-! ### The events of section 4.5 -/

/-- An activity notice (R63). One that comes before the entry to RUN is taken in LOADING too, and the chain is ACTIVE at the
entry (the model's choice: log 38). -/
def takeActivity (now : Stamp) (i : Chain) (c : Clu) : Eff Clu :=
  if (c.chains.get i).active then Eff.pure (c.setChain i fun x => { x with activitySinceClose := true })
  else recompute now (c.setChain i fun x => { x with active := true, activitySinceClose := true })

/-- The quiet summary returns this chain to IDLE (R64). -/
def retires (quiet : PerChain Bool) (c : Clu) (i : Chain) : Bool :=
  quiet.get i && (c.chains.get i).active && !(c.chains.get i).activitySinceClose

/-- The quiet summary (R64). -/
def takeQuiet (now : Stamp) (quiet : PerChain Bool) (c : Clu) : Eff Clu :=
  if Chain.all.any (retires quiet c) then
    recompute now (c.mapChains fun i x => if retires quiet c i then { x with active := false } else x)
  else Eff.pure c

/-- Every enforcement inhibit is released, with one recompute where there is any (R65, R78). -/
def releaseEnforcement (now : Stamp) (c : Clu) : Eff Clu :=
  if Chain.all.any fun i => (c.chains.get i).enforcedEpoch.isSome then
    recompute now (c.mapChains fun _ x => { x with enforcedEpoch := none })
  else Eff.pure c

/-- A set request is applied: the epoch it names is the chain's enforced_epoch, with a recompute (R78). -/
def applySet (now : Stamp) (i : Chain) (epoch : EpochIndex) (c : Clu) : Eff Clu :=
  recompute now (c.setChain i fun x => { x with enforcedEpoch := some epoch })

/-- The set requests held for the running epoch are applied, each with a recompute of its own (R65, R98). -/
def applySets (now : Stamp) : List (Chain × EpochIndex) → Clu → Eff Clu
  | [], c => Eff.pure c
  | r :: rest, c =>
    (if r.2 = c.epoch then applySet now r.1 r.2 c else Eff.pure c).andThen (applySets now rest)

/-- The close notice before the releases: flags cleared, the epoch that begins recorded (R65). -/
def beginEpoch (closing : EpochIndex) (c : Clu) : Clu :=
  { c.mapChains fun _ x => { x with activitySinceClose := false } with epoch := nextEpoch closing }

/-- The close notice (R65, R78, R98; log 31), before the entry to RUN too (log 43). -/
def takeCluClose (now : Stamp) (closing : EpochIndex) (c : Clu) : Eff Clu :=
  (releaseEnforcement now { beginEpoch closing c with heldSets := [] }).andThen (applySets now c.heldSets)

/-- A group allowance notice (R73). -/
def takeAllowance (now : Stamp) (g : Group) (p : WindowWord) (c : Clu) : Eff Clu :=
  recompute now { c with power := c.power.set g p }

/-- A scenario apply delivery (R74). -/
def takeScenario (now : Stamp) (weights : PerChain Nat) (caps : PerChain Cap) (c : Clu) : Eff Clu :=
  recompute now (c.mapChains fun i x => { x with weight := weights.get i, cap := caps.get i })

/-- A cap delivery (R74). -/
def takeCap (now : Stamp) (i : Chain) (cap : Cap) (c : Clu) : Eff Clu :=
  recompute now (c.setChain i fun x => { x with cap := cap })

/-- A profile apply delivery (R75). -/
def takeProfile (now : Stamp) (p : PerChain ChainProfile) (c : Clu) : Eff Clu :=
  recompute now (c.mapChains fun i x => { x with profile := p.get i })

/-- A stage or trip notice (R76), in LOADING too (R82; log 38). -/
def takeStage (now : Stamp) (n : StageNotice) (c : Clu) : Eff Clu :=
  recompute now { c with zones := c.zones.set n.zone { stage := n.stage, backoff := n.backoff, trip := n.trip } }

/-- A level or lock notice (R77), in LOADING too (R82; log 38). -/
def takeLevel (now : Stamp) (l : OverloadLevel) (oStep : Nat) (c : Clu) : Eff Clu :=
  recompute now { c with level := l, oStep := oStep }

/-- A set request names an epoch that the ceiling unit applies at once: the running one (R78), or, while the ceiling unit
has not taken its entry to RUN, the first one, so that ENFORCE joins LOADING among the chain's causes (R99; log 31). -/
def appliesNow (c : Clu) (epoch : EpochIndex) : Bool :=
  decide (epoch = c.epoch) || c.loading && decide (epoch = nextEpoch c.epoch)

/-- An enforcement set request: applied at once, held for the epoch that follows, or ignored (R78, R98, R99). One that
names an epoch further ahead than the next is ignored by the model's choice (log 39). -/
def takeSet (now : Stamp) (i : Chain) (epoch : EpochIndex) (c : Clu) : Eff Clu :=
  if appliesNow c epoch then applySet now i epoch c
  else if epoch = nextEpoch c.epoch then Eff.pure { c with heldSets := c.heldSets ++ [(i, epoch)] }
  else Eff.pure c

/-- An enforcement clear request: removes ENFORCE held for the epoch, discards a held set request, or is ignored
(R78, R98). -/
def takeClear (now : Stamp) (i : Chain) (epoch : EpochIndex) (c : Clu) : Eff Clu :=
  let c1 := { c with heldSets := c.heldSets.filter fun r => decide (r ≠ (i, epoch)) }
  if (c.chains.get i).enforcedEpoch = some epoch then
    recompute now (c1.setChain i fun x => { x with enforcedEpoch := none })
  else Eff.pure c1

/-- The entry to RUN, taken once (R82). The recompute is over the inputs as they stand, of a notice taken before the entry too
(the model's choice: log 38), and the epoch is 1 also after a close notice taken before it (log 43). -/
def takeCluEntry (now : Stamp) (c : Clu) : Eff Clu :=
  if c.loading then recompute now { c with loading := false, epoch := 1 } else Eff.pure c

/-! ### Meanings -/

/-- ACTIVITY_NOTICE (R63). -/
def execActivityNotice (i : Chain) (s : State) : Host.Outcome State Fault Refusal :=
  .next ((s.takeNotice (.activityNotice i)).runClu (takeActivity s.timeBase i))

/-- QUIET_SUMMARY (R64). -/
def execQuietSummary (quiet : PerChain Bool) (s : State) : Host.Outcome State Fault Refusal :=
  .next ((s.takeNotice (.quietSummary quiet)).runClu (takeQuiet s.timeBase quiet))

/-- CLU_CLOSE_NOTICE (R65). -/
def execCluCloseNotice (n : CloseNotice) (s : State) : Host.Outcome State Fault Refusal :=
  .next ((s.takeNotice (.cluCloseNotice n)).runClu (takeCluClose s.timeBase n.closing))

/-- GROUP_ALLOWANCE_NOTICE (R73). -/
def execGroupAllowanceNotice (g : Group) (p : WindowWord) (s : State) : Host.Outcome State Fault Refusal :=
  .next ((s.takeNotice (.groupAllowanceNotice g p)).runClu (takeAllowance s.timeBase g p))

/-- SCENARIO_DELIVERY (R74; in LOADING R83). -/
def execScenarioDelivery (weights : PerChain Nat) (caps : PerChain Cap) (s : State) : Host.Outcome State Fault Refusal :=
  .next (s.taking (.scenarioDelivery weights caps)
    fun x => (x.runClu (takeScenario x.timeBase weights caps)).enterRunWhenDelivered)

/-- CAP_DELIVERY (R74). -/
def execCapDelivery (i : Chain) (cap : Cap) (s : State) : Host.Outcome State Fault Refusal :=
  .next (s.taking (.capDelivery i cap) fun x => x.runClu (takeCap x.timeBase i cap))

/-- PROFILE_DELIVERY (R75; in LOADING R83). -/
def execProfileDelivery (p : PerChain ChainProfile) (s : State) : Host.Outcome State Fault Refusal :=
  .next (s.taking (.profileDelivery p) fun x => (x.runClu (takeProfile x.timeBase p)).enterRunWhenDelivered)

/-- STAGE_TRIP_NOTICE (R76; in LOADING R83). -/
def execStageTripNotice (n : StageNotice) (s : State) : Host.Outcome State Fault Refusal :=
  .next (s.taking (.stageTripNotice n) fun x => (x.runClu (takeStage x.timeBase n)).enterRunWhenDelivered)

/-- LEVEL_LOCK_NOTICE (R77; in LOADING R83). -/
def execLevelLockNotice (l : OverloadLevel) (oStep : Nat) (s : State) : Host.Outcome State Fault Refusal :=
  .next (s.taking (.levelLockNotice l oStep) fun x => (x.runClu (takeLevel x.timeBase l oStep)).enterRunWhenDelivered)

/-- ENFORCEMENT_SET_REQUEST (R78, R98, R99). -/
def execEnforcementSetRequest (i : Chain) (epoch : EpochIndex) (s : State) : Host.Outcome State Fault Refusal :=
  .next (s.taking (.enforcementSetRequest i epoch) fun x => x.runClu (takeSet x.timeBase i epoch))

/-- ENFORCEMENT_CLEAR_REQUEST (R78, R98). -/
def execEnforcementClearRequest (i : Chain) (epoch : EpochIndex) (s : State) : Host.Outcome State Fault Refusal :=
  .next (s.taking (.enforcementClearRequest i epoch) fun x => x.runClu (takeClear x.timeBase i epoch))

/-- CLU_ENTRY_TO_RUN (R82). -/
def execCluEntryToRun (s : State) : Host.Outcome State Fault Refusal :=
  .next ((s.takeNotice .cluEntryToRun).runClu (takeCluEntry s.timeBase))

end Sys2Proof.Machine
end

