-- ==== Sys2Proof/Machine/Overload.lean ====
section
/-! DEFINITION. Supply overload response (07_supply_overload_response.md): rises, falls, step attempts, LOCK, the droop
history, and the meanings of the commands the OVU takes. -/

namespace Sys2Proof.Machine

/-! ### The droop history and the chronic condition (R123) -/

/-- A rising edge's stamp joins; past 8 stamps the oldest is discarded (R123). -/
def pushStamp (h : List Stamp) (t : Stamp) : List Stamp := (h ++ [t]).drop (h.length + 1 - Config.historyCapacity)

/-- The chronic condition at a stamp (R123). -/
def isChronic (now : Stamp) (o : Ovu) : Bool :=
  match o.history with
  | [] => false
  | oldest :: _ =>
    decide (o.history.length = Config.historyCapacity) &&
      decide (elapsed oldest now ≤ o.params.chronicS * 1000000)

/-- The chronic condition is evaluated: the flag keeps the result (R123). -/
def evaluateChronic (now : Stamp) (o : Ovu) : Ovu := { o with chronic := isChronic now o }

/-- The oldest stamp is past its greatest age (R123). -/
def retirementDue (now oldest : Stamp) : Bool := decide (Config.stampLifetime < elapsed oldest now)

/-- The retirement of the oldest stamp, when it is due (R123). -/
def retireStamp (now : Stamp) (o : Ovu) : Ovu :=
  match o.history with
  | [] => o
  | oldest :: rest => if retirementDue now oldest then { o with history := rest } else o

/-! ### Notices (R131) -/

/-- The notice to the CLU: the level in force and O_step. -/
def levelNotice (o : Ovu) : Instr := .levelLockNotice o.level o.params.oStep

/-- A change of level: OVERLOAD is raised and the notice is sent (R131). -/
def levelChanged (o : Ovu) : Eff Ovu := ⟨o, [raiseBare .overload, levelNotice o]⟩

/-! ### Rising (R124, R129) -/

/-- The entry to LOCK at a stamp (R129). -/
def enterLock (t : Stamp) (o : Ovu) : Eff Ovu :=
  levelChanged
    { o with
      level := .lock
      hold := none
      release := none
      reStrike := none
      lock := some (afterMs t o.params.lockMs) }

/-- The level rises from n (R124). -/
def raiseLevel (t : Stamp) (n : Nat) (o : Ovu) : Eff Ovu :=
  levelChanged
    { o with
      level := .level (n + 1)
      hold := some (afterMs t o.params.holdMs)
      release := none
      reStrike := some (afterMs t o.params.reStrikeMs) }

/-- A rise at a stamp (R124). -/
def rise (t : Stamp) (o : Ovu) : Eff Ovu :=
  match o.level with
  | .lock => Eff.pure o
  | .level n => if n < 4 then raiseLevel t n o else enterLock t o

/-- A rising edge at a stamp: pushed, evaluated, and a rise (R122, R123, R124). -/
def risingEdge (t : Stamp) (o : Ovu) : Eff Ovu :=
  rise t (evaluateChronic t { o with droopHeld := true, history := pushStamp o.history t })

/-! ### Falling back (R126, R127, R128) -/

/-- The hold timer after a falling edge at a stamp: restarted at levels 1 to 4 (R126). -/
def holdAfterFall (t : Stamp) (o : Ovu) : Option Stamp :=
  match o.level with
  | .lock => o.hold
  | .level n => if n = 0 then o.hold else some (afterMs t o.params.holdMs)

/-- A falling edge at a stamp (R126). -/
def fallingEdge (t : Stamp) (o : Ovu) : Ovu :=
  evaluateChronic t { o with droopHeld := false, reStrike := none, hold := holdAfterFall t o }

/-- Every timer stopped at level 0 (R128). -/
def settleAtZero (o : Ovu) : Ovu :=
  { o with level := .level 0, hold := none, reStrike := none, release := none, lock := none }

/-- The release timer restarts at a stamp (R128). -/
def restartRelease (t : Stamp) (o : Ovu) : Ovu := { o with release := some (afterMs t o.params.releaseMs) }

/-- The level falls from n + 1 (R128). -/
def lowerLevel (t : Stamp) (n : Nat) (o : Ovu) : Eff Ovu :=
  if n = 0 then levelChanged (settleAtZero o) else levelChanged (restartRelease t { o with level := .level n })

/-- The step attempt once the chronic condition is evaluated (R128). -/
def stepDown (t : Stamp) (o : Ovu) : Eff Ovu :=
  match o.level with
  | .lock => Eff.pure o
  | .level 0 => Eff.pure o
  | .level (n + 1) => if n = 0 && o.chronic then Eff.pure (restartRelease t o) else lowerLevel t n o

/-- A step attempt at a stamp (R128). -/
def stepAttempt (t : Stamp) (o : Ovu) : Eff Ovu := stepDown t (evaluateChronic t o)

/-- The hold timer expires at a stamp (R127). With a rising edge at the same stamp at level 4, of which the table of R130 says
nothing, the queue's order decides: edge first ends in LOCK with the expiry cancelled, expiry first steps to level 3 and the
edge returns to level 4 (the model's choice: log 46). -/
def holdExpired (t : Stamp) (o : Ovu) : Eff Ovu :=
  if o.droopHeld then Eff.pure { o with hold := none } else holdAttempt { o with hold := none }
where
  /-- The step attempt, at levels 1 to 4; at level 0 nothing follows. -/
  holdAttempt (o : Ovu) : Eff Ovu := if o.level = .level 0 then Eff.pure o else stepAttempt t o

/-- The release timer expires at a stamp (R128). -/
def releaseExpired (t : Stamp) (o : Ovu) : Eff Ovu := stepAttempt t { o with release := none }

/-- The re-strike timer expires at a stamp: a rise; it does not push (R125). -/
def reStrikeExpired (t : Stamp) (o : Ovu) : Eff Ovu := rise t { o with reStrike := none }

/-- The lock timer expires at a stamp (R129). -/
def lockExpired (t : Stamp) (o : Ovu) : Eff Ovu :=
  if o.droopHeld then Eff.pure { o with lock := some (afterMs t o.params.lockMs) }
  else levelChanged { o with level := .level 4, lock := none, hold := some (afterMs t o.params.holdMs) }

/-- A timer's expiry, taken when the timer runs and its deadline is reached; its stamp is the deadline (log 3).
It acts with the parameters then in force, also where it is late (log 45). -/
def onExpiry (now : Stamp) (timer : Option Stamp) (f : Stamp → Ovu → Eff Ovu) (o : Ovu) : Eff Ovu :=
  match dueTimer now timer with
  | none => Eff.pure o
  | some t => f t o

/-! ### Parameters and entry (R132, R122) -/

/-- The OVU takes an OVERLOAD section: at start-up it always sends its notice, in RUN when O_step changes (R132). Until it has
taken its own entry to RUN it takes one of a close as that of the start-up load (the model's choice: log 42). Every event
taken after it has the new intervals and chronic span, also one whose stamp lies before the boundary, of which R132 says
nothing: a late expiry, an edge or an entry rise that waited for the entry report (the model's choice: log 45). -/
def takeOverload (new : OverloadSection) (o : Ovu) : Eff Ovu :=
  ⟨{ o with params := new },
    if o.inRun && decide (o.params.oStep = new.oStep) then [] else [levelNotice { o with params := new }]⟩

/-- An edge of the droop line at its stamp (R122, R124, R126). -/
def droopEdge (e : LineEdge) (o : Ovu) : Eff Ovu :=
  if e.rising then risingEdge e.stamp o else Eff.pure (fallingEdge e.stamp o)

/-- Edges of the droop line one after another. -/
def droopEdges : List LineEdge → Ovu → Eff Ovu
  | [], o => Eff.pure o
  | e :: rest, o => (droopEdge e o).andThen (droopEdges rest)

/-- A line found high at the entry stamp is a rising edge at that stamp (R122). -/
def edgeAtEntry (entry : Stamp) (high : Bool) (o : Ovu) : Eff Ovu := if high then risingEdge entry o else Eff.pure o

/-- The OVU takes the entry to RUN, once: the line as it stood at the entry stamp is sampled, and the edges that came since
follow in their order, each at its own stamp (R122; log 10). line is the level at which the line stands now. -/
def takeOvuEntry (entry : Stamp) (line : Bool) (o : Ovu) : Eff Ovu :=
  if o.inRun then Eff.pure o
  else
    (edgeAtEntry entry (levelBefore o.early line) { o with inRun := true, early := [] }).andThen (droopEdges o.early)

/-- An edge that comes in RUN before the OVU has taken the entry waits for it, with its own stamp (R122; log 10). -/
def awaitOvuEntry (e : LineEdge) (o : Ovu) : Eff Ovu := Eff.pure { o with early := o.early ++ [e] }

/-- The OVU takes an edge once it is in RUN; in RUN before it has taken the entry the edge waits; in LOADING it takes none
(R122; log 10). -/
def ovuEdge (loading : Bool) (e : LineEdge) (o : Ovu) : Eff Ovu :=
  if o.inRun then droopEdge e o else if loading then Eff.pure o else awaitOvuEntry e o

/-! ### Meanings -/

/-- A rising edge of the droop line; in RUN the OVU takes it (R122, R124). -/
def droopRises (s : State) : State :=
  if s.pins.droop then s
  else
    (s.setPins { s.pins with droop := true }).runOvu (ovuEdge s.isLoading { rising := true, stamp := s.timeBase })

/-- A falling edge of the droop line; in RUN the OVU takes it (R122, R126). -/
def droopFalls (s : State) : State :=
  if s.pins.droop then
    (s.setPins { s.pins with droop := false }).runOvu (ovuEdge s.isLoading { rising := false, stamp := s.timeBase })
  else s

/-- DROOP_RISE (R122, R124). -/
def execDroopRise (s : State) : Host.Outcome State Fault Refusal := .next (droopRises s)

/-- DROOP_FALL (R122, R126). -/
def execDroopFall (s : State) : Host.Outcome State Fault Refusal := .next (droopFalls s)

/-- RE_STRIKE_EXPIRY (R125). -/
def execReStrikeExpiry (s : State) : Host.Outcome State Fault Refusal :=
  .next (s.runOvu fun o => onExpiry s.timeBase o.reStrike reStrikeExpired o)

/-- HOLD_EXPIRY (R127). -/
def execHoldExpiry (s : State) : Host.Outcome State Fault Refusal :=
  .next (s.runOvu fun o => onExpiry s.timeBase o.hold holdExpired o)

/-- RELEASE_EXPIRY (R128). -/
def execReleaseExpiry (s : State) : Host.Outcome State Fault Refusal :=
  .next (s.runOvu fun o => onExpiry s.timeBase o.release releaseExpired o)

/-- LOCK_EXPIRY (R129). -/
def execLockExpiry (s : State) : Host.Outcome State Fault Refusal :=
  .next (s.runOvu fun o => onExpiry s.timeBase o.lock lockExpired o)

/-- DROOP_STAMP_RETIREMENT (R123). -/
def execDroopStampRetirement (s : State) : Host.Outcome State Fault Refusal :=
  .next (s.runOvu fun o => Eff.pure (retireStamp s.timeBase o))

/-- OVERLOAD_DELIVERY (R132, R172). In LOADING it sends a notice, so it is never the last the entry to RUN waits for. -/
def execOverloadDelivery (new : OverloadSection) (s : State) : Host.Outcome State Fault Refusal :=
  .next ((s.takeNotice (.overloadDelivery new)).runOvu (takeOverload new))

/-- OVU_ENTRY_TO_RUN (R122). -/
def execOvuEntryToRun (entry : Stamp) (s : State) : Host.Outcome State Fault Refusal :=
  .next ((s.takeNotice (.ovuEntryToRun entry)).runOvu (takeOvuEntry entry s.pins.droop))

end Sys2Proof.Machine
end

