-- ==== Sys2Proof/Machine/Flags.lean ====
section
/-! DEFINITION. The event flags: pending sets, their masks and counts, and the interrupt lines (10_event_reporting.md). -/

namespace Sys2Proof.Machine

/-- What mask a class carries (R163). -/
inductive MaskKind
  | chains | port | bare
deriving DecidableEq, Repr

def maskKind : EventClass → MaskKind
  | .ceiling => .chains
  | .overshoot => .chains
  | .enforce => .chains
  | .unannounced => .chains
  | .stale => .chains
  | .port => .port
  | .thermal => .bare
  | .trip => .bare
  | .sensor => .bare
  | .overload => .bare
  | .scenario => .bare
  | .profile => .bare

/-- The chains a port owns, as a mask. -/
def ownedMask (owners : PerChain Owner) (p : Port) : Mask :=
  chainMask fun i => decide (portOwner p = some (owners.get i))

/-- The mask of a raise: a class with no mask carries the empty one (R165). -/
def carriedMask (r : Raise) : Mask :=
  match maskKind r.cls with
  | .bare => 0
  | _ => r.mask

/-- What a raise reaches through the destination OWN: the mask delivered, none when the port is not reached (R164). -/
def ownDelivery (owners : PerChain Owner) (r : Raise) (p : Port) : Option Mask :=
  match maskKind r.cls with
  | .bare => none
  | .port => if carriedMask r &&& onePort p = 0 then none else some (carriedMask r)
  | .chains => if carriedMask r &&& ownedMask owners p = 0 then none else some (carriedMask r &&& ownedMask owners p)

/-- The mask a port receives of a raise, none when the raise does not reach it (R164). -/
def delivered (routes : PerClass Mask) (owners : PerChain Owner) (r : Raise) (p : Port) : Option Mask :=
  if (routes.get r.cls).getLsbD (portIndex p) then some (carriedMask r)
  else if (routes.get r.cls).getLsbD 3 then ownDelivery owners r p
  else none

/-- A pending set takes a raise with its delivered mask: the class joins with count 0, or its mask grows and its count
rises, staying at 255 (R165). -/
def PendingSet.receive (ps : PendingSet) (k : EventClass) (m : Mask) : PendingSet :=
  ps.set k (match ps.get k with
    | none => some { mask := m, count := 0 }
    | some e => some { mask := e.mask ||| m, count := satInc8 e.count })

/-- No class is pending. -/
def PendingSet.isEmpty (ps : PendingSet) : Bool := EventClass.all.all fun k => (ps.get k).isNone

/-- The classes named, by bit, leave the set (R166). -/
def PendingSet.remove (ps : PendingSet) (classes : BitVec 16) : PendingSet :=
  PerClass.build fun k => if classes.getLsbD (EventClass.all.idxOf k) then none else ps.get k

/-- The pending class set, one bit per class in the positions of R163. -/
def PendingSet.classBits (ps : PendingSet) : Nat := bitsByte (EventClass.all.map fun k => (ps.get k).isSome)

/-- The READ_EVENTS payload: 26 bytes (R166). -/
def PendingSet.payload (ps : PendingSet) : List Byte :=
  le 2 ps.classBits ++ EventClass.all.flatMap fun k =>
    match ps.get k with
    | none => [0, 0]
    | some e => [BitVec.setWidth 8 e.mask, e.count]

/-- A port's pending set replaced; its interrupt line is asserted exactly while the set holds anything (R165). -/
def Evr.setPending (e : Evr) (p : Port) (ps : PendingSet) : Evr :=
  { e with sets := e.sets.set p ps, irq := e.irq.set p (!ps.isEmpty) }

/-- One port receives a raise, if it is reached. -/
def Evr.receive (owners : PerChain Owner) (r : Raise) (e : Evr) (p : Port) : Evr :=
  match delivered e.routes owners r p with
  | none => e
  | some m => e.setPending p ((e.sets.get p).receive r.cls m)

/-- The event router takes a raise: one port after another, within the one event (R164). -/
def Evr.takeRaise (owners : PerChain Owner) (r : Raise) (e : Evr) : Evr :=
  Port.all.foldl (Evr.receive owners r) e

end Sys2Proof.Machine
end

