-- ==== Sys2Proof/Machine/Events.lean ====
section
/-! DEFINITION. Event reporting (10_event_reporting.md): the requests the event router takes, and the meanings of the
commands it takes. -/

namespace Sys2Proof.Machine

/-- The EVR takes a raise, with the owners the policy store holds at that moment (R164). -/
def raiseAt (r : Raise) (s : State) : State := s.setEvr (s.evr.takeRaise s.pst.owners r)

/-- READ_EVENTS: the port's pending set, unchanged (R166). -/
def takeReadEvents (p : Port) (s : State) : State :=
  s.answer p .ok Kind.readEvents.value (s.evr.sets.get p).payload

/-- ACK_EVENTS: the classes named leave the port's pending set (R166). -/
def takeAckEvents (p : Port) (classes : BitVec 16) (s : State) : State :=
  let after := (s.evr.sets.get p).remove classes
  (s.setEvr (s.evr.setPending p after)).answer p .ok Kind.ackEvents.value (le 2 after.classBits)

/-- The destination set of a SET_ROUTE: the low four bits (R167). -/
def destinationsOf (b : Byte) : Mask := b.setWidth 4

/-- SET_ROUTE: a class's destination set is replaced, in LOADING as in RUN (R167). -/
def takeSetRoute (p : Port) (cls destinations : Byte) (s : State) : State :=
  match classOfByte cls with
  | none => s.answer p .badValue Kind.setRoute.value []
  | some k =>
    (s.setEvr { s.evr with routes := s.evr.routes.set k (destinationsOf destinations) }).answer p .ok
      Kind.setRoute.value [cls, (destinationsOf destinations).setWidth 8]

/-- The EVR empties a port's pending set at a PORT_RESET (R168). -/
def emptyPending (p : Port) (s : State) : State := s.setEvr (s.evr.setPending p PendingSet.empty)

/-! ### Meanings -/

/-- EVENT_RAISE, in the order the raising block made its raises (R163 to R165). -/
def execEventRaise (r : Raise) (s : State) : Host.Outcome State Fault Refusal :=
  .next (s.taking (.eventRaise r) (raiseAt r))

/-- ROUTING_DELIVERY: the whole table is replaced (R167, R172). -/
def execRoutingDelivery (r : PerClass Mask) (s : State) : Host.Outcome State Fault Refusal :=
  .next (s.taking (.routingDelivery r) fun x => (x.setEvr { x.evr with routes := r }).enterRunWhenDelivered)

end Sys2Proof.Machine
end

