-- ==== Sys2Proof/Machine/Policy.lean ====
section
/-! DEFINITION. Scenarios and policy (08_scenarios_and_policy.md): scenario and profile applies, selects, caps, owners,
and the meanings of the commands the PST takes. -/

namespace Sys2Proof.Machine

/-! ### Limits and caps (R136, R140) -/

/-- The lesser of two codes. -/
def minCode (a b : Code) : Code := if a.toNat ≤ b.toNat then a else b

/-- The clamps of R136 for one group. -/
def clampGroup (aMax : Code) (l : GroupLimits) : GroupLimits where
  avg := minCode l.avg aMax
  floor := minCode l.floor (minCode l.avg aMax)
  window := l.window

/-- The limits in force of a record under the maxima (R136). -/
def clampLimits (aMax : PerGroup Code) (r : ScenarioRecord) : PerGroup GroupLimits :=
  PerGroup.build fun g => clampGroup (aMax.get g) (r.limits.get g)

/-- A default cap as the apply stores it (R140). -/
def defaultCap (cmax : Code) : Option Code → Cap
  | none => .uncapped
  | some c => .code (minCode c cmax)

/-- A cap as SET_CAP stores it (R142). -/
def storedCap (cmax : Code) : Cap → Cap
  | .code c => .code (minCode c cmax)
  | .off => .off
  | .uncapped => .uncapped

/-- The record of a table entry. Entry 0 is valid in every table (R135). -/
def Pst.record (p : Pst) (j : Nat) : ScenarioRecord := p.table.getD j Rom.scenario

/-- A scenario apply: the index becomes active, none is pending, and limits, weights and caps are the record's (R140). -/
def Pst.applyScenario (p : Pst) (j : Nat) : Pst :=
  { p with
    active := j
    pendingIndex := none
    limits := clampLimits p.aMax (p.record j)
    weights := (p.record j).weights
    caps := PerChain.build fun i => defaultCap (p.chainParams.get i).cmax ((p.record j).defaultCaps.get i) }

/-! ### Profiles (R141, R146) -/

/-- The chain parameters a LIMITS section gives the PST (R141). -/
def sectionChains (l : LimitsSection) : PerChain ChainParams :=
  PerChain.build fun i => { cmax := (l.chains.get i).cmax, k := (l.chains.get i).k, group := (l.chains.get i).group }

/-- The chain-to-group map of a LIMITS section (R47, R172). -/
def sectionMap (l : LimitsSection) : PerChain Group := PerChain.build fun i => (l.chains.get i).group

/-- The default owners of a LIMITS section (R146). -/
def sectionOwners (l : LimitsSection) : PerChain Owner := PerChain.build fun i => (l.chains.get i).owner

/-- The parameters of the BAU in a LIMITS section (R29, R172). -/
def sectionBau (l : LimitsSection) : BauParams where
  chains := PerChain.build fun i => { cmax := (l.chains.get i).cmax, k := (l.chains.get i).k }
  staleMs := l.staleMs
  graceMs := l.graceMs
  threshold := l.threshold

/-- The PST takes an accepted LIMITS section: maxima, chain parameters, and the limits in force formed again (R141). -/
def Pst.takeLimits (p : Pst) (l : LimitsSection) : Pst :=
  { p with aMax := l.aMax, chainParams := sectionChains l, limits := clampLimits l.aMax (p.record p.active) }

/-- The PST takes the accepted sections of a staged profile, before the scenario is settled (R141). -/
def Pst.takeSections (p : Pst) (x : Sections) : Pst :=
  let p1 := match x.limits with
    | none => p
    | some l => p.takeLimits l
  { p1 with
    chainZone := (x.thermal.map fun t => t.chainZone).getD p1.chainZone
    table := x.scenarios.getD p1.table }

/-- The active index if it is valid in the table, otherwise 0 (R141). -/
def Pst.reapplied (p : Pst) : Nat := if p.active < p.table.length then p.active else 0

/-- The index a close applies, none when it applies none; replaced says the close brings a new table (R139, R141). -/
def Pst.applyIndex (p : Pst) (replaced : Bool) : Option Nat :=
  match replaced, p.pendingIndex with
  | true, some j => if j < p.table.length then some j else some p.reapplied
  | true, none => some p.reapplied
  | false, pending => pending

/-- The scenario is settled: the index applied, if any (R139, R141). -/
def Pst.settle (p : Pst) (j : Option Nat) : Pst :=
  match j with
  | none => p
  | some j => p.applyScenario j

/-! ### Deliveries -/

/-- The profile delivery of R75 from the values the PST holds. -/
def Pst.profileNotice (p : Pst) : Instr :=
  .profileDelivery (PerChain.build fun i =>
    { cmax := (p.chainParams.get i).cmax
      k := (p.chainParams.get i).k
      group := (p.chainParams.get i).group
      zone := p.chainZone.get i })

/-- The scenario delivery of R74 from the values the PST holds. -/
def Pst.scenarioNotice (p : Pst) : Instr := .scenarioDelivery p.weights p.caps

/-- The policy answer of R47 with a map where LIMITS was applied. -/
def Pst.answer (p : Pst) (map : Option (PerChain Group)) : PolicyAnswer :=
  { scenario := p.active, limits := p.limits, map := map }

/-- An optional notice. -/
def optionally {α : Type} (f : α → Instr) : Option α → List Instr
  | none => []
  | some a => [f a]

/-- The deliveries of a staged profile to the thermal unit, the overload unit and the event router (R141). -/
def sectionNotices (x : Sections) : List Instr :=
  optionally .thermalDelivery x.thermal ++ optionally .overloadDelivery x.overload ++
    optionally .routingDelivery x.routing

/-! ### The epoch close at the PST (R139, R141, R175) -/

/-- The staged profile that is ready, if the loader is STAGED (R175). -/
def readyProfile (p : Pld) : Option Sections := if p.state = .staged then p.staged else none

/-- The PST after a close: the profile taken and the scenario settled (R139, steps 1 and 2). -/
def Pst.afterClose (p : Pst) (ready : Option Sections) : Pst :=
  match ready with
  | none => p.settle (p.applyIndex false)
  | some x => (p.takeSections x).settle ((p.takeSections x).applyIndex x.scenarios.isSome)

/-- The index a close applies. -/
def Pst.closeIndex (p : Pst) (ready : Option Sections) : Option Nat :=
  match ready with
  | none => p.applyIndex false
  | some x => (p.takeSections x).applyIndex x.scenarios.isSome

/-- The LIMITS section a close applies. -/
def appliedLimits (ready : Option Sections) : Option LimitsSection := ready.bind fun x => x.limits

/-- What the PST sends at a close, in the order of R139 (log 25). -/
def closeNotices (ready : Option Sections) (p : Pst) : List Instr :=
  let after := p.afterClose ready
  let applied := p.closeIndex ready
  optionally (fun _ => raiseBare .scenario) applied ++
    [.policyAnswer (after.answer ((appliedLimits ready).map sectionMap)),
      .bauCloseAnswer ((appliedLimits ready).map sectionBau)] ++
    optionally (fun _ => after.profileNotice) ready ++ optionally (fun _ => after.scenarioNotice) applied ++
    ((ready.map sectionNotices).getD [])

/-- The PST's part of the close. -/
def pstClose (ready : Option Sections) (p : Pst) : Eff Pst := ⟨p.afterClose ready, closeNotices ready p⟩

/-- The loader gives up a staged profile that has been applied: it takes the protected end and guarded list of an
accepted LIMITS section, goes to IDLE and raises PROFILE (R175). -/
def profileTaken (x : Sections) (p : Pld) : Eff Pld :=
  ⟨{ p with
      state := .idle
      staged := none
      protectedEnd := (x.limits.map fun l => l.protectedEnd).getD p.protectedEnd
      guardedList := (x.limits.map fun l => l.guarded).getD p.guardedList },
    [raiseBare .profile]⟩

/-- The close notice at the PST (R139). -/
def takePstClose (s : State) : State :=
  match readyProfile s.pld with
  | none => s.runPst (pstClose none)
  | some x => (s.runPst (pstClose (some x))).runPld (profileTaken x)

/-! ### Start-up (R146) -/

/-- The PST with the start-up sections taken and entry 0 applied (R146). -/
def Pst.started (p : Pst) (d : PolicyDelivery) : Pst :=
  { p with
    table := d.scenarios
    aMax := d.limits.aMax
    chainParams := sectionChains d.limits
    owners := sectionOwners d.limits
    chainZone := d.zones }.applyScenario 0

/-- The start-up delivery at the PST (R146). -/
def pstStartup (d : PolicyDelivery) (p : Pst) : Eff Pst :=
  ⟨p.started d,
    [(p.started d).profileNotice, (p.started d).scenarioNotice, .startupPolicyAnswer ((p.started d).answer none)]⟩

/-! ### Requests -/

/-- An index as READ_STATUS and SELECT_SCENARIO carry it, 0xFF for none (R155). -/
def indexByte : Option Nat → Byte
  | none => 0xFF
  | some j => BitVec.ofNat 8 j

/-- The PST takes SELECT_SCENARIO (R137, R138). -/
def takeSelectScenario (p : Port) (index : Byte) (s : State) : State :=
  if s.isLoading then s.answer p .busy Kind.selectScenario.value []
  else if index.toNat < s.pst.table.length then
    ({ s with pst := { s.pst with pendingIndex := some index.toNat } }).answer p .ok Kind.selectScenario.value
      [BitVec.ofNat 8 s.pst.active, index]
  else s.answer p .badValue Kind.selectScenario.value []

/-- An accepted SET_CAP: the cap is replaced and delivered to the CLU (R142). -/
def setCap (i : Chain) (cap : Cap) (p : Pst) : Eff Pst :=
  ⟨{ p with caps := p.caps.set i cap }, [.capDelivery i cap]⟩

/-- The PST takes SET_CAP (R142). -/
def takeSetCap (p : Port) (chain : Byte) (value : WireCeiling) (s : State) : State :=
  if s.isLoading then s.answer p .busy Kind.setCap.value []
  else
    match chainOfByte chain, capOfWire value with
    | some i, some c =>
      let cap := storedCap (s.pst.chainParams.get i).cmax c
      (s.runPst (setCap i cap)).answer p .ok Kind.setCap.value ([chain] ++ capBytes cap)
    | _, _ => s.answer p .badValue Kind.setCap.value []

/-- The enforcement clear request of an accepted SET_OWNER: the owner changes and the chain is enforced (R98, R145). -/
def clearRequest (s : State) (i : Chain) (o : Owner) : List Instr :=
  if decide (s.pst.owners.get i ≠ o) && (s.bau.chains.get i).enforced then
    [.enforcementClearRequest i s.bau.shared.epoch]
  else []

/-- An accepted SET_OWNER: the owner is replaced, the clear request is sent, the queue's flush is ordered (R144, R145,
R33; log 11). -/
def setOwner (i : Chain) (o : Owner) (s : State) : State :=
  bauReceive (.flush i)
    (({ s with pst := { s.pst with owners := s.pst.owners.set i o } }).send (clearRequest s i o))

/-- The PST takes SET_OWNER (R144, R145). -/
def takeSetOwner (p : Port) (chain owner : Byte) (s : State) : State :=
  if s.isLoading then s.answer p .busy Kind.setOwner.value []
  else
    match chainOfByte chain, ownerOfByte owner with
    | some i, some o => (setOwner i o s).answer p .ok Kind.setOwner.value [chain, owner]
    | _, _ => s.answer p .badValue Kind.setOwner.value []

/-! ### Meanings -/

/-- PST_CLOSE_NOTICE (R139 to R141, R175). -/
def execPstCloseNotice (n : CloseNotice) (s : State) : Host.Outcome State Fault Refusal :=
  .next (takePstClose (s.takeNotice (.pstCloseNotice n)))

/-- PST_STARTUP_DELIVERY (R146). It sends deliveries of its own, so it is never the last the entry to RUN waits for. -/
def execPstStartupDelivery (d : PolicyDelivery) (s : State) : Host.Outcome State Fault Refusal :=
  .next ((s.takeNotice (.pstStartupDelivery d)).runPst (pstStartup d))

end Sys2Proof.Machine
end

