-- ==== Sys2Proof/Machine/Profile.lean ====
section
/-! DEFINITION. Profile image and flash port (11_profile_image_and_flash_port.md): reading and judging an image, the
start-up load, the reload, flash transfers, and the meanings of the commands the PLD takes. -/

namespace Sys2Proof.Machine

/-! ### The flash as a load reads it (R170; log 16) -/

/-- The byte of a block at an address, if the block holds it. -/
def blockByte (a : Nat) (b : FlashBlock) : Option Byte := if b.base ≤ a then b.bytes[a - b.base]? else none

/-- The byte the flash returns at an address: 0xFF where the image lists none. -/
def flashByte (img : FlashImage) (a : Nat) : Byte := (img.findSome? (blockByte a)).getD 0xFF

/-- The bytes the flash returns from an address on. -/
def flashRead (img : FlashImage) (a n : Nat) : List Byte := (List.range n).map fun k => flashByte img (a + k)

/-- What the loader shifts out for one read: command 0x03 and the address, most significant byte first (R170). -/
def readSequence (a : Nat) : List Byte :=
  [0x03, BitVec.ofNat 8 (a / 65536), BitVec.ofNat 8 (a / 256), BitVec.ofNat 8 a]

/-! ### Ranges -/

def inRange (lo hi v : Nat) : Bool := decide (lo ≤ v) && decide (v ≤ hi)
def inRangeInt (lo hi v : Int) : Bool := decide (lo ≤ v) && decide (v ≤ hi)

/-- A value kept when it lies in its range. -/
def checked {α : Type} (ok : Bool) (a : α) : Option α := if ok then some a else none

/-- Every element, when there is one for each. -/
def allSome {α : Type} : List (Option α) → Option (List α)
  | [] => some []
  | none :: _ => none
  | some a :: rest => (allSome rest).map (a :: ·)

/-- One value per chain, when there is one for each. -/
def allChains {α : Type} (f : Chain → Option α) : Option (PerChain α) :=
  match f .tx0, f .tx1, f .tx2, f .tx3 with
  | some a, some b, some c, some d => some ⟨a, b, c, d⟩
  | _, _, _, _ => none

/-- One value per group, when there is one for each. -/
def allGroups {α : Type} (f : Group → Option α) : Option (PerGroup α) :=
  match f .g0, f .g1 with
  | some a, some b => some ⟨a, b⟩
  | _, _ => none

/-- One value per zone, when there is one for each. -/
def allZones {α : Type} (f : Zone → Option α) : Option (PerZone α) :=
  match f .z0, f .z1, f .z2 with
  | some a, some b, some c => some ⟨a, b, c⟩
  | _, _, _ => none

/-- One value per sensor, when there is one for each. -/
def allSensors {α : Type} (f : Sensor → Option α) : Option (PerSensor α) :=
  match f .s0, f .s1, f .s2, f .s3 with
  | some a, some b, some c, some d => some ⟨a, b, c, d⟩
  | _, _, _, _ => none

def groupIndex : Group → Nat
  | .g0 => 0
  | .g1 => 1

def zoneIndex : Zone → Nat
  | .z0 => 0
  | .z1 => 1
  | .z2 => 2

def sensorIndex : Sensor → Nat
  | .s0 => 0
  | .s1 => 1
  | .s2 => 2
  | .s3 => 3

def zoneOfByte (b : Byte) : Option Zone :=
  match b.toNat with
  | 0 => some .z0
  | 1 => some .z1
  | 2 => some .z2
  | _ => none

def prechargeOfByte (b : Byte) : Option Precharge :=
  match b.toNat with
  | 0 => some .empty
  | 1 => some .full
  | _ => none

/-! ### LIMITS (section 9.10, R171) -/

/-- The four bytes of one chain in LIMITS. -/
def parseChainLimits (b : List Byte) (i : Chain) : Option ChainLimits :=
  match groupOfByte (byteAt b (1 + 4 * chainIndex i)), ownerOfByte (byteAt b (3 + 4 * chainIndex i)) with
  | some g, some o =>
    checked (inRange 0 32 (u8 b (2 + 4 * chainIndex i)))
      { cmax := byteAt b (4 * chainIndex i), group := g, k := u8 b (2 + 4 * chainIndex i), owner := o }
  | _, _ => none

/-- The scalar fields of LIMITS lie in their ranges. -/
def limitsScalarsOk (b : List Byte) : Bool :=
  decide (u16 b 18 ∈ [50, 100, 200, 500]) && inRange 0 15 (u8 b 21) && inRange 0 10 (u8 b 22) &&
    inRange 1 100 (u8 b 23) && inRange 1 255 (u8 b 24) && inRange 0 8 (u8 b 25)

/-- A LIMITS section from its 34 bytes, when every field lies in its range. -/
def parseLimits (b : List Byte) : Option LimitsSection :=
  match allChains (parseChainLimits b), prechargeOfByte (byteAt b 20) with
  | some chains, some p =>
    checked (limitsScalarsOk b)
      { chains := chains
        aMax := ⟨byteAt b 16, byteAt b 17⟩
        tMs := u16 b 18
        precharge := p
        threshold := u8 b 21
        graceMs := u8 b 22
        staleMs := u8 b 23
        protectedEnd := u8 b 24
        guarded := (b.drop 26).take (u8 b 25) }
  | _, _ => none

/-! ### SCENARIOS -/

/-- A default cap on the wire: form 0 a code, form 2 NONE; OFF and forms above 2 are out of range (R171). -/
def parseDefaultCap (form code : Byte) : Option (Option Code) :=
  match form.toNat with
  | 0 => some (some code)
  | 2 => some none
  | _ => none

/-- The four bytes of one group in a scenario record. -/
def parseGroupLimits (b : List Byte) (g : Group) : Option GroupLimits :=
  checked (inRange 2 1024 (u16 b (2 + 4 * groupIndex g)))
    { avg := byteAt b (4 * groupIndex g)
      floor := byteAt b (1 + 4 * groupIndex g)
      window := u16 b (2 + 4 * groupIndex g) }

/-- A scenario record from its 20 bytes. -/
def parseScenario (b : List Byte) : Option ScenarioRecord :=
  match allGroups (parseGroupLimits b),
      allChains fun i => checked (inRange 0 15 (u8 b (8 + chainIndex i))) (u8 b (8 + chainIndex i)),
      allChains fun i => parseDefaultCap (byteAt b (12 + 2 * chainIndex i)) (byteAt b (13 + 2 * chainIndex i)) with
  | some l, some w, some c => some { limits := l, weights := w, defaultCaps := c }
  | _, _, _ => none

/-- A SCENARIOS section from its bytes. -/
def parseScenarios (b : List Byte) : Option (List ScenarioRecord) :=
  allSome ((List.range (u8 b 0)).map fun r => parseScenario (b.drop (1 + 20 * r)))

/-! ### THERMAL -/

/-- The linearisation table of a sensor. -/
def parseTable (b : List Byte) (n : Sensor) : Option (List Int) :=
  allSome ((List.range 33).map fun j =>
    checked (inRangeInt (-4096) 4095 (s16 b (66 * sensorIndex n + 2 * j))) (s16 b (66 * sensorIndex n + 2 * j)))

/-- A list of temperatures is strictly increasing. -/
def strictlyRising : List Int → Bool
  | x :: y :: rest => decide (x < y) && strictlyRising (y :: rest)
  | _ => true

/-- A list of backoffs does not decrease. -/
def neverFalling : List Nat → Bool
  | x :: y :: rest => decide (x ≤ y) && neverFalling (y :: rest)
  | _ => true

/-- rise_1 to rise_7 and rise_trip of a zone block. -/
def zoneThresholds (b : List Byte) : List Int := (List.range 8).map fun j => s16 b (1 + 2 * j)

/-- backoff_1 to backoff_7 of a zone block. -/
def zoneBackoffs (b : List Byte) : List Nat := (List.range 7).map fun j => u8 b (20 + j)

/-- The fields of a zone block lie in their ranges (R117). -/
def zoneBlockOk (b : List Byte) : Bool :=
  inRange 0 15 (u8 b 0) && (zoneThresholds b).all (inRangeInt (-320) 1200) && strictlyRising (zoneThresholds b) &&
    inRange 0 80 (u8 b 17) && inRange 100 60000 (u16 b 18) && neverFalling (zoneBackoffs b) && inRange 0 7 (u8 b 27)

/-- A zone from its 28 bytes. -/
def parseZone (b : List Byte) : Option ZoneParams :=
  checked (zoneBlockOk b)
    { members := PerSensor.build fun n => (byteAt b 0).getLsbD (sensorIndex n)
      rise := (zoneThresholds b).take 7
      riseTrip := s16 b 15
      hyst := u8 b 17
      dwellMs := u16 b 18
      backoff := zoneBackoffs b
      faultStage := u8 b 27 }

/-- A THERMAL section from its 353 bytes. -/
def parseThermal (b : List Byte) : Option ThermalSection :=
  match allSensors (parseTable b), allZones fun z => parseZone (b.drop (265 + 28 * zoneIndex z)),
      allChains fun i => zoneOfByte (byteAt b (349 + chainIndex i)) with
  | some t, some z, some m =>
    checked (inRange 10 250 (u8 b 264)) { tables := t, periodMs := u8 b 264, zones := z, chainZone := m }
  | _, _, _ => none

/-! ### OVERLOAD and ROUTING -/

/-- An OVERLOAD section from its 10 bytes (R132). -/
def parseOverload (b : List Byte) : Option OverloadSection :=
  checked
    (inRange 1 64 (u8 b 0) && inRange 10 2000 (u16 b 1) && inRange 5 500 (u16 b 3) && inRange 50 5000 (u16 b 5) &&
      inRange 100 10000 (u16 b 7) && inRange 1 60 (u8 b 9))
    { oStep := u8 b 0
      holdMs := u16 b 1
      reStrikeMs := u16 b 3
      releaseMs := u16 b 5
      lockMs := u16 b 7
      chronicS := u8 b 9 }

/-- A ROUTING section from its 12 bytes: one destination set per class, in bit order. -/
def parseRouting (b : List Byte) : Option (PerClass Mask) :=
  checked ((List.range 12).all fun j => inRange 0 15 (u8 b j))
    (PerClass.build fun k => (byteAt b (EventClass.all.idxOf k)).setWidth 4)

/-! ### The directory (R170) -/

/-- A directory entry. -/
structure DirEntry where
  kind : Nat
  offset : Nat
  length : Nat
  checksum : Nat
deriving DecidableEq, Repr

/-- A directory entry from its 8 bytes. -/
def parseEntry (b : List Byte) : DirEntry :=
  { kind := u8 b 0, offset := u24 b 1, length := u16 b 4, checksum := u16 b 6 }

/-- The header is the header of an image (R170). -/
def headerOk (h : List Byte) : Bool :=
  decide (h.take 4 = [0x54, 0x42, 0x33, 0x31]) && decide (byteAt h 4 = 1) && inRange 1 8 (u8 h 5)

/-- The directory entries of an image, in order. -/
def directory (img : FlashImage) : List DirEntry :=
  (List.range (flashByte img 5).toNat).map fun j => parseEntry (flashRead img (6 + 8 * j) 8)

/-- The entry that names a kind: the first of that kind (R170). -/
def entryOf (d : List DirEntry) (kind : Nat) : Option DirEntry := d.find? fun e => decide (e.kind = kind)

/-- The entries that name a section: of a kind 1 to 5 that no earlier entry has (R170). seen lists the kinds so far. -/
def namedAfter (seen : List Nat) : List DirEntry → List DirEntry
  | [] => []
  | e :: rest =>
    if inRange 1 5 e.kind && !seen.contains e.kind then e :: namedAfter (e.kind :: seen) rest
    else namedAfter seen rest

/-- The entries of a directory that name a section. -/
def namedEntries (d : List DirEntry) : List DirEntry := namedAfter [] d

/-! ### Judging a section (R171) -/

/-- What became of one kind of section. -/
inductive Verdict (α : Type)
  | absent
  | rejected
  | accepted (a : α)
deriving DecidableEq, Repr

/-- The accepted section, if it was accepted. -/
def Verdict.section? {α : Type} : Verdict α → Option α
  | .accepted a => some a
  | _ => none

/-- The sum of a section's bytes, modulo 65,536. -/
def checksumOf (b : List Byte) : Nat := (b.map fun x => x.toNat).sum % 65536

/-- Checks 1 and 2 for a required length. -/
def placeOk (required : Nat) (e : DirEntry) : Bool :=
  decide (e.length = required) && decide (e.offset + e.length ≤ Config.flashBytes)

/-- Checks 1 to 3: the section's bytes when they pass. -/
def checkedBytes (img : FlashImage) (required : Nat) (e : DirEntry) : Option (List Byte) :=
  if placeOk required e then
    checked (decide (checksumOf (flashRead img e.offset e.length) = e.checksum)) (flashRead img e.offset e.length)
  else none

/-- A verdict from an entry and what the checks gave. -/
def verdictOf {α : Type} (e : Option DirEntry) (f : DirEntry → Option α) : Verdict α :=
  match e with
  | none => .absent
  | some e =>
    match f e with
    | none => .rejected
    | some a => .accepted a

/-- The section lies below a protected end. -/
def liesBelow (e : DirEntry) (protectedEnd : Nat) : Bool :=
  decide (e.offset + e.length ≤ protectedEnd * Config.protectedUnit)

/-- LIMITS, with check 5; at a reload it must also lie below the protected end in force. -/
def judgeLimits (img : FlashImage) (inForce : Option Nat) (e : DirEntry) : Option LimitsSection :=
  ((checkedBytes img 34 e).bind parseLimits).bind fun l =>
    checked (liesBelow e l.protectedEnd && inForce.all (liesBelow e)) l

/-- The required length of SCENARIOS, from the section's first byte (R171). -/
def scenariosLength (img : FlashImage) (e : DirEntry) : Option Nat :=
  checked (inRange 1 8 (flashByte img e.offset).toNat) (1 + 20 * (flashByte img e.offset).toNat)

def judgeScenarios (img : FlashImage) (e : DirEntry) : Option (List ScenarioRecord) :=
  ((scenariosLength img e).bind fun n => checkedBytes img n e).bind parseScenarios

def judgeThermal (img : FlashImage) (e : DirEntry) : Option ThermalSection := (checkedBytes img 353 e).bind parseThermal
def judgeOverload (img : FlashImage) (e : DirEntry) : Option OverloadSection := (checkedBytes img 10 e).bind parseOverload
def judgeRouting (img : FlashImage) (e : DirEntry) : Option (PerClass Mask) := (checkedBytes img 12 e).bind parseRouting

/-! ### A whole image -/

/-- What reading an image gives. -/
structure ImageRead where
  noImage : Bool
  limits : Verdict LimitsSection
  scenarios : Verdict (List ScenarioRecord)
  thermal : Verdict ThermalSection
  overload : Verdict OverloadSection
  routing : Verdict (PerClass Mask)
  bus : List (List Byte)
deriving DecidableEq, Repr

/-- The reads one named entry calls for (log 16). -/
def entryReads (img : FlashImage) (e : DirEntry) : List (List Byte) :=
  match e.kind with
  | 2 =>
    [readSequence e.offset] ++
      (match scenariosLength img e with
      | some n => if placeOk n e then [readSequence e.offset] else []
      | none => [])
  | 1 => if placeOk 34 e then [readSequence e.offset] else []
  | 3 => if placeOk 353 e then [readSequence e.offset] else []
  | 4 => if placeOk 10 e then [readSequence e.offset] else []
  | 5 => if placeOk 12 e then [readSequence e.offset] else []
  | _ => []

/-- A flash with no image (R170). -/
def noImageRead : ImageRead :=
  { noImage := true, limits := .absent, scenarios := .absent, thermal := .absent, overload := .absent,
    routing := .absent, bus := [readSequence 0] }

/-- An image read and judged (R170, R171); inForce is the protected end in force, at a reload. -/
def readImage (img : FlashImage) (inForce : Option Nat) : ImageRead :=
  if headerOk (flashRead img 0 6) then
    let d := directory img
    { noImage := false
      limits := verdictOf (entryOf d 1) (judgeLimits img inForce)
      scenarios := verdictOf (entryOf d 2) (judgeScenarios img)
      thermal := verdictOf (entryOf d 3) (judgeThermal img)
      overload := verdictOf (entryOf d 4) (judgeOverload img)
      routing := verdictOf (entryOf d 5) (judgeRouting img)
      bus := [readSequence 0, readSequence 6] ++ (namedEntries d).flatMap (entryReads img) }
  else noImageRead

/-- The result of a section whose absence has a result of its own. -/
def resultOf {α : Type} (missing : SectionResult) : Verdict α → SectionResult
  | .absent => missing
  | .rejected => .rejected
  | .accepted _ => .loaded

/-- The result record of a load (R174). -/
def loadResult (missing : SectionResult) (tHeld : Bool) (r : ImageRead) : LoadResult where
  noImage := r.noImage
  limits := resultOf missing r.limits
  scenarios := resultOf missing r.scenarios
  thermal := resultOf missing r.thermal
  overload := resultOf missing r.overload
  routing := resultOf missing r.routing
  tHeld := tHeld

/-! ### The start-up load (R172) -/

/-- What the start-up load delivers: the accepted sections, with the ROM values of the others. -/
structure StartupSet where
  limits : LimitsSection
  scenarios : List ScenarioRecord
  thermal : ThermalSection
  overload : OverloadSection
  routing : PerClass Mask
deriving DecidableEq, Repr

def startupSet (r : ImageRead) : StartupSet where
  limits := r.limits.section?.getD Rom.limits
  scenarios := r.scenarios.section?.getD [Rom.scenario]
  thermal := r.thermal.section?.getD Rom.thermal
  overload := r.overload.section?.getD Rom.overload
  routing := r.routing.section?.getD Rom.routing

/-- The deliveries of the start-up load and then its PROFILE raise (R172). -/
def startupNotices (x : StartupSet) : List Instr :=
  [.thermalDelivery x.thermal, .overloadDelivery x.overload,
    .pstStartupDelivery { scenarios := x.scenarios, limits := x.limits, zones := x.thermal.chainZone },
    .bauLimitsDelivery (sectionBau x.limits),
    .ewuLimitsDelivery { tMs := x.limits.tMs, precharge := x.limits.precharge, map := sectionMap x.limits },
    .routingDelivery x.routing, raiseBare .profile]

/-- The PLD at the end of the reading of the start-up load (R172). It stays in STARTUP until everything delivered has been
taken, and reports the entry to RUN then (State.enterRunWhenDelivered; log 36). -/
def startupEnd (img : FlashImage) (p : Pld) : Eff Pld :=
  let r := readImage img none
  let x := startupSet r
  ⟨{ p with
      startupResult := some (loadResult .rom false r)
      tMs := x.limits.tMs
      protectedEnd := x.limits.protectedEnd
      guardedList := x.limits.guarded
      busOut := r.bus },
    startupNotices x⟩

/-- The end of reading as the PLD takes it: only in STARTUP, once (R169). -/
def takeStartupEnd (img : FlashImage) (p : Pld) : Eff Pld :=
  if decide (p.state = .startup) && p.startupResult.isNone then startupEnd img p else Eff.pure p

/-! ### The reload (R173, R174) -/

/-- The accepted sections of an image. -/
def acceptedSections (r : ImageRead) : Sections where
  limits := r.limits.section?
  scenarios := r.scenarios.section?
  thermal := r.thermal.section?
  overload := r.overload.section?
  routing := r.routing.section?

/-- At least one section is accepted. -/
def Sections.any (x : Sections) : Bool :=
  x.limits.isSome || x.scenarios.isSome || x.thermal.isSome || x.overload.isSome || x.routing.isSome

/-- An accepted LIMITS section has a T other than the one in force (R173). -/
def holdsT (p : Pld) (x : Sections) : Bool := x.limits.any fun l => decide (l.tMs ≠ p.tMs)

/-- The start-up results that stand before any start-up load has ended (log 28). -/
def zeroResult : LoadResult :=
  { noImage := false, limits := .loaded, scenarios := .loaded, thermal := .loaded, overload := .loaded,
    routing := .loaded, tHeld := false }

/-- The OK answer to LOAD_PROFILE (R174). -/
def reloadPayload (p : Pld) (r : ImageRead) : List Byte :=
  resultBytes (loadResult .absent (holdsT p (acceptedSections r)) r) ++ resultBytes (p.startupResult.getD zeroResult)

/-- The PLD at the end of a reload: staged with at least one section accepted, otherwise IDLE and PROFILE (R173). -/
def reloadPld (r : ImageRead) (p : Pld) : Eff Pld :=
  if (acceptedSections r).any then
    Eff.pure { p with state := .staged, staged := some (acceptedSections r), loadPort := none, busOut := r.bus }
  else ⟨{ p with state := .idle, staged := none, loadPort := none, busOut := r.bus }, [raiseBare .profile]⟩

/-- A pending operation's answer fills the slot of the port that asked (R152). -/
def answerPending (port : Option Port) (status : Status) (k : Kind) (payload : List Byte) (s : State) : State :=
  match port with
  | none => s
  | some p => s.answer p status k.value payload

/-- The end of reading of a reload, in RELOADING (R173, R174). -/
def takeReloadEnd (img : FlashImage) (s : State) : State :=
  if s.pld.state = .reloading then
    let r := readImage img (some s.pld.protectedEnd)
    answerPending s.pld.loadPort .ok .loadProfile (reloadPayload s.pld r) (s.runPld (reloadPld r))
  else s

/-- LOAD_PROFILE at the PLD (R173). -/
def takeLoadProfile (p : Port) (s : State) : State :=
  if s.pld.state = .idle then
    ({ s with pld := { s.pld with state := .reloading, loadPort := some p } }).setSlot p (.pending Kind.loadProfile.value)
  else s.answer p .busy Kind.loadProfile.value []

/-! ### Flash transfers (R176, R177) -/

/-- The transfer's address lies below the protected end. -/
def belowProtected (protectedEnd : Nat) (x : XferRequest) : Bool :=
  decide (x.address.toNat < protectedEnd * Config.protectedUnit)

/-- The transfer is guarded (R177). -/
def isGuarded (protectedEnd : Nat) (guardedList : List Byte) (x : XferRequest) : Bool :=
  (decide (x.direction = 1) && decide (0 < x.count.toNat) && decide (x.addressMode = 1) &&
      belowProtected protectedEnd x) ||
    (guardedList.contains x.command && (decide (x.addressMode = 0) || belowProtected protectedEnd x))

/-- The fields the PLD checks lie in their ranges (R176). -/
def xferFieldsOk (x : XferRequest) : Bool :=
  inRange 0 1 x.addressMode.toNat && inRange 0 15 x.dummy.toNat && inRange 0 1 x.direction.toNat

/-- What a transfer shifts out before its data: command, address in mode 1, dummies (R176). -/
def xferHeader (x : XferRequest) : List Byte :=
  [x.command] ++ (if x.addressMode = 1 then (readSequence x.address.toNat).drop 1 else []) ++
    List.replicate x.dummy.toNat 0xFF

/-- What a transfer shifts out in all: the header, and the count of data bytes of an OUT (R176). -/
def xferSequence (x : XferRequest) : List Byte :=
  xferHeader x ++ if x.direction = 1 then x.data.take x.count.toNat else []

/-- The data bytes wholly shifted once n bytes of a transfer have been, header and data together (R177). -/
def dataShifted (x : XferRequest) (n : Nat) : Nat := min (n - (xferHeader x).length) x.count.toNat

/-- An accepted transfer (R176). -/
def startTransfer (p : Port) (x : XferRequest) (s : State) : State :=
  ({ s with
      pld :=
        { s.pld with
          state := .transfer
          transfer := some { request := x, guarded := isGuarded s.pld.protectedEnd s.pld.guardedList x, port := p }
          flashSelectLow := true } }).setSlot p (.pending Kind.flashXfer.value)

/-- FLASH_XFER at the PLD, with the strap as it stands (R176, R177). -/
def takeFlashXfer (p : Port) (x : XferRequest) (strapHigh : Bool) (s : State) : State :=
  let s1 := s.setPins { s.pins with strap := strapHigh }
  if s.pld.state ≠ .idle then s1.answer p .busy Kind.flashXfer.value []
  else if !xferFieldsOk x then s1.answer p .badValue Kind.flashXfer.value []
  else if isGuarded s.pld.protectedEnd s.pld.guardedList x && !strapHigh then
    s1.answer p .isProtected Kind.flashXfer.value []
  else startTransfer p x s1

/-- The PLD after a transfer that has shifted these bytes out: IDLE, select raised (R176, R177). -/
def endTransfer (out : List Byte) (p : Pld) : Pld :=
  { p with state := .idle, transfer := none, flashSelectLow := false, busOut := [out] }

/-- The bytes an IN transfer has read: count of them (log 17). -/
def readBytes (x : XferRequest) (read : List Byte) : List Byte :=
  if x.direction = 0 then (List.range x.count.toNat).map fun j => read.getD j 0xFF else []

/-- The transfer's own end (R176). -/
def takeTransferEnd (read : List Byte) (s : State) : State :=
  match s.pld.transfer with
  | none => s
  | some t =>
    ({ s with pld := endTransfer (xferSequence t.request) s.pld }).answer t.port .ok Kind.flashXfer.value
      ([t.request.count] ++ readBytes t.request read)

/-- A guarded transfer is cut at the byte boundary after n bytes, header and data together (R177; log 17). -/
def abortTransfer (t : Transfer) (n : Nat) (s : State) : State :=
  ({ s with pld := endTransfer ((xferSequence t.request).take n) s.pld }).answer t.port .aborted Kind.flashXfer.value
    [BitVec.ofNat 8 (dataShifted t.request n)]

/-- The strap falls: a guarded transfer in flight is cut, any other goes on (R177). -/
def takeStrapFall (n : Nat) (s : State) : State :=
  match s.pld.transfer with
  | none => s
  | some t => if t.guarded then abortTransfer t n s else s

/-! ### Meanings -/

/-- STARTUP_LOAD_END (R170 to R172). -/
def execStartupLoadEnd (img : FlashImage) (s : State) : Host.Outcome State Fault Refusal :=
  .next (s.runPld (takeStartupEnd img))

/-- RELOAD_END (R173, R174). -/
def execReloadEnd (img : FlashImage) (s : State) : Host.Outcome State Fault Refusal := .next (takeReloadEnd img s)

/-- TRANSFER_END (R176). -/
def execTransferEnd (read : List Byte) (s : State) : Host.Outcome State Fault Refusal := .next (takeTransferEnd read s)

/-- STRAP_FALL (R177; log 17). -/
def execStrapFall (n : Nat) (s : State) : Host.Outcome State Fault Refusal :=
  .next (takeStrapFall n (s.setPins { s.pins with strap := false }))

end Sys2Proof.Machine
end

