-- ==== Sys2Proof/Machine/Ports.lean ====
section
/-! DEFINITION. Client ports and requests (09_client_ports_and_requests.md): frames, the judgement of a request, the reads,
the resets through a port, and the meanings of the commands that reach the part through a port. -/

namespace Sys2Proof.Machine

/-! ### Requests the ports and several blocks answer -/

/-- READ_CEILINGS (R81). -/
def takeReadCeilings (p : Port) (s : State) : State := s.answer p .ok Kind.readCeilings.value (ceilingReport s)

/-- READ_STATUS (R156). -/
def takeReadStatus (p : Port) (page : Byte) (s : State) : State :=
  match statusPage s page with
  | some b => s.answer p .ok Kind.readStatus.value b
  | none => s.answer p .badValue Kind.readStatus.value []

/-- READ_HISTORY (R58, R59). -/
def takeReadHistory (p : Port) (group : Byte) (offset : BitVec 16) (count : Byte) (s : State) : State :=
  match groupOfByte group with
  | none => s.answer p .badValue Kind.readHistory.value []
  | some g =>
    let ring := (s.ewu.groups.get g).ring
    s.answer p .ok Kind.readHistory.value
      (historyPayload group ring (historyRecords ring offset.toNat count.toNat))

/-- READ_THERMAL (R120). -/
def takeReadThermal (p : Port) (s : State) : State := s.answer p .ok Kind.readThermal.value (thermalPayload s)

/-- The chain's queue is flushed if the port owns the chain (R34). -/
def flushOwned (p : Port) (s : State) (i : Chain) : State := if s.owns p i then bauReceive (.flush i) s else s

/-- PORT_RESET: the slot is emptied, the pending set is emptied, the queues of the port's chains are flushed (R158, R34,
R168). -/
def takePortReset (p : Port) (s : State) : State :=
  Chain.all.foldl (flushOwned p) (emptyPending p (s.setSlot p .empty))

/-- A delivered request is taken by its owning block, which answers it in the same event (R152). -/
def deliver (p : Port) (r : Request) (strapHigh : Bool) (s : State) : State :=
  match r with
  | .announce chain kind code d => bauReceive (.announce p chain kind code d) s
  | .readCeilings => takeReadCeilings p s
  | .readStatus page => takeReadStatus p page s
  | .readHistory group offset count => takeReadHistory p group offset count s
  | .readThermal => takeReadThermal p s
  | .readEvents => takeReadEvents p s
  | .ackEvents classes => takeAckEvents p classes s
  | .poll => s
  | .portReset => takePortReset p s
  | .selectScenario index => takeSelectScenario p index s
  | .setCap chain value => takeSetCap p chain value s
  | .setOwner chain owner => takeSetOwner p chain owner s
  | .setRoute cls destinations => takeSetRoute p cls destinations s
  | .loadProfile => takeLoadProfile p s
  | .flashXfer x => takeFlashXfer p x strapHigh s
  | .deviceReset => s.deviceReset

/-! ### The bytes of a request (R150, R154) -/

/-- The payload of a request, its fields in the order of R154. -/
def payloadBytes : Request → List Byte
  | .announce chain kind code d => [chain, kind, code] ++ le 2 d.toNat
  | .readCeilings => []
  | .readStatus page => [page]
  | .readHistory group offset count => [group] ++ le 2 offset.toNat ++ [count]
  | .readThermal => []
  | .readEvents => []
  | .ackEvents classes => le 2 classes.toNat
  | .poll => []
  | .portReset => []
  | .selectScenario index => [index]
  | .setCap chain value => [chain, value.form, value.code]
  | .setOwner chain owner => [chain, owner]
  | .setRoute cls destinations => [cls, destinations]
  | .loadProfile => []
  | .flashXfer x =>
    [x.command, x.addressMode] ++ le 3 x.address.toNat ++ [x.dummy, x.direction, x.count] ++ x.data
  | .deviceReset => []

/-- A request as a client shifts it in: kind, length, payload. -/
def requestBytes (r : Request) : List Byte :=
  [r.kind.value, BitVec.ofNat 8 (payloadBytes r).length] ++ payloadBytes r

/-- The length check of R151 for a request with its fields: only FLASH_XFER has a length that its fields decide. -/
def requestLengthOk : Request → Bool
  | .flashXfer x => xferLengthOk (8 + x.data.length) x.direction x.count
  | _ => true

/-! ### The judgement of a frame (R150, R151) -/

/-- What becomes of a frame. -/
inductive Judgement
  | truncated
  | dropped
  | refused (status : Status) (kind : Byte)
  | delivered (r : Request)
deriving DecidableEq, Repr

/-- The bytes hold a complete request (R150). -/
def isComplete (bytes : List Byte) : Bool :=
  decide (2 ≤ bytes.length) && decide (2 + min 32 (u8 bytes 1) ≤ bytes.length)

/-- Checks 4 and 5 of R151. -/
def judgePermission (p : Port) (r : Request) : Judgement :=
  if r.kind.permitted p then .delivered r else .refused .denied r.kind.value

/-- Checks 2 to 5 of R151 (log 32). -/
def judgeRequest (p : Port) (bytes : List Byte) : Judgement :=
  match kindOfByte (byteAt bytes 0) with
  | none => .refused .badRequest (byteAt bytes 0)
  | some k =>
    if lengthOk k (u8 bytes 1) (bytes.drop 2) then
      judgePermission p (parsePayload k ((bytes.drop 2).take (u8 bytes 1)))
    else .refused .badLength (byteAt bytes 0)

/-- A rising select edge judges the frame (R150, R151). -/
def judgeFrame (p : Port) (f : Frame) (bytes : List Byte) (partByte : Bool) : Judgement :=
  if partByte || !isComplete bytes then .truncated
  else if f.startedPending && decide (byteAt bytes 0 ≠ Kind.poll.value) then .dropped
  else judgeRequest p bytes

/-- A frame that carries exactly this request, judged (R151). -/
def judgeCommand (p : Port) (f : Frame) (r : Request) : Judgement :=
  if f.startedPending && decide (r.kind ≠ .poll) then .dropped
  else if requestLengthOk r then judgePermission p r
  else .refused .badLength r.kind.value

/-- A frame counted at the port, with the PORT raise (R160). -/
def countFrame (p : Port) (f : Cpi → Cpi) (s : State) : State :=
  (s.setPort p (f (s.ports.get p))).send [.eventRaise { cls := .port, mask := onePort p }]

/-- The outcome of a judged frame (R150, R151). -/
def concludeFrame (p : Port) (strapHigh : Bool) (j : Judgement) (s : State) : State :=
  match j with
  | .truncated => countFrame p (fun c => { c with truncated := satInc16 c.truncated }) s
  | .dropped => countFrame p (fun c => { c with dropped := satInc16 c.dropped }) s
  | .refused status kind => s.answer p status kind []
  | .delivered r => deliver p r strapHigh s

/-! ### Frames (R148, R149) -/

/-- A frame that starts on a slot. -/
def startFrame (x : Slot) : Frame where
  startedPending := match x with | .pending _ => true | _ => false
  startedReady := match x with | .ready _ => true | _ => false
  statusShifted := false

/-- A frame starts on the port (R149). -/
def Cpi.openFrame (c : Cpi) : Cpi :=
  { c with selectLow := true, frame := some (startFrame c.slot), shiftedOut := slotBytes c.slot }

/-- The first byte has wholly left: a response that was READY at the start is gone; it leaves once (R149). -/
def Cpi.statusLeft (f : Frame) (c : Cpi) : Cpi :=
  { c with
    frame := some { f with statusShifted := true }
    slot := if f.startedReady && !f.statusShifted then .empty else c.slot }

/-- The port once select is high again and no frame is open. -/
def Cpi.released (c : Cpi) : Cpi := { c with selectLow := false, waitHigh := false, frame := none }

/-- The port at the end of a frame: at least one whole byte has left when one has come in, and the first 34 bytes are
stored (R149, R150). -/
def Cpi.closeFrame (f : Frame) (bytes : List Byte) (c : Cpi) : Cpi :=
  { (if bytes.isEmpty then c else c.statusLeft f).released with rxBuffer := bytes.take Config.receiveBufferBytes }

/-- A rising select edge of a port with an open frame: with no clock edge there was no frame (R148, R150, R151). -/
def endFrame (p : Port) (f : Frame) (bytes : List Byte) (partByte strapHigh : Bool) (s : State) : State :=
  if bytes.isEmpty && !partByte then s.setPort p (s.ports.get p).released
  else
    concludeFrame p strapHigh (judgeFrame p f bytes partByte)
      (s.setPort p ((s.ports.get p).closeFrame f bytes))

/-- The falling select edge (R148, R149). A port whose ANNOUNCE the BAU still holds takes none: the answer is in the slot
before the next falling edge (R152; log 23). -/
def selectFall (p : Port) (s : State) : State :=
  if (s.ports.get p).selectLow || s.awaitsAnswer p then s else s.setPort p (s.ports.get p).openFrame

/-- The rising select edge (R148, R150, R151). -/
def selectRise (p : Port) (bytes : List Byte) (partByte strapHigh : Bool) (s : State) : State :=
  if (s.ports.get p).selectLow then
    match (s.ports.get p).frame with
    | none => s.setPort p (s.ports.get p).released
    | some f => endFrame p f bytes partByte strapHigh s
  else s

/-- The first byte of a frame's response or header has left (R149). -/
def statusByteShifted (p : Port) (s : State) : State :=
  match (s.ports.get p).frame with
  | none => s
  | some f => s.setPort p ((s.ports.get p).statusLeft f)

/-- The port with a frame open: the one in progress, or one that starts now. -/
def Cpi.inFrame (c : Cpi) : Cpi :=
  match c.frame with
  | some _ => c
  | none => c.openFrame

/-- The frame of a port with a frame open. -/
def Cpi.frameOr (c : Cpi) : Frame := c.frame.getD (startFrame c.slot)

/-- The state once a frame that carries exactly this request has ended at its port, before the request is judged. -/
def State.frameEnded (s : State) (p : Port) (r : Request) : State :=
  s.setPort p ((s.ports.get p).inFrame.closeFrame (s.ports.get p).frameOr (requestBytes r))

/-- The end of a frame that carries exactly this request (R148 to R152; log 5). On a port whose select line has been low
since a device reset no frame is open and none starts: its bytes are lost and the command is only the rise of the line
(R148). On a port whose ANNOUNCE the BAU still holds no frame starts (R152; log 23). -/
def requestFrame (p : Port) (r : Request) (strapHigh : Bool) (s : State) : State :=
  if (s.ports.get p).waitHigh then s.setPort p (s.ports.get p).released
  else if s.awaitsAnswer p then s
  else concludeFrame p strapHigh (judgeCommand p (s.ports.get p).frameOr r) (s.frameEnded p r)

/-! ### Meanings: the reset input and the edges of a frame -/

/-- RESET: the reset input (R159, R169). -/
def execReset (s : State) : Host.Outcome State Fault Refusal := .next s.deviceReset

/-- SELECT_FALL (R148, R149). -/
def execSelectFall (p : Port) (s : State) : Host.Outcome State Fault Refusal := .next (selectFall p s)

/-- SELECT_RISE (R148, R150 to R152; log 6). -/
def execSelectRise (p : Port) (bytes : List Byte) (partByte strapHigh : Bool) (s : State) :
    Host.Outcome State Fault Refusal := .next (selectRise p bytes partByte strapHigh s)

/-- RESPONSE_STATUS_BYTE_SHIFTED (R149). -/
def execResponseStatusByteShifted (p : Port) (s : State) : Host.Outcome State Fault Refusal :=
  .next (statusByteShifted p s)

/-! ### Meanings: requests (log 5) -/

/-- ANNOUNCE_NEXT (R14, R15). -/
def execAnnounceNext (p : Port) (chain : Byte) (code : Code) (d : BitVec 16) (s : State) :
    Host.Outcome State Fault Refusal := .next (requestFrame p (.announce chain 0 code d) s.pins.strap s)

/-- ANNOUNCE_NOW (R14, R16). -/
def execAnnounceNow (p : Port) (chain : Byte) (code : Code) (d : BitVec 16) (s : State) :
    Host.Outcome State Fault Refusal := .next (requestFrame p (.announce chain 1 code d) s.pins.strap s)

/-- READ_CEILINGS (R81). -/
def execReadCeilings (p : Port) (s : State) : Host.Outcome State Fault Refusal :=
  .next (requestFrame p .readCeilings s.pins.strap s)

/-- READ_STATUS (R156). -/
def execReadStatus (p : Port) (page : Byte) (s : State) : Host.Outcome State Fault Refusal :=
  .next (requestFrame p (.readStatus page) s.pins.strap s)

/-- READ_HISTORY (R58, R59). -/
def execReadHistory (p : Port) (group : Byte) (offset : BitVec 16) (count : Byte) (s : State) :
    Host.Outcome State Fault Refusal := .next (requestFrame p (.readHistory group offset count) s.pins.strap s)

/-- READ_THERMAL (R120). -/
def execReadThermal (p : Port) (s : State) : Host.Outcome State Fault Refusal :=
  .next (requestFrame p .readThermal s.pins.strap s)

/-- READ_EVENTS (R166). -/
def execReadEvents (p : Port) (s : State) : Host.Outcome State Fault Refusal :=
  .next (requestFrame p .readEvents s.pins.strap s)

/-- ACK_EVENTS (R166). -/
def execAckEvents (p : Port) (classes : BitVec 16) (s : State) : Host.Outcome State Fault Refusal :=
  .next (requestFrame p (.ackEvents classes) s.pins.strap s)

/-- POLL (R157). -/
def execPoll (p : Port) (s : State) : Host.Outcome State Fault Refusal := .next (requestFrame p .poll s.pins.strap s)

/-- PORT_RESET (R158). -/
def execPortReset (p : Port) (s : State) : Host.Outcome State Fault Refusal :=
  .next (requestFrame p .portReset s.pins.strap s)

/-- SELECT_SCENARIO (R137). -/
def execSelectScenario (p : Port) (index : Byte) (s : State) : Host.Outcome State Fault Refusal :=
  .next (requestFrame p (.selectScenario index) s.pins.strap s)

/-- SET_CAP (R142). -/
def execSetCap (p : Port) (chain : Byte) (value : WireCeiling) (s : State) : Host.Outcome State Fault Refusal :=
  .next (requestFrame p (.setCap chain value) s.pins.strap s)

/-- SET_OWNER (R144, R145). -/
def execSetOwner (p : Port) (chain owner : Byte) (s : State) : Host.Outcome State Fault Refusal :=
  .next (requestFrame p (.setOwner chain owner) s.pins.strap s)

/-- SET_ROUTE (R167). -/
def execSetRoute (p : Port) (cls destinations : Byte) (s : State) : Host.Outcome State Fault Refusal :=
  .next (requestFrame p (.setRoute cls destinations) s.pins.strap s)

/-- LOAD_PROFILE (R173). -/
def execLoadProfile (p : Port) (s : State) : Host.Outcome State Fault Refusal :=
  .next (requestFrame p .loadProfile s.pins.strap s)

/-- FLASH_XFER (R176, R177; log 7). -/
def execFlashXfer (p : Port) (x : XferRequest) (strapHigh : Bool) (s : State) : Host.Outcome State Fault Refusal :=
  .next (requestFrame p (.flashXfer x) strapHigh s)

/-- DEVICE_RESET (R159). -/
def execDeviceReset (p : Port) (s : State) : Host.Outcome State Fault Refusal :=
  .next (requestFrame p .deviceReset s.pins.strap s)

end Sys2Proof.Machine
end

