-- ==== Sys2Proof/Machine/Thermal.lean ====
section
/-! DEFINITION. Thermal supervision (06_thermal_supervision.md): readings, sensors, zones, the stage machine, and the
meanings of the commands the THU takes. -/

namespace Sys2Proof.Machine

/-! ### Readings (R103, R104) -/

/-- A raw reading at either extreme of the converter (R103). -/
def isFaultReading (raw : BitVec 10) : Bool := decide (raw.toNat < 3) || decide (1020 < raw.toNat)

/-- Point i of a linearisation table. -/
def tablePoint (table : List Int) (i : Nat) : Int := table.getD i 0

/-- The temperature before the clamp: interpolation rounded toward negative infinity (R104). -/
def interpolate (table : List Int) (raw : Nat) : Int :=
  tablePoint table (raw / 32) +
    (tablePoint table (raw / 32 + 1) - tablePoint table (raw / 32)) * ((raw % 32 : Nat) : Int) / 32

/-- The clamp into -40 to 150 degrees (R104). -/
def clampTemperature (t : Int) : Int := max (-320) (min 1200 t)

/-- The temperature of a good reading (R104). -/
def linearise (table : List Int) (raw : BitVec 10) : Int := clampTemperature (interpolate table raw.toNat)

/-! ### Sensors (R105, R106, R107) -/

/-- A good reading acts on a sensor (R105). -/
def goodReading (t : Int) (r : SensorRecord) : Eff SensorRecord :=
  match r.state with
  | .ok => Eff.pure { r with temperature := some t }
  | .suspect => Eff.pure { r with state := .ok, temperature := some t, faultRun := 0 }
  | .fault =>
    if r.goodRun + 1 = 3 then
      ⟨{ r with state := .ok, temperature := some t, faultRun := 0, goodRun := 3 }, [raiseBare .sensor]⟩
    else Eff.pure { r with temperature := some t, goodRun := r.goodRun + 1 }

/-- A fault reading acts on a sensor (R105). -/
def faultReading (r : SensorRecord) : Eff SensorRecord :=
  match r.state with
  | .ok => Eff.pure { r with state := .suspect, faultRun := 1 }
  | .suspect =>
    if r.faultRun + 1 = 3 then ⟨{ r with state := .fault, faultRun := 3, goodRun := 0 }, [raiseBare .sensor]⟩
    else Eff.pure { r with faultRun := r.faultRun + 1 }
  | .fault => Eff.pure { r with goodRun := 0 }

/-- One sensor's part of a round (R105). -/
def readSensor (table : List Int) (raw : BitVec 10) (r : SensorRecord) : Eff SensorRecord :=
  let r1 := { r with lastRaw := some raw }
  if isFaultReading raw then faultReading r1 else goodReading (linearise table raw) r1

/-- What a sensor contributes to its zones (R106). -/
def contribution (r : SensorRecord) : Option Int :=
  match r.state with
  | .fault => none
  | _ => r.temperature

/-! ### Zones (R108) -/

/-- The members of a zone. -/
def membersOf (p : ZoneParams) : List Sensor := Sensor.all.filter p.members.get

/-- A zone is forced: no member is outside FAULT (R108). -/
def isForced (sensors : PerSensor SensorRecord) (p : ZoneParams) : Bool :=
  (membersOf p).all fun n => decide ((sensors.get n).state = .fault)

/-- The greater of two temperatures that may be none. -/
def hottest : Option Int → Option Int → Option Int
  | none, y => y
  | some x, none => some x
  | some x, some y => some (max x y)

/-- The greatest contribution among a zone's members, none when no member contributes (R108). -/
def zoneTemperature (sensors : PerSensor SensorRecord) (p : ZoneParams) : Option Int :=
  ((membersOf p).map fun n => contribution (sensors.get n)).foldl hottest none

/-! ### The stage machine (R110 to R114) -/

/-- rise_s of a zone. -/
def riseOf (p : ZoneParams) (s : Nat) : Int := p.rise.getD (s - 1) 0

/-- The backoff of a stage: 0 in stage 0 (R115). -/
def backoffOf (p : ZoneParams) (s : Nat) : Nat := if s = 0 then 0 else p.backoff.getD (s - 1) 0

/-- The highest stage from n down to 1 whose threshold is at or below t, 0 when there is none (R112). -/
def stageReached (p : ZoneParams) (t : Int) : Nat → Nat
  | 0 => 0
  | n + 1 => if riseOf p (n + 1) ≤ t then n + 1 else stageReached p t n

/-- The notice for a zone (R115). -/
def stageNotice (z : Zone) (p : ZoneParams) (r : ZoneRecord) : Instr :=
  .stageTripNotice { zone := z, stage := r.stage, backoff := backoffOf p r.stage, trip := r.trip }

/-- The dwell restarts at a stamp (R112). -/
def restartDwell (p : ZoneParams) (at_ : Stamp) (r : ZoneRecord) : ZoneRecord :=
  { r with dwell := some (afterMs at_ p.dwellMs) }

/-- A stage change that raises THERMAL (R112, R114, R115). -/
def changeStage (z : Zone) (p : ZoneParams) (at_ : Stamp) (s : Nat) (r : ZoneRecord) : Eff ZoneRecord :=
  let r1 := restartDwell p at_ { r with stage := s }
  ⟨r1, [raiseBare .thermal, stageNotice z p r1]⟩

/-- An entry to or exit from TRIP, which raises TRIP (R111, R115). -/
def changeTrip (z : Zone) (p : ZoneParams) (at_ : Stamp) (trip : Bool) (r : ZoneRecord) : Eff ZoneRecord :=
  let r1 := restartDwell p at_ { r with stage := 7, trip := trip }
  ⟨r1, [raiseBare .trip, stageNotice z p r1]⟩

/-- The evaluation of a zone that is not forced (R110): the first matching row applies. -/
def evaluateZone (z : Zone) (p : ZoneParams) (at_ : Stamp) (t : Int) (r : ZoneRecord) : Eff ZoneRecord :=
  if r.trip then
    if t < p.riseTrip - (p.hyst : Int) then changeTrip z p at_ false r else Eff.pure r
  else if p.riseTrip ≤ t then changeTrip z p at_ true r
  else if r.stage < 7 && decide (riseOf p (r.stage + 1) ≤ t) then changeStage z p at_ (stageReached p t 7) r
  else if 0 < r.stage && decide (t < riseOf p r.stage - (p.hyst : Int)) && r.dwell.isNone then
    changeStage z p at_ (r.stage - 1) r
  else Eff.pure r

/-- The handling of a forced zone (R114). -/
def handleForced (z : Zone) (p : ZoneParams) (at_ : Stamp) (r : ZoneRecord) : Eff ZoneRecord :=
  if r.trip then Eff.pure r
  else if r.stage < p.faultStage then changeStage z p at_ p.faultStage r
  else if p.faultStage < r.stage && r.dwell.isNone then changeStage z p at_ (r.stage - 1) r
  else Eff.pure r

/-- One zone's part of a round (R108, R109). -/
def updateZone (z : Zone) (p : ZoneParams) (sensors : PerSensor SensorRecord) (at_ : Stamp) (r : ZoneRecord) :
    Eff ZoneRecord :=
  if isForced sensors p then handleForced z p at_ { r with forced := true, temperature := none }
  else
    match zoneTemperature sensors p with
    | none => Eff.pure { r with forced := false, temperature := none }
    | some t => evaluateZone z p at_ t { r with forced := false, temperature := some t }

/-! ### Rounds (R102) -/

/-- The four readings act on the four sensors. -/
def readSensors (raw : PerSensor (BitVec 10)) (t : Thu) : Eff (PerSensor SensorRecord) :=
  let one (n : Sensor) := readSensor (t.params.tables.get n) (raw.get n) (t.sensors.get n)
  ⟨PerSensor.build fun n => (one n).val, (one .s0).out ++ (one .s1).out ++ (one .s2).out ++ (one .s3).out⟩

/-- The three zones are updated from the sensors of the round. -/
def updateZones (sensors : PerSensor SensorRecord) (at_ : Stamp) (t : Thu) : Eff (PerZone ZoneRecord) :=
  let one (z : Zone) := updateZone z (t.params.zones.get z) sensors at_ (t.zones.get z)
  ⟨PerZone.build fun z => (one z).val, (one .z0).out ++ (one .z1).out ++ (one .z2).out⟩

/-- A sampling round at its stamp (R102; log 30). -/
def roundAt (raw : PerSensor (BitVec 10)) (at_ : Stamp) (t : Thu) : Eff Thu :=
  let sensors := readSensors raw t
  let zones := updateZones sensors.val at_ t
  ⟨{ t with sensors := sensors.val, zones := zones.val, timer := some (afterMs at_ t.params.periodMs) },
    sensors.out ++ zones.out⟩

/-- The sample timer's expiry: a round, when the timer runs and is due (R102; log 3), with the parameters then
held, also where it is late (log 45). -/
def samplingRound (now : Stamp) (raw : PerSensor (BitVec 10)) (t : Thu) : Eff Thu :=
  match dueTimer now t.timer with
  | none => Eff.pure t
  | some at_ => roundAt raw at_ t

/-- A dwell expires: it becomes ELAPSED (R112). -/
def dwellExpiry (now : Stamp) (z : Zone) (t : Thu) : Thu :=
  match dueTimer now (t.zones.get z).dwell with
  | none => t
  | some _ => { t with zones := t.zones.set z { t.zones.get z with dwell := none } }

/-! ### Parameters (R119) -/

/-- The notices of a delivery at the start-up load: one per zone, stage 0 (R119). R119 orders no two zones of one
delivery; they are taken in zone order (log 30). -/
def startupStageNotices : List Instr :=
  Zone.all.map fun z => .stageTripNotice { zone := z, stage := 0, backoff := 0, trip := false }

/-- A profile apply changes the backoff of a zone's current stage (R119). -/
def backoffChanges (new : ThermalSection) (t : Thu) (z : Zone) : Bool :=
  decide (backoffOf (new.zones.get z) (t.zones.get z).stage ≠ backoffOf (t.params.zones.get z) (t.zones.get z).stage)

/-- The notices of a profile apply: the zones whose current backoff changes (R119), in zone order (log 30). -/
def applyStageNotices (new : ThermalSection) (t : Thu) : List Instr :=
  (Zone.all.filter (backoffChanges new t)).map fun z => stageNotice z (new.zones.get z) (t.zones.get z)

/-- The THU takes a THERMAL section, before RUN or in RUN (R119). Until it has taken its own entry to RUN it takes one of a
close as that of the start-up load (the model's choice: log 42). A round taken after it has the new parameters, also where
it is late and its stamp lies before the boundary (the model's choice: log 45). -/
def takeThermal (new : ThermalSection) (t : Thu) : Eff Thu :=
  ⟨{ t with params := new }, if t.timer.isNone then startupStageNotices else applyStageNotices new t⟩

/-- The THU takes the entry to RUN: the first round falls one sample period after it, with the period then held (log 42); taken
once (R102). -/
def takeThuEntry (entry : Stamp) (t : Thu) : Thu :=
  match t.timer with
  | none => { t with timer := some (afterMs entry t.params.periodMs) }
  | some _ => t

/-! ### Meanings -/

/-- SAMPLING_ROUND (R102; log 24). -/
def execSamplingRound (raw : PerSensor (BitVec 10)) (s : State) : Host.Outcome State Fault Refusal :=
  .next (s.runThu (samplingRound s.timeBase raw))

/-- DWELL_EXPIRY (R112). -/
def execDwellExpiry (z : Zone) (s : State) : Host.Outcome State Fault Refusal :=
  .next (s.runThu fun t => Eff.pure (dwellExpiry s.timeBase z t))

/-- THERMAL_DELIVERY (R119, R172). In LOADING it sends a notice per zone, so it is never the last the entry to RUN waits
for. -/
def execThermalDelivery (new : ThermalSection) (s : State) : Host.Outcome State Fault Refusal :=
  .next ((s.takeNotice (.thermalDelivery new)).runThu (takeThermal new))

/-- THU_ENTRY_TO_RUN (R102). -/
def execThuEntryToRun (entry : Stamp) (s : State) : Host.Outcome State Fault Refusal :=
  .next ((s.takeNotice (.thuEntryToRun entry)).runThu fun t => Eff.pure (takeThuEntry entry t))

end Sys2Proof.Machine
end

