-- ==== Sys2Proof/Machine/Windows.lean ====
section
/-! DEFINITION. Exposure windows (03_exposure_windows.md): epochs, rings and records, precharge, the close computation,
and the meanings of the commands the EWU takes. -/

namespace Sys2Proof.Machine

/-! ### Rings and windows -/

/-- A record joins the newest end; past 1024 records the oldest is discarded (R42). -/
def pushRecord (ring : List EpochRecord) (r : EpochRecord) : List EpochRecord :=
  (ring ++ [r]).drop (ring.length + 1 - Config.ringCapacity)

/-- The window: the newest min(N - 1, fill) records (R50). -/
def windowOf (ring : List EpochRecord) (n : Nat) : List EpochRecord := ring.drop (ring.length - (n - 1))

/-- S_win of R50. -/
def windowEnergy (w : List EpochRecord) : Nat := (w.map fun r => r.energy.toNat).sum

/-- X_win of R50, under an e_res. -/
def windowExcess (w : List EpochRecord) (eRes : Nat) : Nat := (w.map fun r => excess r.energy.toNat eRes).sum

/-- The chains the map assigns to a group. -/
def groupChains (map : PerChain Group) (g : Group) : List Chain := Chain.all.filter fun i => decide (map.get i = g)

/-- The energy of a group's record (R44). -/
def groupEnergy (map : PerChain Group) (r : PerChain ChainReport) (g : Group) : Nat :=
  ((groupChains map g).map fun i => (r.get i).energy.toNat).sum

/-- The strikes of a group's record, clamped to 255 (R44). -/
def groupStrikes (map : PerChain Group) (r : PerChain ChainReport) (g : Group) : Count8 :=
  BitVec.ofNat 8 (min 255 ((groupChains map g).map fun i => (r.get i).strikes.toNat).sum)

/-- The window figures as R49 to R52 form them, exactly. -/
structure ExactFigures where
  sWin : Nat
  xWin : Nat
  xMax : Nat
  eAllow : Nat
  power : Nat
deriving DecidableEq, Repr

/-- The figures as they are held, at the widths of R12 (log 18). -/
def ExactFigures.held (f : ExactFigures) : Figures where
  sWin := BitVec.ofNat 48 f.sWin
  xWin := BitVec.ofNat 48 f.xWin
  xMax := BitVec.ofNat 48 f.xMax
  eAllow := BitVec.ofNat 48 f.eAllow
  power := BitVec.ofNat 48 f.power

/-- The window figures of a ring under limits and an epoch length (R49, R50, R51, R52). -/
def exactFigures (ring : List EpochRecord) (l : GroupLimits) (tMs : Nat) : ExactFigures :=
  let eAvg := epochEnergy l.avg tMs
  let eRes := epochEnergy l.floor tMs
  let w := windowOf ring l.window
  let xMax := windowBound l.window eAvg eRes
  let xWin := windowExcess w eRes
  let eAllow := eRes + (xMax - xWin)
  { sWin := windowEnergy w, xWin := xWin, xMax := xMax, eAllow := eAllow, power := groupPower eAllow tMs }

/-- The window figures of a ring as the EWU holds them. -/
def figuresOf (ring : List EpochRecord) (l : GroupLimits) (tMs : Nat) : Figures := (exactFigures ring l tMs).held

/-- The figures of a group recomputed over its ring and limits as they stand. -/
def EwuGroup.refresh (tMs : Nat) (w : EwuGroup) : EwuGroup := { w with figures := figuresOf w.ring w.limits tMs }

/-- The two group allowance notices (R52). R52 and R73 order neither before the other; they stand under way G0 first, and
either may be taken first (log 37). -/
def allowanceNotices (e : Ewu) : List Instr :=
  [.groupAllowanceNotice .g0 e.groups.g0.figures.power, .groupAllowanceNotice .g1 e.groups.g1.figures.power]

/-! ### The events of R41 -/

/-- The epoch timer expires at a boundary stamp: the close notices go out, the next epoch's index is the epoch index, and
the timer runs on to the next boundary (R39, R40, R41; log 12). -/
def epochExpiry (b : Stamp) (e : Ewu) : Eff Ewu :=
  ⟨{ e with
      state := .collecting
      timer := some (afterMs b e.params.tMs)
      closing := e.epochIndex
      epochIndex := nextEpoch e.epochIndex },
    [.bauCloseNotice { boundary := b, closing := e.epochIndex }, .pstCloseNotice { boundary := b, closing := e.epochIndex },
      .cluCloseNotice { boundary := b, closing := e.epochIndex }]⟩

/-- The epoch timer's expiry as the EWU takes it: only in STEADY with the deadline reached (R41; log 3). -/
def epochTimer (now : Stamp) (e : Ewu) : Eff Ewu :=
  if e.state = .steady then
    match dueTimer now e.timer with
    | some b => epochExpiry b e
    | none => Eff.pure e
  else Eff.pure e

/-- The energy report reaches the EWU: held in COLLECTING (R46, R41). -/
def holdReport (r : PerChain ChainReport) (e : Ewu) : Ewu :=
  if e.state = .collecting then { e with report := some r } else e

/-- The policy answer reaches the EWU: held in COLLECTING (R47, R41). -/
def holdAnswer (a : PolicyAnswer) (e : Ewu) : Ewu :=
  if e.state = .collecting then { e with answer := some a } else e

/-- The record of the closing epoch for a group, under the map and scenario in force before the answer (R44, R48). -/
def closingRecord (e : Ewu) (r : PerChain ChainReport) (g : Group) : EpochRecord where
  epochIndex := e.closing
  energy := BitVec.ofNat 40 (groupEnergy e.params.map r g)
  assumed := false
  strikes := groupStrikes e.params.map r g
  scenario := e.scenario

/-- A group after the push and the answer, its figures computed anew (R48 to R51). -/
def closeGroup (e : Ewu) (r : PerChain ChainReport) (a : PolicyAnswer) (g : Group) : EwuGroup :=
  let w := e.groups.get g
  EwuGroup.refresh e.params.tMs { w with ring := pushRecord w.ring (closingRecord e r g), limits := a.limits.get g }

/-- The EWU after the records are pushed and the answer is taken (R48, R56). -/
def closedEwu (e : Ewu) (r : PerChain ChainReport) (a : PolicyAnswer) : Ewu :=
  { e with
    state := .steady
    params := { e.params with map := a.map.getD e.params.map }
    scenario := a.scenario
    groups := PerGroup.build (closeGroup e r a)
    report := none
    answer := none }

/-- The close computation (R48). -/
def closeWith (r : PerChain ChainReport) (a : PolicyAnswer) (e : Ewu) : Eff Ewu :=
  let e1 := closedEwu e r a
  ⟨e1, allowanceNotices e1⟩

/-- The close computation as the EWU takes it: only in COLLECTING with both items held (R41, R48). -/
def closeComputation (e : Ewu) : Eff Ewu :=
  if e.state = .collecting then
    match e.report, e.answer with
    | some r, some a => closeWith r a e
    | _, _ => Eff.pure e
  else Eff.pure e

/-! ### Entry to RUN (R45, R53) -/

/-- An assumed record of precharge (R45). -/
def assumedRecord (energy scenario : Nat) : EpochRecord :=
  { epochIndex := 0, energy := BitVec.ofNat 40 energy, assumed := true, strikes := 0, scenario := scenario }

/-- A ring at entry to RUN (R45). -/
def prechargedRing (p : Precharge) (energy scenario : Nat) : List EpochRecord :=
  match p with
  | .full => List.replicate Config.ringCapacity (assumedRecord energy scenario)
  | .empty => []

/-- A group at entry to RUN (R45, R53). -/
def startGroup (e : Ewu) (a : PolicyAnswer) (g : Group) : EwuGroup :=
  EwuGroup.refresh e.params.tMs
    { e.groups.get g with
      ring := prechargedRing e.params.precharge (epochEnergy (a.limits.get g).avg e.params.tMs) a.scenario
      limits := a.limits.get g }

/-- The EWU once it has entered RUN at a stamp (R53, R39, R40). -/
def startedEwu (t : Stamp) (a : PolicyAnswer) (e : Ewu) : Ewu :=
  { e with
    state := .steady
    timer := some (afterMs t e.params.tMs)
    epochIndex := 1
    scenario := a.scenario
    groups := PerGroup.build (startGroup e a)
    startupAnswer := none
    heldEntry := none }

/-- The entry to RUN with the start-up answer held (R53). -/
def enterRun (t : Stamp) (a : PolicyAnswer) (e : Ewu) : Eff Ewu :=
  let e1 := startedEwu t a e
  ⟨e1, allowanceNotices e1⟩

/-- The start-up policy answer reaches the EWU in STOPPED: held, and an entry report held for it is taken (R53; log 15). -/
def takeStartupAnswer (a : PolicyAnswer) (e : Ewu) : Eff Ewu :=
  if e.state = .stopped then
    match e.heldEntry with
    | none => Eff.pure { e with startupAnswer := some a }
    | some t => enterRun t a e
  else Eff.pure e

/-- The entry to RUN reaches the EWU in STOPPED: taken once the start-up answer is held, held until then (R53). -/
def takeEntry (t : Stamp) (e : Ewu) : Eff Ewu :=
  if e.state = .stopped then
    match e.startupAnswer with
    | none => Eff.pure { e with heldEntry := some t }
    | some a => enterRun t a e
  else Eff.pure e

/-- The EWU takes its LIMITS parameters in LOADING (R172, R39, R45). -/
def takeEwuParams (x : EwuParams) (e : Ewu) : Ewu :=
  if e.state = .stopped then { e with params := x } else e

/-! ### Meanings -/

/-- EPOCH_TIMER_EXPIRY (R39, R40). -/
def execEpochTimerExpiry (s : State) : Host.Outcome State Fault Refusal := .next (s.runEwu (epochTimer s.timeBase))

/-- EPOCH_ENERGY_REPORT (R46). -/
def execEpochEnergyReport (r : PerChain ChainReport) (s : State) : Host.Outcome State Fault Refusal :=
  .next ((s.takeNotice (.epochEnergyReport r)).runEwu fun e => Eff.pure (holdReport r e))

/-- POLICY_ANSWER (R47). -/
def execPolicyAnswer (a : PolicyAnswer) (s : State) : Host.Outcome State Fault Refusal :=
  .next ((s.takeNotice (.policyAnswer a)).runEwu fun e => Eff.pure (holdAnswer a e))

/-- CLOSE_COMPUTATION (R48 to R52, R54 to R56). -/
def execCloseComputation (s : State) : Host.Outcome State Fault Refusal := .next (s.runEwu closeComputation)

/-- STARTUP_POLICY_ANSWER (R53, R146). -/
def execStartupPolicyAnswer (a : PolicyAnswer) (s : State) : Host.Outcome State Fault Refusal :=
  .next ((s.takeNotice (.startupPolicyAnswer a)).runEwu (takeStartupAnswer a))

/-- EWU_LIMITS_DELIVERY (R172). -/
def execEwuLimitsDelivery (x : EwuParams) (s : State) : Host.Outcome State Fault Refusal :=
  .next ((s.takeNotice (.ewuLimitsDelivery x)).runEwu fun e => Eff.pure (takeEwuParams x e)).enterRunWhenDelivered

/-- EWU_ENTRY_TO_RUN (R45, R53). -/
def execEwuEntryToRun (t : Stamp) (s : State) : Host.Outcome State Fault Refusal :=
  .next ((s.takeNotice (.ewuEntryToRun t)).runEwu (takeEntry t))

end Sys2Proof.Machine
end

