-- ==== Sys2Proof/Machine/Dispatch.lean ====
section
/-! DEFINITION. Every command's meaning: one arm per constructor of Instr. -/

namespace Sys2Proof.Machine

/-- The effect of a command on everything but the queue. -/
def exec (i : Instr) (s : State) : Host.Outcome State Fault Refusal :=
  match i with
  | .reset => Sys2Proof.Machine.execReset s
  | .selectFall p => Sys2Proof.Machine.execSelectFall p s
  | .selectRise p bytes partByte strapHigh => Sys2Proof.Machine.execSelectRise p bytes partByte strapHigh s
  | .announceNext p chain code maxDuration => Sys2Proof.Machine.execAnnounceNext p chain code maxDuration s
  | .announceNow p chain code maxDuration => Sys2Proof.Machine.execAnnounceNow p chain code maxDuration s
  | .readCeilings p => Sys2Proof.Machine.execReadCeilings p s
  | .readStatus p page => Sys2Proof.Machine.execReadStatus p page s
  | .readHistory p group offset count => Sys2Proof.Machine.execReadHistory p group offset count s
  | .readThermal p => Sys2Proof.Machine.execReadThermal p s
  | .readEvents p => Sys2Proof.Machine.execReadEvents p s
  | .ackEvents p classes => Sys2Proof.Machine.execAckEvents p classes s
  | .poll p => Sys2Proof.Machine.execPoll p s
  | .portReset p => Sys2Proof.Machine.execPortReset p s
  | .selectScenario p index => Sys2Proof.Machine.execSelectScenario p index s
  | .setCap p chain value => Sys2Proof.Machine.execSetCap p chain value s
  | .setOwner p chain owner => Sys2Proof.Machine.execSetOwner p chain owner s
  | .setRoute p cls destinations => Sys2Proof.Machine.execSetRoute p cls destinations s
  | .loadProfile p => Sys2Proof.Machine.execLoadProfile p s
  | .flashXfer p x strapHigh => Sys2Proof.Machine.execFlashXfer p x strapHigh s
  | .deviceReset p => Sys2Proof.Machine.execDeviceReset p s
  | .txenRise chain => Sys2Proof.Machine.execTxenRise chain s
  | .txenFall chain => Sys2Proof.Machine.execTxenFall chain s
  | .staleExpiry chain => Sys2Proof.Machine.execStaleExpiry chain s
  | .overrunExpiry chain => Sys2Proof.Machine.execOverrunExpiry chain s
  | .graceExpiry chain => Sys2Proof.Machine.execGraceExpiry chain s
  | .ceilingChangeNotice n => Sys2Proof.Machine.execCeilingChangeNotice n s
  | .epochTimerExpiry => Sys2Proof.Machine.execEpochTimerExpiry s
  | .bauCloseEvent => Sys2Proof.Machine.execBauCloseEvent s
  | .epochEnergyReport r => Sys2Proof.Machine.execEpochEnergyReport r s
  | .policyAnswer a => Sys2Proof.Machine.execPolicyAnswer a s
  | .closeComputation => Sys2Proof.Machine.execCloseComputation s
  | .pstCloseNotice n => Sys2Proof.Machine.execPstCloseNotice n s
  | .cluCloseNotice n => Sys2Proof.Machine.execCluCloseNotice n s
  | .activityNotice chain => Sys2Proof.Machine.execActivityNotice chain s
  | .quietSummary quiet => Sys2Proof.Machine.execQuietSummary quiet s
  | .groupAllowanceNotice g power => Sys2Proof.Machine.execGroupAllowanceNotice g power s
  | .scenarioDelivery weights caps => Sys2Proof.Machine.execScenarioDelivery weights caps s
  | .capDelivery chain cap => Sys2Proof.Machine.execCapDelivery chain cap s
  | .profileDelivery chains => Sys2Proof.Machine.execProfileDelivery chains s
  | .stageTripNotice n => Sys2Proof.Machine.execStageTripNotice n s
  | .levelLockNotice level oStep => Sys2Proof.Machine.execLevelLockNotice level oStep s
  | .enforcementSetRequest chain epoch => Sys2Proof.Machine.execEnforcementSetRequest chain epoch s
  | .enforcementClearRequest chain epoch => Sys2Proof.Machine.execEnforcementClearRequest chain epoch s
  | .startupLoadEnd flash => Sys2Proof.Machine.execStartupLoadEnd flash s
  | .pstStartupDelivery d => Sys2Proof.Machine.execPstStartupDelivery d s
  | .startupPolicyAnswer a => Sys2Proof.Machine.execStartupPolicyAnswer a s
  | .thermalDelivery t => Sys2Proof.Machine.execThermalDelivery t s
  | .overloadDelivery o => Sys2Proof.Machine.execOverloadDelivery o s
  | .routingDelivery r => Sys2Proof.Machine.execRoutingDelivery r s
  | .bauLimitsDelivery b => Sys2Proof.Machine.execBauLimitsDelivery b s
  | .ewuLimitsDelivery e => Sys2Proof.Machine.execEwuLimitsDelivery e s
  | .bauEntryToRun entry => Sys2Proof.Machine.execBauEntryToRun entry s
  | .ewuEntryToRun entry => Sys2Proof.Machine.execEwuEntryToRun entry s
  | .cluEntryToRun => Sys2Proof.Machine.execCluEntryToRun s
  | .thuEntryToRun entry => Sys2Proof.Machine.execThuEntryToRun entry s
  | .ovuEntryToRun entry => Sys2Proof.Machine.execOvuEntryToRun entry s
  | .samplingRound raw => Sys2Proof.Machine.execSamplingRound raw s
  | .dwellExpiry z => Sys2Proof.Machine.execDwellExpiry z s
  | .droopRise => Sys2Proof.Machine.execDroopRise s
  | .droopFall => Sys2Proof.Machine.execDroopFall s
  | .reStrikeExpiry => Sys2Proof.Machine.execReStrikeExpiry s
  | .holdExpiry => Sys2Proof.Machine.execHoldExpiry s
  | .releaseExpiry => Sys2Proof.Machine.execReleaseExpiry s
  | .lockExpiry => Sys2Proof.Machine.execLockExpiry s
  | .droopStampRetirement => Sys2Proof.Machine.execDroopStampRetirement s
  | .eventRaise r => Sys2Proof.Machine.execEventRaise r s
  | .reloadEnd flash => Sys2Proof.Machine.execReloadEnd flash s
  | .transferEnd read => Sys2Proof.Machine.execTransferEnd read s
  | .strapFall shifted => Sys2Proof.Machine.execStrapFall shifted s
  | .bauCloseNotice n => Sys2Proof.Machine.execBauCloseNotice n s
  | .bauCloseAnswer a => Sys2Proof.Machine.execBauCloseAnswer a s
  | .responseStatusByteShifted p => Sys2Proof.Machine.execResponseStatusByteShifted p s

end Sys2Proof.Machine
end

