-- ==== Sys2Proof/Machine/Step.lean ====
section
/-! DEFINITION. The step: the command at the front of the queue, or a tick of the time base when the queue is empty. -/

namespace Sys2Proof.Machine

/-- One microsecond passes and nothing else (log 1). -/
def State.tick (s : State) : State := { s with timeBase := s.timeBase + 1 }

/-- The command at the front of the queue runs on the state with the queue's rest (log 1, log 27). -/
def step (s : State) : Host.Outcome State Fault Refusal :=
  match s.pending with
  | [] => .next s.tick
  | c :: rest => exec c { s with pending := rest }

/-- The state with the command a word spells put at the front of its queue; unchanged where the word spells none. -/
def State.withFetchWord (s : State) (nbits w : Nat) : State :=
  match decodeTableWord nbits w with
  | none => s
  | some c => { s with pending := c :: s.pending }

end Sys2Proof.Machine
end

