-- ==== Sys2Proof/WellFormed.lean ====
section
/-! DEFINITION. Well-formed commands: the operands lie in the ranges the spec gives their fields. The meanings take
ill-formed operands too (log 20); statements about the part assume well-formed ones where they need to. -/

namespace Sys2Proof

/-- A number lies in a closed range. -/
def within (lo hi v : Nat) : Bool := decide (lo ≤ v) && decide (v ≤ hi)

/-- A signed number lies in a closed range. -/
def withinInt (lo hi v : Int) : Bool := decide (lo ≤ v) && decide (v ≤ hi)

/-- A list of temperatures is strictly increasing. -/
def increasing : List Int → Bool
  | x :: y :: rest => decide (x < y) && increasing (y :: rest)
  | _ => true

/-- A list of backoffs does not decrease. -/
def nonDecreasing : List Nat → Bool
  | x :: y :: rest => decide (x ≤ y) && nonDecreasing (y :: rest)
  | _ => true

/-- Limits in force: the floor at most the average, N in 2 to 1024 (R47, R136). -/
def GroupLimits.inForceWf (l : GroupLimits) : Bool := decide (l.floor.toNat ≤ l.avg.toNat) && within 2 1024 l.window

/-- The policy answer of a close (R47). -/
def PolicyAnswer.wf (a : PolicyAnswer) : Bool :=
  within 0 7 a.scenario && a.limits.g0.inForceWf && a.limits.g1.inForceWf

/-- One scenario record before the clamp (R135). -/
def ScenarioRecord.wf (r : ScenarioRecord) : Bool :=
  within 2 1024 r.limits.g0.window && within 2 1024 r.limits.g1.window && r.weights.toList.all (within 0 15)

/-- A LIMITS section (R171). -/
def LimitsSection.wf (l : LimitsSection) : Bool :=
  l.chains.toList.all (fun c => within 0 32 c.k) && decide (l.tMs ∈ [50, 100, 200, 500]) && within 0 15 l.threshold &&
    within 0 10 l.graceMs && within 1 100 l.staleMs && within 1 255 l.protectedEnd && within 0 8 l.guarded.length

/-- The parameters of one zone (R117). -/
def ZoneParams.wf (z : ZoneParams) : Bool :=
  decide (z.rise.length = 7) && decide (z.backoff.length = 7) && (z.rise ++ [z.riseTrip]).all (withinInt (-320) 1200) &&
    increasing (z.rise ++ [z.riseTrip]) && within 0 80 z.hyst && within 100 60000 z.dwellMs &&
    z.backoff.all (within 0 255) && nonDecreasing z.backoff && within 0 7 z.faultStage

/-- One linearisation table (R117). -/
def tableWf (t : List Int) : Bool := decide (t.length = 33) && t.all (withinInt (-4096) 4095)

/-- A THERMAL section (R117). -/
def ThermalSection.wf (t : ThermalSection) : Bool :=
  tableWf t.tables.s0 && tableWf t.tables.s1 && tableWf t.tables.s2 && tableWf t.tables.s3 && within 10 250 t.periodMs &&
    t.zones.z0.wf && t.zones.z1.wf && t.zones.z2.wf

/-- An OVERLOAD section (R132). -/
def OverloadSection.wf (o : OverloadSection) : Bool :=
  within 1 64 o.oStep && within 10 2000 o.holdMs && within 5 500 o.reStrikeMs && within 50 5000 o.releaseMs &&
    within 100 10000 o.lockMs && within 1 60 o.chronicS

/-- The parameters of the BAU (R6, R17, R85). -/
def BauParams.wf (b : BauParams) : Bool :=
  b.chains.toList.all (fun c => within 0 32 c.k) && within 1 100 b.staleMs && within 0 10 b.graceMs &&
    within 0 15 b.threshold

/-- The start-up delivery of the policy store (R146): one to eight records. -/
def PolicyDelivery.wf (d : PolicyDelivery) : Bool :=
  within 1 8 d.scenarios.length && d.scenarios.all ScenarioRecord.wf && d.limits.wf

/-- A stage or trip notice (R76, R115). -/
def StageNotice.wf (n : StageNotice) : Bool :=
  within 0 7 n.stage && within 0 255 n.backoff && (!n.trip || decide (n.stage = 7))

/-- The mask a raise of a class carries (R163). -/
def Raise.wf (r : Raise) : Bool :=
  match r.cls with
  | .port => decide (r.mask ∈ [1, 2, 4])
  | .ceiling => decide (r.mask ≠ 0)
  | .overshoot => oneBit
  | .enforce => oneBit
  | .unannounced => oneBit
  | .stale => oneBit
  | _ => decide (r.mask = 0)
where
  /-- The mask names one chain. -/
  oneBit : Bool := decide (r.mask ∈ [1, 2, 4, 8])

/-- A run of bytes lies in the 24-bit address space (R170). -/
def FlashBlock.wf (b : FlashBlock) : Bool := decide (b.base + b.bytes.length ≤ Config.flashBytes)

/-- An overload level (section 7.1). -/
def OverloadLevel.wf : OverloadLevel → Bool
  | .lock => true
  | .level n => within 0 4 n

/-- A ceiling change notice: OFF while the line is asserted (R80). -/
def CeilingChange.wf (n : CeilingChange) : Bool := !n.inhibit || decide (n.ceiling = .off)

/-- A command's operands lie in their ranges. A command with no check here takes every value of its operands. -/
def Instr.wf : Instr → Bool
  | .flashXfer _ x _ => within 0 24 x.data.length
  | .ceilingChangeNotice n => n.wf
  | .epochEnergyReport r => r.toList.all fun c => within 0 1185500000 c.energy.toNat
  | .policyAnswer a => a.wf
  | .groupAllowanceNotice _ p => within 0 24279040000000 p.toNat
  | .scenarioDelivery w _ => w.toList.all (within 0 15)
  | .profileDelivery p => p.toList.all fun c => within 0 32 c.k
  | .stageTripNotice n => n.wf
  | .levelLockNotice l o => l.wf && within 1 64 o
  | .startupLoadEnd img => img.all FlashBlock.wf
  | .pstStartupDelivery d => d.wf
  | .startupPolicyAnswer a => a.wf && a.map.isNone
  | .thermalDelivery t => t.wf
  | .overloadDelivery o => o.wf
  | .bauLimitsDelivery b => b.wf
  | .ewuLimitsDelivery e => decide (e.tMs ∈ [50, 100, 200, 500])
  | .eventRaise r => r.wf
  | .reloadEnd img => img.all FlashBlock.wf
  | .transferEnd b => within 0 24 b.length
  | .strapFall n => within 0 43 n
  | .bauCloseAnswer (some b) => b.wf
  | _ => true

end Sys2Proof
end

