-- ==== Sys2Proof/Safety.lean ====
section
/-! DEFINITION. What stays true of the part: the invariants that every step keeps, the sums the exposure laws speak of,
and the sender's discipline. -/

namespace Sys2Proof.Machine

/-! ### The sender's discipline (log 2) -/

/-- The commands that take a notice one unit sends another (00_scope.md, 0.3.3; R163, R172). -/
def isNotice : Instr → Bool
  | .ceilingChangeNotice _ => true
  | .epochEnergyReport _ => true
  | .policyAnswer _ => true
  | .pstCloseNotice _ => true
  | .cluCloseNotice _ => true
  | .bauCloseNotice _ => true
  | .bauCloseAnswer _ => true
  | .activityNotice _ => true
  | .quietSummary _ => true
  | .enforcementSetRequest _ _ => true
  | .enforcementClearRequest _ _ => true
  | .groupAllowanceNotice _ _ => true
  | .scenarioDelivery _ _ => true
  | .capDelivery _ _ => true
  | .profileDelivery _ => true
  | .stageTripNotice _ => true
  | .levelLockNotice _ _ => true
  | .startupPolicyAnswer _ => true
  | .pstStartupDelivery _ => true
  | .thermalDelivery _ => true
  | .overloadDelivery _ => true
  | .routingDelivery _ => true
  | .bauLimitsDelivery _ => true
  | .ewuLimitsDelivery _ => true
  | .bauEntryToRun _ => true
  | .ewuEntryToRun _ => true
  | .cluEntryToRun => true
  | .thuEntryToRun _ => true
  | .ovuEntryToRun _ => true
  | .eventRaise _ => true
  | _ => false

/-- A command may be taken now: a notice only when it is under way and no notice of its lane is under way before it. The
step itself enforces the order of the lanes (R163 and the rules Lane names). -/
def Admissible (s : State) (c : Instr) : Prop := isNotice c = true → c ∈ s.notices ∧ s.inOrder c = true

/-- Every command that waits is well formed. -/
def QueueWf (s : State) : Prop := ∀ c ∈ s.pending, c.wf = true

/-! ### The ceiling table -/

/-- The table is the one its inputs make (R72, section 4.5). -/
def CeilingInv (c : Clu) : Prop := ∀ i, (c.chains.get i).entry = tableEntry c i

/-- The exposure power of one chain's final ceiling, 0 for OFF (R67). -/
def ceilingExposure (x : CluChain) : Nat :=
  match x.entry.final with
  | .off => 0
  | .code p => lin (exposureCode p x.profile.k)

/-- The sum of R67 over the chains of a group. -/
def groupExposure (c : Clu) (g : Group) : Nat :=
  (Chain.all.map fun i => if (c.chains.get i).profile.group = g then ceilingExposure (c.chains.get i) else 0).sum

/-! ### Events -/

/-- Every interrupt line is asserted exactly while its port's set is not empty (R165). -/
def EventInv (e : Evr) : Prop := ∀ p, e.irq.get p = !(e.sets.get p).isEmpty

/-! ### Overload -/

/-- What the level allows of the timers (section 7.1, R124 to R129); edges wait only until the entry to RUN is taken (R122). -/
def OverloadInv (o : Ovu) : Prop :=
  o.level.wf = true ∧ o.history.length ≤ Config.historyCapacity ∧ (o.lock.isSome ↔ o.level = .lock) ∧
    (o.level = .lock → o.hold = none ∧ o.reStrike = none ∧ o.release = none) ∧
    (o.level = .level 0 → o.hold = none ∧ o.reStrike = none ∧ o.release = none) ∧
    (o.reStrike.isSome → o.droopHeld = true) ∧ (o.release.isSome → o.droopHeld = false) ∧ (o.inRun = true → o.early = [])

/-! ### Exposure windows -/

/-- Two neighbours in a ring: assumed records stand before all others, and successive real records carry successive
indices (R42). -/
def recordsFollow (a b : EpochRecord) : Prop :=
  (b.assumed = true → a.assumed = true) ∧ (a.assumed = false → b.epochIndex = nextEpoch a.epochIndex)

/-- A ring's records stand in order (R42). -/
def RingOrdered : List EpochRecord → Prop
  | a :: b :: rest => recordsFollow a b ∧ RingOrdered (b :: rest)
  | _ => True

/-- The index a newly closed epoch's record will carry. -/
def Ewu.openIndex (e : Ewu) : EpochIndex := if e.state = .collecting then e.closing else e.epochIndex

/-- The newest record is of the epoch before the one whose record comes next, or assumed. -/
def NewestFits (index : EpochIndex) (ring : List EpochRecord) : Prop :=
  ∀ r ∈ ring.getLast?, r.assumed = true ∨ nextEpoch r.epochIndex = index

/-- One group of the EWU in RUN: figures that are those of the ring and limits, a ring in order (R42, R50). -/
def GroupInv (e : Ewu) (w : EwuGroup) : Prop :=
  w.figures = figuresOf w.ring w.limits e.params.tMs ∧ w.ring.length ≤ Config.ringCapacity ∧ RingOrdered w.ring ∧
    NewestFits e.openIndex w.ring

/-- The EWU stopped (R61). -/
def WindowStopped (e : Ewu) : Prop :=
  e.timer = none ∧ e.epochIndex = 0 ∧ e.report = none ∧ e.answer = none ∧ e.groups = ⟨EwuGroup.reset, EwuGroup.reset⟩

/-- The EWU in RUN (R39 to R42, R50). -/
def WindowRunning (e : Ewu) : Prop :=
  e.timer.isSome ∧ e.epochIndex ≠ 0 ∧ (e.state = .steady → e.report = none ∧ e.answer = none) ∧
    (e.state = .collecting → nextEpoch e.closing = e.epochIndex) ∧ ∀ g, GroupInv e (e.groups.get g)

/-- The EWU in every state (R41). -/
def WindowInv (e : Ewu) : Prop := (e.state = .stopped → WindowStopped e) ∧ (e.state ≠ .stopped → WindowRunning e)

/-! ### Transmit bursts -/

/-- One chain of the BAU: the queue's capacity, the current segment's inhibit state, and what a running grace timer
means (R13, R27, R91, R92). -/
def BurstChainInv (c : BauChain) : Prop :=
  c.queue.length ≤ Config.queueCapacity ∧ (∀ pl, c.pulse = some pl → pl.segment.inhibited = c.heldInhibit) ∧
    (c.grace.isSome → ∃ pl, c.pulse = some pl ∧ pl.segment.inhibited = false ∧ pl.segment.marked = false ∧
      exceeds pl.segment.code c.heldCeiling = true)

/-- Events are held only behind a close notice (R29), and edges wait only until the entry to RUN is taken (R24). -/
def HeldInv (b : Bau) : Prop := (b.closeNotice = none → b.held = []) ∧ (b.inRun = true → b.early = [])

/-- The BAU. -/
def BurstInv (b : Bau) : Prop := (∀ i, BurstChainInv (b.chains.get i)) ∧ HeldInv b

/-! ### Thermal -/

/-- One sensor's runs (section 6.1, R105). -/
def SensorInv (r : SensorRecord) : Prop :=
  (r.state = .ok → r.faultRun = 0) ∧ (r.state = .suspect → 1 ≤ r.faultRun ∧ r.faultRun ≤ 2) ∧
    (r.state = .fault → r.faultRun = 3 ∧ r.goodRun ≤ 2) ∧ r.goodRun ≤ 3

/-- One zone: stage 0 to 7, 7 in TRIP, no temperature while forced (section 6.2, R108, R111). -/
def ZoneInv (p : ZoneParams) (r : ZoneRecord) : Prop :=
  r.stage ≤ 7 ∧ (r.trip = true → r.stage = 7) ∧ (r.forced = true → r.temperature = none) ∧ p.faultStage ≤ 7

/-- The THU. -/
def ThermalInv (t : Thu) : Prop :=
  (∀ n, SensorInv (t.sensors.get n)) ∧ ∀ z, ZoneInv (t.params.zones.get z) (t.zones.get z)

/-! ### Policy -/

/-- A scenario table holds one to eight valid records (R135). -/
def tableWfLength (t : List ScenarioRecord) : Prop := 1 ≤ t.length ∧ t.length ≤ 8

/-- The indices name valid entries and the limits in force are the active record's, clamped (R135 to R138). -/
def PolicyInv (p : Pst) : Prop :=
  tableWfLength p.table ∧ p.active < p.table.length ∧ (∀ j, p.pendingIndex = some j → j < p.table.length) ∧
    p.limits = clampLimits p.aMax (p.record p.active)

/-- A staged scenario table, if there is one, is a whole table (R171). -/
def StagedTable (p : Pld) : Prop := ∀ x, p.staged = some x → ∀ t, x.scenarios = some t → tableWfLength t

/-! ### The profile loader -/

/-- What each loader state holds (R169, R173, R176). In STARTUP the result of the start-up load is there once its reading
has ended (log 36). -/
def LoaderInv (p : Pld) : Prop :=
  (p.transfer.isSome ↔ p.state = .transfer) ∧ p.flashSelectLow = p.transfer.isSome ∧
    (p.staged.isSome ↔ p.state = .staged) ∧ (p.loadPort.isSome ↔ p.state = .reloading) ∧
    (p.startupResult = none → p.state = .startup)

/-! ### Ports and slots -/

/-- The operation a PENDING slot waits for is in flight for this port (R152). -/
def operationFor (s : State) (p : Port) (kind : Byte) : Prop :=
  (kind = Kind.loadProfile.value ∧ s.pld.loadPort = some p) ∨
    (kind = Kind.flashXfer.value ∧ ∃ t, s.pld.transfer = some t ∧ t.port = p)

/-- What a slot holds: a PENDING kind has its operation, a response fits 60 bytes (section 9.2, R152, R155). -/
def SlotInv (s : State) (p : Port) : Prop :=
  match (s.ports.get p).slot with
  | .empty => True
  | .pending kind => operationFor s p kind
  | .ready r => r.payload.length ≤ 60

/-- One port: a frame only while select is low, 34 stored bytes at most (R148, R150). -/
def FrameInv (c : Cpi) : Prop :=
  (c.frame.isSome → c.selectLow = true) ∧ c.rxBuffer.length ≤ Config.receiveBufferBytes ∧
    (c.waitHigh = true → c.selectLow = true ∧ c.frame = none)

/-- A transfer in flight names at most 24 bytes, and port C alone asks the loader for anything (R154, R176). -/
def TransferInv (p : Pld) : Prop :=
  (∀ t, p.transfer = some t → t.request.count.toNat ≤ Config.longestTransfer ∧ t.port = .portC) ∧
    ∀ q, p.loadPort = some q → q = .portC

/-- A port of a modem: no slot is PENDING, and a READY slot in a frame is one that the frame began with and has not yet
collected (R149, R152). -/
def ModemSlotInv (c : Cpi) : Prop :=
  (∀ k, c.slot ≠ .pending k) ∧
    ∀ f r, c.frame = some f → c.slot = .ready r → f.startedReady = true ∧ f.statusShifted = false

/-- A port whose ANNOUNCE the BAU holds is a modem's, stands between two frames with its slot EMPTY, and waits for one
answer: a delivered request always finds the slot EMPTY when it is answered (R152). -/
def AwaitInv (s : State) : Prop :=
  ∀ p, s.awaitsAnswer p = true → p ≠ .portC ∧ (s.ports.get p).slot = .empty ∧ (s.ports.get p).frame = none ∧
    (s.ports.get p).selectLow = false ∧ (s.bau.held.filter (BauEvent.announcesOn p)).length = 1

/-- The three ports. -/
def PortsInv (s : State) : Prop :=
  TransferInv s.pld ∧ (∀ p, SlotInv s p ∧ FrameInv (s.ports.get p)) ∧
    (∀ p, p ≠ .portC → ModemSlotInv (s.ports.get p)) ∧ AwaitInv s

/-! ### Words the statements about ports use -/

/-- The port and the request of a request command. -/
def requestOf : Instr → Option (Port × Request)
  | .announceNext p chain code d => some (p, .announce chain 0 code d)
  | .announceNow p chain code d => some (p, .announce chain 1 code d)
  | .readCeilings p => some (p, .readCeilings)
  | .readStatus p page => some (p, .readStatus page)
  | .readHistory p group offset count => some (p, .readHistory group offset count)
  | .readThermal p => some (p, .readThermal)
  | .readEvents p => some (p, .readEvents)
  | .ackEvents p classes => some (p, .ackEvents classes)
  | .poll p => some (p, .poll)
  | .portReset p => some (p, .portReset)
  | .selectScenario p index => some (p, .selectScenario index)
  | .setCap p chain value => some (p, .setCap chain value)
  | .setOwner p chain owner => some (p, .setOwner chain owner)
  | .setRoute p cls destinations => some (p, .setRoute cls destinations)
  | .loadProfile p => some (p, .loadProfile)
  | .flashXfer p x _ => some (p, .flashXfer x)
  | .deviceReset p => some (p, .deviceReset)
  | _ => none

/-- The level of the strap that a command samples: FLASH_XFER carries it (log 7). -/
def strapOf (c : Instr) (s : State) : Bool :=
  match c with
  | .flashXfer _ _ strapHigh => strapHigh
  | _ => s.pins.strap

/-- A frame on this port can end with a request: its select line is not one found low at a device reset and not yet seen
high (R148), and no ANNOUNCE of it awaits its answer (R152; log 23). -/
abbrev TakesFrames (s : State) (p : Port) : Prop := (s.ports.get p).waitHigh = false ∧ s.awaitsAnswer p = false

/-- A frame on this port can end with a request, and starts, or has started, with its slot not PENDING (R151). -/
abbrev StartsFree (s : State) (p : Port) : Prop := TakesFrames s p ∧ (s.ports.get p).frameOr.startedPending = false

/-- The slot once a frame with at least one whole byte has ended: a response that was READY at its start is gone (R149). -/
def collectedSlot (c : Cpi) : Slot := if c.frameOr.startedReady && !c.frameOr.statusShifted then .empty else c.slot

/-- The port's counters. -/
def sameCounters (c d : Cpi) : Prop := d.truncated = c.truncated ∧ d.dropped = c.dropped

/-- The other ports stand, and this one has no frame open and has this slot (R148, R152). -/
def PortEnded (s t : State) (p : Port) (x : Slot) : Prop :=
  (∀ q, q ≠ p → t.ports.get q = s.ports.get q) ∧ (t.ports.get p).slot = x ∧ (t.ports.get p).frame = none ∧
    (t.ports.get p).selectLow = false

/-- The same, with the port's counters as they were. -/
def PortAfter (s t : State) (p : Port) (x : Slot) : Prop :=
  PortEnded s t p x ∧ sameCounters (s.ports.get p) (t.ports.get p)

/-- The slot of an answer. -/
def answerSlot (st : Status) (k : Kind) (payload : List Byte) : Slot :=
  .ready { status := st, kind := k.value, payload := payload }

/-- A request is answered and nothing but its port changes. -/
def AnsweredOnly (s t : State) (p : Port) (st : Status) (k : Kind) (payload : List Byte) : Prop :=
  PortAfter s t p (answerSlot st k payload) ∧ t = { s with ports := t.ports }

/-- The PORT raise of a port (R160). -/
def portRaise (p : Port) : Instr := .eventRaise { cls := .port, mask := onePort p }

/-- What every device reset leaves: each unit at its values after a device reset, the time base at 0, nothing under way,
the input lines as they stood, every slot and port counter cleared and a frame in progress abandoned. -/
def ResetOutcome (s t : State) : Prop :=
  t.timeBase = 0 ∧ t.bau = Bau.reset ∧ t.ewu = Ewu.reset ∧ t.clu = Clu.reset ∧ t.thu = Thu.reset ∧ t.ovu = Ovu.reset ∧
    t.pst = Pst.reset ∧ t.evr = Evr.reset ∧ t.pld = Pld.reset ∧ t.notices = [] ∧ t.pins = s.pins ∧
    ∀ p, t.ports.get p = Cpi.reset (t.ports.get p).selectLow

/-! ### The layouts of section 9.10, by byte position -/

/-- The w bytes from place n on hold the number v, least significant first (section 0.5.5). -/
def FieldAt (b : List Byte) (n w v : Nat) : Prop := ∀ j, j < w → b[n + j]? = some (BitVec.ofNat 8 (v / 256 ^ j))

/-- The byte at place n holds these bits, bit 0 first, and zeros above them (R162). -/
def BitsAt (b : List Byte) (n : Nat) (bits : List Bool) : Prop :=
  ∃ x, b[n]? = some x ∧ ∀ j, j < 8 → x.getLsbD j = bits.getD j false

/-- A ceiling as two bytes: form 0 and the code, or form 1 and 0 (R162). -/
def CeilingAt (b : List Byte) (n : Nat) (x : Ceiling) : Prop :=
  match x with
  | .code c => FieldAt b n 1 0 ∧ b[n + 1]? = some c
  | .off => FieldAt b n 1 1 ∧ FieldAt b (n + 1) 1 0

/-- A cap as two bytes: a ceiling, or form 2 and 0 (R162). -/
def CapAt (b : List Byte) (n : Nat) (x : Cap) : Prop :=
  match x with
  | .code c => CeilingAt b n (.code c)
  | .off => CeilingAt b n .off
  | .uncapped => FieldAt b n 1 2 ∧ FieldAt b (n + 1) 1 0

/-- The two bytes from place n on hold the number v in two's complement, least significant first (section 0.5.5). -/
def SignedAt (b : List Byte) (n : Nat) (v : Int) : Prop := FieldAt b n 2 (v % 65536).toNat

/-- A temperature that may be none, in two's complement (R155). -/
def TemperatureAt (b : List Byte) (n : Nat) (t : Option Int) : Prop := SignedAt b n (t.getD (-32768))

/-- An owner: 0 NONE, 1 A, 2 B. -/
def ownerCode : Owner → Nat
  | .noOwner => 0
  | .ownerA => 1
  | .ownerB => 2

/-- The precharge: 0 NONE, 1 FULL. -/
def prechargeCode : Precharge → Nat
  | .empty => 0
  | .full => 1

/-- The device state, that of the PLD (R169; in READ_CEILINGS and READ_THERMAL the model's choice: log 44): 0 LOADING, 1 RUN. -/
def deviceState (s : State) : Nat := if s.isLoading then 0 else 1

/-- The ceiling report of section 9.10. -/
def CeilingReportLayout (s : State) (b : List Byte) : Prop :=
  b.length = 22 ∧ FieldAt b 0 1 (deviceState s) ∧ FieldAt b 1 1 s.clu.generation.toNat ∧
    ∀ i : Chain, CeilingAt b (2 + 5 * chainIndex i) (s.clu.chains.get i).entry.final ∧
      BitsAt b (4 + 5 * chainIndex i)
        [(s.clu.chains.get i).entry.binding.exposure, (s.clu.chains.get i).entry.binding.thermal,
          (s.clu.chains.get i).entry.binding.overload, (s.clu.chains.get i).entry.binding.cap,
          (s.clu.chains.get i).entry.binding.cmax, (s.clu.chains.get i).entry.binding.inhibit] ∧
      BitsAt b (5 + 5 * chainIndex i)
        [(s.clu.chains.get i).entry.inhibit, (s.clu.chains.get i).entry.causes.loading,
          (s.clu.chains.get i).entry.causes.enforce, (s.clu.chains.get i).entry.causes.trip,
          (s.clu.chains.get i).entry.causes.lock] ∧
      BitsAt b (6 + 5 * chainIndex i) [(s.clu.chains.get i).active]

/-- The DEVICE page of R156. -/
def DevicePageLayout (s : State) (b : List Byte) : Prop :=
  b.length = 32 ∧ FieldAt b 0 1 (deviceState s) ∧ FieldAt b 1 4 s.ewu.epochIndex.toNat ∧ FieldAt b 5 1 s.pst.active ∧
    FieldAt b 6 1 (s.pst.pendingIndex.getD 255) ∧
    BitsAt b 7 ((List.range 8).map fun j => decide (j < s.pst.table.length)) ∧
    (b[8]? = some s.pst.limits.g0.avg ∧ b[9]? = some s.pst.limits.g1.avg ∧ b[10]? = some s.pst.limits.g0.floor ∧
      b[11]? = some s.pst.limits.g1.floor) ∧
    FieldAt b 12 2 s.pst.limits.g0.window ∧ FieldAt b 14 2 s.pst.limits.g1.window ∧
    (∀ i : Chain, CapAt b (16 + 2 * chainIndex i) (s.pst.caps.get i) ∧
      FieldAt b (24 + chainIndex i) 1 (ownerCode (s.pst.owners.get i))) ∧
    FieldAt b 28 1 (match s.ovu.level with | .level n => n | .lock => 5) ∧ BitsAt b 29 [s.ovu.droopHeld] ∧
    BitsAt b 30 [s.ovu.chronic] ∧ FieldAt b 31 1 s.ovu.history.length

/-- A GROUP page of R156. -/
def GroupPageLayout (s : State) (g : Group) (b : List Byte) : Prop :=
  b.length = 38 ∧ FieldAt b 0 4 s.ewu.epochIndex.toNat ∧
    FieldAt b 4 6 (s.ewu.groups.get g).figures.sWin.toNat ∧ FieldAt b 10 6 (s.ewu.groups.get g).figures.xWin.toNat ∧
    FieldAt b 16 6 (s.ewu.groups.get g).figures.xMax.toNat ∧
    FieldAt b 22 6 (s.ewu.groups.get g).figures.eAllow.toNat ∧
    FieldAt b 28 6 (s.ewu.groups.get g).figures.power.toNat ∧ FieldAt b 34 2 (s.ewu.groups.get g).limits.window ∧
    FieldAt b 36 2 (s.ewu.groups.get g).ring.length

/-- The CHAINS page of R156. -/
def ChainsPageLayout (s : State) (b : List Byte) : Prop :=
  b.length = 44 ∧ ∀ i : Chain, FieldAt b (11 * chainIndex i) 1 (s.bau.chains.get i).queue.length ∧
    FieldAt b (11 * chainIndex i + 1) 2 (s.bau.chains.get i).counters.overshoots.toNat ∧
    FieldAt b (11 * chainIndex i + 3) 2 (s.bau.chains.get i).counters.unannounced.toNat ∧
    FieldAt b (11 * chainIndex i + 5) 2 (s.bau.chains.get i).counters.stale.toNat ∧
    FieldAt b (11 * chainIndex i + 7) 2 (s.bau.chains.get i).counters.enforcements.toNat ∧
    FieldAt b (11 * chainIndex i + 9) 2 (s.bau.chains.get i).counters.flushed.toNat

/-- The PORTS page of R156. -/
def PortsPageLayout (s : State) (b : List Byte) : Prop :=
  b.length = 12 ∧ ∀ p : Port, FieldAt b (4 * portIndex p) 2 (s.ports.get p).truncated.toNat ∧
    FieldAt b (4 * portIndex p + 2) 2 (s.ports.get p).dropped.toNat

/-- The history response of section 9.10 with these records. -/
def HistoryLayout (group : Byte) (fill : Nat) (records : List EpochRecord) (b : List Byte) : Prop :=
  b.length = 4 + 11 * records.length ∧ b[0]? = some group ∧ FieldAt b 1 2 fill ∧ FieldAt b 3 1 records.length ∧
    ∀ j r, records[j]? = some r →
      FieldAt b (4 + 11 * j) 4 r.epochIndex.toNat ∧ FieldAt b (8 + 11 * j) 5 r.energy.toNat ∧
        BitsAt b (13 + 11 * j)
          [r.assumed, r.scenario.testBit 0, r.scenario.testBit 1, r.scenario.testBit 2] ∧
        b[14 + 11 * j]? = some r.strikes

/-- The READ_THERMAL payload of R155. -/
def ThermalLayout (s : State) (b : List Byte) : Prop :=
  b.length = 37 ∧ FieldAt b 0 1 (deviceState s) ∧
    (∀ n : Sensor,
      FieldAt b (1 + 5 * sensorIndex n) 1
          (match (s.thu.sensors.get n).state with | .ok => 0 | .suspect => 1 | .fault => 2) ∧
        FieldAt b (2 + 5 * sensorIndex n) 2
          (match (s.thu.sensors.get n).lastRaw with | some v => v.toNat | none => 65535) ∧
        TemperatureAt b (4 + 5 * sensorIndex n) (s.thu.sensors.get n).temperature) ∧
    (∀ z : Zone, TemperatureAt b (21 + 4 * zoneIndex z) (s.thu.zones.get z).temperature ∧
      FieldAt b (23 + 4 * zoneIndex z) 1 (s.thu.zones.get z).stage ∧
      BitsAt b (24 + 4 * zoneIndex z)
        [(s.thu.zones.get z).trip, (s.thu.zones.get z).forced, (s.thu.zones.get z).dwell.isSome]) ∧
    ∀ i : Chain, FieldAt b (33 + chainIndex i) 1 (zoneIndex (s.thu.params.chainZone.get i))

/-- The READ_EVENTS payload of R166, with the classes in bit order. -/
def EventsLayout (ps : PendingSet) (b : List Byte) : Prop :=
  b.length = 26 ∧
    (∃ w : BitVec 16, FieldAt b 0 2 w.toNat ∧ (∀ j, 12 ≤ j → w.getLsbD j = false) ∧
      ∀ k, w.getLsbD (EventClass.all.idxOf k) = (ps.get k).isSome) ∧
    ∀ k, FieldAt b (2 + 2 * EventClass.all.idxOf k) 1 (match ps.get k with | none => 0 | some e => e.mask.toNat) ∧
      FieldAt b (3 + 2 * EventClass.all.idxOf k) 1 (match ps.get k with | none => 0 | some e => e.count.toNat)

/-- A result record of R174 from a place on: 7 bytes. -/
def ResultAt (b : List Byte) (n : Nat) (r : LoadResult) : Prop :=
  BitsAt b n [r.noImage] ∧ FieldAt b (n + 1) 1 (resultCode r.limits) ∧ FieldAt b (n + 2) 1 (resultCode r.scenarios) ∧
    FieldAt b (n + 3) 1 (resultCode r.thermal) ∧ FieldAt b (n + 4) 1 (resultCode r.overload) ∧
    FieldAt b (n + 5) 1 (resultCode r.routing) ∧ BitsAt b (n + 6) [r.tHeld]
where
  /-- The byte of a result: 0 LOADED, 1 ROM, 2 REJECTED, 3 ABSENT. -/
  resultCode : SectionResult → Nat
    | .loaded => 0
    | .rom => 1
    | .rejected => 2
    | .absent => 3

/-! ### The image, by byte position (section 9.10, R170, R171) -/

/-- A run of bytes of the flash covers an address. -/
def Covers (r : FlashBlock) (a : Nat) : Prop := r.base ≤ a ∧ a < r.base + r.bytes.length

/-- The byte the flash holds at an address: that of the first run that covers it, 0xFF where none does (log 16). -/
def FlashHolds (img : FlashImage) (a : Nat) (x : Byte) : Prop :=
  (∃ pre r post, img = pre ++ r :: post ∧ (∀ c ∈ pre, ¬Covers c a) ∧ r.base ≤ a ∧ r.bytes[a - r.base]? = some x) ∨
    (∀ c ∈ img, ¬Covers c a) ∧ x = 0xFF

/-- The header of an image whose directory has this many entries: marker, version 1, and the count (R170). -/
def ImageHeader (img : FlashImage) (count : Nat) : Prop :=
  1 ≤ count ∧ count ≤ 8 ∧ flashRead img 0 6 = [0x54, 0x42, 0x33, 0x31, 1, BitVec.ofNat 8 count]

/-- Directory entry j of an image. -/
def EntryAt (img : FlashImage) (j : Nat) (e : DirEntry) : Prop :=
  (e.kind < 256 ∧ e.offset < 16777216 ∧ e.length < 65536 ∧ e.checksum < 65536) ∧
    FieldAt (flashRead img (6 + 8 * j) 8) 0 1 e.kind ∧ FieldAt (flashRead img (6 + 8 * j) 8) 1 3 e.offset ∧
    FieldAt (flashRead img (6 + 8 * j) 8) 4 2 e.length ∧ FieldAt (flashRead img (6 + 8 * j) 8) 6 2 e.checksum

/-- What becomes of a kind of section in an image with this many directory entries: it is absent where no entry has the kind,
and otherwise the judgement of the first entry of the kind decides (R170, R171). -/
def VerdictFor {α : Type} (img : FlashImage) (count kind : Nat) (judge : DirEntry → Option α) (v : Verdict α) : Prop :=
  ((∀ j e, j < count → EntryAt img j e → e.kind ≠ kind) → v = .absent) ∧
    ∀ j e, j < count → EntryAt img j e → e.kind = kind → (∀ i d, i < j → EntryAt img i d → d.kind ≠ kind) →
      (judge e = none → v = .rejected) ∧ ∀ a, judge e = some a → v = .accepted a

/-- Checks 1 to 3 of R171 for a required length n: the length in the directory, the place, and the checksum. -/
def SectionChecked (img : FlashImage) (e : DirEntry) (n : Nat) : Prop :=
  e.length = n ∧ e.offset + e.length ≤ 16777216 ∧
    ((flashRead img e.offset e.length).map fun x => x.toNat).sum % 65536 = e.checksum

/-- The LIMITS section: 34 bytes. -/
def LimitsSectionLayout (b : List Byte) (l : LimitsSection) : Prop :=
  b.length = 34 ∧
    (∀ i : Chain, b[4 * chainIndex i]? = some (l.chains.get i).cmax ∧
      FieldAt b (1 + 4 * chainIndex i) 1 (groupIndex (l.chains.get i).group) ∧
      FieldAt b (2 + 4 * chainIndex i) 1 (l.chains.get i).k ∧
      FieldAt b (3 + 4 * chainIndex i) 1 (ownerCode (l.chains.get i).owner)) ∧
    (∀ g : Group, b[16 + groupIndex g]? = some (l.aMax.get g)) ∧ FieldAt b 18 2 l.tMs ∧
    FieldAt b 20 1 (prechargeCode l.precharge) ∧ FieldAt b 21 1 l.threshold ∧
    FieldAt b 22 1 l.graceMs ∧ FieldAt b 23 1 l.staleMs ∧ FieldAt b 24 1 l.protectedEnd ∧
    FieldAt b 25 1 l.guarded.length ∧ ∀ j, j < l.guarded.length → b[26 + j]? = l.guarded[j]?

/-- A scenario record from place n on: 20 bytes. The code byte of a default cap NONE is not read (R162). -/
def ScenarioAt (b : List Byte) (n : Nat) (r : ScenarioRecord) : Prop :=
  (∀ g : Group, b[n + 4 * groupIndex g]? = some (r.limits.get g).avg ∧
      b[n + (1 + 4 * groupIndex g)]? = some (r.limits.get g).floor ∧
      FieldAt b (n + (2 + 4 * groupIndex g)) 2 (r.limits.get g).window) ∧
    ∀ i : Chain, FieldAt b (n + (8 + chainIndex i)) 1 (r.weights.get i) ∧
      match r.defaultCaps.get i with
      | some c => FieldAt b (n + (12 + 2 * chainIndex i)) 1 0 ∧ b[n + (13 + 2 * chainIndex i)]? = some c
      | none => FieldAt b (n + (12 + 2 * chainIndex i)) 1 2

/-- The SCENARIOS section: the count, and 20 bytes for each record. -/
def ScenariosSectionLayout (b : List Byte) (t : List ScenarioRecord) : Prop :=
  b.length = 1 + 20 * t.length ∧ FieldAt b 0 1 t.length ∧ ∀ j r, t[j]? = some r → ScenarioAt b (1 + 20 * j) r

/-- A thermal zone block from place n on: 28 bytes. -/
def ZoneBlockAt (b : List Byte) (n : Nat) (z : ZoneParams) : Prop :=
  BitsAt b n [z.members.s0, z.members.s1, z.members.s2, z.members.s3] ∧
    (∀ j x, (z.rise ++ [z.riseTrip])[j]? = some x → SignedAt b (n + (1 + 2 * j)) x) ∧ FieldAt b (n + 17) 1 z.hyst ∧
    FieldAt b (n + 18) 2 z.dwellMs ∧ (∀ j x, z.backoff[j]? = some x → FieldAt b (n + (20 + j)) 1 x) ∧
    FieldAt b (n + 27) 1 z.faultStage

/-- The THERMAL section: 353 bytes. -/
def ThermalSectionLayout (b : List Byte) (t : ThermalSection) : Prop :=
  b.length = 353 ∧
    (∀ (n : Sensor) j x, (t.tables.get n)[j]? = some x → SignedAt b (66 * sensorIndex n + 2 * j) x) ∧
    FieldAt b 264 1 t.periodMs ∧ (∀ z : Zone, ZoneBlockAt b (265 + 28 * zoneIndex z) (t.zones.get z)) ∧
    ∀ i : Chain, FieldAt b (349 + chainIndex i) 1 (zoneIndex (t.chainZone.get i))

/-- The OVERLOAD section: 10 bytes. -/
def OverloadSectionLayout (b : List Byte) (o : OverloadSection) : Prop :=
  b.length = 10 ∧ FieldAt b 0 1 o.oStep ∧ FieldAt b 1 2 o.holdMs ∧ FieldAt b 3 2 o.reStrikeMs ∧
    FieldAt b 5 2 o.releaseMs ∧ FieldAt b 7 2 o.lockMs ∧ FieldAt b 9 1 o.chronicS

/-- The ROUTING section: 12 bytes, each a destination set of 0 to 15, in the bit order of the classes. -/
def RoutingSectionLayout (b : List Byte) (r : PerClass Mask) : Prop :=
  b.length = 12 ∧ ∀ k, FieldAt b (EventClass.all.idxOf k) 1 (r.get k).toNat

/-- What a flash transfer puts on the bus before its data (R176): the command; in mode 1 the address, most significant byte
first; the dummy count of 0xFF bytes. -/
def headerOnBus (x : XferRequest) : List Byte :=
  [x.command] ++
    (if x.addressMode = (1 : Byte) then
      [BitVec.ofNat 8 (x.address.toNat / 65536), BitVec.ofNat 8 (x.address.toNat / 256), BitVec.ofNat 8 x.address.toNat]
    else []) ++
    List.replicate x.dummy.toNat 0xFF

/-- The data a flash transfer puts on the bus (R176): the count of data bytes of an OUT. -/
def dataOnBus (x : XferRequest) : List Byte := if x.direction = (1 : Byte) then x.data.take x.count.toNat else []

/-! ### Words the statements about the units use -/

/-- The level of a line at the stamp of entry, where these edges of it have come since and it stands now at a level: what it
was before the first of them (R24, R122; log 10). -/
def StoodAtEntry (edges : List LineEdge) (now atEntry : Bool) : Prop :=
  (edges = [] → atEntry = now) ∧ ∀ e rest, edges = e :: rest → atEntry = !e.rising

/-- The ceiling a is at most the ceiling b: OFF is below every code (R1). -/
def atMost (a b : Ceiling) : Prop := leastCeiling a b = a

/-- A recompute over these inputs: the table is the one they make; a changing recompute advances the generation by one
and adds its notices to those under way (R72, R79, R80). -/
def Recomputed (now : Stamp) (base : List Instr) (c : Clu) (t : State) : Prop :=
  t.clu = { withTable c with generation := if tableChanges c then c.generation + 1 else c.generation } ∧
    t.notices = base ++ if tableChanges c then changeNotices now c else []

/-- A judged segment of this code on this chain is an overshoot: not inhibited, and above the held ceiling (R86, R99). -/
def overshoots (c : BauChain) (code : Code) : Bool := !c.heldInhibit && exceeds code c.heldCeiling

/-- The next strike on a chain enforces it: the count it brings equals a threshold that is not 0, and the chain is not yet
enforced in the epoch (R97; log 19). -/
def strikeEnforces (sh : BauShared) (c : BauChain) : Bool :=
  decide (sh.threshold ≠ 0) && decide ((satInc8 c.strikes).toNat = sh.threshold) && !c.enforced

/-- What a strike on a chain sends: nothing, or ENFORCE and the set request that names the running epoch (R97). -/
def strikeNotices (sh : BauShared) (i : Chain) (c : BauChain) : List Instr :=
  if strikeEnforces sh c then [raiseChain .enforce i, .enforcementSetRequest i sh.epoch] else []

/-- What an overshoot or an overrun on a chain sends: OVERSHOOT, and then what its strike sends (R87, R89, R96). -/
def overshootNotices (sh : BauShared) (i : Chain) (c : BauChain) : List Instr :=
  raiseChain .overshoot i :: strikeNotices sh i c

/-- A chain after a strike: the count, the enforced flag and the enforcements counter, and nothing else (R96, R97). -/
def struckOnce (sh : BauShared) (c : BauChain) : BauChain :=
  { c with
    strikes := satInc8 c.strikes
    enforced := c.enforced || strikeEnforces sh c
    counters := { c.counters with
      enforcements := if strikeEnforces sh c then satInc16 c.counters.enforcements else c.counters.enforcements } }

/-- The strikes, the enforced flag and the counters after a judgement that is an overshoot or overrun, or is not (R86, R87,
R89, R96, R97). -/
def JudgedAs (isOver : Bool) (sh : BauShared) (c d : BauChain) : Prop :=
  d.strikes = (if isOver then satInc8 c.strikes else c.strikes) ∧
    d.enforced = (if isOver then c.enforced || strikeEnforces sh c else c.enforced) ∧
    d.counters =
      { c.counters with
        overshoots := if isOver then satInc16 c.counters.overshoots else c.counters.overshoots
        enforcements :=
          if isOver && strikeEnforces sh c then satInc16 c.counters.enforcements else c.counters.enforcements }

/-- What a judgement sends (R87, R97). -/
def judgedNotices (isOver : Bool) (sh : BauShared) (i : Chain) (c : BauChain) : List Instr :=
  if isOver then overshootNotices sh i c else []

/-- What a chain holds that judging never changes: accumulator, flags, held values, parameters. -/
def sameAccount (c d : BauChain) : Prop :=
  d.accumulator = c.accumulator ∧ d.announcedInEpoch = c.announcedInEpoch ∧ d.heldCeiling = c.heldCeiling ∧
    d.heldInhibit = c.heldInhibit ∧ d.power = c.power

/-- What an unannounced pulse on a chain with no open pulse and an empty queue makes of the chain at a stamp, and sends: the
pulse and its first segment at cmax, the flag, the counter, the strike, and the judgement of the segment start (R21, R86,
R96). -/
def UnannouncedAt (t : Stamp) (sh : BauShared) (i : Chain) (c d : BauChain) (sent : List Instr) : Prop :=
  sameAccount c d ∧ d.queue = [] ∧ d.pulsedInEpoch = true ∧ d.grace = none ∧
    (∃ pl, d.pulse = some pl ∧ pl.rise = t ∧ pl.unannounced = true ∧ pl.maxDuration = none ∧ pl.overrunDeadline = none ∧
      pl.overrunMark = false ∧
      pl.segment =
        { code := c.power.cmax
          start := t
          k := c.power.k
          inhibited := c.heldInhibit
          marked := overshoots c c.power.cmax }) ∧
    ∃ struck, struck = struckOnce sh
        { c with counters := { c.counters with unannounced := satInc16 c.counters.unannounced } } ∧
      JudgedAs (overshoots c c.power.cmax) sh struck d ∧
      sent = [raiseChain .unannounced i, .activityNotice i] ++ strikeNotices sh i c ++
        judgedNotices (overshoots c c.power.cmax) sh i struck

/-- Only one chain of the BAU changes, and the pins, the notices and the ports' slots as the statement says. -/
def OtherChainsStand (s t : State) (i : Chain) : Prop :=
  (∀ j, j ≠ i → t.bau.chains.get j = s.bau.chains.get j) ∧ t.bau.shared = s.bau.shared ∧
    t.bau.inRun = s.bau.inRun ∧ t.bau.closeNotice = s.bau.closeNotice ∧ t.bau.closeAnswer = s.bau.closeAnswer ∧
    t.bau.held = s.bau.held

end Sys2Proof.Machine
end

