-- ==== Sys2Proof/Certificates/Slice0/Obligations.lean ====
section
/-! DEFINITION. The statements about the part. -/

section Statements

open Sys2Proof Sys2Proof.Machine

/-! ### The step and the queue -/

/-- A step takes the command at the front of the queue and runs its meaning on the state with the queue's rest. On an
empty queue the time base advances by one microsecond and nothing else changes (the model's choice: log 1). -/
def Obligations.StepRunsFrontCommandOrTicks : Prop :=
  (∀ (c : Instr) (s : State), step { s with pending := c :: s.pending } = exec c s) ∧
  (∀ s : State, s.pending = [] → step s = .next { s with timeBase := s.timeBase + 1 })

/-- Every command answers a next state, in which the commands that wait are as they were. That no command ends in a fault
is read by inference (log 21), and that the commands that wait outlive a device reset is the model's choice (log 9). A
notice that comes before an older one of its lane, in which a rule keeps the order of sending, changes nothing (that it
does so is read by inference: log 4). -/
def Obligations.EveryCommandRunsAndKeepsTheQueue : Prop :=
  (∀ (c : Instr) (s : State), ∃ t, exec c s = .next t ∧ t.pending = s.pending) ∧
  (∀ (c : Instr) (s : State) (l : Lane) (m : Instr), laneOf s.isLoading c = some l →
      (s.notices.find? fun n => decide (laneOf s.isLoading n = some l)) = some m → m ≠ c → exec c s = .next s)

/-! ### Resets (R38, R61, R83, R121, R134, R147, R159, R161, R168, R169) -/

/-- The reset input, and a DEVICE_RESET that port C delivers, reset every unit; a DEVICE_RESET on port A or B is DENIED
and resets nothing. What the units hold after a device reset: LOADING, every line asserted and every ceiling OFF, no
pulse and no announcement, no record, no scenario pending, no event pending, sensors OK, level 0, every timer stopped.
That the notices under way are discarded and the input lines stand is the model's choice (log 8, log 9). -/
def Obligations.DeviceResetRestoresEveryUnit : Prop :=
  ((∀ s, ∃ t, exec .reset s = .next t ∧ ResetOutcome s t) ∧
      (∀ s, StartsFree s .portC → ∃ t, exec (.deviceReset .portC) s = .next t ∧ ResetOutcome s t) ∧
      ∀ s p, p ≠ .portC → StartsFree s p →
        ∃ t, exec (.deviceReset p) s = .next t ∧ AnsweredOnly s t p .denied .deviceReset []) ∧
  (State.reset.isLoading = true ∧ State.reset.timeBase = 0 ∧
      (∀ i, (State.reset.clu.chains.get i).entry.final = .off ∧ (State.reset.clu.chains.get i).entry.inhibit = true ∧
        (State.reset.clu.chains.get i).entry.causes = { loading := true, enforce := false, trip := false, lock := false } ∧
        (State.reset.clu.chains.get i).active = false ∧ (State.reset.clu.chains.get i).weight = 8 ∧
        (State.reset.clu.chains.get i).cap = .uncapped) ∧
      State.reset.clu.generation = 0 ∧ State.reset.clu.epoch = 0 ∧
      (∀ i, (State.reset.bau.chains.get i).queue = [] ∧ (State.reset.bau.chains.get i).pulse = none ∧
        (State.reset.bau.chains.get i).accumulator = 0 ∧ (State.reset.bau.chains.get i).strikes = 0 ∧
        (State.reset.bau.chains.get i).heldCeiling = .off ∧ (State.reset.bau.chains.get i).heldInhibit = true ∧
        (State.reset.bau.chains.get i).grace = none ∧ (State.reset.bau.chains.get i).power = { cmax := 200, k := 0 }) ∧
      State.reset.bau.shared = { epoch := 0, staleMs := 20, graceMs := 2, threshold := 4 } ∧
      State.reset.ewu.state = .stopped ∧ State.reset.ewu.timer = none ∧ State.reset.ewu.epochIndex = 0 ∧
      (∀ g, (State.reset.ewu.groups.get g).ring = []) ∧
      (∀ n, (State.reset.thu.sensors.get n).state = .ok ∧ (State.reset.thu.sensors.get n).temperature = none) ∧
      (∀ z, (State.reset.thu.zones.get z).stage = 0 ∧ (State.reset.thu.zones.get z).trip = false ∧
        (State.reset.thu.zones.get z).dwell = none) ∧
      State.reset.thu.timer = none ∧ State.reset.ovu.level = .level 0 ∧ State.reset.ovu.history = [] ∧
      State.reset.ovu.chronic = false ∧ State.reset.pst.active = 0 ∧ State.reset.pst.pendingIndex = none ∧
      State.reset.pst.owners = ⟨.ownerA, .ownerA, .ownerB, .ownerB⟩ ∧
      (∀ p, (State.reset.evr.sets.get p).isEmpty = true ∧ State.reset.evr.irq.get p = false) ∧
      State.reset.pld.protectedEnd = 2 ∧ State.reset.pld.guardedList = [])

/-! ### Frames (R148 to R152, R160) -/

/-- A falling select edge starts a frame on the slot as it stands; the first byte's leaving empties a slot that was
READY at the start, once. A port whose ANNOUNCE the BAU holds takes no falling edge until the answer is in its slot
(read by inference from R152: log 23). -/
def Obligations.FrameStartsOnTheSlotAndCollectsIt : Prop :=
  (∀ p s, s.awaitsAnswer p = true → exec (.selectFall p) s = .next s) ∧
  (∀ p s, (s.ports.get p).selectLow = false → s.awaitsAnswer p = false →
    ∃ t, exec (.selectFall p) s = .next t ∧ t = { s with ports := t.ports } ∧
      (∀ q, q ≠ p → t.ports.get q = s.ports.get q) ∧ (t.ports.get p).slot = (s.ports.get p).slot ∧
      (t.ports.get p).selectLow = true ∧ (t.ports.get p).frame = some (startFrame (s.ports.get p).slot) ∧
      sameCounters (s.ports.get p) (t.ports.get p) ∧
      ∀ n, (t.ports.get p).byteOut n = (slotBytes (s.ports.get p).slot).getD n 0xFF) ∧
    ∀ p s f, (s.ports.get p).frame = some f →
      ∃ t, exec (.responseStatusByteShifted p) s = .next t ∧ t = { s with ports := t.ports } ∧
        (∀ q, q ≠ p → t.ports.get q = s.ports.get q) ∧ sameCounters (s.ports.get p) (t.ports.get p) ∧
        (t.ports.get p).frame = some { f with statusShifted := true } ∧
        (t.ports.get p).slot = collectedSlot (s.ports.get p)

/-- A select line found low at a device reset starts no frame until it has been seen high: its rising edge only frees the
port. A rising select edge with no clock edge is no frame; a truncated frame and a dropped request are counted and raise
PORT, and reach no block. A complete frame that began on a slot not PENDING is refused by the port, with the received
kind and no payload, when its kind is no kind, its length is wrong or the port may not carry it; nothing else changes.
That any whole byte shifted in collects a slot READY at the start is the model's choice (log 6). -/
def Obligations.SelectRiseJudgesTheFrame : Prop :=
  (∀ p s bytes part strap, (s.ports.get p).selectLow = true → (s.ports.get p).frame = none →
      exec (.selectFall p) s = .next s ∧
      ∃ t, exec (.selectRise p bytes part strap) s = .next t ∧ PortAfter s t p (s.ports.get p).slot ∧
        t = { s with ports := t.ports } ∧ (t.ports.get p).waitHigh = false) ∧
  (∀ p s f bytes part strap, (s.ports.get p).selectLow = true → (s.ports.get p).frame = some f →
      (bytes = [] → part = false →
        ∃ t, exec (.selectRise p bytes part strap) s = .next t ∧ PortAfter s t p (s.ports.get p).slot ∧
          t = { s with ports := t.ports }) ∧
      ((part = true ∨ bytes ≠ [] ∧ isComplete bytes = false) →
        ∃ t, exec (.selectRise p bytes part strap) s = .next t ∧
          PortEnded s t p (if bytes.isEmpty then (s.ports.get p).slot else collectedSlot (s.ports.get p)) ∧
          t = { s with ports := t.ports, notices := s.notices ++ [portRaise p] } ∧
          (t.ports.get p).truncated = satInc16 (s.ports.get p).truncated ∧
          (t.ports.get p).dropped = (s.ports.get p).dropped) ∧
      (part = false → isComplete bytes = true → f.startedPending = true → byteAt bytes 0 ≠ Kind.poll.value →
        ∃ t, exec (.selectRise p bytes part strap) s = .next t ∧ PortEnded s t p (collectedSlot (s.ports.get p)) ∧
          t = { s with ports := t.ports, notices := s.notices ++ [portRaise p] } ∧
          (t.ports.get p).dropped = satInc16 (s.ports.get p).dropped ∧
          (t.ports.get p).truncated = (s.ports.get p).truncated)) ∧
  (∀ p s f bytes strap, (s.ports.get p).selectLow = true → (s.ports.get p).frame = some f → f.startedPending = false →
      isComplete bytes = true →
      (kindOfByte (byteAt bytes 0) = none →
        ∃ t, exec (.selectRise p bytes false strap) s = .next t ∧ t = { s with ports := t.ports } ∧
          PortAfter s t p (.ready { status := .badRequest, kind := byteAt bytes 0, payload := [] })) ∧
      ∀ k, kindOfByte (byteAt bytes 0) = some k →
        (lengthOk k (u8 bytes 1) (bytes.drop 2) = false →
          ∃ t, exec (.selectRise p bytes false strap) s = .next t ∧ AnsweredOnly s t p .badLength k []) ∧
        (lengthOk k (u8 bytes 1) (bytes.drop 2) = true → k.permitted p = false →
          ∃ t, exec (.selectRise p bytes false strap) s = .next t ∧ AnsweredOnly s t p .denied k []))

/-- Reading the fields of a request's payload bytes gives the request back, and its kind byte names its kind. The
judgement of a frame that carries a request's bytes, with whatever bytes follow them, is the judgement of the request:
dropped, denied, or delivered with every field as it was sent. -/
def Obligations.RequestBytesReadBack : Prop :=
  (∀ r : Request, kindOfByte r.kind.value = some r.kind ∧ parsePayload r.kind (payloadBytes r) = r) ∧
  (∀ p f r extra, requestLengthOk r = true →
      judgeFrame p f (requestBytes r ++ extra) false =
        if f.startedPending && decide (r.kind ≠ .poll) then .dropped
        else if r.kind.permitted p then .delivered r else .refused .denied r.kind.value)

/-- A falling select edge, the request's bytes and a rising select edge do what the request's own command does. What a
request's own command stands for is the model's choice (log 5, log 6). -/
def Obligations.FrameEdgesCarryOutTheRequest : Prop :=
  ∀ c p r s, requestOf c = some (p, r) → requestLengthOk r = true → (s.ports.get p).selectLow = false →
    (s.ports.get p).frame = none → (s.ports.get p).waitHigh = false →
    ∃ s1, exec (.selectFall p) s = .next s1 ∧
      exec (.selectRise p (requestBytes r) false (strapOf c s)) s1 = exec c s

/-- A request in a frame that began with the slot PENDING is dropped, POLL alone excepted: the dropped counter rises,
PORT is raised for the port, and nothing else changes. A request on one port changes no frame state, slot or counter of
another port, a DEVICE_RESET on port C excepted. On a port whose select line was found low at a device reset and has not
been seen high a request reaches no block, counts nothing and only ends the wait. What a request's own command stands for
is the model's choice (log 5); that a port whose ANNOUNCE the BAU holds carries none is read by inference from R152
(log 23). -/
def Obligations.PortsDropWhilePendingAndStandApart : Prop :=
  ((∀ c p r s, requestOf c = some (p, r) → (s.ports.get p).waitHigh = true →
      ∃ t, exec c s = .next t ∧ PortAfter s t p (s.ports.get p).slot ∧ t = { s with ports := t.ports } ∧
        (t.ports.get p).waitHigh = false) ∧
    ∀ c p r s, requestOf c = some (p, r) → (s.ports.get p).waitHigh = false → s.awaitsAnswer p = true →
      exec c s = .next s) ∧
  (∀ c p r s, requestOf c = some (p, r) → r.kind ≠ .poll → TakesFrames s p →
      (s.ports.get p).frameOr.startedPending = true →
      ∃ t, exec c s = .next t ∧ PortEnded s t p (collectedSlot (s.ports.get p)) ∧
        t = { s with ports := t.ports, notices := s.notices ++ [portRaise p] } ∧
        (t.ports.get p).dropped = satInc16 (s.ports.get p).dropped ∧
        (t.ports.get p).truncated = (s.ports.get p).truncated) ∧
  (∀ c p r s t, requestOf c = some (p, r) → c ≠ .deviceReset .portC → exec c s = .next t →
      ∀ q, q ≠ p → t.ports.get q = s.ports.get q)

/-! ### Reads (R58, R59, R81, R120, R152, R155 to R157, R166) -/

/-- The reads are answered OK with the layouts of section 9.10, or BAD_VALUE for a page or group that is none, and
change nothing but their port. The records of a READ_HISTORY: newest first from the offset, at most three, none at or
beyond the fill. POLL is not dropped while the slot is PENDING; it collects the slot, changes no counter and raises
nothing. Every payload has its length and its fields at the bytes that section 9.10, R155, R156 and R166 give them. That the
device state of READ_CEILINGS and READ_THERMAL is the PLD's is the model's choice (log 44). -/
def Obligations.ReadsAnswerAndChangeOnlyTheirPort : Prop :=
  (∀ p s, StartsFree s p →
      (∃ t, exec (.readCeilings p) s = .next t ∧ AnsweredOnly s t p .ok .readCeilings (ceilingReport s)) ∧
      (∀ page b, statusPage s page = some b →
        ∃ t, exec (.readStatus p page) s = .next t ∧ AnsweredOnly s t p .ok .readStatus b) ∧
      (∀ page, 4 < page.toNat → ∃ t, exec (.readStatus p page) s = .next t ∧ AnsweredOnly s t p .badValue .readStatus []) ∧
      (∀ group g offset count, groupOfByte group = some g →
        ∃ t, exec (.readHistory p group offset count) s = .next t ∧
          AnsweredOnly s t p .ok .readHistory
            (historyPayload group (s.ewu.groups.get g).ring
              (historyRecords (s.ewu.groups.get g).ring offset.toNat count.toNat))) ∧
      (∀ group offset count, 1 < group.toNat →
        ∃ t, exec (.readHistory p group offset count) s = .next t ∧ AnsweredOnly s t p .badValue .readHistory []) ∧
      (∃ t, exec (.readThermal p) s = .next t ∧ AnsweredOnly s t p .ok .readThermal (thermalPayload s)) ∧
      ∃ t, exec (.readEvents p) s = .next t ∧ AnsweredOnly s t p .ok .readEvents (s.evr.sets.get p).payload) ∧
  (∀ (ring : List EpochRecord) (offset count : Nat),
      (historyRecords ring offset count).length = min (min count 3) (ring.length - offset) ∧
        ∀ j, j < (historyRecords ring offset count).length →
          (historyRecords ring offset count)[j]? = ring[ring.length - 1 - (offset + j)]?) ∧
  (∀ p s, TakesFrames s p →
      ∃ t, exec (.poll p) s = .next t ∧ PortAfter s t p (collectedSlot (s.ports.get p)) ∧
      t = { s with ports := t.ports } ∧
      ((s.ports.get p).frame = none → ∀ n, (t.ports.get p).byteOut n = (slotBytes (s.ports.get p).slot).getD n 0xFF)) ∧
  (∀ s : State, CeilingReportLayout s (ceilingReport s) ∧ ThermalLayout s (thermalPayload s) ∧
      (∀ p, EventsLayout (s.evr.sets.get p) (s.evr.sets.get p).payload) ∧
      (∀ group ring records, HistoryLayout group ring.length records (historyPayload group ring records)) ∧
      ∀ page b, statusPage s page = some b →
        (page = 0 → DevicePageLayout s b) ∧ (page = 1 → GroupPageLayout s .g0 b) ∧
          (page = 2 → GroupPageLayout s .g1 b) ∧ (page = 3 → ChainsPageLayout s b) ∧ (page = 4 → PortsPageLayout s b))

/-! ### Events (R163 to R168) -/

/-- Which ports a raise reaches and with what mask: by name with the whole mask, through OWN with the chains the port
owns, or as the port concerned; a class with no mask reaches nobody through OWN. A raise at the event router: each port
it reaches takes the class into its pending set, new with count 0 or joined to the one there with the count one higher,
up to 255; its line is asserted. Every other port and the routing stand. The raise is taken in the order its raising block
made it. -/
def Obligations.RaisesReachAndEnterPendingSets : Prop :=
  (∀ routes owners r p,
      ((routes.get r.cls).getLsbD (portIndex p) = true → delivered routes owners r p = some (carriedMask r)) ∧
      ((routes.get r.cls).getLsbD (portIndex p) = false → (routes.get r.cls).getLsbD 3 = false →
        delivered routes owners r p = none) ∧
      ((routes.get r.cls).getLsbD (portIndex p) = false → (routes.get r.cls).getLsbD 3 = true →
        (maskKind r.cls = .bare → delivered routes owners r p = none) ∧
        (maskKind r.cls = .port → delivered routes owners r p = if r.mask &&& onePort p = 0 then none else some r.mask) ∧
        (maskKind r.cls = .chains →
          delivered routes owners r p =
            if r.mask &&& ownedMask owners p = 0 then none else some (r.mask &&& ownedMask owners p)) ∧
        (maskKind r.cls = .chains → p = .portC → delivered routes owners r p = none))) ∧
  (∀ r s, s.inOrder (.eventRaise r) = true → ∃ t, exec (.eventRaise r) s = .next t ∧
      t = { s with evr := t.evr, notices := s.notices.erase (.eventRaise r) } ∧ t.evr.routes = s.evr.routes ∧
      ∀ p,
        (delivered s.evr.routes s.pst.owners r p = none →
          t.evr.sets.get p = s.evr.sets.get p ∧ t.evr.irq.get p = s.evr.irq.get p) ∧
        ∀ m, delivered s.evr.routes s.pst.owners r p = some m →
          t.evr.irq.get p = true ∧
          (∀ k, k ≠ r.cls → (t.evr.sets.get p).get k = (s.evr.sets.get p).get k) ∧
          ((s.evr.sets.get p).get r.cls = none → (t.evr.sets.get p).get r.cls = some { mask := m, count := 0 }) ∧
          ∀ e, (s.evr.sets.get p).get r.cls = some e →
            (t.evr.sets.get p).get r.cls = some { mask := e.mask ||| m, count := satInc8 e.count })

/-- ACK_EVENTS removes the classes named from its port's set, answers with the set that is left, and deasserts the line
when none is left; READ_EVENTS' set of every other port, the routing and the rest stand. SET_ROUTE replaces one class's
destination set with the low four bits it carries, in LOADING as in RUN, and refuses a class of 12 or more; a routing
delivery replaces the whole table. Pending sets and lines stand. (Where the delivery is the last the entry to RUN waits
for, the entry follows in the same step: log 36.) -/
def Obligations.AcknowledgeAndReroute : Prop :=
  (∀ p classes s, StartsFree s p → ∃ t, exec (.ackEvents p classes) s = .next t ∧
      t = { s with ports := t.ports, evr := t.evr } ∧ t.evr.routes = s.evr.routes ∧
      PortAfter s t p (answerSlot .ok .ackEvents (le 2 (t.evr.sets.get p).classBits)) ∧
      (∀ q, q ≠ p → t.evr.sets.get q = s.evr.sets.get q ∧ t.evr.irq.get q = s.evr.irq.get q) ∧
      (∀ k, (t.evr.sets.get p).get k =
        if classes.getLsbD (EventClass.all.idxOf k) then none else (s.evr.sets.get p).get k) ∧
      t.evr.irq.get p = !(t.evr.sets.get p).isEmpty) ∧
  ((∀ cls destinations s k, StartsFree s .portC → classOfByte cls = some k →
      ∃ t, exec (.setRoute .portC cls destinations) s = .next t ∧
        PortAfter s t .portC (answerSlot .ok .setRoute [cls, destinations &&& 0x0F]) ∧
        t = { s with ports := t.ports, evr := { s.evr with routes := t.evr.routes } } ∧
        t.evr.routes.get k = destinations.setWidth 4 ∧ ∀ j, j ≠ k → t.evr.routes.get j = s.evr.routes.get j) ∧
      (∀ cls destinations s, StartsFree s .portC → 12 ≤ cls.toNat →
        ∃ t, exec (.setRoute .portC cls destinations) s = .next t ∧ AnsweredOnly s t .portC .badValue .setRoute []) ∧
      ∀ r s, s.inOrder (.routingDelivery r) = true →
        exec (.routingDelivery r) s =
          .next (State.enterRunWhenDelivered
            { s with evr := { s.evr with routes := r }, notices := s.notices.erase (.routingDelivery r) }))

/-! ### Policy (R135 to R147, R175) -/

/-- SELECT_SCENARIO: BUSY in LOADING, BAD_VALUE for an index that names no valid entry, otherwise the index is pending
and nothing else of the policy changes. SET_CAP: BUSY in LOADING, BAD_VALUE for a chain or a form that is none,
otherwise the chain's cap is replaced at once, a code clamped to the chain's cmax, and delivered to the ceiling unit. -/
def Obligations.SelectAndCapRequests : Prop :=
  (∀ index s, StartsFree s .portC →
      (s.isLoading = true →
        ∃ t, exec (.selectScenario .portC index) s = .next t ∧ AnsweredOnly s t .portC .busy .selectScenario []) ∧
      (s.isLoading = false → s.pst.table.length ≤ index.toNat →
        ∃ t, exec (.selectScenario .portC index) s = .next t ∧ AnsweredOnly s t .portC .badValue .selectScenario []) ∧
      (s.isLoading = false → index.toNat < s.pst.table.length →
        ∃ t, exec (.selectScenario .portC index) s = .next t ∧
          t = { s with ports := t.ports, pst := { s.pst with pendingIndex := some index.toNat } } ∧
          PortAfter s t .portC (answerSlot .ok .selectScenario [BitVec.ofNat 8 s.pst.active, index]))) ∧
  (∀ chain value s, StartsFree s .portC →
      (s.isLoading = true →
        ∃ t, exec (.setCap .portC chain value) s = .next t ∧ AnsweredOnly s t .portC .busy .setCap []) ∧
      (s.isLoading = false → (4 ≤ chain.toNat ∨ 3 ≤ value.form.toNat) →
        ∃ t, exec (.setCap .portC chain value) s = .next t ∧ AnsweredOnly s t .portC .badValue .setCap []) ∧
      (s.isLoading = false → ∀ i cap, chainOfByte chain = some i → capOfWire value = some cap →
        ∃ t stored, exec (.setCap .portC chain value) s = .next t ∧
          (∀ x, cap = .code x → stored = .code (if x.toNat ≤ (s.pst.chainParams.get i).cmax.toNat then x
            else (s.pst.chainParams.get i).cmax)) ∧
          ((∀ x, cap ≠ .code x) → stored = cap) ∧
          t = { s with
            ports := t.ports
            pst := { s.pst with caps := s.pst.caps.set i stored }
            notices := s.notices ++ [.capDelivery i stored] } ∧
          PortAfter s t .portC (answerSlot .ok .setCap ([chain] ++ capBytes stored))))

/-- SET_OWNER: BUSY in LOADING, BAD_VALUE for a chain or an owner that is none, otherwise the owner is replaced at once,
an enforcement clear request goes out when the owner changes on an enforced chain, and the chain's queue is flushed,
each entry counted, with its open pulse untouched. -/
def Obligations.SetOwnerReplacesTheOwnerAndFlushes : Prop :=
  ∀ chain owner s, StartsFree s .portC →
    (s.isLoading = true →
      ∃ t, exec (.setOwner .portC chain owner) s = .next t ∧ AnsweredOnly s t .portC .busy .setOwner []) ∧
    (s.isLoading = false → (4 ≤ chain.toNat ∨ 3 ≤ owner.toNat) →
      ∃ t, exec (.setOwner .portC chain owner) s = .next t ∧ AnsweredOnly s t .portC .badValue .setOwner []) ∧
    (s.isLoading = false → s.bau.closeNotice = none →
      ∀ i o, chainOfByte chain = some i → ownerOfByte owner = some o →
      ∃ t, exec (.setOwner .portC chain owner) s = .next t ∧
        PortAfter s t .portC (answerSlot .ok .setOwner [chain, owner]) ∧
        t = { s with
          ports := t.ports
          pst := { s.pst with owners := s.pst.owners.set i o }
          bau := t.bau
          notices := s.notices ++
            if s.pst.owners.get i ≠ o ∧ (s.bau.chains.get i).enforced = true
            then [.enforcementClearRequest i s.bau.shared.epoch] else [] } ∧
        OtherChainsStand s t i ∧
        t.bau.chains.get i =
          { s.bau.chains.get i with
            queue := []
            counters :=
              { (s.bau.chains.get i).counters with
                flushed := satAdd16 (s.bau.chains.get i).counters.flushed (s.bau.chains.get i).queue.length } })

/-- PORT_RESET: the port's slot and pending set are emptied, its line deasserted, and the queues of exactly the chains
it owns are flushed; its counters, the other ports' slots, sets and lines and every open pulse stand. -/
def Obligations.PortResetActsOnOnePort : Prop :=
  ∀ p s, StartsFree s p → s.bau.closeNotice = none →
    ∃ t, exec (.portReset p) s = .next t ∧ t = { s with ports := t.ports, evr := t.evr, bau := t.bau } ∧
      PortAfter s t p .empty ∧ t.evr.routes = s.evr.routes ∧
      (∀ k, (t.evr.sets.get p).get k = none) ∧ t.evr.irq.get p = false ∧
      (∀ q, q ≠ p → t.evr.sets.get q = s.evr.sets.get q ∧ t.evr.irq.get q = s.evr.irq.get q) ∧
      t.bau = { s.bau with chains := t.bau.chains } ∧
      ∀ i, t.bau.chains.get i =
        if s.owns p i then
          { s.bau.chains.get i with
            queue := []
            counters :=
              { (s.bau.chains.get i).counters with
                flushed := satAdd16 (s.bau.chains.get i).counters.flushed (s.bau.chains.get i).queue.length } }
        else s.bau.chains.get i

/-- The limits in force are the record's, the average clamped to the A maximum and the floor to that average. A close
that finds no staged profile: with a pending index the scenario is applied, its default caps replacing every cap,
SCENARIO raised and the scenario delivered; with none, the two answers alone are sent and nothing changes. The order of
what is sent is the model's choice (log 25). -/
def Obligations.CloseWithoutAProfile : Prop :=
  (∀ (aMax : PerGroup Code) (r : ScenarioRecord) (g : Group),
      ((clampLimits aMax r).get g).avg.toNat = min (r.limits.get g).avg.toNat (aMax.get g).toNat ∧
        ((clampLimits aMax r).get g).floor.toNat =
          min (r.limits.get g).floor.toNat ((clampLimits aMax r).get g).avg.toNat ∧
        ((clampLimits aMax r).get g).window = (r.limits.get g).window) ∧
  (∀ n s, readyProfile s.pld = none →
      (s.pst.pendingIndex = none →
        ∃ t, exec (.pstCloseNotice n) s = .next t ∧
          t = { s with
            notices := s.notices.erase (.pstCloseNotice n) ++
              [.policyAnswer { scenario := s.pst.active, limits := s.pst.limits, map := none }, .bauCloseAnswer none] }) ∧
      ∀ j r, s.pst.pendingIndex = some j → s.pst.table[j]? = some r →
        ∃ t, exec (.pstCloseNotice n) s = .next t ∧
          t = { s with
            pst := t.pst
            notices := s.notices.erase (.pstCloseNotice n) ++
              [.eventRaise { cls := .scenario, mask := 0 },
                .policyAnswer { scenario := j, limits := clampLimits s.pst.aMax r, map := none }, .bauCloseAnswer none,
                .scenarioDelivery r.weights t.pst.caps] } ∧
          t.pst = { s.pst with
            active := j
            pendingIndex := none
            limits := clampLimits s.pst.aMax r
            weights := r.weights
            caps := t.pst.caps } ∧
          ∀ i, t.pst.caps.get i =
            match r.defaultCaps.get i with
            | none => .uncapped
            | some x => .code (if x.toNat ≤ (s.pst.chainParams.get i).cmax.toNat then x else (s.pst.chainParams.get i).cmax))

/-- A close that finds a staged profile: the loader gives it up, goes to IDLE and raises PROFILE; maxima, chain parameters
and table are the accepted sections'; owners stand; the index applied is the one of the table of R141. Where an index is
applied, limits, weights and caps are its record's under the new maxima and cmax, and SCENARIO is raised; where none is,
weights and caps stand and new maxima form the limits again. Every notice of the close: SCENARIO, the policy answer with
the new map, the close answer with the new parameters, the profile and scenario deliveries, the accepted sections, PROFILE.
Their order is the model's choice, as is an answer without parameters where LIMITS was not accepted (log 25); so is that
the policy store keeps the chain-to-zone map it delivers (log 14). -/
def Obligations.CloseAppliesAStagedProfile : Prop :=
  ∀ n s x, s.pld.state = .staged → s.pld.staged = some x →
    ∃ t, exec (.pstCloseNotice n) s = .next t ∧ t = { s with pst := t.pst, pld := t.pld, notices := t.notices } ∧
      t.pld = { s.pld with
        state := .idle
        staged := none
        protectedEnd := (x.limits.map (·.protectedEnd)).getD s.pld.protectedEnd
        guardedList := (x.limits.map (·.guarded)).getD s.pld.guardedList } ∧
      t.pst.owners = s.pst.owners ∧ t.pst.aMax = (x.limits.map (·.aMax)).getD s.pst.aMax ∧
      t.pst.table = x.scenarios.getD s.pst.table ∧
      (∀ i, t.pst.chainZone.get i = ((x.thermal.map (·.chainZone)).getD s.pst.chainZone).get i) ∧
      (∀ l, x.limits = some l → ∀ i, t.pst.chainParams.get i =
        { cmax := (l.chains.get i).cmax, k := (l.chains.get i).k, group := (l.chains.get i).group }) ∧
      (x.limits = none → t.pst.chainParams = s.pst.chainParams) ∧
      (∀ tab, x.scenarios = some tab → t.pst.pendingIndex = none ∧
        t.pst.active =
          match s.pst.pendingIndex with
          | some j => if j < tab.length then j else if s.pst.active < tab.length then s.pst.active else 0
          | none => if s.pst.active < tab.length then s.pst.active else 0) ∧
      (x.scenarios = none → t.pst.pendingIndex = none ∧ t.pst.active = s.pst.pendingIndex.getD s.pst.active) ∧
      (x.scenarios = none → s.pst.pendingIndex = none → t.pst.caps = s.pst.caps ∧ t.pst.weights = s.pst.weights) ∧
      (x.scenarios = none → s.pst.pendingIndex = none → x.limits = none → t.pst.limits = s.pst.limits) ∧
      (∀ r, t.pst.table[t.pst.active]? = some r →
        (x.scenarios.isSome ∨ s.pst.pendingIndex.isSome ∨ x.limits.isSome → t.pst.limits = clampLimits t.pst.aMax r) ∧
        (x.scenarios.isSome ∨ s.pst.pendingIndex.isSome → t.pst.weights = r.weights ∧
          ∀ i, t.pst.caps.get i =
            match r.defaultCaps.get i with
            | none => .uncapped
            | some y => .code (if y.toNat ≤ (t.pst.chainParams.get i).cmax.toNat then y else (t.pst.chainParams.get i).cmax))) ∧
      t.notices = s.notices.erase (.pstCloseNotice n) ++
        (if x.scenarios.isSome || s.pst.pendingIndex.isSome then [.eventRaise { cls := .scenario, mask := 0 }] else []) ++
        [.policyAnswer
            { scenario := t.pst.active
              limits := t.pst.limits
              map := x.limits.map fun l => PerChain.build fun i => (l.chains.get i).group },
          .bauCloseAnswer (x.limits.map fun l =>
            { chains := PerChain.build fun i => { cmax := (l.chains.get i).cmax, k := (l.chains.get i).k }
              staleMs := l.staleMs
              graceMs := l.graceMs
              threshold := l.threshold }),
          .profileDelivery (PerChain.build fun i =>
            { cmax := (t.pst.chainParams.get i).cmax
              k := (t.pst.chainParams.get i).k
              group := (t.pst.chainParams.get i).group
              zone := t.pst.chainZone.get i })] ++
        (if x.scenarios.isSome || s.pst.pendingIndex.isSome then [.scenarioDelivery t.pst.weights t.pst.caps] else []) ++
        (x.thermal.toList.map .thermalDelivery ++ x.overload.toList.map .overloadDelivery ++
          x.routing.toList.map .routingDelivery) ++
        [.eventRaise { cls := .profile, mask := 0 }]

/-- The start-up delivery: table, maxima, chain parameters and owners are the sections', entry 0 is applied with its
limits, weights and default caps clamped to cmax, and the profile delivery, the scenario delivery and the start-up policy
answer go out in that order with no SCENARIO. The chain-to-zone map as part of the delivery is the model's choice (log 14).
-/
def Obligations.StartupDeliveryAppliesEntryZero : Prop :=
  ∀ d s r, d.scenarios[0]? = some r →
    ∃ t, exec (.pstStartupDelivery d) s = .next t ∧ t = { s with pst := t.pst, notices := t.notices } ∧
      t.pst.table = d.scenarios ∧ t.pst.active = 0 ∧ t.pst.pendingIndex = none ∧ t.pst.aMax = d.limits.aMax ∧
      t.pst.limits = clampLimits d.limits.aMax r ∧ t.pst.weights = r.weights ∧
      (∀ i, t.pst.caps.get i =
        match r.defaultCaps.get i with
        | none => .uncapped
        | some x => .code (if x.toNat ≤ (d.limits.chains.get i).cmax.toNat then x else (d.limits.chains.get i).cmax)) ∧
      (∀ i, t.pst.chainZone.get i = d.zones.get i) ∧
      (∀ i, t.pst.owners.get i = (d.limits.chains.get i).owner ∧
        t.pst.chainParams.get i =
          { cmax := (d.limits.chains.get i).cmax, k := (d.limits.chains.get i).k,
            group := (d.limits.chains.get i).group }) ∧
      t.notices = s.notices.erase (.pstStartupDelivery d) ++
        [.profileDelivery (PerChain.build fun i =>
            { cmax := (d.limits.chains.get i).cmax
              k := (d.limits.chains.get i).k
              group := (d.limits.chains.get i).group
              zone := d.zones.get i }),
          .scenarioDelivery r.weights t.pst.caps,
          .startupPolicyAnswer { scenario := 0, limits := clampLimits d.limits.aMax r, map := none }]

/-! ### The profile loader (R169 to R177) -/

/-- LOAD_PROFILE and FLASH_XFER are accepted only in IDLE: the slot becomes PENDING with the request's kind, and the
loader goes to RELOADING or TRANSFER; out of IDLE both are BUSY. In IDLE a transfer with a field out of range is
BAD_VALUE, and a guarded one with the strap low is PROTECTED; neither starts anything. The strap's level as the command's
operand, kept in the state whatever the answer, is the model's choice (log 7). -/
def Obligations.LoaderTakesRequestsOnlyInIdle : Prop :=
  (∀ s x strap, StartsFree s .portC → requestLengthOk (.flashXfer x) = true →
      (s.pld.state = .idle →
        ∃ t, exec (.loadProfile .portC) s = .next t ∧ PortAfter s t .portC (.pending Kind.loadProfile.value) ∧
          t = { s with ports := t.ports, pld := { s.pld with state := .reloading, loadPort := some .portC } }) ∧
      (s.pld.state ≠ .idle →
        ∃ t, exec (.loadProfile .portC) s = .next t ∧ AnsweredOnly s t .portC .busy .loadProfile []) ∧
      (s.pld.state ≠ .idle →
        ∃ t, exec (.flashXfer .portC x strap) s = .next t ∧
          PortAfter s t .portC (answerSlot .busy .flashXfer []) ∧
          t = { s with ports := t.ports, pins := { s.pins with strap := strap } }) ∧
      (s.pld.state = .idle → x.addressMode.toNat ≤ 1 → x.dummy.toNat ≤ 15 → x.direction.toNat ≤ 1 →
        (isGuarded s.pld.protectedEnd s.pld.guardedList x = true → strap = true) →
        ∃ t, exec (.flashXfer .portC x strap) s = .next t ∧ PortAfter s t .portC (.pending Kind.flashXfer.value) ∧
          t = { s with
            ports := t.ports
            pins := { s.pins with strap := strap }
            pld := { s.pld with
              state := .transfer
              transfer := some
                { request := x, guarded := isGuarded s.pld.protectedEnd s.pld.guardedList x, port := .portC }
              flashSelectLow := true } })) ∧
  (∀ s x strap, StartsFree s .portC → requestLengthOk (.flashXfer x) = true → s.pld.state = .idle →
      ((1 < x.addressMode.toNat ∨ 15 < x.dummy.toNat ∨ 1 < x.direction.toNat) →
        ∃ t, exec (.flashXfer .portC x strap) s = .next t ∧
          PortAfter s t .portC (answerSlot .badValue .flashXfer []) ∧
          t = { s with ports := t.ports, pins := { s.pins with strap := strap } }) ∧
      (x.addressMode.toNat ≤ 1 → x.dummy.toNat ≤ 15 → x.direction.toNat ≤ 1 → strap = false →
        isGuarded s.pld.protectedEnd s.pld.guardedList x = true →
        ∃ t, exec (.flashXfer .portC x strap) s = .next t ∧
          PortAfter s t .portC (answerSlot .isProtected .flashXfer []) ∧
          t = { s with ports := t.ports, pins := { s.pins with strap := false } }))

/-- What makes a transfer guarded: an OUT of at least one byte to an address below the protected end, or a command of
the guarded list with no address or with one below it. No command starts a guarded transfer while the strap it samples
is low. The level sampled is the command's operand, the model's choice (log 7). -/
def Obligations.GuardedTransfersNeedTheStrap : Prop :=
  (∀ (protectedEnd : Nat) (list : List Byte) (x : XferRequest),
      isGuarded protectedEnd list x = true ↔
        (x.direction = 1 ∧ 0 < x.count.toNat ∧ x.addressMode = 1 ∧ x.address.toNat < protectedEnd * 4096) ∨
          (x.command ∈ list ∧ (x.addressMode = 0 ∨ x.address.toNat < protectedEnd * 4096))) ∧
  (∀ c s t tr, exec c s = .next t → s.pld.transfer = none → t.pld.transfer = some tr →
      tr.guarded = isGuarded s.pld.protectedEnd s.pld.guardedList tr.request ∧
        (tr.guarded = true → t.pins.strap = true))

/-- The transfer's end answers OK with the count and, for IN, the bytes read; a strap fall cuts a guarded transfer at a
byte boundary and answers ABORTED with the data bytes shifted, and leaves an unguarded one. On the flash bus stand, in one
select period, the command, the address most significant byte first in mode 1, the dummy bytes 0xFF and the data of an OUT,
all of it or, at a cut, the bytes wholly shifted before it; the cut may fall at any byte boundary. The bytes read and the
number of bytes shifted are operands (log 17). -/
def Obligations.TransfersEndOrAreCut : Prop :=
  ∀ s tr, s.pld.transfer = some tr →
    (∀ read, ∃ t, exec (.transferEnd read) s = .next t ∧ t = { s with ports := t.ports, pld := t.pld } ∧
      t.pld =
        { s.pld with
          state := .idle
          transfer := none
          flashSelectLow := false
          busOut := [headerOnBus tr.request ++ dataOnBus tr.request] } ∧
      (∀ q, q ≠ tr.port → t.ports.get q = s.ports.get q) ∧
      ∃ payload, (t.ports.get tr.port).slot = answerSlot .ok .flashXfer (tr.request.count :: payload) ∧
        (tr.request.direction = 0 → payload.length = tr.request.count.toNat ∧
          ∀ j, j < tr.request.count.toNat → j < read.length → payload[j]? = read[j]?) ∧
        (tr.request.direction ≠ 0 → payload = [])) ∧
    (∀ n, tr.guarded = true → n ≤ (headerOnBus tr.request).length + tr.request.count.toNat →
      ∃ t, exec (.strapFall n) s = .next t ∧
        t = { s with ports := t.ports, pld := t.pld, pins := { s.pins with strap := false } } ∧
        t.pld =
          { s.pld with
            state := .idle
            transfer := none
            flashSelectLow := false
            busOut := [(headerOnBus tr.request ++ dataOnBus tr.request).take n] } ∧
        (∀ q, q ≠ tr.port → t.ports.get q = s.ports.get q) ∧
        (t.ports.get tr.port).slot =
          answerSlot .aborted .flashXfer [BitVec.ofNat 8 (n - (headerOnBus tr.request).length)]) ∧
    ∀ n, tr.guarded = false →
      exec (.strapFall n) s = .next { s with pins := { s.pins with strap := false } }

/-- The start-up load's end: each section is LOADED, REJECTED or ROM; the deliveries carry the accepted sections or the
ROM values, PROFILE after the routing. Once everything delivered has been taken, the five entry reports go out with the
stamp and the loader goes to IDLE; a second end of reading before that changes nothing. The step of the entry is read by
inference (log 36). A flash that reads as erased, or an image with a wrong marker, version or count, has no section and
gives the ROM values. A load reads the header; then the directory and, at their offsets, sections that the directory names.
The flash's contents are the command's operand, and one select period per read is the model's choice (log 16), as is the
chain-to-zone map in the policy store's delivery (log 14). -/
def Obligations.StartupLoadDeliversAndEntersRun : Prop :=
  ((∀ img s, s.pld.state = .startup → s.pld.startupResult = none →
      ∃ t x, exec (.startupLoadEnd img) s = .next t ∧ x = startupSet (readImage img none) ∧
        t = { s with pld := t.pld, notices := t.notices } ∧ t.isLoading = true ∧
        t.pld = { s.pld with
          startupResult := some (loadResult .rom false (readImage img none))
          tMs := x.limits.tMs
          protectedEnd := x.limits.protectedEnd
          guardedList := x.limits.guarded
          busOut := (readImage img none).bus } ∧
        (∀ l, (readImage img none).limits = .accepted l → x.limits = l) ∧
        ((∀ l, (readImage img none).limits ≠ .accepted l) → x.limits = Rom.limits) ∧
        (∀ l, (readImage img none).scenarios = .accepted l → x.scenarios = l) ∧
        ((∀ l, (readImage img none).scenarios ≠ .accepted l) → x.scenarios = [Rom.scenario]) ∧
        (∀ l, (readImage img none).thermal = .accepted l → x.thermal = l) ∧
        ((∀ l, (readImage img none).thermal ≠ .accepted l) → x.thermal = Rom.thermal) ∧
        (∀ l, (readImage img none).overload = .accepted l → x.overload = l) ∧
        ((∀ l, (readImage img none).overload ≠ .accepted l) → x.overload = Rom.overload) ∧
        (∀ l, (readImage img none).routing = .accepted l → x.routing = l) ∧
        ((∀ l, (readImage img none).routing ≠ .accepted l) → x.routing = Rom.routing) ∧
        t.notices = s.notices ++
          [.thermalDelivery x.thermal, .overloadDelivery x.overload,
            .pstStartupDelivery { scenarios := x.scenarios, limits := x.limits, zones := x.thermal.chainZone },
            .bauLimitsDelivery
              { chains := PerChain.build fun i => { cmax := (x.limits.chains.get i).cmax, k := (x.limits.chains.get i).k }
                staleMs := x.limits.staleMs
                graceMs := x.limits.graceMs
                threshold := x.limits.threshold },
            .ewuLimitsDelivery
              { tMs := x.limits.tMs
                precharge := x.limits.precharge
                map := PerChain.build fun i => (x.limits.chains.get i).group },
            .routingDelivery x.routing, .eventRaise { cls := .profile, mask := 0 }]) ∧
    (∀ img s, s.pld.startupResult.isSome → exec (.startupLoadEnd img) s = .next s) ∧
    (∀ s : State, s.pld.state = .startup → s.pld.startupResult.isSome →
      (∀ c ∈ s.notices, isStartupDelivery c = false) →
      s.enterRunWhenDelivered =
        { s with
          pld := { s.pld with state := .idle }
          notices := s.notices ++
            [.bauEntryToRun s.timeBase, .ewuEntryToRun s.timeBase, .cluEntryToRun, .thuEntryToRun s.timeBase,
              .ovuEntryToRun s.timeBase] }) ∧
    ∀ s : State, (s.pld.state ≠ .startup ∨ s.pld.startupResult = none ∨ ∃ c ∈ s.notices, isStartupDelivery c = true) →
      s.enterRunWhenDelivered = s) ∧
  ((readImage [] none).noImage = true ∧
      startupSet (readImage [] none) =
        { limits := Rom.limits, scenarios := [Rom.scenario], thermal := Rom.thermal, overload := Rom.overload,
          routing := Rom.routing } ∧
      ∀ img inForce, (flashRead img 0 4 ≠ [0x54, 0x42, 0x33, 0x31] ∨ flashByte img 4 ≠ 1 ∨ (flashByte img 5).toNat = 0 ∨
          8 < (flashByte img 5).toNat) →
        readImage img inForce = noImageRead) ∧
  (∀ img inForce, ((readImage img inForce).noImage = true → (readImage img inForce).bus = [[0x03, 0, 0, 0]]) ∧
      ((readImage img inForce).noImage = false →
        ∃ rest, (readImage img inForce).bus = [[0x03, 0, 0, 0], [0x03, 0, 0, 6]] ++ rest ∧
          (∀ r ∈ rest, ∃ e ∈ directory img, 1 ≤ e.kind ∧ e.kind ≤ 5 ∧
            r = [0x03, BitVec.ofNat 8 (e.offset / 65536), BitVec.ofNat 8 (e.offset / 256), BitVec.ofNat 8 e.offset]) ∧
          ∀ l, (readImage img inForce).limits = .accepted l → ∃ e ∈ directory img, e.kind = 1 ∧
            [0x03, BitVec.ofNat 8 (e.offset / 65536), BitVec.ofNat 8 (e.offset / 256), BitVec.ofNat 8 e.offset] ∈ rest))

/-- The end of a reload: with an accepted section the sections are staged and wait; with none the loader goes to IDLE
and raises PROFILE; in both cases the slot is READY with the two result records of 7 bytes, the reload's and the start-up
load's. The bus carries the reads of the load. The flash's contents are the command's operand, the model's choice (log 16).
-/
def Obligations.ReloadStagesOrGivesUp : Prop :=
  ∀ img s p, s.pld.state = .reloading → s.pld.loadPort = some p →
    ∃ t r x, r = readImage img (some s.pld.protectedEnd) ∧ x = acceptedSections r ∧
      exec (.reloadEnd img) s = .next t ∧ t = { s with ports := t.ports, pld := t.pld, notices := t.notices } ∧
      (∀ q, q ≠ p → t.ports.get q = s.ports.get q) ∧
      (t.ports.get p).slot = answerSlot .ok .loadProfile (reloadPayload s.pld r) ∧
      (reloadPayload s.pld r).length = 14 ∧
      ResultAt (reloadPayload s.pld r) 0
        { noImage := r.noImage
          limits := match r.limits with | .absent => .absent | .rejected => .rejected | .accepted _ => .loaded
          scenarios := match r.scenarios with | .absent => .absent | .rejected => .rejected | .accepted _ => .loaded
          thermal := match r.thermal with | .absent => .absent | .rejected => .rejected | .accepted _ => .loaded
          overload := match r.overload with | .absent => .absent | .rejected => .rejected | .accepted _ => .loaded
          routing := match r.routing with | .absent => .absent | .rejected => .rejected | .accepted _ => .loaded
          tHeld := match r.limits with | .accepted l => decide (l.tMs ≠ s.pld.tMs) | _ => false } ∧
      (∀ z, s.pld.startupResult = some z → ResultAt (reloadPayload s.pld r) 7 z) ∧
      t.pld = { s.pld with
        state := if x.any then .staged else .idle
        staged := if x.any then some x else none
        loadPort := none
        busOut := r.bus } ∧
      t.notices = s.notices ++ if x.any then [] else [.eventRaise { cls := .profile, mask := 0 }]

/-- A section is accepted with these values exactly when its length is the required one, it lies in the address space, the
sum of its bytes is the checksum, each byte offset holds the field's value, and every value lies in its range; LIMITS only
below its own protected end too, at a reload also below the one in force. A wrong length, place or checksum gives none. In
an image with a right header a kind is absent where no directory entry has it, and otherwise its first entry is judged and
decides; a wrong header is no image, with every kind absent. A read gives the bytes the flash holds. What the flash holds is
the command's operand, 0xFF where the operand names no byte, the model's choice (log 16). -/
def Obligations.AcceptedSectionsLieInTheirRanges : Prop :=
  (∀ img e,
    (∀ inForce l, judgeLimits img inForce e = some l ↔
      SectionChecked img e 34 ∧ LimitsSectionLayout (flashRead img e.offset e.length) l ∧ l.wf = true ∧
        e.offset + 34 ≤ l.protectedEnd * 4096 ∧ ∀ pe, inForce = some pe → e.offset + 34 ≤ pe * 4096) ∧
    (∀ t, judgeScenarios img e = some t ↔
      (1 ≤ t.length ∧ t.length ≤ 8) ∧ SectionChecked img e (1 + 20 * t.length) ∧
        ScenariosSectionLayout (flashRead img e.offset e.length) t ∧ ∀ r ∈ t, r.wf = true) ∧
    (∀ t, judgeThermal img e = some t ↔
      SectionChecked img e 353 ∧ ThermalSectionLayout (flashRead img e.offset e.length) t ∧ t.wf = true) ∧
    (∀ o, judgeOverload img e = some o ↔
      SectionChecked img e 10 ∧ OverloadSectionLayout (flashRead img e.offset e.length) o ∧ o.wf = true) ∧
    ∀ r, judgeRouting img e = some r ↔
      SectionChecked img e 12 ∧ RoutingSectionLayout (flashRead img e.offset e.length) r) ∧
  (∀ img e inForce,
    (¬SectionChecked img e 34 → judgeLimits img inForce e = none) ∧
    ((∀ n, 1 ≤ n → n ≤ 8 → ¬SectionChecked img e (1 + 20 * n)) → judgeScenarios img e = none) ∧
    (¬SectionChecked img e 353 → judgeThermal img e = none) ∧ (¬SectionChecked img e 10 → judgeOverload img e = none) ∧
    (¬SectionChecked img e 12 → judgeRouting img e = none)) ∧
  (∀ img inForce count, ImageHeader img count →
    (readImage img inForce).noImage = false ∧ (∀ j, ∃ e, EntryAt img j e) ∧
    VerdictFor img count 1 (judgeLimits img inForce) (readImage img inForce).limits ∧
    VerdictFor img count 2 (judgeScenarios img) (readImage img inForce).scenarios ∧
    VerdictFor img count 3 (judgeThermal img) (readImage img inForce).thermal ∧
    VerdictFor img count 4 (judgeOverload img) (readImage img inForce).overload ∧
    VerdictFor img count 5 (judgeRouting img) (readImage img inForce).routing) ∧
  (∀ img inForce, (∀ count, ¬ImageHeader img count) →
    (readImage img inForce).noImage = true ∧ (readImage img inForce).limits = .absent ∧
      (readImage img inForce).scenarios = .absent ∧ (readImage img inForce).thermal = .absent ∧
      (readImage img inForce).overload = .absent ∧ (readImage img inForce).routing = .absent) ∧
  ∀ img a n, (flashRead img a n).length = n ∧
    ∀ j, j < n → ∃ x, (flashRead img a n)[j]? = some x ∧ FlashHolds img (a + j) x

/-! ### Transmit bursts (R13 to R38, R85 to R100) -/

/-- An accepted ANNOUNCE NEXT joins the tail of its chain's queue with the stamp, marks the epoch, sends an activity
notice and is answered with the depth and the held values; nothing else changes. The checks of R14 in their order decide
the refusal of an ANNOUNCE, and a refused one changes nothing but its slot. A frame that carries an ANNOUNCE whose kind byte
is 2 or more is refused the same way, BAD_VALUE in RUN, and held like any other behind a close notice. That BUSY lasts until
the BAU has taken its entry to RUN is the model's choice (log 10). -/
def Obligations.AnnounceNextJoinsTheQueueOrIsRefused : Prop :=
  (∀ p chain code d s i, p ≠ .portC → StartsFree s p → s.bau.inRun = true → s.bau.closeNotice = none →
      chainOfByte chain = some i → s.owns p i = true → (s.bau.chains.get i).queue.length < 8 →
      ∃ t, exec (.announceNext p chain code d) s = .next t ∧
        t = { s with ports := t.ports, bau := t.bau, notices := s.notices ++ [.activityNotice i] } ∧
        OtherChainsStand s t i ∧
        t.bau.chains.get i =
          { s.bau.chains.get i with
            queue := (s.bau.chains.get i).queue ++
              [{ code := code, maxDuration := if d = 0 then none else some d, arrival := s.timeBase }]
            announcedInEpoch := true } ∧
        PortAfter s t p (answerSlot .ok .announce
          ([BitVec.ofNat 8 ((s.bau.chains.get i).queue.length + 1)] ++ ceilingBytes (s.bau.chains.get i).heldCeiling ++
            [boolByte (s.bau.chains.get i).heldInhibit]))) ∧
  (∀ p chain code d s, p ≠ .portC → StartsFree s p → s.bau.closeNotice = none →
      (s.bau.inRun = false →
        ∃ t, exec (.announceNext p chain code d) s = .next t ∧ AnsweredOnly s t p .busy .announce []) ∧
      (s.bau.inRun = true → 4 ≤ chain.toNat →
        ∃ t, exec (.announceNext p chain code d) s = .next t ∧ AnsweredOnly s t p .badValue .announce []) ∧
      (s.bau.inRun = true → d ≠ 0 →
        ∃ t, exec (.announceNow p chain code d) s = .next t ∧ AnsweredOnly s t p .badValue .announce []) ∧
      ∀ i, s.bau.inRun = true → chainOfByte chain = some i →
        (s.owns p i = false →
          ∃ t, exec (.announceNext p chain code d) s = .next t ∧ AnsweredOnly s t p .notOwner .announce []) ∧
        (s.owns p i = true → 8 ≤ (s.bau.chains.get i).queue.length →
          ∃ t, exec (.announceNext p chain code d) s = .next t ∧ AnsweredOnly s t p .queueFull .announce []) ∧
        (s.owns p i = true → (s.bau.chains.get i).pulse = none →
          ∃ t, exec (.announceNow p chain code 0) s = .next t ∧ AnsweredOnly s t p .noPulse .announce [])) ∧
  (∀ p chain code d s, p ≠ .portC → StartsFree s p → s.bau.closeNotice = none →
      (s.bau.inRun = false →
        ∃ t, exec (.announceNow p chain code d) s = .next t ∧ AnsweredOnly s t p .busy .announce []) ∧
      (s.bau.inRun = true → 4 ≤ chain.toNat →
        ∃ t, exec (.announceNow p chain code d) s = .next t ∧ AnsweredOnly s t p .badValue .announce []) ∧
      (∀ i, s.bau.inRun = true → chainOfByte chain = some i → s.owns p i = false →
        ∃ t, exec (.announceNow p chain code 0) s = .next t ∧ AnsweredOnly s t p .notOwner .announce []) ∧
      ∃ t u, exec (.announceNext .portC chain code d) s = .next t ∧ exec (.announceNow .portC chain code d) s = .next u ∧
        (StartsFree s .portC → AnsweredOnly s t .portC .denied .announce [] ∧ AnsweredOnly s u .portC .denied .announce [])) ∧
  ∀ p chain kind code lo hi extra strap s f, p ≠ .portC → (s.ports.get p).selectLow = true →
    (s.ports.get p).frame = some f → f.startedPending = false → 2 ≤ (kind : Byte).toNat →
    ∃ t, exec (.selectRise p ([0x01, 5, chain, kind, code, lo, hi] ++ extra) false strap) s = .next t ∧
      (s.bau.closeNotice = none → s.bau.inRun = true → AnsweredOnly s t p .badValue .announce []) ∧
      (s.bau.closeNotice = none → s.bau.inRun = false → AnsweredOnly s t p .busy .announce []) ∧
      (s.bau.closeNotice.isSome → PortAfter s t p (collectedSlot (s.ports.get p)) ∧
        t = { s with
          ports := t.ports
          bau := { s.bau with held := s.bau.held ++ [.announce p chain kind code (hi ++ lo)] } })

/-- An accepted ANNOUNCE NOW ends and charges the current segment, begins one at its code, stops the grace timer, and
judges the new segment; the pulse's deadline and the queue stand. The activity notice goes out, and for an overshoot
OVERSHOOT, and where its strike enforces the chain ENFORCE and the set request. That the activity notice stands first is
the model's choice (log 35); that a strike enforces at equality with the threshold is read by inference (log 19). -/
def Obligations.AnnounceNowChangesTheSegment : Prop :=
  ∀ p chain code s i pl, p ≠ .portC → StartsFree s p → s.bau.inRun = true → s.bau.closeNotice = none →
    chainOfByte chain = some i → s.owns p i = true → (s.bau.chains.get i).pulse = some pl →
    ∃ t pl', exec (.announceNow p chain code 0) s = .next t ∧
      t = { s with ports := t.ports, bau := t.bau, notices := t.notices } ∧ OtherChainsStand s t i ∧
      (t.bau.chains.get i).queue = (s.bau.chains.get i).queue ∧ (t.bau.chains.get i).grace = none ∧
      (t.bau.chains.get i).accumulator =
        (s.bau.chains.get i).accumulator + segmentCharge pl.segment s.timeBase ∧
      (t.bau.chains.get i).pulse = some pl' ∧
      pl' = { pl with
        segment :=
          { code := code
            start := s.timeBase
            k := (s.bau.chains.get i).power.k
            inhibited := (s.bau.chains.get i).heldInhibit
            marked := overshoots (s.bau.chains.get i) code } } ∧
      JudgedAs (overshoots (s.bau.chains.get i) code) s.bau.shared (s.bau.chains.get i) (t.bau.chains.get i) ∧
      (t.bau.chains.get i).announcedInEpoch = true ∧
      t.notices = s.notices ++ [.activityNotice i] ++
        judgedNotices (overshoots (s.bau.chains.get i) code) s.bau.shared i (s.bau.chains.get i) ∧
      (t.ports.get p).slot = answerSlot .ok .announce
        ([BitVec.ofNat 8 (s.bau.chains.get i).queue.length] ++ ceilingBytes (s.bau.chains.get i).heldCeiling ++
          [boolByte (s.bau.chains.get i).heldInhibit])

/-- A rise in RUN opens a pulse: paired with the queue's head, or unannounced at cmax with UNANNOUNCED and its strike; the
activity notice is sent and the first segment is judged against the held ceiling, an overshoot with OVERSHOOT and a strike
of its own; each strike that reaches the threshold enforces the chain, with ENFORCE and the set request. The place of the
activity notice among what the event sends is the model's choice (log 35); that a strike enforces at equality with the
threshold is read by inference (log 19). -/
def Obligations.RiseOpensAPulse : Prop :=
  ∀ i s, s.pins.txen.get i = false → s.bau.inRun = true → s.bau.closeNotice = none →
    (s.bau.chains.get i).pulse = none →
    (∀ e rest, (s.bau.chains.get i).queue = e :: rest →
      ∃ t pl, exec (.txenRise i) s = .next t ∧
        t = { s with pins := { s.pins with txen := s.pins.txen.set i true }, bau := t.bau, notices := t.notices } ∧
        OtherChainsStand s t i ∧ sameAccount (s.bau.chains.get i) (t.bau.chains.get i) ∧
        (t.bau.chains.get i).queue = rest ∧ (t.bau.chains.get i).pulse = some pl ∧ pl.rise = s.timeBase ∧
        pl.unannounced = false ∧ pl.maxDuration = e.maxDuration ∧
        pl.overrunDeadline = e.maxDuration.map (fun d => afterUs s.timeBase d.toNat) ∧ pl.overrunMark = false ∧
        pl.segment.code = e.code ∧ pl.segment.start = s.timeBase ∧ pl.segment.k = (s.bau.chains.get i).power.k ∧
        pl.segment.inhibited = (s.bau.chains.get i).heldInhibit ∧
        pl.segment.marked = overshoots (s.bau.chains.get i) e.code ∧ (t.bau.chains.get i).pulsedInEpoch = true ∧
        (t.bau.chains.get i).grace = none ∧
        JudgedAs (overshoots (s.bau.chains.get i) e.code) s.bau.shared (s.bau.chains.get i) (t.bau.chains.get i) ∧
        t.notices = s.notices ++ [.activityNotice i] ++
          judgedNotices (overshoots (s.bau.chains.get i) e.code) s.bau.shared i (s.bau.chains.get i)) ∧
    ((s.bau.chains.get i).queue = [] →
      ∃ t pl struck isOver, exec (.txenRise i) s = .next t ∧
        t = { s with pins := { s.pins with txen := s.pins.txen.set i true }, bau := t.bau, notices := t.notices } ∧
        OtherChainsStand s t i ∧ sameAccount (s.bau.chains.get i) (t.bau.chains.get i) ∧
        isOver = overshoots (s.bau.chains.get i) (s.bau.chains.get i).power.cmax ∧
        (t.bau.chains.get i).queue = [] ∧ (t.bau.chains.get i).pulse = some pl ∧ pl.rise = s.timeBase ∧
        pl.unannounced = true ∧ pl.maxDuration = none ∧ pl.overrunDeadline = none ∧ pl.overrunMark = false ∧
        pl.segment =
          { code := (s.bau.chains.get i).power.cmax
            start := s.timeBase
            k := (s.bau.chains.get i).power.k
            inhibited := (s.bau.chains.get i).heldInhibit
            marked := isOver } ∧
        (t.bau.chains.get i).pulsedInEpoch = true ∧ (t.bau.chains.get i).grace = none ∧
        struck = struckOnce s.bau.shared
          { s.bau.chains.get i with
            counters :=
              { (s.bau.chains.get i).counters with
                unannounced := satInc16 (s.bau.chains.get i).counters.unannounced } } ∧
        JudgedAs isOver s.bau.shared struck (t.bau.chains.get i) ∧
        t.notices = s.notices ++ [raiseChain .unannounced i, .activityNotice i] ++
          strikeNotices s.bau.shared i (s.bau.chains.get i) ++ judgedNotices isOver s.bau.shared i struck)

/-- A fall charges the current segment and closes the pulse; grace and the overrun deadline go with it; the queue, the
strikes, the counters and the notices stand. A segment's energy: the linear power of its exposure code times its length,
rounded up to a nanojoule; within an epoch it stays within the bound of R12. That a segment whose end stamp lies before its
start stamp is charged 0 is the model's choice (log 33), and so is that a longer one wraps at 32 bits (log 18). -/
def Obligations.FallChargesAndClosesThePulse : Prop :=
  (∀ i s pl, s.pins.txen.get i = true → s.bau.inRun = true → s.bau.closeNotice = none →
      (s.bau.chains.get i).pulse = some pl →
      ∃ t, exec (.txenFall i) s = .next t ∧
        t = { s with pins := { s.pins with txen := s.pins.txen.set i false }, bau := t.bau } ∧ OtherChainsStand s t i ∧
        t.bau.chains.get i =
          { s.bau.chains.get i with
            accumulator := (s.bau.chains.get i).accumulator +
              if pl.segment.inhibited || !reached s.timeBase pl.segment.start then 0
              else BitVec.ofNat 32 (segmentEnergy pl.segment.code pl.segment.k (elapsed pl.segment.start s.timeBase))
            pulse := none
            grace := none }) ∧
  (∀ (p : Code) (k d : Nat),
      linNat (p.toNat - k) * d ≤ segmentEnergy p k d * 1000000 ∧
        segmentEnergy p k d * 1000000 < linNat (p.toNat - k) * d + 1000000 ∧ segmentEnergy p k 0 = 0 ∧
        (d ≤ 500000 → segmentEnergy p k d ≤ 1185500000))

/-- The BAU's three expiries, when due: a stale head leaves with STALE, an overrunning pulse is judged once, a grace
deadline makes the running segment an overshoot. One strike: the count rises by one, staying at 255; at a threshold that
is not 0, on a chain not yet enforced, the chain is enforced once, with ENFORCE raised and a set request naming the
running epoch; otherwise nothing is sent. An overrun and an expired grace raise OVERSHOOT and then send what their strike
sends. When an expiry is due is read by inference (log 3), and so is that a strike enforces only when the count equals the
threshold (log 19); that a late expiry's strike is of the epoch running when it is taken is the model's choice (log 45). -/
def Obligations.ExpiriesAndStrikes : Prop :=
  (∀ i s, s.bau.closeNotice = none →
      (∀ e rest, (s.bau.chains.get i).queue = e :: rest →
        reached s.timeBase (afterMs e.arrival s.bau.shared.staleMs) = true →
        ∃ t, exec (.staleExpiry i) s = .next t ∧
          t = { s with bau := t.bau, notices := s.notices ++ [raiseChain .stale i] } ∧ OtherChainsStand s t i ∧
          t.bau.chains.get i =
            { s.bau.chains.get i with
              queue := rest
              counters := { (s.bau.chains.get i).counters with stale := satInc16 (s.bau.chains.get i).counters.stale } }) ∧
      (∀ pl d, (s.bau.chains.get i).pulse = some pl → pl.overrunDeadline = some d → reached s.timeBase d = true →
        pl.overrunMark = false →
        ∃ t, exec (.overrunExpiry i) s = .next t ∧ t = { s with bau := t.bau, notices := t.notices } ∧
          OtherChainsStand s t i ∧ sameAccount (s.bau.chains.get i) (t.bau.chains.get i) ∧
          (t.bau.chains.get i).queue = (s.bau.chains.get i).queue ∧
          (t.bau.chains.get i).pulse = some { pl with overrunMark := true } ∧
          (t.bau.chains.get i).grace = (s.bau.chains.get i).grace ∧
          JudgedAs (!pl.segment.inhibited) s.bau.shared (s.bau.chains.get i) (t.bau.chains.get i) ∧
          t.notices = s.notices ++ judgedNotices (!pl.segment.inhibited) s.bau.shared i (s.bau.chains.get i)) ∧
      ∀ pl d, (s.bau.chains.get i).pulse = some pl → (s.bau.chains.get i).grace = some d → reached s.timeBase d = true →
        ∃ t, exec (.graceExpiry i) s = .next t ∧ t = { s with bau := t.bau, notices := t.notices } ∧
          OtherChainsStand s t i ∧ sameAccount (s.bau.chains.get i) (t.bau.chains.get i) ∧
          (t.bau.chains.get i).queue = (s.bau.chains.get i).queue ∧ (t.bau.chains.get i).grace = none ∧
          (t.bau.chains.get i).pulse = some { pl with segment := { pl.segment with marked := true } } ∧
          JudgedAs true s.bau.shared (s.bau.chains.get i) (t.bau.chains.get i) ∧
          t.notices = s.notices ++ overshootNotices s.bau.shared i (s.bau.chains.get i)) ∧
  (∀ sh i c, (strike sh i c).val.strikes = satInc8 c.strikes ∧
      (sh.threshold ≠ 0 → (satInc8 c.strikes).toNat = sh.threshold → c.enforced = false →
        (strike sh i c).val.enforced = true ∧
          (strike sh i c).val.counters.enforcements = satInc16 c.counters.enforcements ∧
          (strike sh i c).out = [raiseChain .enforce i, .enforcementSetRequest i sh.epoch]) ∧
      ((sh.threshold = 0 ∨ (satInc8 c.strikes).toNat ≠ sh.threshold ∨ c.enforced = true) →
        (strike sh i c).val = { c with strikes := satInc8 c.strikes } ∧ (strike sh i c).out = []))

/-- A ceiling change notice updates the held values; under an open pulse whose inhibit stays asserted it does nothing more;
under one whose inhibit stays released it is judged by the table of R91: nothing on a marked segment, a grace timer started,
kept or stopped, an overshoot at an interval of 0. A ceiling change notice that changes the inhibit state cuts the open
segment at the same code: charged up to an assertion, which stops the grace timer, 0 up to a release, which starts it when
the code is above the new ceiling, or at an interval of 0 is an overshoot at once. Notices are taken in the order sent.
That the strike of an overshoot enforces only when the count equals the threshold is read by inference (log 19). The model's
choices are that a segment is charged 0 where the notice's stamp lies before its start (log 33), and that a notice stamped
before the boundary of a close and taken after it starts its grace timer with the interval in force at the taking (log 40)
and its segment with the k in force at the taking (log 41). -/
def Obligations.CeilingChangesStartGraceOrCut : Prop :=
  (∀ n s, s.bau.closeNotice = none → s.inOrder (.ceilingChangeNotice n) = true →
      ((s.bau.chains.get n.chain).pulse = none ∨
          (s.bau.chains.get n.chain).heldInhibit = true ∧ n.inhibit = true →
        ∃ t, exec (.ceilingChangeNotice n) s = .next t ∧
          t = { s with bau := t.bau, notices := s.notices.erase (.ceilingChangeNotice n) } ∧
          OtherChainsStand s t n.chain ∧
          t.bau.chains.get n.chain =
            { s.bau.chains.get n.chain with heldCeiling := n.ceiling, heldInhibit := n.inhibit }) ∧
      ∀ pl, (s.bau.chains.get n.chain).pulse = some pl → (s.bau.chains.get n.chain).heldInhibit = false →
        n.inhibit = false →
        ∃ t, exec (.ceilingChangeNotice n) s = .next t ∧ t = { s with bau := t.bau, notices := t.notices } ∧
          OtherChainsStand s t n.chain ∧
          (pl.segment.marked = true →
            t.bau.chains.get n.chain =
                { s.bau.chains.get n.chain with heldCeiling := n.ceiling, heldInhibit := false } ∧
              t.notices = s.notices.erase (.ceilingChangeNotice n)) ∧
          (pl.segment.marked = false → exceeds pl.segment.code n.ceiling = false →
            t.bau.chains.get n.chain =
                { s.bau.chains.get n.chain with heldCeiling := n.ceiling, heldInhibit := false, grace := none } ∧
              t.notices = s.notices.erase (.ceilingChangeNotice n)) ∧
          (pl.segment.marked = false → exceeds pl.segment.code n.ceiling = true →
            (∀ d, (s.bau.chains.get n.chain).grace = some d →
              t.bau.chains.get n.chain =
                  { s.bau.chains.get n.chain with heldCeiling := n.ceiling, heldInhibit := false } ∧
                t.notices = s.notices.erase (.ceilingChangeNotice n)) ∧
            ((s.bau.chains.get n.chain).grace = none → s.bau.shared.graceMs ≠ 0 →
              t.bau.chains.get n.chain =
                  { s.bau.chains.get n.chain with
                    heldCeiling := n.ceiling
                    heldInhibit := false
                    grace := some (afterMs n.stamp s.bau.shared.graceMs) } ∧
                t.notices = s.notices.erase (.ceilingChangeNotice n)) ∧
            ((s.bau.chains.get n.chain).grace = none → s.bau.shared.graceMs = 0 →
              (t.bau.chains.get n.chain).pulse = some { pl with segment := { pl.segment with marked := true } } ∧
                (t.bau.chains.get n.chain).grace = none ∧ (t.bau.chains.get n.chain).heldCeiling = n.ceiling ∧
                (t.bau.chains.get n.chain).heldInhibit = false ∧
                (t.bau.chains.get n.chain).accumulator = (s.bau.chains.get n.chain).accumulator ∧
                (t.bau.chains.get n.chain).queue = (s.bau.chains.get n.chain).queue ∧
                JudgedAs true s.bau.shared (s.bau.chains.get n.chain) (t.bau.chains.get n.chain) ∧
                t.notices = s.notices.erase (.ceilingChangeNotice n) ++
                  overshootNotices s.bau.shared n.chain (s.bau.chains.get n.chain)))) ∧
  (∀ n s pl, s.bau.closeNotice = none → s.inOrder (.ceilingChangeNotice n) = true →
      (s.bau.chains.get n.chain).pulse = some pl → (s.bau.chains.get n.chain).heldInhibit ≠ n.inhibit →
      ∃ t seg isOver, exec (.ceilingChangeNotice n) s = .next t ∧ t = { s with bau := t.bau, notices := t.notices } ∧
        OtherChainsStand s t n.chain ∧ (t.bau.chains.get n.chain).heldCeiling = n.ceiling ∧
        (t.bau.chains.get n.chain).heldInhibit = n.inhibit ∧
        (t.bau.chains.get n.chain).queue = (s.bau.chains.get n.chain).queue ∧
        (t.bau.chains.get n.chain).accumulator =
          (s.bau.chains.get n.chain).accumulator + segmentCharge pl.segment n.stamp ∧
        (t.bau.chains.get n.chain).pulse = some { pl with segment := seg } ∧ seg.code = pl.segment.code ∧
        seg.start = n.stamp ∧ seg.k = (s.bau.chains.get n.chain).power.k ∧ seg.inhibited = n.inhibit ∧
        seg.marked = isOver ∧
        isOver = (!n.inhibit && exceeds pl.segment.code n.ceiling && decide (s.bau.shared.graceMs = 0)) ∧
        (t.bau.chains.get n.chain).grace =
          (if n.inhibit = false ∧ exceeds pl.segment.code n.ceiling = true ∧ s.bau.shared.graceMs ≠ 0
            then some (afterMs n.stamp s.bau.shared.graceMs) else none) ∧
        JudgedAs isOver s.bau.shared (s.bau.chains.get n.chain) (t.bau.chains.get n.chain) ∧
        t.notices = s.notices.erase (.ceilingChangeNotice n) ++
          judgedNotices isOver s.bau.shared n.chain (s.bau.chains.get n.chain))

/-- The BAU's close notice and close answer are held; while the notice is held, an edge, an expiry, a ceiling change, an
ANNOUNCE, or the flush of a SET_OWNER or PORT_RESET is held behind it and changes nothing else at the BAU; an edge or an
expiry is held with its stamp. What else of a request is not held is the model's choice (log 11). That the port of a held
ANNOUNCE stands between two frames, its slot as the frame left it, until the answer comes is read by inference from R152
(log 23); in every state that PortsInv admits that slot is EMPTY. What taking a held event does: an expiry, a ceiling change
or an ANNOUNCE does what its command does with no notice held, a flush empties the queue into the flushed counter, and all
but an ANNOUNCE go by their own stamp and not by the time base. -/
def Obligations.CloseNoticeHoldsEveryEvent : Prop :=
  (∀ n s, ∃ t, exec (.bauCloseNotice n) s = .next t ∧
    t = { s with bau := { s.bau with closeNotice := some n }, notices := s.notices.erase (.bauCloseNotice n) }) ∧
  (∀ a s, ∃ t, exec (.bauCloseAnswer a) s = .next t ∧
    t = { s with bau := { s.bau with closeAnswer := some a }, notices := s.notices.erase (.bauCloseAnswer a) }) ∧
  (∀ s : State, s.bau.closeNotice = none →
    (∀ i, exec (.staleExpiry i) s = .next (bauTake s (.staleExpiry i s.timeBase)) ∧
      exec (.overrunExpiry i) s = .next (bauTake s (.overrunExpiry i s.timeBase)) ∧
      exec (.graceExpiry i) s = .next (bauTake s (.graceExpiry i s.timeBase))) ∧
    (∀ m, s.inOrder (.ceilingChangeNotice m) = true →
      exec (.ceilingChangeNotice m) s =
        .next (bauTake { s with notices := s.notices.erase (.ceilingChangeNotice m) } (.ceilingChange m))) ∧
    ∀ p chain code d, p ≠ .portC → StartsFree s p →
      exec (.announceNext p chain code d) s =
          .next (bauTake (s.frameEnded p (.announce chain 0 code d)) (.announce p chain 0 code d)) ∧
        exec (.announceNow p chain code d) s =
          .next (bauTake (s.frameEnded p (.announce chain 1 code d)) (.announce p chain 1 code d))) ∧
  (∀ (s : State) i, ∃ t, bauTake s (.flush i) = t ∧ t = { s with bau := t.bau } ∧ OtherChainsStand s t i ∧
    t.bau.chains.get i =
      { s.bau.chains.get i with
        queue := []
        counters := { (s.bau.chains.get i).counters with
          flushed := satAdd16 (s.bau.chains.get i).counters.flushed (s.bau.chains.get i).queue.length } }) ∧
  (∀ (s : State) e now, (∀ p chain kind code d, e ≠ .announce p chain kind code d) →
    bauTake { s with timeBase := now } e = { bauTake s e with timeBase := now }) ∧
  ∀ s n, s.bau.closeNotice = some n →
    (∀ i, s.bau.inRun = true → s.pins.txen.get i = false →
      exec (.txenRise i) s =
        .next { s with
          pins := { s.pins with txen := s.pins.txen.set i true }
          bau := { s.bau with held := s.bau.held ++ [.rise i s.timeBase] } }) ∧
    (∀ i, s.bau.inRun = true → s.pins.txen.get i = true →
      exec (.txenFall i) s =
        .next { s with
          pins := { s.pins with txen := s.pins.txen.set i false }
          bau := { s.bau with held := s.bau.held ++ [.fall i s.timeBase] } }) ∧
    (∀ i,
      exec (.staleExpiry i) s =
          .next { s with bau := { s.bau with held := s.bau.held ++ [.staleExpiry i s.timeBase] } } ∧
        exec (.overrunExpiry i) s =
          .next { s with bau := { s.bau with held := s.bau.held ++ [.overrunExpiry i s.timeBase] } } ∧
        exec (.graceExpiry i) s =
          .next { s with bau := { s.bau with held := s.bau.held ++ [.graceExpiry i s.timeBase] } }) ∧
    (∀ m, s.inOrder (.ceilingChangeNotice m) = true → exec (.ceilingChangeNotice m) s =
      .next { s with
        bau := { s.bau with held := s.bau.held ++ [.ceilingChange m] }
        notices := s.notices.erase (.ceilingChangeNotice m) }) ∧
    (∀ p chain code d, p ≠ .portC → StartsFree s p →
      (∃ t, exec (.announceNext p chain code d) s = .next t ∧ PortAfter s t p (collectedSlot (s.ports.get p)) ∧
        t = { s with
          ports := t.ports
          bau := { s.bau with held := s.bau.held ++ [.announce p chain 0 code d] } }) ∧
      ∃ t, exec (.announceNow p chain code d) s = .next t ∧ PortAfter s t p (collectedSlot (s.ports.get p)) ∧
        t = { s with
          ports := t.ports
          bau := { s.bau with held := s.bau.held ++ [.announce p chain 1 code d] } }) ∧
    (∀ p, PortsInv s → s.awaitsAnswer p = true → (s.ports.get p).slot = .empty) ∧
    (∀ chain owner i o, StartsFree s .portC → s.isLoading = false → chainOfByte chain = some i →
      ownerOfByte owner = some o →
      ∃ t, exec (.setOwner .portC chain owner) s = .next t ∧
        PortAfter s t .portC (answerSlot .ok .setOwner [chain, owner]) ∧
        t.pst = { s.pst with owners := s.pst.owners.set i o } ∧
        t.bau = { s.bau with held := s.bau.held ++ [.flush i] }) ∧
    ∀ p, StartsFree s p →
      ∃ t, exec (.portReset p) s = .next t ∧ PortAfter s t p .empty ∧
        t.bau = { s.bau with held := s.bau.held ++ (Chain.all.filter (s.owns p)).map .flush }

/-- The close event: the report carries each chain's energy up to the boundary and its strikes, the quiet summary follows,
and every chain opens the next epoch with its flags cleared, its pulse kept and a new segment at the boundary; the
parameters of the answer are in force from there. Where the stale limit changes, the entries already due leave with STALE;
a boundary segment that inherits no grace timer is judged in the new epoch, its strike counted there. The events held are
then taken in order. Without the notice or the answer the event changes nothing (log 4, DEDUCED). That report and summary
come before the new parameters and the stale recheck is read by inference (log 13), as is that a strike enforces at equality
with the threshold (log 19). The model's choices: the moment of the held events (log 11); that a segment whose start lies
after the boundary is charged 0 (log 33); that a held ANNOUNCE is checked against the owner then held (log 34); that a held
event takes the grace interval (log 40) and k and cmax (log 41) then in force; that a close taken before the entry to RUN
acts (log 43); and the order TX0 to TX3 of what the chains raise and send (log 35). -/
def Obligations.CloseEventReportsAndOpensTheEpoch : Prop :=
  (∀ s, s.bau.closeNotice = none ∨ s.bau.closeAnswer = none → exec .bauCloseEvent s = .next s) ∧
  (∀ s n a, s.bau.closeNotice = some n → s.bau.closeAnswer = some a →
    ∃ t, exec .bauCloseEvent { s with bau := { s.bau with held := [] } } = .next t ∧
      exec .bauCloseEvent s = .next (s.bau.held.foldl bauTake t)) ∧
  ∀ s n a, s.bau.closeNotice = some n → s.bau.closeAnswer = some a → s.bau.held = [] →
    ∃ (t : State) (staleOut overOut : Chain → List Instr) (opened : Chain → BauChain),
      exec .bauCloseEvent s = .next t ∧ t = { s with bau := t.bau, notices := t.notices } ∧
      t.notices = s.notices ++
        [.epochEnergyReport (PerChain.build fun i =>
            { energy := (s.bau.chains.get i).accumulator +
                match (s.bau.chains.get i).pulse with
                | some pl => segmentCharge pl.segment n.boundary
                | none => 0
              strikes := (s.bau.chains.get i).strikes }),
          .quietSummary (PerChain.build fun i =>
            !(s.bau.chains.get i).announcedInEpoch && !(s.bau.chains.get i).pulsedInEpoch &&
              (s.bau.chains.get i).queue.isEmpty && (s.bau.chains.get i).pulse.isNone)] ++
        (staleOut .tx0 ++ overOut .tx0) ++ (staleOut .tx1 ++ overOut .tx1) ++ (staleOut .tx2 ++ overOut .tx2) ++
        (staleOut .tx3 ++ overOut .tx3) ∧
      t.bau.closeNotice = none ∧ t.bau.closeAnswer = none ∧ t.bau.held = [] ∧ t.bau.inRun = s.bau.inRun ∧
      t.bau.shared.epoch = nextEpoch n.closing ∧
      (a = none → t.bau.shared = { s.bau.shared with epoch := nextEpoch n.closing } ∧
        ∀ i, (t.bau.chains.get i).power = (s.bau.chains.get i).power) ∧
      (∀ x, a = some x → t.bau.shared =
          { epoch := nextEpoch n.closing, staleMs := x.staleMs, graceMs := x.graceMs, threshold := x.threshold } ∧
        ∀ i, (t.bau.chains.get i).power = x.chains.get i) ∧
      ∀ i,
        opened i =
          { s.bau.chains.get i with
            strikes := 0
            enforced := false
            counters :=
              { (s.bau.chains.get i).counters with
                stale := satAdd16 (s.bau.chains.get i).counters.stale
                  ((s.bau.chains.get i).queue.length - (t.bau.chains.get i).queue.length) } } ∧
        staleOut i = List.replicate ((s.bau.chains.get i).queue.length - (t.bau.chains.get i).queue.length)
          (raiseChain .stale i) ∧
        (t.bau.chains.get i).accumulator = 0 ∧
        (t.bau.chains.get i).queue =
          (if t.bau.shared.staleMs = s.bau.shared.staleMs then (s.bau.chains.get i).queue
            else (s.bau.chains.get i).queue.dropWhile fun e =>
              reached n.boundary (afterMs e.arrival t.bau.shared.staleMs)) ∧
        (t.bau.chains.get i).announcedInEpoch = false ∧
        (t.bau.chains.get i).pulsedInEpoch = (s.bau.chains.get i).pulse.isSome ∧
        (t.bau.chains.get i).heldCeiling = (s.bau.chains.get i).heldCeiling ∧
        (t.bau.chains.get i).heldInhibit = (s.bau.chains.get i).heldInhibit ∧
        ((s.bau.chains.get i).pulse = none → (t.bau.chains.get i).pulse = none ∧
          (t.bau.chains.get i).grace = (s.bau.chains.get i).grace ∧
          JudgedAs false t.bau.shared (opened i) (t.bau.chains.get i) ∧ overOut i = []) ∧
        ∀ pl, (s.bau.chains.get i).pulse = some pl →
          ∃ seg isOver, (t.bau.chains.get i).pulse = some { pl with segment := seg } ∧ seg.code = pl.segment.code ∧
            seg.start = n.boundary ∧ seg.k = (t.bau.chains.get i).power.k ∧
            seg.inhibited = (s.bau.chains.get i).heldInhibit ∧ seg.marked = isOver ∧
            isOver = ((s.bau.chains.get i).grace.isNone && overshoots (s.bau.chains.get i) pl.segment.code) ∧
            (t.bau.chains.get i).grace = (s.bau.chains.get i).grace ∧
            JudgedAs isOver t.bau.shared (opened i) (t.bau.chains.get i) ∧
            overOut i = judgedNotices isOver t.bau.shared i (opened i)

/-- The BAU's start-up: it takes the LIMITS parameters it is delivered, and at its entry to RUN the epoch is 1 and each
line found high opens an unannounced pulse at cmax with the entry stamp: the counter, the strike, UNANNOUNCED, the activity
notice and the judgement of the first segment are those of any unannounced rise. In LOADING, edges change nothing but the
line. That an edge between the device's entry and the BAU's taking of it waits with its own stamp, and is taken after the
line as it stood at the entry stamp, is read by inference (log 10), and so is that a strike enforces at equality (log 19);
the order TX0 to TX3, and that of the sends of one rise, is the model's choice (log 35), and so is that a close notice the
BAU holds or has taken before does not change this (log 43). (Where the delivery is the last the entry to RUN waits for, the
entry follows in the same step: log 36.) -/
def Obligations.BurstUnitStartsUp : Prop :=
  ((∀ x s, ∃ t : State, exec (.bauLimitsDelivery x) s = .next t.enterRunWhenDelivered ∧
      t = { s with bau := t.bau, notices := s.notices.erase (.bauLimitsDelivery x) } ∧
      t.bau = { s.bau with
        shared := { epoch := s.bau.shared.epoch, staleMs := x.staleMs, graceMs := x.graceMs, threshold := x.threshold }
        chains := t.bau.chains } ∧
      ∀ i, t.bau.chains.get i = { s.bau.chains.get i with power := x.chains.get i }) ∧
    ∀ at_ (s : State) (line : Chain → Bool), s.bau.inRun = false →
      (∀ i, (s.bau.chains.get i).queue = [] ∧ (s.bau.chains.get i).pulse = none) →
      (∀ i, StoodAtEntry (edgesOf i s.bau.early) (s.pins.txen.get i) (line i)) →
      ∃ (t u : State) (sent : Chain → List Instr),
        exec (.bauEntryToRun at_) s = .next t ∧ t = { s with bau := t.bau, notices := t.notices } ∧
        t = (s.bau.early.map edgeEvent).foldl bauTake u ∧
        u = { s with bau := u.bau, notices := u.notices } ∧
        u.bau = { s.bau with
          inRun := true, shared := { s.bau.shared with epoch := 1 }, early := [], chains := u.bau.chains } ∧
        u.notices = s.notices.erase (.bauEntryToRun at_) ++ sent .tx0 ++ sent .tx1 ++ sent .tx2 ++ sent .tx3 ∧
        ∀ i, (line i = false → u.bau.chains.get i = s.bau.chains.get i ∧ sent i = []) ∧
          (line i = true →
            UnannouncedAt at_ { s.bau.shared with epoch := 1 } i (s.bau.chains.get i) (u.bau.chains.get i) (sent i))) ∧
  (∀ i (s : State), s.bau.inRun = false → s.isLoading = true →
      exec (.txenRise i) s = .next { s with pins := { s.pins with txen := s.pins.txen.set i true } } ∧
        exec (.txenFall i) s = .next { s with pins := { s.pins with txen := s.pins.txen.set i false } }) ∧
  (∀ i (s : State), s.bau.inRun = false → s.isLoading = false →
      (s.pins.txen.get i = false →
        exec (.txenRise i) s =
          .next { s with
            pins := { s.pins with txen := s.pins.txen.set i true }
            bau := { s.bau with early := s.bau.early ++ [(i, { rising := true, stamp := s.timeBase })] } }) ∧
      (s.pins.txen.get i = true →
        exec (.txenFall i) s =
          .next { s with
            pins := { s.pins with txen := s.pins.txen.set i false }
            bau := { s.bau with early := s.bau.early ++ [(i, { rising := false, stamp := s.timeBase })] } })) ∧
  (∀ i (s : State), s.bau.inRun = true → s.bau.closeNotice = none →
      (s.pins.txen.get i = false →
        exec (.txenRise i) s =
          .next (bauTake { s with pins := { s.pins with txen := s.pins.txen.set i true } }
            (edgeEvent (i, { rising := true, stamp := s.timeBase })))) ∧
      (s.pins.txen.get i = true →
        exec (.txenFall i) s =
          .next (bauTake { s with pins := { s.pins with txen := s.pins.txen.set i false } }
            (edgeEvent (i, { rising := false, stamp := s.timeBase })))))

/-! ### Exposure windows (R9 to R11, R39 to R62) -/

/-- The epoch timer's expiry in STEADY: the three close notices carry the boundary and the closing index, the epoch
index advances, the timer runs on by exactly T, and the rings and figures stand (log 12 for the moment of the advance,
log 37 for the places of the three in the list; any may be taken first).
In COLLECTING the EWU holds the energy report and the policy answer as they come, in either order, and no figure and no
record changes until the close computation. -/
def Obligations.EpochTimerClosesAndCollects : Prop :=
  (∀ s b, s.ewu.state = .steady → s.ewu.timer = some b → reached s.timeBase b = true →
      exec .epochTimerExpiry s =
        .next { s with
          ewu := { s.ewu with
            state := .collecting
            timer := some (b + BitVec.ofNat 32 (s.ewu.params.tMs * 1000))
            closing := s.ewu.epochIndex
            epochIndex := nextEpoch s.ewu.epochIndex }
          notices := s.notices ++
            [.bauCloseNotice { boundary := b, closing := s.ewu.epochIndex },
              .pstCloseNotice { boundary := b, closing := s.ewu.epochIndex },
              .cluCloseNotice { boundary := b, closing := s.ewu.epochIndex }] }) ∧
  (∀ s, s.ewu.state = .collecting → ∀ r a,
      exec (.epochEnergyReport r) s =
        .next { s with ewu := { s.ewu with report := some r }, notices := s.notices.erase (.epochEnergyReport r) } ∧
      exec (.policyAnswer a) s =
        .next { s with ewu := { s.ewu with answer := some a }, notices := s.notices.erase (.policyAnswer a) })

/-- The close computation: one record per group with the closing index, the energy and strikes of the chains the old map
gives it and the old scenario; then the answer; then the figures of the new window, and one allowance notice per group,
G0's before G1's in the list (the model's choice: log 37; either may be taken first).
A push keeps the newest 1024 records, in order, and the newest is the one pushed. -/
def Obligations.CloseComputationPushesAndGrants : Prop :=
  (∀ s r a, s.ewu.state = .collecting → s.ewu.report = some r → s.ewu.answer = some a →
      ∃ t, exec .closeComputation s = .next t ∧ t = { s with ewu := t.ewu, notices := t.notices } ∧
        t.ewu.state = .steady ∧ t.ewu.timer = s.ewu.timer ∧ t.ewu.epochIndex = s.ewu.epochIndex ∧
        t.ewu.scenario = a.scenario ∧ t.ewu.params.tMs = s.ewu.params.tMs ∧
        t.ewu.params.map = a.map.getD s.ewu.params.map ∧ t.ewu.report = none ∧ t.ewu.answer = none ∧
        t.notices = s.notices ++
          [.groupAllowanceNotice .g0 t.ewu.groups.g0.figures.power,
            .groupAllowanceNotice .g1 t.ewu.groups.g1.figures.power] ∧
        ∀ g, (t.ewu.groups.get g).limits = a.limits.get g ∧
          (t.ewu.groups.get g).ring =
            pushRecord (s.ewu.groups.get g).ring
              { epochIndex := s.ewu.closing
                energy := BitVec.ofNat 40
                  (Chain.all.map fun i => if s.ewu.params.map.get i = g then (r.get i).energy.toNat else 0).sum
                assumed := false
                strikes := BitVec.ofNat 8
                  (min 255 (Chain.all.map fun i => if s.ewu.params.map.get i = g then (r.get i).strikes.toNat else 0).sum)
                scenario := s.ewu.scenario } ∧
          (t.ewu.groups.get g).figures =
            figuresOf (t.ewu.groups.get g).ring (a.limits.get g) s.ewu.params.tMs) ∧
  (∀ (ring : List EpochRecord) (r : EpochRecord), ring.length ≤ 1024 →
      (pushRecord ring r).length = min 1024 (ring.length + 1) ∧ (pushRecord ring r).getLast? = some r ∧
        (ring.length < 1024 → pushRecord ring r = ring ++ [r]) ∧
        (ring.length = 1024 → pushRecord ring r = ring.tail ++ [r]))

/-- The window figures, formed exactly: the newest min(N - 1, fill) records, X_max, and an allowance between e_res and e_res +
X_max that is e_res once the excess is spent. The exposure law: a group whose window has not overspent and that emits no
more than its allowance in the coming epoch has emitted, over the window and that epoch, at most N times the average energy.
Within the ranges of R12 every figure fits the 48 bits it is held at; that a greater one wraps is the model's choice
(log 18). -/
def Obligations.WindowAndAllowanceKeepTheAverage : Prop :=
  (∀ (ring : List EpochRecord) (l : GroupLimits) (tMs : Nat),
      (windowOf ring l.window).length = min (l.window - 1) ring.length ∧
        (windowOf ring l.window).isSuffixOf ring = true ∧
        (exactFigures ring l tMs).sWin = ((windowOf ring l.window).map fun r => r.energy.toNat).sum ∧
        (exactFigures ring l tMs).xWin =
          ((windowOf ring l.window).map fun r => r.energy.toNat - epochEnergy l.floor tMs).sum ∧
        (exactFigures ring l tMs).xMax = l.window * (epochEnergy l.avg tMs - epochEnergy l.floor tMs) ∧
        epochEnergy l.floor tMs ≤ (exactFigures ring l tMs).eAllow ∧
        (exactFigures ring l tMs).eAllow ≤ epochEnergy l.floor tMs + (exactFigures ring l tMs).xMax ∧
        ((exactFigures ring l tMs).xMax ≤ (exactFigures ring l tMs).xWin →
          (exactFigures ring l tMs).eAllow = epochEnergy l.floor tMs) ∧
        ((exactFigures ring l tMs).xWin ≤ (exactFigures ring l tMs).xMax →
          (exactFigures ring l tMs).eAllow + (exactFigures ring l tMs).xWin =
            epochEnergy l.floor tMs + (exactFigures ring l tMs).xMax) ∧
        (exactFigures ring l tMs).power = (exactFigures ring l tMs).eAllow * 1000 / tMs) ∧
  (∀ (ring : List EpochRecord) (l : GroupLimits) (tMs e : Nat), 1 ≤ l.window → l.floor.toNat ≤ l.avg.toNat →
      (exactFigures ring l tMs).xWin ≤ (exactFigures ring l tMs).xMax → e ≤ (exactFigures ring l tMs).eAllow →
      (exactFigures ring l tMs).sWin + e ≤ l.window * epochEnergy l.avg tMs ∧
        (exactFigures ring l tMs).xWin + excess e (epochEnergy l.floor tMs) ≤ (exactFigures ring l tMs).xMax) ∧
  (∀ (ring : List EpochRecord) (l : GroupLimits) (tMs : Nat), (∀ r ∈ ring, r.energy.toNat ≤ 4742000000) →
      l.window ≤ 1024 → 50 ≤ tMs → tMs ≤ 500 → l.floor.toNat ≤ l.avg.toNat → 1 ≤ l.window →
      (figuresOf ring l tMs).sWin.toNat = (exactFigures ring l tMs).sWin ∧
        (figuresOf ring l tMs).xWin.toNat = (exactFigures ring l tMs).xWin ∧
        (figuresOf ring l tMs).xMax.toNat = (exactFigures ring l tMs).xMax ∧
        (figuresOf ring l tMs).eAllow.toNat = (exactFigures ring l tMs).eAllow ∧
        (figuresOf ring l tMs).power.toNat = (exactFigures ring l tMs).power ∧
        (figuresOf ring l tMs).power.toNat ≤ 24279040000000)

/-- The EWU's start-up: parameters taken in STOPPED; entry and start-up answer taken together, whichever comes first; at
the entry the rings are precharged with 1024 assumed records of e_avg or left empty, epoch 1 begins and the timer runs.
Under full precharge the initial allowance is exactly the average energy. That a held entry is taken in the step that
brings the answer is the model's choice (log 15), as is that G0's allowance notice stands before G1's (log 37). (Where the
parameters are the last the entry to RUN waits for, the entry follows in the same step: log 36.) -/
def Obligations.WindowUnitStartsUp : Prop :=
  ((∀ x s, s.ewu.state = .stopped →
      exec (.ewuLimitsDelivery x) s =
        .next (State.enterRunWhenDelivered
          { s with ewu := { s.ewu with params := x }, notices := s.notices.erase (.ewuLimitsDelivery x) })) ∧
    (∀ a s, s.ewu.state = .stopped → s.ewu.heldEntry = none →
      exec (.startupPolicyAnswer a) s =
        .next { s with
          ewu := { s.ewu with startupAnswer := some a }
          notices := s.notices.erase (.startupPolicyAnswer a) }) ∧
    (∀ at_ s, s.ewu.state = .stopped → s.ewu.startupAnswer = none →
      exec (.ewuEntryToRun at_) s =
        .next { s with
          ewu := { s.ewu with heldEntry := some at_ }
          notices := s.notices.erase (.ewuEntryToRun at_) }) ∧
    ∀ at_ a s c, s.ewu.state = .stopped →
      (c = .ewuEntryToRun at_ ∧ s.ewu.startupAnswer = some a ∨
        c = .startupPolicyAnswer a ∧ s.ewu.heldEntry = some at_) →
      ∃ t, exec c s = .next t ∧ t = { s with ewu := t.ewu, notices := t.notices } ∧ t.ewu.state = .steady ∧
        t.ewu.epochIndex = 1 ∧ t.ewu.timer = some (at_ + BitVec.ofNat 32 (s.ewu.params.tMs * 1000)) ∧
        t.ewu.scenario = a.scenario ∧ t.ewu.params = s.ewu.params ∧
        t.notices = s.notices.erase c ++
          [.groupAllowanceNotice .g0 t.ewu.groups.g0.figures.power,
            .groupAllowanceNotice .g1 t.ewu.groups.g1.figures.power] ∧
        ∀ g, (t.ewu.groups.get g).limits = a.limits.get g ∧
          (t.ewu.groups.get g).ring =
            (match s.ewu.params.precharge with
            | .full => List.replicate 1024
                { epochIndex := 0
                  energy := BitVec.ofNat 40 (epochEnergy (a.limits.get g).avg s.ewu.params.tMs)
                  assumed := true
                  strikes := 0
                  scenario := a.scenario }
            | .empty => []) ∧
          (t.ewu.groups.get g).figures =
            figuresOf (t.ewu.groups.get g).ring (a.limits.get g) s.ewu.params.tMs) ∧
  (∀ (l : GroupLimits) (tMs scenario : Nat), 2 ≤ l.window → l.window ≤ 1024 → l.floor.toNat ≤ l.avg.toNat → tMs ≤ 500 →
      (figuresOf (prechargedRing .full (epochEnergy l.avg tMs) scenario) l tMs).eAllow.toNat = epochEnergy l.avg tMs)

/-! ### The ceiling table (R63 to R84, R98) -/

/-- Every input delivered to the ceiling unit replaces the input it names and nothing else, and the table is then the one
the inputs make, with the changes reported; an input whose order a rule keeps is taken in that order. What a recompute
changes and reports: the table entries alone, and the generation, by one exactly when the final ceiling or the inhibit state
of some chain changes; then one ceiling change notice goes out for each changed chain, with its final ceiling, its inhibit
state and the stamp, and one CEILING with exactly the changed chains in its mask; with no change nothing is sent. That
ceiling change notices stand in chain order with CEILING after them is the model's choice (log 26), and so is that what a
notice taken before the entry to RUN set stands at the entry (log 38), but for the epoch, which is 1
there also after a close notice (log 43). (Where a delivery is the last the entry to RUN waits for, the entry follows in the
same step: log 36.) -/
def Obligations.DeliveriesRecomputeTheTable : Prop :=
  (∀ (now : Stamp) (base : List Instr) (c : Clu) (t : State), Recomputed now base c t →
    ∃ (changed : Chain → Bool) (mask : Mask),
      (∀ i, changed i = true ↔
        (t.clu.chains.get i).entry.final ≠ (c.chains.get i).entry.final ∨
          (t.clu.chains.get i).entry.inhibit ≠ (c.chains.get i).entry.inhibit) ∧
      (∀ i, mask.getLsbD (chainIndex i) = changed i) ∧
      t.clu =
        { c with
          chains := t.clu.chains
          generation := if mask = 0 then c.generation else c.generation + 1 } ∧
      (∀ i, t.clu.chains.get i =
        { c.chains.get i with
          entry :=
            { final := finalCeiling c i
              binding := bindingOf c i
              causes := causesOf c i
              inhibit := (causesOf c i).any } }) ∧
      t.notices = base ++
        (([Chain.tx0, .tx1, .tx2, .tx3].filter changed).map fun i =>
          .ceilingChangeNotice
            { chain := i
              ceiling := (t.clu.chains.get i).entry.final
              inhibit := (t.clu.chains.get i).entry.inhibit
              stamp := now }) ++
        if mask = 0 then [] else [.eventRaise { cls := .ceiling, mask := mask }]) ∧
  ∀ s : State,
    (∀ g p, ∃ t, exec (.groupAllowanceNotice g p) s = .next t ∧ t = { s with clu := t.clu, notices := t.notices } ∧
      Recomputed s.timeBase (s.notices.erase (.groupAllowanceNotice g p))
        { s.clu with power := s.clu.power.set g p } t) ∧
    (∀ w caps, s.inOrder (.scenarioDelivery w caps) = true →
      ∃ t : State, exec (.scenarioDelivery w caps) s = .next t.enterRunWhenDelivered ∧
        t = { s with clu := t.clu, notices := t.notices } ∧
        Recomputed s.timeBase (s.notices.erase (.scenarioDelivery w caps))
          { s.clu with
            chains := PerChain.build fun i => { s.clu.chains.get i with weight := w.get i, cap := caps.get i } } t) ∧
    (∀ i cap, s.inOrder (.capDelivery i cap) = true →
      ∃ t, exec (.capDelivery i cap) s = .next t ∧ t = { s with clu := t.clu, notices := t.notices } ∧
        Recomputed s.timeBase (s.notices.erase (.capDelivery i cap))
          { s.clu with chains := s.clu.chains.set i { s.clu.chains.get i with cap := cap } } t) ∧
    (∀ p, s.inOrder (.profileDelivery p) = true →
      ∃ t : State, exec (.profileDelivery p) s = .next t.enterRunWhenDelivered ∧
        t = { s with clu := t.clu, notices := t.notices } ∧
        Recomputed s.timeBase (s.notices.erase (.profileDelivery p))
          { s.clu with chains := PerChain.build fun i => { s.clu.chains.get i with profile := p.get i } } t) ∧
    (∀ n, s.inOrder (.stageTripNotice n) = true →
      ∃ t : State, exec (.stageTripNotice n) s = .next t.enterRunWhenDelivered ∧
        t = { s with clu := t.clu, notices := t.notices } ∧
        Recomputed s.timeBase (s.notices.erase (.stageTripNotice n))
          { s.clu with zones := s.clu.zones.set n.zone { stage := n.stage, backoff := n.backoff, trip := n.trip } } t) ∧
    (∀ l o, s.inOrder (.levelLockNotice l o) = true →
      ∃ t : State, exec (.levelLockNotice l o) s = .next t.enterRunWhenDelivered ∧
        t = { s with clu := t.clu, notices := t.notices } ∧
        Recomputed s.timeBase (s.notices.erase (.levelLockNotice l o)) { s.clu with level := l, oStep := o } t) ∧
    (s.clu.loading = true →
      ∃ t, exec .cluEntryToRun s = .next t ∧ t = { s with clu := t.clu, notices := t.notices } ∧
        Recomputed s.timeBase (s.notices.erase .cluEntryToRun) { s.clu with loading := false, epoch := 1 } t)

/-- Activity: a notice makes an IDLE chain ACTIVE and recomputes, and only sets the flag of an ACTIVE one; the quiet
summary returns to IDLE exactly the ACTIVE chains it marks whose flag is clear, and recomputes when there is one.
Enforcement: a set request for the running epoch is taken, one for the next epoch held, any other ignored; a clear
request removes the enforcement it names and discards a held request. The close notice at the CLU: flags cleared and the
next epoch recorded; with no enforcement and no held request nothing else changes and nothing is sent; with enforcements
every one is released in one recompute; after that the held requests for the epoch that begins are applied, one with a
recompute of its own, and none is held any more. That a held request naming another epoch is discarded there, and that in
LOADING a request for epoch 1 is applied at once, is read by inference (log 31); that a set request naming an epoch further
ahead is ignored (log 39), that an activity notice (log 38) and a close notice (log 43) act in LOADING too, and that ceiling change
notices stand in chain order with CEILING after them (log 26), are the model's choices. -/
def Obligations.ActivityAndEnforcement : Prop :=
  ((∀ i s, (s.clu.chains.get i).active = false →
      ∃ t, exec (.activityNotice i) s = .next t ∧ t = { s with clu := t.clu, notices := t.notices } ∧
        Recomputed s.timeBase (s.notices.erase (.activityNotice i))
          { s.clu with chains :=
            s.clu.chains.set i { s.clu.chains.get i with active := true, activitySinceClose := true } } t) ∧
    (∀ i s, (s.clu.chains.get i).active = true →
      exec (.activityNotice i) s =
        .next { s with
          clu := { s.clu with chains := s.clu.chains.set i { s.clu.chains.get i with activitySinceClose := true } }
          notices := s.notices.erase (.activityNotice i) }) ∧
    ∀ quiet s,
      ((∃ i, quiet.get i = true ∧ (s.clu.chains.get i).active = true ∧
          (s.clu.chains.get i).activitySinceClose = false) →
        ∃ t, exec (.quietSummary quiet) s = .next t ∧ t = { s with clu := t.clu, notices := t.notices } ∧
          Recomputed s.timeBase (s.notices.erase (.quietSummary quiet))
            { s.clu with chains := PerChain.build fun i =>
              { s.clu.chains.get i with
                active := (s.clu.chains.get i).active &&
                  !(quiet.get i && !(s.clu.chains.get i).activitySinceClose) } } t) ∧
      ((∀ i, quiet.get i = true → (s.clu.chains.get i).active = true →
          (s.clu.chains.get i).activitySinceClose = true) →
        exec (.quietSummary quiet) s = .next { s with notices := s.notices.erase (.quietSummary quiet) })) ∧
  (∀ (i : Chain) (e : EpochIndex) (s : State), s.inOrder (.enforcementSetRequest i e) = true →
      (e = s.clu.epoch ∨ s.clu.loading = true ∧ e = nextEpoch s.clu.epoch →
        ∃ t, exec (.enforcementSetRequest i e) s = .next t ∧ t = { s with clu := t.clu, notices := t.notices } ∧
          Recomputed s.timeBase (s.notices.erase (.enforcementSetRequest i e))
            { s.clu with chains := s.clu.chains.set i { s.clu.chains.get i with enforcedEpoch := some e } } t) ∧
      (e ≠ s.clu.epoch → e = nextEpoch s.clu.epoch → s.clu.loading = false →
        exec (.enforcementSetRequest i e) s =
          .next { s with
            clu := { s.clu with heldSets := s.clu.heldSets ++ [(i, e)] }
            notices := s.notices.erase (.enforcementSetRequest i e) }) ∧
      (e ≠ s.clu.epoch → e ≠ nextEpoch s.clu.epoch →
        exec (.enforcementSetRequest i e) s =
          .next { s with notices := s.notices.erase (.enforcementSetRequest i e) })) ∧
  (∀ (i : Chain) (e : EpochIndex) (s : State), s.inOrder (.enforcementClearRequest i e) = true →
      ((s.clu.chains.get i).enforcedEpoch = some e →
        ∃ t, exec (.enforcementClearRequest i e) s = .next t ∧ t = { s with clu := t.clu, notices := t.notices } ∧
          Recomputed s.timeBase (s.notices.erase (.enforcementClearRequest i e))
            { s.clu with
              heldSets := s.clu.heldSets.filter fun r => decide (r ≠ (i, e))
              chains := s.clu.chains.set i { s.clu.chains.get i with enforcedEpoch := none } } t) ∧
      ((s.clu.chains.get i).enforcedEpoch ≠ some e →
        exec (.enforcementClearRequest i e) s =
          .next { s with
            clu := { s.clu with heldSets := s.clu.heldSets.filter fun r => decide (r ≠ (i, e)) }
            notices := s.notices.erase (.enforcementClearRequest i e) })) ∧
  (∀ n s, ∃ t, exec (.cluCloseNotice n) s = .next t ∧ t = { s with clu := t.clu, notices := t.notices } ∧
      t.clu.heldSets = [] ∧ t.clu.epoch = nextEpoch n.closing ∧ t.clu.power = s.clu.power ∧ t.clu.zones = s.clu.zones ∧
      t.clu.level = s.clu.level ∧ t.clu.oStep = s.clu.oStep ∧ t.clu.loading = s.clu.loading ∧
      ∀ i, (t.clu.chains.get i).activitySinceClose = false ∧
        (t.clu.chains.get i).enforcedEpoch =
          (if (i, nextEpoch n.closing) ∈ s.clu.heldSets then some (nextEpoch n.closing) else none) ∧
        (t.clu.chains.get i).active = (s.clu.chains.get i).active ∧
        (t.clu.chains.get i).weight = (s.clu.chains.get i).weight ∧
        (t.clu.chains.get i).cap = (s.clu.chains.get i).cap ∧
        (t.clu.chains.get i).profile = (s.clu.chains.get i).profile) ∧
  (∀ n s i, s.clu.heldSets = [(i, nextEpoch n.closing)] →
      ∃ t u, exec (.cluCloseNotice n) { s with clu := { s.clu with heldSets := [] } } = .next u ∧
        exec (.cluCloseNotice n) s = .next t ∧ t = { s with clu := t.clu, notices := t.notices } ∧
        Recomputed s.timeBase u.notices
          { u.clu with
            chains := u.clu.chains.set i
              { u.clu.chains.get i with enforcedEpoch := some (nextEpoch n.closing) } } t) ∧
  (∀ n s, (∀ r ∈ s.clu.heldSets, r.2 ≠ nextEpoch n.closing) →
      ((∀ i, (s.clu.chains.get i).enforcedEpoch = none) →
        exec (.cluCloseNotice n) s =
          .next { s with
            clu := { s.clu with
              chains := PerChain.build fun i => { s.clu.chains.get i with activitySinceClose := false }
              epoch := nextEpoch n.closing
              heldSets := [] }
            notices := s.notices.erase (.cluCloseNotice n) }) ∧
      ((∃ i, (s.clu.chains.get i).enforcedEpoch.isSome) →
        ∃ t, exec (.cluCloseNotice n) s = .next t ∧ t = { s with clu := t.clu, notices := t.notices } ∧
          Recomputed s.timeBase (s.notices.erase (.cluCloseNotice n))
            { s.clu with
              chains := PerChain.build fun i =>
                { s.clu.chains.get i with activitySinceClose := false, enforcedEpoch := none }
              epoch := nextEpoch n.closing
              heldSets := [] } t))

/-- The final ceiling is the least of the contributions that take part, and the binding set is exactly those equal to
it; a code is at most the chain's cmax and its cap. The contributions: the weighted share of the group's allowance
turned into a code, the zone's backoff, the overload level's steps, each taken from cmax and never below code 0, and OFF
for an IDLE chain, a trip or a lock; cmax itself; the cap where it is a code or OFF, none where it is NONE; and OFF, or none,
for the inhibit line. Where the table is the one its inputs make: an asserted line has final ceiling OFF, the
line is asserted exactly while a cause stands, in LOADING every line is asserted, and each cause stands exactly while its
input does. -/
def Obligations.FinalCeilingIsTheLeastContribution : Prop :=
  (∀ (c : Clu) (i : Chain),
      atMost (finalCeiling c i) (exposureContribution c i) ∧ atMost (finalCeiling c i) (thermalContribution c i) ∧
        atMost (finalCeiling c i) (overloadContribution c i) ∧ atMost (finalCeiling c i) (cmaxContribution c i) ∧
        (∀ x, capContribution c i = some x → atMost (finalCeiling c i) x) ∧
        ((causesOf c i).any = true → finalCeiling c i = .off) ∧
        (finalCeiling c i = exposureContribution c i ∨ finalCeiling c i = thermalContribution c i ∨
          finalCeiling c i = overloadContribution c i ∨ finalCeiling c i = cmaxContribution c i ∨
          capContribution c i = some (finalCeiling c i) ∨ inhibitContribution c i = some (finalCeiling c i)) ∧
        ((bindingOf c i).exposure = true ↔ exposureContribution c i = finalCeiling c i) ∧
        ((bindingOf c i).thermal = true ↔ thermalContribution c i = finalCeiling c i) ∧
        ((bindingOf c i).overload = true ↔ overloadContribution c i = finalCeiling c i) ∧
        ((bindingOf c i).cap = true ↔ capContribution c i = some (finalCeiling c i)) ∧
        ((bindingOf c i).cmax = true ↔ cmaxContribution c i = finalCeiling c i) ∧
        ((bindingOf c i).inhibit = true ↔ (causesOf c i).any = true)) ∧
  (∀ (c : Clu) (i : Chain),
      ((c.chains.get i).active = false ∨ (c.chains.get i).weight = 0 → exposureContribution c i = .off) ∧
        ((c.chains.get i).active = true → 0 < (c.chains.get i).weight →
          exposureContribution c i =
            transmitCeiling (c.chains.get i).profile.cmax (c.chains.get i).profile.k
              (codeOf ((c.power.get (c.chains.get i).profile.group).toNat * (c.chains.get i).weight /
                (Chain.all.map fun j =>
                  if (c.chains.get j).profile.group = (c.chains.get i).profile.group ∧ (c.chains.get j).active = true
                  then (c.chains.get j).weight else 0).sum))) ∧
        ((c.zones.get (c.chains.get i).profile.zone).trip = true → thermalContribution c i = .off) ∧
        ((c.zones.get (c.chains.get i).profile.zone).trip = false →
          thermalContribution c i =
            .code (BitVec.ofNat 8
              ((c.chains.get i).profile.cmax.toNat - (c.zones.get (c.chains.get i).profile.zone).backoff))) ∧
        (c.level = .lock → overloadContribution c i = .off) ∧
        (∀ n, c.level = .level n →
          overloadContribution c i = .code (BitVec.ofNat 8 ((c.chains.get i).profile.cmax.toNat - n * c.oStep))) ∧
        cmaxContribution c i = .code (c.chains.get i).profile.cmax ∧
        ((c.chains.get i).cap = .uncapped → capContribution c i = none) ∧
        ((c.chains.get i).cap = .off → capContribution c i = some .off) ∧
        (∀ x, (c.chains.get i).cap = .code x → capContribution c i = some (.code x)) ∧
        ((causesOf c i).any = true → inhibitContribution c i = some .off) ∧
        ((causesOf c i).any = false → inhibitContribution c i = none)) ∧
  (∀ (c : Clu) (i : Chain), CeilingInv c →
      ((c.chains.get i).entry.inhibit = true → (c.chains.get i).entry.final = .off) ∧
        ((c.chains.get i).entry.inhibit = (c.chains.get i).entry.causes.any) ∧
        (c.loading = true → (c.chains.get i).entry.inhibit = true) ∧
        ((c.chains.get i).entry.causes.loading = c.loading) ∧
        ((c.chains.get i).entry.causes.trip = (c.zones.get (c.chains.get i).profile.zone).trip) ∧
        ((c.chains.get i).entry.causes.enforce = true ↔ (c.chains.get i).enforcedEpoch.isSome) ∧
        ((c.chains.get i).entry.causes.lock = true ↔ c.level = .lock))

/-- The exposure law of the ceilings: with the table its inputs make, the linear powers of the final ceilings' exposure
codes over a group never exceed the allowance the ceiling unit holds for it. -/
def Obligations.CeilingsStayWithinTheGroupAllowance : Prop :=
  ∀ (c : Clu) (g : Group), CeilingInv c → groupExposure c g ≤ (c.power.get g).toNat

/-! ### Thermal supervision (R102 to R121) -/

/-- The temperature of a reading: interpolated on the sensor's table, rounded toward negative infinity, clamped. A
round's reading acts on a sensor by the table of R105, raising SENSOR exactly at the entry to FAULT and the return from
it. A round when the sample timer is due: every sensor takes its reading, every zone is updated from the sensors of the
round, and the next round falls one period after this one's stamp; a dwell expiry makes the dwell ELAPSED. When an
expiry is due is read by inference (log 3); that a late round has the parameters then held is the model's choice (log 45).
What the round raises and sends: the sensors' SENSOR, then what each zone's
update raises and sends; that they stand in sensor order and then in zone order is the model's choice (log 30). -/
def Obligations.RoundsReadSensorsAndUpdateZones : Prop :=
  (∀ (table : List Int) (raw : BitVec 10),
      ∃ t : Int,
        32 * t ≤ 32 * table.getD (raw.toNat / 32) 0 +
            (table.getD (raw.toNat / 32 + 1) 0 - table.getD (raw.toNat / 32) 0) * (raw.toNat % 32 : Nat) ∧
          32 * table.getD (raw.toNat / 32) 0 +
            (table.getD (raw.toNat / 32 + 1) 0 - table.getD (raw.toNat / 32) 0) * (raw.toNat % 32 : Nat) < 32 * t + 32 ∧
          linearise table raw = max (-320) (min 1200 t)) ∧
  (∀ table raw r, (readSensor table raw r).val.lastRaw = some raw ∧
      (3 ≤ raw.toNat → raw.toNat ≤ 1020 →
        (readSensor table raw r).val.temperature = some (linearise table raw) ∧
        (r.state = .ok → (readSensor table raw r).val.state = .ok ∧ (readSensor table raw r).out = []) ∧
        (r.state = .suspect → (readSensor table raw r).val.state = .ok ∧ (readSensor table raw r).val.faultRun = 0 ∧
          (readSensor table raw r).out = []) ∧
        (r.state = .fault → r.goodRun + 1 = 3 → (readSensor table raw r).val.state = .ok ∧
          (readSensor table raw r).val.faultRun = 0 ∧ (readSensor table raw r).out = [raiseBare .sensor]) ∧
        (r.state = .fault → r.goodRun + 1 ≠ 3 → (readSensor table raw r).val.state = .fault ∧
          (readSensor table raw r).val.goodRun = r.goodRun + 1 ∧ (readSensor table raw r).out = [])) ∧
      ((raw.toNat < 3 ∨ 1020 < raw.toNat) →
        (readSensor table raw r).val.temperature = r.temperature ∧
        (r.state = .ok → (readSensor table raw r).val.state = .suspect ∧ (readSensor table raw r).val.faultRun = 1 ∧
          (readSensor table raw r).out = []) ∧
        (r.state = .suspect → r.faultRun + 1 = 3 → (readSensor table raw r).val.state = .fault ∧
          (readSensor table raw r).val.goodRun = 0 ∧ (readSensor table raw r).out = [raiseBare .sensor]) ∧
        (r.state = .suspect → r.faultRun + 1 ≠ 3 → (readSensor table raw r).val.state = .suspect ∧
          (readSensor table raw r).val.faultRun = r.faultRun + 1 ∧ (readSensor table raw r).out = []) ∧
        (r.state = .fault → (readSensor table raw r).val.state = .fault ∧ (readSensor table raw r).val.goodRun = 0 ∧
          (readSensor table raw r).out = []))) ∧
  ((∀ raw s at_, s.thu.timer = some at_ → reached s.timeBase at_ = true →
      ∃ t, exec (.samplingRound raw) s = .next t ∧ t = { s with thu := t.thu, notices := t.notices } ∧
        t.thu.params = s.thu.params ∧
        t.thu.timer = some (at_ + BitVec.ofNat 32 (s.thu.params.periodMs * 1000)) ∧
        (∀ n, t.thu.sensors.get n =
          (readSensor (s.thu.params.tables.get n) (raw.get n) (s.thu.sensors.get n)).val) ∧
        (∀ z, t.thu.zones.get z =
          (updateZone z (s.thu.params.zones.get z) t.thu.sensors at_ (s.thu.zones.get z)).val) ∧
        t.notices = s.notices ++
          ([Sensor.s0, .s1, .s2, .s3].flatMap fun n =>
            (readSensor (s.thu.params.tables.get n) (raw.get n) (s.thu.sensors.get n)).out) ++
          [Zone.z0, .z1, .z2].flatMap fun z =>
            (updateZone z (s.thu.params.zones.get z) t.thu.sensors at_ (s.thu.zones.get z)).out) ∧
    ∀ z s d, (s.thu.zones.get z).dwell = some d → reached s.timeBase d = true →
      exec (.dwellExpiry z) s =
        .next { s with
          thu := { s.thu with zones := s.thu.zones.set z { s.thu.zones.get z with dwell := none } } })

/-- The stage machine: TRIP entered at or above its threshold and left below it less the hysteresis, for stage 7; a jump
to the highest stage reached; one step down, only with the dwell ELAPSED; every change restarts the dwell and is
notified; in any other case nothing changes. A zone is forced exactly when no member is outside FAULT. The temperature of
one that is not is the greatest contribution of its members, the held temperature of a member in OK or SUSPECT, and none
without one: stage, trip and dwell then stand and nothing is sent. A forced zone in TRIP stays there, one below its fault
stage rises to it, one above it steps down by one with the dwell ELAPSED and is kept while it runs; each change raises
THERMAL with its notice. A zone's stage falls by at most one in a round, and only with its dwell ELAPSED. -/
def Obligations.StageMachineOutcomes : Prop :=
  (∀ (z : Zone) (p : ZoneParams) (at_ : Stamp) (t : Int) (r : ZoneRecord),
      (r.trip = true → t < p.riseTrip - (p.hyst : Int) →
        (evaluateZone z p at_ t r).val =
          { r with trip := false, stage := 7, dwell := some (afterMs at_ p.dwellMs) } ∧
        (evaluateZone z p at_ t r).out = [raiseBare .trip,
          .stageTripNotice { zone := z, stage := 7, backoff := backoffOf p 7, trip := false }]) ∧
      (r.trip = true → p.riseTrip - (p.hyst : Int) ≤ t → evaluateZone z p at_ t r = ⟨r, []⟩) ∧
      (r.trip = false → p.riseTrip ≤ t →
        (evaluateZone z p at_ t r).val = { r with trip := true, stage := 7, dwell := some (afterMs at_ p.dwellMs) } ∧
        (evaluateZone z p at_ t r).out = [raiseBare .trip,
          .stageTripNotice { zone := z, stage := 7, backoff := backoffOf p 7, trip := true }]) ∧
      (r.trip = false → t < p.riseTrip → r.stage < 7 → riseOf p (r.stage + 1) ≤ t →
        ∃ s', r.stage < s' ∧ s' ≤ 7 ∧ riseOf p s' ≤ t ∧ (∀ u, s' < u → u ≤ 7 → t < riseOf p u) ∧
          (evaluateZone z p at_ t r).val = { r with stage := s', dwell := some (afterMs at_ p.dwellMs) } ∧
          (evaluateZone z p at_ t r).out = [raiseBare .thermal,
            .stageTripNotice { zone := z, stage := s', backoff := backoffOf p s', trip := false }]) ∧
      (r.trip = false → t < p.riseTrip → (r.stage < 7 → t < riseOf p (r.stage + 1)) → 0 < r.stage →
        t < riseOf p r.stage - (p.hyst : Int) →
        (r.dwell = none →
          (evaluateZone z p at_ t r).val = { r with stage := r.stage - 1, dwell := some (afterMs at_ p.dwellMs) } ∧
          (evaluateZone z p at_ t r).out = [raiseBare .thermal,
            .stageTripNotice
              { zone := z, stage := r.stage - 1, backoff := backoffOf p (r.stage - 1), trip := false }]) ∧
        (r.dwell ≠ none → evaluateZone z p at_ t r = ⟨r, []⟩)) ∧
      (r.trip = false → t < p.riseTrip → (r.stage < 7 → t < riseOf p (r.stage + 1)) →
        (0 < r.stage → riseOf p r.stage - (p.hyst : Int) ≤ t) → evaluateZone z p at_ t r = ⟨r, []⟩)) ∧
  (∀ (p : ZoneParams) (n : Nat), riseOf p (n + 1) = p.rise.getD n 0 ∧ backoffOf p 0 = 0 ∧
      backoffOf p (n + 1) = p.backoff.getD n 0) ∧
  (∀ (z : Zone) (p : ZoneParams) (sensors : PerSensor SensorRecord) (at_ : Stamp) (r : ZoneRecord),
      ((updateZone z p sensors at_ r).val.forced = true ↔
        ∀ n, p.members.get n = true → (sensors.get n).state = .fault) ∧
      (∀ x, (updateZone z p sensors at_ r).val.temperature = some x ↔
        (∃ n, p.members.get n = true ∧ (sensors.get n).state ≠ .fault ∧ (sensors.get n).temperature = some x) ∧
          ∀ n y, p.members.get n = true → (sensors.get n).state ≠ .fault → (sensors.get n).temperature = some y →
            y ≤ x) ∧
      ((∃ n, p.members.get n = true ∧ (sensors.get n).state ≠ .fault) →
        ((updateZone z p sensors at_ r).val.temperature = none →
          updateZone z p sensors at_ r = ⟨{ r with forced := false, temperature := none }, []⟩) ∧
        ∀ x, (updateZone z p sensors at_ r).val.temperature = some x →
          updateZone z p sensors at_ r = evaluateZone z p at_ x { r with forced := false, temperature := some x }) ∧
      ((∀ n, p.members.get n = true → (sensors.get n).state = .fault) →
        (r.trip = true → updateZone z p sensors at_ r = ⟨{ r with forced := true, temperature := none }, []⟩) ∧
        (r.trip = false → r.stage < p.faultStage →
          updateZone z p sensors at_ r =
            ⟨{ r with
                forced := true, temperature := none, stage := p.faultStage, dwell := some (afterMs at_ p.dwellMs) },
              [raiseBare .thermal,
                .stageTripNotice
                  { zone := z, stage := p.faultStage, backoff := backoffOf p p.faultStage, trip := false }]⟩) ∧
        (r.trip = false → p.faultStage < r.stage → r.dwell = none →
          updateZone z p sensors at_ r =
            ⟨{ r with
                forced := true, temperature := none, stage := r.stage - 1, dwell := some (afterMs at_ p.dwellMs) },
              [raiseBare .thermal,
                .stageTripNotice
                  { zone := z, stage := r.stage - 1, backoff := backoffOf p (r.stage - 1), trip := false }]⟩) ∧
        (r.trip = false → p.faultStage < r.stage → r.dwell ≠ none →
          updateZone z p sensors at_ r = ⟨{ r with forced := true, temperature := none }, []⟩) ∧
        (r.trip = false → r.stage = p.faultStage →
          updateZone z p sensors at_ r = ⟨{ r with forced := true, temperature := none }, []⟩))) ∧
  (∀ z p sensors at_ r, r.stage ≤ 7 → (r.trip = true → r.stage = 7) →
      ((updateZone z p sensors at_ r).val.stage < r.stage →
        (updateZone z p sensors at_ r).val.stage + 1 = r.stage ∧ r.dwell = none ∧
          (updateZone z p sensors at_ r).val.dwell = some (afterMs at_ p.dwellMs)) ∧
      (isForced sensors p = true →
        (updateZone z p sensors at_ r).val.forced = true ∧ (updateZone z p sensors at_ r).val.temperature = none ∧
        (updateZone z p sensors at_ r).val.trip = r.trip ∧
        (r.trip = false → r.stage < p.faultStage → (updateZone z p sensors at_ r).val.stage = p.faultStage) ∧
        (r.stage = p.faultStage → (updateZone z p sensors at_ r).val.stage = p.faultStage)))

/-- The thermal unit takes a THERMAL section with its sensors, zones and timer as they stand: before RUN it notifies
every zone at stage 0, in RUN exactly the zones whose current backoff changes; that the notices of one delivery stand in
zone order is the model's choice (log 30). Its first round is one period after the entry. That "before RUN" lasts until the
unit has taken its entry report, for a section of a close too, and that a later-taken round of an earlier stamp has the new
parameters, are the model's choices (log 42, log 45). -/
def Obligations.ThermalParametersAndEntry : Prop :=
  (∀ x s, ∃ t, exec (.thermalDelivery x) s = .next t ∧
    t = { s with thu := { s.thu with params := x }, notices := t.notices } ∧
    (s.thu.timer = none →
      t.notices = s.notices.erase (.thermalDelivery x) ++
        [.stageTripNotice { zone := .z0, stage := 0, backoff := 0, trip := false },
          .stageTripNotice { zone := .z1, stage := 0, backoff := 0, trip := false },
          .stageTripNotice { zone := .z2, stage := 0, backoff := 0, trip := false }]) ∧
    (s.thu.timer ≠ none →
      t.notices = s.notices.erase (.thermalDelivery x) ++
        (Zone.all.filter fun z =>
            decide (backoffOf (x.zones.get z) (s.thu.zones.get z).stage ≠
              backoffOf (s.thu.params.zones.get z) (s.thu.zones.get z).stage)).map fun z =>
          .stageTripNotice
            { zone := z
              stage := (s.thu.zones.get z).stage
              backoff := backoffOf (x.zones.get z) (s.thu.zones.get z).stage
              trip := (s.thu.zones.get z).trip })) ∧
  ∀ at_ s, s.thu.timer = none →
    exec (.thuEntryToRun at_) s =
      .next { s with
        thu := { s.thu with timer := some (at_ + BitVec.ofNat 32 (s.thu.params.periodMs * 1000)) }
        notices := s.notices.erase (.thuEntryToRun at_) }

/-! ### Supply overload (R122 to R134) -/

/-- A rising edge in RUN pushes its stamp at every level and in LOCK, raises levels 0 to 3 by one with the hold and
re-strike timers restarted, takes level 4 into LOCK, and leaves LOCK's timer; a re-strike expiry is a rise with no push.
The history keeps the newest eight stamps, and the chronic condition is evaluated after the push. In LOADING an edge,
rising or falling, moves only the line. When an expiry is due, and that its stamp is its deadline, is read by inference
(log 3), and so is that an edge between the device's entry to RUN and the unit's taking of it waits with its own stamp
(log 10). That an event acts with the parameters held when it is taken, whatever its stamp, and that the queue orders a
rising edge and a hold expiry of one stamp at level 4, are the model's choices (log 45, log 46). -/
def Obligations.DroopRisesClimbAndLock : Prop :=
  (∀ (h : List Stamp) (x : Stamp), h.length ≤ 8 →
      (h.length < 8 → pushStamp h x = h ++ [x]) ∧ (h.length = 8 → pushStamp h x = h.tail ++ [x]) ∧
        (pushStamp h x).length ≤ 8) ∧
  ∀ s : State,
    (s.pins.droop = false → s.ovu.inRun = true →
      ∃ t, exec .droopRise s = .next t ∧
        t = { s with pins := { s.pins with droop := true }, ovu := t.ovu, notices := t.notices } ∧
        t.ovu.droopHeld = true ∧ t.ovu.history = pushStamp s.ovu.history s.timeBase ∧ t.ovu.params = s.ovu.params ∧
        (t.ovu.chronic = true ↔ t.ovu.history.length = 8 ∧
          ∃ x rest, t.ovu.history = x :: rest ∧ elapsed x s.timeBase ≤ s.ovu.params.chronicS * 1000000) ∧
        (∀ n, s.ovu.level = .level n → n < 4 →
          t.ovu.level = .level (n + 1) ∧ t.ovu.hold = some (afterMs s.timeBase s.ovu.params.holdMs) ∧
            t.ovu.release = none ∧ t.ovu.reStrike = some (afterMs s.timeBase s.ovu.params.reStrikeMs) ∧
            t.notices = s.notices ++ [raiseBare .overload, .levelLockNotice (.level (n + 1)) s.ovu.params.oStep]) ∧
        (s.ovu.level = .level 4 →
          t.ovu.level = .lock ∧ t.ovu.hold = none ∧ t.ovu.release = none ∧ t.ovu.reStrike = none ∧
            t.ovu.lock = some (afterMs s.timeBase s.ovu.params.lockMs) ∧
            t.notices = s.notices ++ [raiseBare .overload, .levelLockNotice .lock s.ovu.params.oStep]) ∧
        (s.ovu.level = .lock →
          t.ovu.level = .lock ∧ t.ovu.lock = s.ovu.lock ∧ t.ovu.hold = s.ovu.hold ∧ t.notices = s.notices)) ∧
    (s.ovu.inRun = false → s.isLoading = true →
      exec .droopRise s = .next { s with pins := { s.pins with droop := true } } ∧
        exec .droopFall s = .next { s with pins := { s.pins with droop := false } }) ∧
    (s.ovu.inRun = false → s.isLoading = false →
      (s.pins.droop = false →
        exec .droopRise s =
          .next { s with
            pins := { s.pins with droop := true }
            ovu := { s.ovu with early := s.ovu.early ++ [{ rising := true, stamp := s.timeBase }] } }) ∧
      (s.pins.droop = true →
        exec .droopFall s =
          .next { s with
            pins := { s.pins with droop := false }
            ovu := { s.ovu with early := s.ovu.early ++ [{ rising := false, stamp := s.timeBase }] } })) ∧
    (∀ d n, s.ovu.reStrike = some d → reached s.timeBase d = true → s.ovu.level = .level n →
      ∃ t, exec .reStrikeExpiry s = .next t ∧ t = { s with ovu := t.ovu, notices := t.notices } ∧
        t.ovu.history = s.ovu.history ∧ t.ovu.chronic = s.ovu.chronic ∧
        (n < 4 → t.ovu.level = .level (n + 1) ∧ t.ovu.hold = some (afterMs d s.ovu.params.holdMs) ∧
          t.ovu.reStrike = some (afterMs d s.ovu.params.reStrikeMs) ∧ t.ovu.release = none ∧
          t.notices = s.notices ++ [raiseBare .overload, .levelLockNotice (.level (n + 1)) s.ovu.params.oStep]) ∧
        (n = 4 → t.ovu.level = .lock ∧ t.ovu.lock = some (afterMs d s.ovu.params.lockMs) ∧ t.ovu.hold = none ∧
          t.ovu.reStrike = none ∧ t.ovu.release = none ∧
          t.notices = s.notices ++ [raiseBare .overload, .levelLockNotice .lock s.ovu.params.oStep]))

/-- R126: a falling edge in RUN sets droop_held low, stops the re-strike timer and restarts the hold timer at levels 1
to 4; at level 0 and in LOCK it starts no timer, and LOCK's timer keeps its deadline. It evaluates the chronic
condition, changes no level and raises nothing. -/
def Obligations.DroopFallRestartsTheHold : Prop :=
  ∀ s : State, s.pins.droop = true → s.ovu.inRun = true →
    ∃ t, exec .droopFall s = .next t ∧ t = { s with pins := { s.pins with droop := false }, ovu := t.ovu } ∧
      t.ovu =
        { s.ovu with
          droopHeld := false
          reStrike := none
          hold := t.ovu.hold
          chronic := t.ovu.chronic } ∧
      (t.ovu.chronic = true ↔ s.ovu.history.length = 8 ∧
        ∃ x rest, s.ovu.history = x :: rest ∧ elapsed x s.timeBase ≤ s.ovu.params.chronicS * 1000000) ∧
      (∀ n, s.ovu.level = .level n → 1 ≤ n → t.ovu.hold = some (afterMs s.timeBase s.ovu.params.holdMs)) ∧
      ((s.ovu.level = .level 0 ∨ s.ovu.level = .lock) → t.ovu.hold = s.ovu.hold)

/-- R127: a hold expiry with droop_held low at levels 1 to 4 is a step attempt; with droop_held high it only stops the
timer, and the falling edge then restarts the hold; at level 0 nothing follows; in LOCK the hold timer is stopped by the
entry, so that no hold expiry changes anything there. When an expiry is due, and that its stamp is its deadline, is read
by inference (log 3). That a late expiry has the parameters then held, and that the queue orders it and a rising edge of
the same stamp at level 4, are the model's choices (log 45, log 46). -/
def Obligations.HoldExpiryAttemptsAStep : Prop :=
  (∀ (s : State) d, s.ovu.hold = some d → reached s.timeBase d = true →
    (s.ovu.droopHeld = false → s.ovu.level ≠ .level 0 →
      ∃ t, exec .holdExpiry s = .next t ∧ t = { s with ovu := t.ovu, notices := t.notices } ∧
        t.ovu = (stepAttempt d { s.ovu with hold := none }).val ∧
        t.notices = s.notices ++ (stepAttempt d { s.ovu with hold := none }).out) ∧
    (s.ovu.droopHeld = true →
      exec .holdExpiry s = .next { s with ovu := { s.ovu with hold := none } } ∧
        ∀ n, s.ovu.level = .level n → 1 ≤ n →
          (fallingEdge s.timeBase { s.ovu with hold := none }).hold = some (afterMs s.timeBase s.ovu.params.holdMs)) ∧
    (s.ovu.droopHeld = false → s.ovu.level = .level 0 →
      exec .holdExpiry s = .next { s with ovu := { s.ovu with hold := none } })) ∧
  (∀ t o, (enterLock t o).val.hold = none) ∧
    ∀ s : State, OverloadInv s.ovu → s.ovu.level = .lock → exec .holdExpiry s = .next s

/-- R128: a step attempt evaluates the chronic condition, then lowers the level by one with OVERLOAD and a notice, the
release timer restarted above level 0 and every timer stopped at 0; at level 1 under the chronic flag it only restarts
the release timer. A release expiry makes one. The level falls below 1 only while the unit is not chronic, and never by
more than one but for a device reset. When an expiry is due, and that its stamp is its deadline, is read by inference
(log 3); that a late one has the parameters then held is the model's choice (log 45). -/
def Obligations.StepAttemptsLowerTheLevel : Prop :=
  ((∀ t o n, o.level = .level (n + 1) → isChronic t o = false ∨ 0 < n →
      (stepAttempt t o).val.level = .level n ∧ (stepAttempt t o).val.chronic = isChronic t o ∧
        (0 < n → (stepAttempt t o).val.release = some (afterMs t o.params.releaseMs)) ∧
        (n = 0 → (stepAttempt t o).val.release = none ∧ (stepAttempt t o).val.hold = none ∧
          (stepAttempt t o).val.reStrike = none ∧ (stepAttempt t o).val.lock = none) ∧
        (stepAttempt t o).out = [raiseBare .overload, .levelLockNotice (.level n) o.params.oStep]) ∧
    (∀ t o, o.level = .level 1 → isChronic t o = true →
      (stepAttempt t o).val = { o with chronic := true, release := some (afterMs t o.params.releaseMs) } ∧
        (stepAttempt t o).out = []) ∧
    ∀ (s : State) d, s.ovu.release = some d → reached s.timeBase d = true →
      ∃ t, exec .releaseExpiry s = .next t ∧ t = { s with ovu := t.ovu, notices := t.notices } ∧
        t.ovu = (stepAttempt d { s.ovu with release := none }).val ∧
        t.notices = s.notices ++ (stepAttempt d { s.ovu with release := none }).out) ∧
  (∀ c s t m n, OverloadInv s.ovu → exec c s = .next t → s.ovu.level = .level m → t.ovu.level = .level n → n < m →
      t.ovu.inRun = true → s.ovu.inRun = true → n + 1 = m ∧ (n = 0 → t.ovu.chronic = false))

/-- The lock timer's expiry leaves LOCK for level 4 when the line is low and restarts for a full interval when it is
high; a droop stamp older than 60 s is retired; the flag stands. The OVU takes an OVERLOAD section with its level,
history and timers as they stand, notifying the CLU before RUN always and in RUN when O_step changes; at its entry to
RUN a line found high is a rising edge at the entry stamp, which takes it to level 1 with OVERLOAD and the level notice.
When an expiry is due, and that its stamp is its deadline, is read by inference (log 3), and so is that the edges between
the entry stamp and the taking of the entry follow it, each at its own stamp, as edges in RUN do (log 10). That "before RUN"
lasts until the unit has taken its entry report, for a section of a close too, is the model's choice (log 42), and so is that
an event of an earlier stamp taken after a delivery has its parameters (log 45). -/
def Obligations.LockExpiryRetirementAndEntry : Prop :=
  ((∀ (s : State) d, s.ovu.lock = some d → reached s.timeBase d = true →
      (s.ovu.droopHeld = false →
        exec .lockExpiry s =
          .next { s with
            ovu := { s.ovu with level := .level 4, lock := none, hold := some (afterMs d s.ovu.params.holdMs) }
            notices := s.notices ++ [raiseBare .overload, .levelLockNotice (.level 4) s.ovu.params.oStep] }) ∧
      (s.ovu.droopHeld = true →
        exec .lockExpiry s =
          .next { s with ovu := { s.ovu with lock := some (afterMs d s.ovu.params.lockMs) } })) ∧
    ∀ (s : State) x rest, s.ovu.history = x :: rest →
      (60000000 < elapsed x s.timeBase →
        exec .droopStampRetirement s = .next { s with ovu := { s.ovu with history := rest } }) ∧
      (elapsed x s.timeBase ≤ 60000000 → exec .droopStampRetirement s = .next s)) ∧
  ((∀ x s, ∃ t, exec (.overloadDelivery x) s = .next t ∧
      t = { s with ovu := { s.ovu with params := x }, notices := t.notices } ∧
      t.notices = s.notices.erase (.overloadDelivery x) ++
        if s.ovu.inRun = true ∧ s.ovu.params.oStep = x.oStep then [] else [.levelLockNotice s.ovu.level x.oStep]) ∧
    ∀ at_ (s : State) line, s.ovu.inRun = false → StoodAtEntry s.ovu.early s.pins.droop line →
      ∃ (t : State) (u : Eff Ovu), exec (.ovuEntryToRun at_) s = .next t ∧
        t = { s with ovu := t.ovu, notices := t.notices } ∧
        t.ovu = (droopEdges s.ovu.early u.val).val ∧
        t.notices = s.notices.erase (.ovuEntryToRun at_) ++ u.out ++ (droopEdges s.ovu.early u.val).out ∧
        (line = false → u = ⟨{ s.ovu with inRun := true, early := [] }, []⟩) ∧
        (line = true → s.ovu.level = .level 0 →
          u.val =
            { s.ovu with
              inRun := true
              early := []
              droopHeld := true
              level := .level 1
              history := pushStamp s.ovu.history at_
              chronic := u.val.chronic
              hold := some (afterMs at_ s.ovu.params.holdMs)
              release := none
              reStrike := some (afterMs at_ s.ovu.params.reStrikeMs) } ∧
          (u.val.chronic = true ↔ u.val.history.length = 8 ∧
            ∃ x rest, u.val.history = x :: rest ∧ elapsed x at_ ≤ s.ovu.params.chronicS * 1000000) ∧
          u.out = [raiseBare .overload, .levelLockNotice (.level 1) s.ovu.params.oStep])) ∧
  ((∀ o, droopEdges [] o = ⟨o, []⟩) ∧
    (∀ e rest o, droopEdges (e :: rest) o =
      ⟨(droopEdges rest (droopEdges [e] o).val).val,
        (droopEdges [e] o).out ++ (droopEdges rest (droopEdges [e] o).val).out⟩) ∧
    ∀ s : State, s.ovu.inRun = true →
      (s.pins.droop = false →
        ∃ t, exec .droopRise s = .next t ∧
          t.ovu = (droopEdges [{ rising := true, stamp := s.timeBase }] s.ovu).val ∧
          t.notices = s.notices ++ (droopEdges [{ rising := true, stamp := s.timeBase }] s.ovu).out) ∧
      (s.pins.droop = true →
        ∃ t, exec .droopFall s = .next t ∧
          t.ovu = (droopEdges [{ rising := false, stamp := s.timeBase }] s.ovu).val ∧
          t.notices = s.notices ++ (droopEdges [{ rising := false, stamp := s.timeBase }] s.ovu).out))

/-! ### Power codes (R2 to R5) -/

/-- R3: code_of of a power is the largest code whose linear power is at most it: OFF below 1000 nW, 255 from lin(255)
on, exact at a code's own power; an OFF stays OFF under a bound. -/
def Obligations.CodeOfIsTheLargestCodeWithin : Prop :=
  (∀ p c, codeOf p = .code c ↔ lin c ≤ p ∧ ∀ d : Code, c.toNat < d.toNat → p < lin d) ∧
    (∀ p, codeOf p = .off ↔ p < 1000) ∧ (∀ p, 2371000000 ≤ p → codeOf p = .code 255) ∧
    (∀ c : Code, codeOf (lin c) = .code c) ∧ (∀ b, leastCeiling .off b = .off) ∧
    ∀ p c, codeOf p = .code c → lin c ≤ p ∧ (c ≠ 255 → p < lin (c + 1)) ∧ (c = 255 → lin 255 ≤ p)

/-- The linear power strictly increases with the code, from 1000 nW to 2,371,000,000 nW. The transmit ceiling of an
exposure ceiling: the lesser of cmax and the code plus k, formed exactly; OFF stays OFF; its exposure code is at most
the exposure ceiling, so its exposure power is at most the share it came from. -/
def Obligations.TransmitCeilingKeepsTheExposure : Prop :=
  ((∀ c d : Code, c.toNat < d.toNat → lin c < lin d) ∧ lin 0 = 1000 ∧ lin 255 = 2371000000 ∧
      ∀ c : Code, lin c = mantissas.getD (c.toNat % 40) 0 * 10 ^ (c.toNat / 40)) ∧
  (∀ (cmax : Code) (k : Nat),
      transmitCeiling cmax k .off = .off ∧
        ∀ e : Code, ∃ x, transmitCeiling cmax k (.code e) = .code x ∧ x.toNat = min cmax.toNat (e.toNat + k) ∧
          (exposureCode x k).toNat ≤ e.toNat ∧
          ∀ share y, codeOf share = .code e → y.toNat ≤ x.toNat → lin (exposureCode y k) ≤ share)

/-! ### What every step keeps -/

/-- Every invariant of Safety.lean holds right after reset. -/
def Obligations.ResetSatisfiesEveryInvariant : Prop :=
  CeilingInv State.reset.clu ∧ EventInv State.reset.evr ∧ OverloadInv State.reset.ovu ∧ WindowInv State.reset.ewu ∧
    BurstInv State.reset.bau ∧ ThermalInv State.reset.thu ∧ PolicyInv State.reset.pst ∧ StagedTable State.reset.pld ∧
    LoaderInv State.reset.pld ∧ PortsInv State.reset

/-- Every step keeps the ceiling table the one its inputs make. -/
def Obligations.StepsKeepTheCeilingTable : Prop :=
  ∀ s t, CeilingInv s.clu → step s = .next t → CeilingInv t.clu

/-- Every step keeps each interrupt line asserted exactly while its port's pending set is not empty. -/
def Obligations.StepsKeepTheInterruptLines : Prop :=
  ∀ s t, EventInv s.evr → step s = .next t → EventInv t.evr

/-- Every step keeps the overload level legal and its timers those the level allows, and no droop edge waiting once the unit
has taken the entry to RUN (log 10). -/
def Obligations.StepsKeepTheOverloadTimers : Prop :=
  ∀ s t, OverloadInv s.ovu → step s = .next t → OverloadInv t.ovu

/-- Every step keeps the window figures those of the rings and limits, and the rings in order and within 1024 records.
-/
def Obligations.StepsKeepTheWindows : Prop :=
  ∀ s t, WindowInv s.ewu → step s = .next t → WindowInv t.ewu

/-- Every step keeps the queues within 8 entries, each open segment's inhibit state the held one, and a running grace
timer under an unmarked segment above its ceiling; events are held only behind a close notice, and no edge waits once the
unit has taken the entry to RUN (log 10). -/
def Obligations.StepsKeepTheBursts : Prop :=
  ∀ s t, BurstInv s.bau → step s = .next t → BurstInv t.bau

/-- Every step on a well-formed command keeps the sensors' runs, and the stages legal, 7 in TRIP. -/
def Obligations.StepsKeepTheThermalState : Prop :=
  ∀ s t, QueueWf s → ThermalInv s.thu → step s = .next t → ThermalInv t.thu

/-- Every step on a well-formed command keeps the scenario indices valid and the limits in force the active record's,
clamped, and a staged table whole. -/
def Obligations.StepsKeepThePolicy : Prop :=
  ∀ s t, QueueWf s → PolicyInv s.pst → StagedTable s.pld → step s = .next t → PolicyInv t.pst ∧ StagedTable t.pld

/-- Every step keeps what each loader state holds: a transfer, a staged profile, an asking port, out of STARTUP a start-up
result. -/
def Obligations.StepsKeepTheLoader : Prop :=
  ∀ s t, LoaderInv s.pld → step s = .next t → LoaderInv t.pld

/-- Every step keeps a PENDING slot waiting for an operation in flight for its port, a response within 60 bytes, a frame
only while select is low, and the slot of a port whose ANNOUNCE the BAU holds EMPTY, so that a delivered request is always
answered into an EMPTY slot. That the port of a held ANNOUNCE takes no edge is read by inference (log 23). -/
def Obligations.StepsKeepThePorts : Prop :=
  ∀ s t, LoaderInv s.pld → PortsInv s → step s = .next t → PortsInv t

end Statements
end

