-- ==== Sys2Proof/Laws/State.lean ====
section
/-! SUPPORT. One lemma per field per update of the state, each true by rfl. -/

namespace Sys2Proof.Machine

/-! ### send -/

@[simp] theorem State.send_timeBase (s : State) (ms : List Instr) : (s.send ms).timeBase = s.timeBase := rfl
@[simp] theorem State.send_pins (s : State) (ms : List Instr) : (s.send ms).pins = s.pins := rfl
@[simp] theorem State.send_ports (s : State) (ms : List Instr) : (s.send ms).ports = s.ports := rfl
@[simp] theorem State.send_bau (s : State) (ms : List Instr) : (s.send ms).bau = s.bau := rfl
@[simp] theorem State.send_ewu (s : State) (ms : List Instr) : (s.send ms).ewu = s.ewu := rfl
@[simp] theorem State.send_clu (s : State) (ms : List Instr) : (s.send ms).clu = s.clu := rfl
@[simp] theorem State.send_thu (s : State) (ms : List Instr) : (s.send ms).thu = s.thu := rfl
@[simp] theorem State.send_ovu (s : State) (ms : List Instr) : (s.send ms).ovu = s.ovu := rfl
@[simp] theorem State.send_pst (s : State) (ms : List Instr) : (s.send ms).pst = s.pst := rfl
@[simp] theorem State.send_evr (s : State) (ms : List Instr) : (s.send ms).evr = s.evr := rfl
@[simp] theorem State.send_pld (s : State) (ms : List Instr) : (s.send ms).pld = s.pld := rfl
@[simp] theorem State.send_notices (s : State) (ms : List Instr) : (s.send ms).notices = s.notices ++ ms := rfl
@[simp] theorem State.send_pending (s : State) (ms : List Instr) : (s.send ms).pending = s.pending := rfl

/-! ### takeNotice -/

@[simp] theorem State.takeNotice_timeBase (s : State) (m : Instr) : (s.takeNotice m).timeBase = s.timeBase := rfl
@[simp] theorem State.takeNotice_pins (s : State) (m : Instr) : (s.takeNotice m).pins = s.pins := rfl
@[simp] theorem State.takeNotice_ports (s : State) (m : Instr) : (s.takeNotice m).ports = s.ports := rfl
@[simp] theorem State.takeNotice_bau (s : State) (m : Instr) : (s.takeNotice m).bau = s.bau := rfl
@[simp] theorem State.takeNotice_ewu (s : State) (m : Instr) : (s.takeNotice m).ewu = s.ewu := rfl
@[simp] theorem State.takeNotice_clu (s : State) (m : Instr) : (s.takeNotice m).clu = s.clu := rfl
@[simp] theorem State.takeNotice_thu (s : State) (m : Instr) : (s.takeNotice m).thu = s.thu := rfl
@[simp] theorem State.takeNotice_ovu (s : State) (m : Instr) : (s.takeNotice m).ovu = s.ovu := rfl
@[simp] theorem State.takeNotice_pst (s : State) (m : Instr) : (s.takeNotice m).pst = s.pst := rfl
@[simp] theorem State.takeNotice_evr (s : State) (m : Instr) : (s.takeNotice m).evr = s.evr := rfl
@[simp] theorem State.takeNotice_pld (s : State) (m : Instr) : (s.takeNotice m).pld = s.pld := rfl
@[simp] theorem State.takeNotice_notices (s : State) (m : Instr) : (s.takeNotice m).notices = s.notices.erase m := rfl
@[simp] theorem State.takeNotice_pending (s : State) (m : Instr) : (s.takeNotice m).pending = s.pending := rfl

/-! ### runBau -/

@[simp] theorem State.runBau_timeBase (f : Bau → Eff Bau) (s : State) : (s.runBau f).timeBase = s.timeBase := rfl
@[simp] theorem State.runBau_pins (f : Bau → Eff Bau) (s : State) : (s.runBau f).pins = s.pins := rfl
@[simp] theorem State.runBau_ports (f : Bau → Eff Bau) (s : State) : (s.runBau f).ports = s.ports := rfl
@[simp] theorem State.runBau_bau (f : Bau → Eff Bau) (s : State) : (s.runBau f).bau = (f s.bau).val := rfl
@[simp] theorem State.runBau_ewu (f : Bau → Eff Bau) (s : State) : (s.runBau f).ewu = s.ewu := rfl
@[simp] theorem State.runBau_clu (f : Bau → Eff Bau) (s : State) : (s.runBau f).clu = s.clu := rfl
@[simp] theorem State.runBau_thu (f : Bau → Eff Bau) (s : State) : (s.runBau f).thu = s.thu := rfl
@[simp] theorem State.runBau_ovu (f : Bau → Eff Bau) (s : State) : (s.runBau f).ovu = s.ovu := rfl
@[simp] theorem State.runBau_pst (f : Bau → Eff Bau) (s : State) : (s.runBau f).pst = s.pst := rfl
@[simp] theorem State.runBau_evr (f : Bau → Eff Bau) (s : State) : (s.runBau f).evr = s.evr := rfl
@[simp] theorem State.runBau_pld (f : Bau → Eff Bau) (s : State) : (s.runBau f).pld = s.pld := rfl
@[simp] theorem State.runBau_notices (f : Bau → Eff Bau) (s : State) :
    (s.runBau f).notices = s.notices ++ (f s.bau).out := rfl
@[simp] theorem State.runBau_pending (f : Bau → Eff Bau) (s : State) : (s.runBau f).pending = s.pending := rfl

/-! ### runEwu -/

@[simp] theorem State.runEwu_timeBase (f : Ewu → Eff Ewu) (s : State) : (s.runEwu f).timeBase = s.timeBase := rfl
@[simp] theorem State.runEwu_pins (f : Ewu → Eff Ewu) (s : State) : (s.runEwu f).pins = s.pins := rfl
@[simp] theorem State.runEwu_ports (f : Ewu → Eff Ewu) (s : State) : (s.runEwu f).ports = s.ports := rfl
@[simp] theorem State.runEwu_bau (f : Ewu → Eff Ewu) (s : State) : (s.runEwu f).bau = s.bau := rfl
@[simp] theorem State.runEwu_ewu (f : Ewu → Eff Ewu) (s : State) : (s.runEwu f).ewu = (f s.ewu).val := rfl
@[simp] theorem State.runEwu_clu (f : Ewu → Eff Ewu) (s : State) : (s.runEwu f).clu = s.clu := rfl
@[simp] theorem State.runEwu_thu (f : Ewu → Eff Ewu) (s : State) : (s.runEwu f).thu = s.thu := rfl
@[simp] theorem State.runEwu_ovu (f : Ewu → Eff Ewu) (s : State) : (s.runEwu f).ovu = s.ovu := rfl
@[simp] theorem State.runEwu_pst (f : Ewu → Eff Ewu) (s : State) : (s.runEwu f).pst = s.pst := rfl
@[simp] theorem State.runEwu_evr (f : Ewu → Eff Ewu) (s : State) : (s.runEwu f).evr = s.evr := rfl
@[simp] theorem State.runEwu_pld (f : Ewu → Eff Ewu) (s : State) : (s.runEwu f).pld = s.pld := rfl
@[simp] theorem State.runEwu_notices (f : Ewu → Eff Ewu) (s : State) :
    (s.runEwu f).notices = s.notices ++ (f s.ewu).out := rfl
@[simp] theorem State.runEwu_pending (f : Ewu → Eff Ewu) (s : State) : (s.runEwu f).pending = s.pending := rfl

/-! ### runClu -/

@[simp] theorem State.runClu_timeBase (f : Clu → Eff Clu) (s : State) : (s.runClu f).timeBase = s.timeBase := rfl
@[simp] theorem State.runClu_pins (f : Clu → Eff Clu) (s : State) : (s.runClu f).pins = s.pins := rfl
@[simp] theorem State.runClu_ports (f : Clu → Eff Clu) (s : State) : (s.runClu f).ports = s.ports := rfl
@[simp] theorem State.runClu_bau (f : Clu → Eff Clu) (s : State) : (s.runClu f).bau = s.bau := rfl
@[simp] theorem State.runClu_ewu (f : Clu → Eff Clu) (s : State) : (s.runClu f).ewu = s.ewu := rfl
@[simp] theorem State.runClu_clu (f : Clu → Eff Clu) (s : State) : (s.runClu f).clu = (f s.clu).val := rfl
@[simp] theorem State.runClu_thu (f : Clu → Eff Clu) (s : State) : (s.runClu f).thu = s.thu := rfl
@[simp] theorem State.runClu_ovu (f : Clu → Eff Clu) (s : State) : (s.runClu f).ovu = s.ovu := rfl
@[simp] theorem State.runClu_pst (f : Clu → Eff Clu) (s : State) : (s.runClu f).pst = s.pst := rfl
@[simp] theorem State.runClu_evr (f : Clu → Eff Clu) (s : State) : (s.runClu f).evr = s.evr := rfl
@[simp] theorem State.runClu_pld (f : Clu → Eff Clu) (s : State) : (s.runClu f).pld = s.pld := rfl
@[simp] theorem State.runClu_notices (f : Clu → Eff Clu) (s : State) :
    (s.runClu f).notices = s.notices ++ (f s.clu).out := rfl
@[simp] theorem State.runClu_pending (f : Clu → Eff Clu) (s : State) : (s.runClu f).pending = s.pending := rfl

/-! ### runThu -/

@[simp] theorem State.runThu_timeBase (f : Thu → Eff Thu) (s : State) : (s.runThu f).timeBase = s.timeBase := rfl
@[simp] theorem State.runThu_pins (f : Thu → Eff Thu) (s : State) : (s.runThu f).pins = s.pins := rfl
@[simp] theorem State.runThu_ports (f : Thu → Eff Thu) (s : State) : (s.runThu f).ports = s.ports := rfl
@[simp] theorem State.runThu_bau (f : Thu → Eff Thu) (s : State) : (s.runThu f).bau = s.bau := rfl
@[simp] theorem State.runThu_ewu (f : Thu → Eff Thu) (s : State) : (s.runThu f).ewu = s.ewu := rfl
@[simp] theorem State.runThu_clu (f : Thu → Eff Thu) (s : State) : (s.runThu f).clu = s.clu := rfl
@[simp] theorem State.runThu_thu (f : Thu → Eff Thu) (s : State) : (s.runThu f).thu = (f s.thu).val := rfl
@[simp] theorem State.runThu_ovu (f : Thu → Eff Thu) (s : State) : (s.runThu f).ovu = s.ovu := rfl
@[simp] theorem State.runThu_pst (f : Thu → Eff Thu) (s : State) : (s.runThu f).pst = s.pst := rfl
@[simp] theorem State.runThu_evr (f : Thu → Eff Thu) (s : State) : (s.runThu f).evr = s.evr := rfl
@[simp] theorem State.runThu_pld (f : Thu → Eff Thu) (s : State) : (s.runThu f).pld = s.pld := rfl
@[simp] theorem State.runThu_notices (f : Thu → Eff Thu) (s : State) :
    (s.runThu f).notices = s.notices ++ (f s.thu).out := rfl
@[simp] theorem State.runThu_pending (f : Thu → Eff Thu) (s : State) : (s.runThu f).pending = s.pending := rfl

/-! ### runOvu -/

@[simp] theorem State.runOvu_timeBase (f : Ovu → Eff Ovu) (s : State) : (s.runOvu f).timeBase = s.timeBase := rfl
@[simp] theorem State.runOvu_pins (f : Ovu → Eff Ovu) (s : State) : (s.runOvu f).pins = s.pins := rfl
@[simp] theorem State.runOvu_ports (f : Ovu → Eff Ovu) (s : State) : (s.runOvu f).ports = s.ports := rfl
@[simp] theorem State.runOvu_bau (f : Ovu → Eff Ovu) (s : State) : (s.runOvu f).bau = s.bau := rfl
@[simp] theorem State.runOvu_ewu (f : Ovu → Eff Ovu) (s : State) : (s.runOvu f).ewu = s.ewu := rfl
@[simp] theorem State.runOvu_clu (f : Ovu → Eff Ovu) (s : State) : (s.runOvu f).clu = s.clu := rfl
@[simp] theorem State.runOvu_thu (f : Ovu → Eff Ovu) (s : State) : (s.runOvu f).thu = s.thu := rfl
@[simp] theorem State.runOvu_ovu (f : Ovu → Eff Ovu) (s : State) : (s.runOvu f).ovu = (f s.ovu).val := rfl
@[simp] theorem State.runOvu_pst (f : Ovu → Eff Ovu) (s : State) : (s.runOvu f).pst = s.pst := rfl
@[simp] theorem State.runOvu_evr (f : Ovu → Eff Ovu) (s : State) : (s.runOvu f).evr = s.evr := rfl
@[simp] theorem State.runOvu_pld (f : Ovu → Eff Ovu) (s : State) : (s.runOvu f).pld = s.pld := rfl
@[simp] theorem State.runOvu_notices (f : Ovu → Eff Ovu) (s : State) :
    (s.runOvu f).notices = s.notices ++ (f s.ovu).out := rfl
@[simp] theorem State.runOvu_pending (f : Ovu → Eff Ovu) (s : State) : (s.runOvu f).pending = s.pending := rfl

/-! ### runPst -/

@[simp] theorem State.runPst_timeBase (f : Pst → Eff Pst) (s : State) : (s.runPst f).timeBase = s.timeBase := rfl
@[simp] theorem State.runPst_pins (f : Pst → Eff Pst) (s : State) : (s.runPst f).pins = s.pins := rfl
@[simp] theorem State.runPst_ports (f : Pst → Eff Pst) (s : State) : (s.runPst f).ports = s.ports := rfl
@[simp] theorem State.runPst_bau (f : Pst → Eff Pst) (s : State) : (s.runPst f).bau = s.bau := rfl
@[simp] theorem State.runPst_ewu (f : Pst → Eff Pst) (s : State) : (s.runPst f).ewu = s.ewu := rfl
@[simp] theorem State.runPst_clu (f : Pst → Eff Pst) (s : State) : (s.runPst f).clu = s.clu := rfl
@[simp] theorem State.runPst_thu (f : Pst → Eff Pst) (s : State) : (s.runPst f).thu = s.thu := rfl
@[simp] theorem State.runPst_ovu (f : Pst → Eff Pst) (s : State) : (s.runPst f).ovu = s.ovu := rfl
@[simp] theorem State.runPst_pst (f : Pst → Eff Pst) (s : State) : (s.runPst f).pst = (f s.pst).val := rfl
@[simp] theorem State.runPst_evr (f : Pst → Eff Pst) (s : State) : (s.runPst f).evr = s.evr := rfl
@[simp] theorem State.runPst_pld (f : Pst → Eff Pst) (s : State) : (s.runPst f).pld = s.pld := rfl
@[simp] theorem State.runPst_notices (f : Pst → Eff Pst) (s : State) :
    (s.runPst f).notices = s.notices ++ (f s.pst).out := rfl
@[simp] theorem State.runPst_pending (f : Pst → Eff Pst) (s : State) : (s.runPst f).pending = s.pending := rfl

/-! ### runPld -/

@[simp] theorem State.runPld_timeBase (f : Pld → Eff Pld) (s : State) : (s.runPld f).timeBase = s.timeBase := rfl
@[simp] theorem State.runPld_pins (f : Pld → Eff Pld) (s : State) : (s.runPld f).pins = s.pins := rfl
@[simp] theorem State.runPld_ports (f : Pld → Eff Pld) (s : State) : (s.runPld f).ports = s.ports := rfl
@[simp] theorem State.runPld_bau (f : Pld → Eff Pld) (s : State) : (s.runPld f).bau = s.bau := rfl
@[simp] theorem State.runPld_ewu (f : Pld → Eff Pld) (s : State) : (s.runPld f).ewu = s.ewu := rfl
@[simp] theorem State.runPld_clu (f : Pld → Eff Pld) (s : State) : (s.runPld f).clu = s.clu := rfl
@[simp] theorem State.runPld_thu (f : Pld → Eff Pld) (s : State) : (s.runPld f).thu = s.thu := rfl
@[simp] theorem State.runPld_ovu (f : Pld → Eff Pld) (s : State) : (s.runPld f).ovu = s.ovu := rfl
@[simp] theorem State.runPld_pst (f : Pld → Eff Pld) (s : State) : (s.runPld f).pst = s.pst := rfl
@[simp] theorem State.runPld_evr (f : Pld → Eff Pld) (s : State) : (s.runPld f).evr = s.evr := rfl
@[simp] theorem State.runPld_pld (f : Pld → Eff Pld) (s : State) : (s.runPld f).pld = (f s.pld).val := rfl
@[simp] theorem State.runPld_notices (f : Pld → Eff Pld) (s : State) :
    (s.runPld f).notices = s.notices ++ (f s.pld).out := rfl
@[simp] theorem State.runPld_pending (f : Pld → Eff Pld) (s : State) : (s.runPld f).pending = s.pending := rfl

/-! ### setEvr -/

@[simp] theorem State.setEvr_timeBase (s : State) (e : Evr) : (s.setEvr e).timeBase = s.timeBase := rfl
@[simp] theorem State.setEvr_pins (s : State) (e : Evr) : (s.setEvr e).pins = s.pins := rfl
@[simp] theorem State.setEvr_ports (s : State) (e : Evr) : (s.setEvr e).ports = s.ports := rfl
@[simp] theorem State.setEvr_bau (s : State) (e : Evr) : (s.setEvr e).bau = s.bau := rfl
@[simp] theorem State.setEvr_ewu (s : State) (e : Evr) : (s.setEvr e).ewu = s.ewu := rfl
@[simp] theorem State.setEvr_clu (s : State) (e : Evr) : (s.setEvr e).clu = s.clu := rfl
@[simp] theorem State.setEvr_thu (s : State) (e : Evr) : (s.setEvr e).thu = s.thu := rfl
@[simp] theorem State.setEvr_ovu (s : State) (e : Evr) : (s.setEvr e).ovu = s.ovu := rfl
@[simp] theorem State.setEvr_pst (s : State) (e : Evr) : (s.setEvr e).pst = s.pst := rfl
@[simp] theorem State.setEvr_evr (s : State) (e : Evr) : (s.setEvr e).evr = e := rfl
@[simp] theorem State.setEvr_pld (s : State) (e : Evr) : (s.setEvr e).pld = s.pld := rfl
@[simp] theorem State.setEvr_notices (s : State) (e : Evr) : (s.setEvr e).notices = s.notices := rfl
@[simp] theorem State.setEvr_pending (s : State) (e : Evr) : (s.setEvr e).pending = s.pending := rfl

/-! ### setPins -/

@[simp] theorem State.setPins_timeBase (s : State) (x : Pins) : (s.setPins x).timeBase = s.timeBase := rfl
@[simp] theorem State.setPins_pins (s : State) (x : Pins) : (s.setPins x).pins = x := rfl
@[simp] theorem State.setPins_ports (s : State) (x : Pins) : (s.setPins x).ports = s.ports := rfl
@[simp] theorem State.setPins_bau (s : State) (x : Pins) : (s.setPins x).bau = s.bau := rfl
@[simp] theorem State.setPins_ewu (s : State) (x : Pins) : (s.setPins x).ewu = s.ewu := rfl
@[simp] theorem State.setPins_clu (s : State) (x : Pins) : (s.setPins x).clu = s.clu := rfl
@[simp] theorem State.setPins_thu (s : State) (x : Pins) : (s.setPins x).thu = s.thu := rfl
@[simp] theorem State.setPins_ovu (s : State) (x : Pins) : (s.setPins x).ovu = s.ovu := rfl
@[simp] theorem State.setPins_pst (s : State) (x : Pins) : (s.setPins x).pst = s.pst := rfl
@[simp] theorem State.setPins_evr (s : State) (x : Pins) : (s.setPins x).evr = s.evr := rfl
@[simp] theorem State.setPins_pld (s : State) (x : Pins) : (s.setPins x).pld = s.pld := rfl
@[simp] theorem State.setPins_notices (s : State) (x : Pins) : (s.setPins x).notices = s.notices := rfl
@[simp] theorem State.setPins_pending (s : State) (x : Pins) : (s.setPins x).pending = s.pending := rfl

/-! ### setPort -/

@[simp] theorem State.setPort_timeBase (s : State) (p : Port) (c : Cpi) : (s.setPort p c).timeBase = s.timeBase := rfl
@[simp] theorem State.setPort_pins (s : State) (p : Port) (c : Cpi) : (s.setPort p c).pins = s.pins := rfl
@[simp] theorem State.setPort_ports (s : State) (p : Port) (c : Cpi) : (s.setPort p c).ports = s.ports.set p c := rfl
@[simp] theorem State.setPort_bau (s : State) (p : Port) (c : Cpi) : (s.setPort p c).bau = s.bau := rfl
@[simp] theorem State.setPort_ewu (s : State) (p : Port) (c : Cpi) : (s.setPort p c).ewu = s.ewu := rfl
@[simp] theorem State.setPort_clu (s : State) (p : Port) (c : Cpi) : (s.setPort p c).clu = s.clu := rfl
@[simp] theorem State.setPort_thu (s : State) (p : Port) (c : Cpi) : (s.setPort p c).thu = s.thu := rfl
@[simp] theorem State.setPort_ovu (s : State) (p : Port) (c : Cpi) : (s.setPort p c).ovu = s.ovu := rfl
@[simp] theorem State.setPort_pst (s : State) (p : Port) (c : Cpi) : (s.setPort p c).pst = s.pst := rfl
@[simp] theorem State.setPort_evr (s : State) (p : Port) (c : Cpi) : (s.setPort p c).evr = s.evr := rfl
@[simp] theorem State.setPort_pld (s : State) (p : Port) (c : Cpi) : (s.setPort p c).pld = s.pld := rfl
@[simp] theorem State.setPort_notices (s : State) (p : Port) (c : Cpi) : (s.setPort p c).notices = s.notices := rfl
@[simp] theorem State.setPort_pending (s : State) (p : Port) (c : Cpi) : (s.setPort p c).pending = s.pending := rfl

/-! ### setSlot -/

@[simp] theorem State.setSlot_timeBase (s : State) (p : Port) (x : Slot) : (s.setSlot p x).timeBase = s.timeBase := rfl
@[simp] theorem State.setSlot_pins (s : State) (p : Port) (x : Slot) : (s.setSlot p x).pins = s.pins := rfl
@[simp] theorem State.setSlot_ports (s : State) (p : Port) (x : Slot) :
    (s.setSlot p x).ports = s.ports.set p { s.ports.get p with slot := x } := rfl
@[simp] theorem State.setSlot_bau (s : State) (p : Port) (x : Slot) : (s.setSlot p x).bau = s.bau := rfl
@[simp] theorem State.setSlot_ewu (s : State) (p : Port) (x : Slot) : (s.setSlot p x).ewu = s.ewu := rfl
@[simp] theorem State.setSlot_clu (s : State) (p : Port) (x : Slot) : (s.setSlot p x).clu = s.clu := rfl
@[simp] theorem State.setSlot_thu (s : State) (p : Port) (x : Slot) : (s.setSlot p x).thu = s.thu := rfl
@[simp] theorem State.setSlot_ovu (s : State) (p : Port) (x : Slot) : (s.setSlot p x).ovu = s.ovu := rfl
@[simp] theorem State.setSlot_pst (s : State) (p : Port) (x : Slot) : (s.setSlot p x).pst = s.pst := rfl
@[simp] theorem State.setSlot_evr (s : State) (p : Port) (x : Slot) : (s.setSlot p x).evr = s.evr := rfl
@[simp] theorem State.setSlot_pld (s : State) (p : Port) (x : Slot) : (s.setSlot p x).pld = s.pld := rfl
@[simp] theorem State.setSlot_notices (s : State) (p : Port) (x : Slot) : (s.setSlot p x).notices = s.notices := rfl
@[simp] theorem State.setSlot_pending (s : State) (p : Port) (x : Slot) : (s.setSlot p x).pending = s.pending := rfl

/-! ### answer -/

@[simp] theorem State.answer_timeBase (s : State) (p : Port) (st : Status) (k : Byte) (b : List Byte) :
    (s.answer p st k b).timeBase = s.timeBase := rfl
@[simp] theorem State.answer_pins (s : State) (p : Port) (st : Status) (k : Byte) (b : List Byte) :
    (s.answer p st k b).pins = s.pins := rfl
@[simp] theorem State.answer_ports (s : State) (p : Port) (st : Status) (k : Byte) (b : List Byte) :
    (s.answer p st k b).ports = s.ports.set p { s.ports.get p with slot := .ready { status := st, kind := k, payload := b } } := rfl
@[simp] theorem State.answer_bau (s : State) (p : Port) (st : Status) (k : Byte) (b : List Byte) :
    (s.answer p st k b).bau = s.bau := rfl
@[simp] theorem State.answer_ewu (s : State) (p : Port) (st : Status) (k : Byte) (b : List Byte) :
    (s.answer p st k b).ewu = s.ewu := rfl
@[simp] theorem State.answer_clu (s : State) (p : Port) (st : Status) (k : Byte) (b : List Byte) :
    (s.answer p st k b).clu = s.clu := rfl
@[simp] theorem State.answer_thu (s : State) (p : Port) (st : Status) (k : Byte) (b : List Byte) :
    (s.answer p st k b).thu = s.thu := rfl
@[simp] theorem State.answer_ovu (s : State) (p : Port) (st : Status) (k : Byte) (b : List Byte) :
    (s.answer p st k b).ovu = s.ovu := rfl
@[simp] theorem State.answer_pst (s : State) (p : Port) (st : Status) (k : Byte) (b : List Byte) :
    (s.answer p st k b).pst = s.pst := rfl
@[simp] theorem State.answer_evr (s : State) (p : Port) (st : Status) (k : Byte) (b : List Byte) :
    (s.answer p st k b).evr = s.evr := rfl
@[simp] theorem State.answer_pld (s : State) (p : Port) (st : Status) (k : Byte) (b : List Byte) :
    (s.answer p st k b).pld = s.pld := rfl
@[simp] theorem State.answer_notices (s : State) (p : Port) (st : Status) (k : Byte) (b : List Byte) :
    (s.answer p st k b).notices = s.notices := rfl
@[simp] theorem State.answer_pending (s : State) (p : Port) (st : Status) (k : Byte) (b : List Byte) :
    (s.answer p st k b).pending = s.pending := rfl

/-! ### deviceReset -/

@[simp] theorem State.deviceReset_timeBase (s : State) : (s.deviceReset).timeBase = 0 := rfl
@[simp] theorem State.deviceReset_pins (s : State) : (s.deviceReset).pins = s.pins := rfl
@[simp] theorem State.deviceReset_ports (s : State) :
    (s.deviceReset).ports = PerPort.build fun p => Cpi.reset (s.ports.get p).selectLow := rfl
@[simp] theorem State.deviceReset_bau (s : State) : (s.deviceReset).bau = Bau.reset := rfl
@[simp] theorem State.deviceReset_ewu (s : State) : (s.deviceReset).ewu = Ewu.reset := rfl
@[simp] theorem State.deviceReset_clu (s : State) : (s.deviceReset).clu = Clu.reset := rfl
@[simp] theorem State.deviceReset_thu (s : State) : (s.deviceReset).thu = Thu.reset := rfl
@[simp] theorem State.deviceReset_ovu (s : State) : (s.deviceReset).ovu = Ovu.reset := rfl
@[simp] theorem State.deviceReset_pst (s : State) : (s.deviceReset).pst = Pst.reset := rfl
@[simp] theorem State.deviceReset_evr (s : State) : (s.deviceReset).evr = Evr.reset := rfl
@[simp] theorem State.deviceReset_pld (s : State) : (s.deviceReset).pld = Pld.reset := rfl
@[simp] theorem State.deviceReset_notices (s : State) : (s.deviceReset).notices = [] := rfl
@[simp] theorem State.deviceReset_pending (s : State) : (s.deviceReset).pending = s.pending := rfl

/-! ### Effects -/

section
variable {α β : Type}

@[simp] theorem Eff.pure_val (a : α) : (Eff.pure a).val = a := rfl
@[simp] theorem Eff.pure_out (a : α) : (Eff.pure a).out = [] := rfl
@[simp] theorem Eff.map_val (e : Eff α) (f : α → β) : (e.map f).val = f e.val := rfl
@[simp] theorem Eff.map_out (e : Eff α) (f : α → β) : (e.map f).out = e.out := rfl
@[simp] theorem Eff.sendFirst_val (ms : List Instr) (e : Eff α) : (e.sendFirst ms).val = e.val := rfl
@[simp] theorem Eff.sendFirst_out (ms : List Instr) (e : Eff α) : (e.sendFirst ms).out = ms ++ e.out := rfl
@[simp] theorem Eff.andThen_val (e : Eff α) (f : α → Eff β) : (e.andThen f).val = (f e.val).val := rfl
@[simp] theorem Eff.andThen_out (e : Eff α) (f : α → Eff β) : (e.andThen f).out = e.out ++ (f e.val).out := rfl
@[simp] theorem runChains_get (f : Chain → Eff α) (i : Chain) : (runChains f).val.get i = (f i).val := by
  simp [runChains]

end

/-! ### The state after reset -/

@[simp] theorem State.reset_timeBase : State.reset.timeBase = 0 := rfl
@[simp] theorem State.reset_bau : State.reset.bau = Bau.reset := rfl
@[simp] theorem State.reset_ewu : State.reset.ewu = Ewu.reset := rfl
@[simp] theorem State.reset_clu : State.reset.clu = Clu.reset := rfl
@[simp] theorem State.reset_thu : State.reset.thu = Thu.reset := rfl
@[simp] theorem State.reset_ovu : State.reset.ovu = Ovu.reset := rfl
@[simp] theorem State.reset_pst : State.reset.pst = Pst.reset := rfl
@[simp] theorem State.reset_evr : State.reset.evr = Evr.reset := rfl
@[simp] theorem State.reset_pld : State.reset.pld = Pld.reset := rfl
@[simp] theorem State.reset_notices : State.reset.notices = [] := rfl
@[simp] theorem State.reset_pending : State.reset.pending = [] := rfl

/-! ### taking and the entry to RUN -/

theorem State.taking_of_inOrder {s : State} {c : Instr} (f : State → State) (h : s.inOrder c = true) :
    s.taking c f = f (s.takeNotice c) := by simp [State.taking, h]
theorem State.taking_of_not {s : State} {c : Instr} (f : State → State) (h : s.inOrder c = false) : s.taking c f = s := by
  simp [State.taking, h]
/-- What holds of the state as it stands and of the effect in order holds after the taking. -/
theorem State.taking_induct {P : State → Prop} {s : State} {c : Instr} {f : State → State} (hs : P s)
    (hf : P (f (s.takeNotice c))) : P (s.taking c f) := by
  simp only [State.taking]; split <;> assumption

@[simp] theorem State.taking_timeBase (s : State) (c : Instr) (f : State → State) :
    (s.taking c f).timeBase = if s.inOrder c then (f (s.takeNotice c)).timeBase else s.timeBase := by
  simp only [State.taking]; split <;> rfl
@[simp] theorem State.taking_pins (s : State) (c : Instr) (f : State → State) :
    (s.taking c f).pins = if s.inOrder c then (f (s.takeNotice c)).pins else s.pins := by
  simp only [State.taking]; split <;> rfl
@[simp] theorem State.taking_ports (s : State) (c : Instr) (f : State → State) :
    (s.taking c f).ports = if s.inOrder c then (f (s.takeNotice c)).ports else s.ports := by
  simp only [State.taking]; split <;> rfl
@[simp] theorem State.taking_bau (s : State) (c : Instr) (f : State → State) :
    (s.taking c f).bau = if s.inOrder c then (f (s.takeNotice c)).bau else s.bau := by
  simp only [State.taking]; split <;> rfl
@[simp] theorem State.taking_ewu (s : State) (c : Instr) (f : State → State) :
    (s.taking c f).ewu = if s.inOrder c then (f (s.takeNotice c)).ewu else s.ewu := by
  simp only [State.taking]; split <;> rfl
@[simp] theorem State.taking_clu (s : State) (c : Instr) (f : State → State) :
    (s.taking c f).clu = if s.inOrder c then (f (s.takeNotice c)).clu else s.clu := by
  simp only [State.taking]; split <;> rfl
@[simp] theorem State.taking_thu (s : State) (c : Instr) (f : State → State) :
    (s.taking c f).thu = if s.inOrder c then (f (s.takeNotice c)).thu else s.thu := by
  simp only [State.taking]; split <;> rfl
@[simp] theorem State.taking_ovu (s : State) (c : Instr) (f : State → State) :
    (s.taking c f).ovu = if s.inOrder c then (f (s.takeNotice c)).ovu else s.ovu := by
  simp only [State.taking]; split <;> rfl
@[simp] theorem State.taking_pst (s : State) (c : Instr) (f : State → State) :
    (s.taking c f).pst = if s.inOrder c then (f (s.takeNotice c)).pst else s.pst := by
  simp only [State.taking]; split <;> rfl
@[simp] theorem State.taking_evr (s : State) (c : Instr) (f : State → State) :
    (s.taking c f).evr = if s.inOrder c then (f (s.takeNotice c)).evr else s.evr := by
  simp only [State.taking]; split <;> rfl
@[simp] theorem State.taking_pld (s : State) (c : Instr) (f : State → State) :
    (s.taking c f).pld = if s.inOrder c then (f (s.takeNotice c)).pld else s.pld := by
  simp only [State.taking]; split <;> rfl
@[simp] theorem State.taking_notices (s : State) (c : Instr) (f : State → State) :
    (s.taking c f).notices = if s.inOrder c then (f (s.takeNotice c)).notices else s.notices := by
  simp only [State.taking]; split <;> rfl
@[simp] theorem State.taking_pending (s : State) (c : Instr) (f : State → State) :
    (s.taking c f).pending = if s.inOrder c then (f (s.takeNotice c)).pending else s.pending := by
  simp only [State.taking]; split <;> rfl

theorem State.enterRun_of_delivered {s : State} (h : s.startupDelivered = true) :
    s.enterRunWhenDelivered = ({ s with pld := { s.pld with state := .idle } }).send (entryReports s.timeBase) := by
  simp [State.enterRunWhenDelivered, h]
theorem State.enterRun_of_not {s : State} (h : s.startupDelivered = false) : s.enterRunWhenDelivered = s := by
  simp [State.enterRunWhenDelivered, h]
@[simp] theorem State.enterRun_timeBase (s : State) : s.enterRunWhenDelivered.timeBase = s.timeBase := by
  simp only [State.enterRunWhenDelivered]; split <;> rfl
@[simp] theorem State.enterRun_pins (s : State) : s.enterRunWhenDelivered.pins = s.pins := by
  simp only [State.enterRunWhenDelivered]; split <;> rfl
@[simp] theorem State.enterRun_ports (s : State) : s.enterRunWhenDelivered.ports = s.ports := by
  simp only [State.enterRunWhenDelivered]; split <;> rfl
@[simp] theorem State.enterRun_bau (s : State) : s.enterRunWhenDelivered.bau = s.bau := by
  simp only [State.enterRunWhenDelivered]; split <;> rfl
@[simp] theorem State.enterRun_ewu (s : State) : s.enterRunWhenDelivered.ewu = s.ewu := by
  simp only [State.enterRunWhenDelivered]; split <;> rfl
@[simp] theorem State.enterRun_clu (s : State) : s.enterRunWhenDelivered.clu = s.clu := by
  simp only [State.enterRunWhenDelivered]; split <;> rfl
@[simp] theorem State.enterRun_thu (s : State) : s.enterRunWhenDelivered.thu = s.thu := by
  simp only [State.enterRunWhenDelivered]; split <;> rfl
@[simp] theorem State.enterRun_ovu (s : State) : s.enterRunWhenDelivered.ovu = s.ovu := by
  simp only [State.enterRunWhenDelivered]; split <;> rfl
@[simp] theorem State.enterRun_pst (s : State) : s.enterRunWhenDelivered.pst = s.pst := by
  simp only [State.enterRunWhenDelivered]; split <;> rfl
@[simp] theorem State.enterRun_evr (s : State) : s.enterRunWhenDelivered.evr = s.evr := by
  simp only [State.enterRunWhenDelivered]; split <;> rfl
@[simp] theorem State.enterRun_pending (s : State) : s.enterRunWhenDelivered.pending = s.pending := by
  simp only [State.enterRunWhenDelivered]; split <;> rfl

end Sys2Proof.Machine
end

