-- ==== Sys2Proof/Laws/Overshoot.lean ====
section
/-! SUPPORT. What judging a chain can change: strikes, the enforced flag, two counters, and the marks. -/

namespace Sys2Proof.Machine

/-- The enforcement test changes the enforced flag and the enforcements counter alone. -/
theorem enforcementTest_frame (sh : BauShared) (i : Chain) (c : BauChain) :
    (enforcementTest sh i c).val =
      { c with
        enforced := (enforcementTest sh i c).val.enforced
        counters := { c.counters with enforcements := (enforcementTest sh i c).val.counters.enforcements } } := by
  simp only [enforcementTest]
  split <;> rfl

/-- A strike changes the strike count, the enforced flag and the enforcements counter alone. -/
theorem strike_frame (sh : BauShared) (i : Chain) (c : BauChain) :
    (strike sh i c).val =
      { c with
        strikes := satInc8 c.strikes
        enforced := (strike sh i c).val.enforced
        counters := { c.counters with enforcements := (strike sh i c).val.counters.enforcements } } := by
  simp only [strike]
  rw [enforcementTest_frame]

/-- An overshoot marks the segment, counts, strikes and stops the grace timer. -/
theorem overshoot_frame (sh : BauShared) (i : Chain) (pl : Pulse) (c : BauChain) :
    (overshoot sh i pl c).val =
      { c with
        pulse := some pl.mark
        grace := none
        strikes := satInc8 c.strikes
        enforced := (overshoot sh i pl c).val.enforced
        counters :=
          { c.counters with
            overshoots := satInc16 c.counters.overshoots
            enforcements := (overshoot sh i pl c).val.counters.enforcements } } := by
  simp only [overshoot, Eff.sendFirst_val]
  rw [strike_frame]
  rfl

/-- An unjudged segment start: no pulse, an inhibited segment, or a code within the ceiling. -/
theorem judgeStart_within (sh : BauShared) (i : Chain) (c : BauChain) (pl : Pulse) (hp : c.pulse = some pl)
    (h : pl.segment.inhibited = true ∨ exceeds pl.segment.code c.heldCeiling = false) :
    judgeStart sh i c = Eff.pure c := by
  rcases h with h | h <;> simp [judgeStart, hp, h]

/-- A segment start above the ceiling is an overshoot. -/
theorem judgeStart_above (sh : BauShared) (i : Chain) (c : BauChain) (pl : Pulse) (hp : c.pulse = some pl)
    (h : pl.segment.inhibited = false) (hx : exceeds pl.segment.code c.heldCeiling = true) :
    judgeStart sh i c = overshoot sh i pl c := by
  simp [judgeStart, hp, h, hx]

/-- A judged segment start, in one statement: the mark, the strike and the overshoots counter follow overshoots. -/
theorem judgeStart_frame (sh : BauShared) (i : Chain) (c : BauChain) (pl : Pulse) (hp : c.pulse = some pl)
    (hi : pl.segment.inhibited = c.heldInhibit) (hm : pl.segment.marked = false) (hg : c.grace = none) :
    (judgeStart sh i c).val =
      { c with
        pulse := some { pl with segment := { pl.segment with marked := overshoots c pl.segment.code } }
        strikes := (if overshoots c pl.segment.code then satInc8 c.strikes else c.strikes)
        enforced := (judgeStart sh i c).val.enforced
        counters :=
          { c.counters with
            overshoots :=
              (if overshoots c pl.segment.code then satInc16 c.counters.overshoots else c.counters.overshoots)
            enforcements := (judgeStart sh i c).val.counters.enforcements } } := by
  by_cases h : overshoots c pl.segment.code = true
  · have h2 := h
    simp only [overshoots, Bool.and_eq_true, Bool.not_eq_true'] at h2
    rw [judgeStart_above sh i c pl hp (hi.trans h2.1) h2.2, overshoot_frame]
    simp [h, Pulse.mark, hg]
  · have h2 : pl.segment.inhibited = true ∨ exceeds pl.segment.code c.heldCeiling = false := by
      simp only [overshoots, Bool.and_eq_true, Bool.not_eq_true', not_and, Bool.not_eq_true] at h
      rw [hi]
      cases hh : c.heldInhibit
      · exact .inr (h hh)
      · exact .inl rfl
    rw [judgeStart_within sh i c pl hp h2]
    simp only [Bool.not_eq_true] at h
    have : { pl with segment := { pl.segment with marked := false } } = pl := by
      cases pl with | mk a b d e f g => cases g; simp_all
    simp [h, this, ← hp]

/-- Nothing is sent by a segment start that is no overshoot. -/
theorem judgeStart_out_within (sh : BauShared) (i : Chain) (c : BauChain) (pl : Pulse) (hp : c.pulse = some pl)
    (hi : pl.segment.inhibited = c.heldInhibit) (h : overshoots c pl.segment.code = false) :
    (judgeStart sh i c).out = [] := by
  have h2 : pl.segment.inhibited = true ∨ exceeds pl.segment.code c.heldCeiling = false := by
    simp only [overshoots, Bool.and_eq_false_iff, Bool.not_eq_false'] at h
    rwa [hi]
  rw [judgeStart_within sh i c pl hp h2]
  rfl

/-! ### Strikes in full -/

/-- A strike: the chain struck once, and what the strike sends. -/
theorem strike_eq (sh : BauShared) (i : Chain) (c : BauChain) : strike sh i c = ⟨struckOnce sh c, strikeNotices sh i c⟩ := by
  have e : enforces sh { c with strikes := satInc8 c.strikes } = strikeEnforces sh c := rfl
  cases h : strikeEnforces sh c <;>
    simp [strike, enforcementTest, e, h, struckOnce, strikeNotices, Counters.incEnforcements, Eff.pure]

/-- What a strike sends does not depend on the pulse, the grace timer or the counters. -/
theorem strikeNotices_congr {sh : BauShared} {i : Chain} {c d : BauChain} (hs : d.strikes = c.strikes)
    (he : d.enforced = c.enforced) : strikeNotices sh i d = strikeNotices sh i c := by
  simp [strikeNotices, strikeEnforces, hs, he]

/-- An overshoot's strikes, flag and counters. -/
theorem overshoot_judged (sh : BauShared) (i : Chain) (pl : Pulse) (c : BauChain) :
    JudgedAs true sh c (overshoot sh i pl c).val ∧ (overshoot sh i pl c).out = overshootNotices sh i c := by
  simp only [overshoot, strike_eq]
  exact ⟨⟨rfl, rfl, rfl⟩, rfl⟩

/-- A judged segment start's strikes, flag, counters and notices. -/
theorem judgeStart_judged (sh : BauShared) (i : Chain) (c : BauChain) (pl : Pulse) (hp : c.pulse = some pl)
    (hi : pl.segment.inhibited = c.heldInhibit) :
    JudgedAs (overshoots c pl.segment.code) sh c (judgeStart sh i c).val ∧
      (judgeStart sh i c).out = judgedNotices (overshoots c pl.segment.code) sh i c := by
  by_cases h : overshoots c pl.segment.code = true
  · have h2 := h
    simp only [overshoots, Bool.and_eq_true, Bool.not_eq_true'] at h2
    rw [judgeStart_above sh i c pl hp (hi.trans h2.1) h2.2, h]
    exact overshoot_judged sh i pl c
  · simp only [Bool.not_eq_true] at h
    have h2 : pl.segment.inhibited = true ∨ exceeds pl.segment.code c.heldCeiling = false := by
      simpa only [overshoots, Bool.and_eq_false_iff, Bool.not_eq_false', ← hi] using h
    rw [judgeStart_within sh i c pl hp h2, h]
    exact ⟨⟨rfl, rfl, by simp [Eff.pure]⟩, rfl⟩

end Sys2Proof.Machine
end

