-- ==== Sys2Proof/Laws/Burst.lean ====
section
/-! SUPPORT. What the BAU's operations can change, and what one chain's judgement can change. -/

namespace Sys2Proof.Machine

/-! ### One chain takes an event -/

@[simp] theorem State.runChain_get_self (i : Chain) (f : BauShared → Chain → BauChain → Eff BauChain) (s : State) :
    (s.runChain i f).bau.chains.get i = (f s.bau.shared i (s.bau.chains.get i)).val := by
  simp [State.runChain]

theorem State.runChain_get_of_ne (i : Chain) (f : BauShared → Chain → BauChain → Eff BauChain) (s : State) {j : Chain}
    (h : j ≠ i) : (s.runChain i f).bau.chains.get j = s.bau.chains.get j := by
  simp [State.runChain, PerChain.get_set, h]

/-- A chain's event changes that chain and sends notices; nothing else. -/
theorem State.runChain_frame (i : Chain) (f : BauShared → Chain → BauChain → Eff BauChain) (s : State) :
    s.runChain i f =
      { s with
        bau := { s.bau with chains := s.bau.chains.set i (f s.bau.shared i (s.bau.chains.get i)).val }
        notices := s.notices ++ (f s.bau.shared i (s.bau.chains.get i)).out } := rfl

@[simp] theorem State.runChain_timeBase (i : Chain) (f : BauShared → Chain → BauChain → Eff BauChain) (s : State) :
    (s.runChain i f).timeBase = s.timeBase := rfl
@[simp] theorem State.runChain_pins (i : Chain) (f : BauShared → Chain → BauChain → Eff BauChain) (s : State) :
    (s.runChain i f).pins = s.pins := rfl
@[simp] theorem State.runChain_ports (i : Chain) (f : BauShared → Chain → BauChain → Eff BauChain) (s : State) :
    (s.runChain i f).ports = s.ports := rfl
@[simp] theorem State.runChain_ewu (i : Chain) (f : BauShared → Chain → BauChain → Eff BauChain) (s : State) :
    (s.runChain i f).ewu = s.ewu := rfl
@[simp] theorem State.runChain_clu (i : Chain) (f : BauShared → Chain → BauChain → Eff BauChain) (s : State) :
    (s.runChain i f).clu = s.clu := rfl
@[simp] theorem State.runChain_thu (i : Chain) (f : BauShared → Chain → BauChain → Eff BauChain) (s : State) :
    (s.runChain i f).thu = s.thu := rfl
@[simp] theorem State.runChain_ovu (i : Chain) (f : BauShared → Chain → BauChain → Eff BauChain) (s : State) :
    (s.runChain i f).ovu = s.ovu := rfl
@[simp] theorem State.runChain_pst (i : Chain) (f : BauShared → Chain → BauChain → Eff BauChain) (s : State) :
    (s.runChain i f).pst = s.pst := rfl
@[simp] theorem State.runChain_evr (i : Chain) (f : BauShared → Chain → BauChain → Eff BauChain) (s : State) :
    (s.runChain i f).evr = s.evr := rfl
@[simp] theorem State.runChain_pld (i : Chain) (f : BauShared → Chain → BauChain → Eff BauChain) (s : State) :
    (s.runChain i f).pld = s.pld := rfl
@[simp] theorem State.runChain_pending (i : Chain) (f : BauShared → Chain → BauChain → Eff BauChain) (s : State) :
    (s.runChain i f).pending = s.pending := rfl

@[simp] theorem State.runChain_notices (i : Chain) (f : BauShared → Chain → BauChain → Eff BauChain) (s : State) :
    (s.runChain i f).notices = s.notices ++ (f s.bau.shared i (s.bau.chains.get i)).out := rfl

/-- An event that leaves its chain as it is and sends nothing changes nothing. -/
theorem State.runChain_eq_self (i : Chain) (f : BauShared → Chain → BauChain → Eff BauChain) (s : State)
    (h : f s.bau.shared i (s.bau.chains.get i) = Eff.pure (s.bau.chains.get i)) : s.runChain i f = s := by
  simp [State.runChain_frame, h, PerChain.set_get_self]

/-! ### The unit takes events: only slots, the BAU and the notices change -/

theorem takeAnnounce_frame (p : Port) (chain kind : Byte) (code : Code) (d : BitVec 16) (s : State) :
    takeAnnounce p chain kind code d s =
      { s with
        ports := (takeAnnounce p chain kind code d s).ports
        bau := (takeAnnounce p chain kind code d s).bau
        notices := (takeAnnounce p chain kind code d s).notices } := by
  simp only [takeAnnounce]
  split
  · rfl
  · simp only [acceptAnnounce]
    split <;> rfl

theorem bauTake_frame (s : State) (e : BauEvent) :
    bauTake s e = { s with ports := (bauTake s e).ports, bau := (bauTake s e).bau, notices := (bauTake s e).notices } := by
  cases e <;> first | rfl | exact takeAnnounce_frame ..

@[simp] theorem bauTake_timeBase (s : State) (e : BauEvent) : (bauTake s e).timeBase = s.timeBase := by rw [bauTake_frame]
@[simp] theorem bauTake_pins (s : State) (e : BauEvent) : (bauTake s e).pins = s.pins := by rw [bauTake_frame]
@[simp] theorem bauTake_ewu (s : State) (e : BauEvent) : (bauTake s e).ewu = s.ewu := by rw [bauTake_frame]
@[simp] theorem bauTake_clu (s : State) (e : BauEvent) : (bauTake s e).clu = s.clu := by rw [bauTake_frame]
@[simp] theorem bauTake_thu (s : State) (e : BauEvent) : (bauTake s e).thu = s.thu := by rw [bauTake_frame]
@[simp] theorem bauTake_ovu (s : State) (e : BauEvent) : (bauTake s e).ovu = s.ovu := by rw [bauTake_frame]
@[simp] theorem bauTake_pst (s : State) (e : BauEvent) : (bauTake s e).pst = s.pst := by rw [bauTake_frame]
@[simp] theorem bauTake_evr (s : State) (e : BauEvent) : (bauTake s e).evr = s.evr := by rw [bauTake_frame]
@[simp] theorem bauTake_pld (s : State) (e : BauEvent) : (bauTake s e).pld = s.pld := by rw [bauTake_frame]
@[simp] theorem bauTake_pending (s : State) (e : BauEvent) : (bauTake s e).pending = s.pending := by rw [bauTake_frame]

theorem bauReceive_frame (e : BauEvent) (s : State) :
    bauReceive e s =
      { s with ports := (bauReceive e s).ports, bau := (bauReceive e s).bau, notices := (bauReceive e s).notices } := by
  simp only [bauReceive]
  split
  · rfl
  · exact bauTake_frame ..

theorem bauTakeAll_frame (es : List BauEvent) (s : State) :
    es.foldl bauTake s =
      { s with
        ports := (es.foldl bauTake s).ports
        bau := (es.foldl bauTake s).bau
        notices := (es.foldl bauTake s).notices } := by
  induction es generalizing s with
  | nil => rfl
  | cons e es ih =>
    rw [List.foldl_cons, ih (bauTake s e)]
    simp

theorem bauCloseEvent_frame (s : State) :
    bauCloseEvent s =
      { s with
        ports := (bauCloseEvent s).ports, bau := (bauCloseEvent s).bau, notices := (bauCloseEvent s).notices } := by
  simp only [bauCloseEvent]
  split
  · rw [bauTakeAll_frame]; rfl
  · rfl

/-- The level of a line at the entry stamp is the one before the first edge that waits. -/
theorem stoodAtEntry_iff (edges : List LineEdge) (now atEntry : Bool) :
    StoodAtEntry edges now atEntry ↔ levelBefore edges now = atEntry := by
  cases edges with
  | nil => exact ⟨fun h => (h.1 rfl).symm, fun h => ⟨fun _ => h.symm, by rintro _ _ ⟨⟩⟩⟩
  | cons e rest => exact ⟨fun h => (h.2 e rest rfl).symm, fun h => ⟨by rintro ⟨⟩, by rintro _ _ ⟨⟩; exact h.symm⟩⟩

/-- An edge that waits for the entry, or is not taken in LOADING; nothing else changes. -/
theorem State.awaitEntry_frame (s : State) (i : Chain) (rising : Bool) :
    s.awaitEntry i rising = { s with bau := { s.bau with early := (s.awaitEntry i rising).bau.early } } := by
  simp only [State.awaitEntry]; split <;> rfl

@[simp] theorem State.awaitEntry_held (s : State) (i : Chain) (rising : Bool) :
    (s.awaitEntry i rising).bau.held = s.bau.held := by rw [State.awaitEntry_frame]
@[simp] theorem State.awaitEntry_ports (s : State) (i : Chain) (rising : Bool) :
    (s.awaitEntry i rising).ports = s.ports := by rw [State.awaitEntry_frame]
@[simp] theorem State.awaitEntry_pld (s : State) (i : Chain) (rising : Bool) : (s.awaitEntry i rising).pld = s.pld := by
  rw [State.awaitEntry_frame]

/-- Edges that waited for the entry change the chains of the BAU and send notices; nothing else. -/
theorem takeEarlyEdges_frame (es : List (Chain × LineEdge)) (s : State) :
    es.foldl takeEarlyEdge s =
      { s with
        bau := { s.bau with chains := (es.foldl takeEarlyEdge s).bau.chains }
        notices := (es.foldl takeEarlyEdge s).notices } := by
  induction es generalizing s with
  | nil => rfl
  | cons e es ih =>
    rw [List.foldl_cons, ih (takeEarlyEdge s e)]
    simp only [takeEarlyEdge, edgeEvent]
    split <;> rfl

/-- The sampling of the lines changes the chains of the BAU and sends notices; nothing else. -/
theorem risesAtEntry_frame (t : Stamp) (high : Chain → Bool) (is : List Chain) (s : State) :
    is.foldl (riseAtEntry t high) s =
      { s with
        bau := { s.bau with chains := (is.foldl (riseAtEntry t high) s).bau.chains }
        notices := (is.foldl (riseAtEntry t high) s).notices } := by
  induction is generalizing s with
  | nil => rfl
  | cons i is ih =>
    rw [List.foldl_cons, ih (riseAtEntry t high s i)]
    simp only [riseAtEntry]
    split <;> rfl

/-- The entry to RUN: the first epoch begins, the chains of the BAU change and notices are sent; nothing else. -/
theorem bauEntry_eq (t : Stamp) (s : State) :
    bauEntry t s =
      { s with
        bau :=
          { s.bau with
            inRun := true
            shared := { s.bau.shared with epoch := 1 }
            early := []
            chains := (bauEntry t s).bau.chains }
        notices := (bauEntry t s).notices } := by
  simp only [bauEntry]
  rw [takeEarlyEdges_frame, risesAtEntry_frame]
  rfl

theorem bauEntry_frame (t : Stamp) (s : State) :
    bauEntry t s = { s with bau := (bauEntry t s).bau, notices := (bauEntry t s).notices } := by
  rw [bauEntry_eq]

@[simp] theorem bauReceive_timeBase (e : BauEvent) (s : State) : (bauReceive e s).timeBase = s.timeBase := by rw [bauReceive_frame]
@[simp] theorem bauReceive_pins (e : BauEvent) (s : State) : (bauReceive e s).pins = s.pins := by rw [bauReceive_frame]
@[simp] theorem bauReceive_ewu (e : BauEvent) (s : State) : (bauReceive e s).ewu = s.ewu := by rw [bauReceive_frame]
@[simp] theorem bauReceive_clu (e : BauEvent) (s : State) : (bauReceive e s).clu = s.clu := by rw [bauReceive_frame]
@[simp] theorem bauReceive_thu (e : BauEvent) (s : State) : (bauReceive e s).thu = s.thu := by rw [bauReceive_frame]
@[simp] theorem bauReceive_ovu (e : BauEvent) (s : State) : (bauReceive e s).ovu = s.ovu := by rw [bauReceive_frame]
@[simp] theorem bauReceive_pst (e : BauEvent) (s : State) : (bauReceive e s).pst = s.pst := by rw [bauReceive_frame]
@[simp] theorem bauReceive_evr (e : BauEvent) (s : State) : (bauReceive e s).evr = s.evr := by rw [bauReceive_frame]
@[simp] theorem bauReceive_pld (e : BauEvent) (s : State) : (bauReceive e s).pld = s.pld := by rw [bauReceive_frame]
@[simp] theorem bauReceive_pending (e : BauEvent) (s : State) : (bauReceive e s).pending = s.pending := by rw [bauReceive_frame]

@[simp] theorem bauTakeAll_timeBase (es : List BauEvent) (s : State) : (es.foldl bauTake s).timeBase = s.timeBase := by rw [bauTakeAll_frame]
@[simp] theorem bauTakeAll_pins (es : List BauEvent) (s : State) : (es.foldl bauTake s).pins = s.pins := by rw [bauTakeAll_frame]
@[simp] theorem bauTakeAll_ewu (es : List BauEvent) (s : State) : (es.foldl bauTake s).ewu = s.ewu := by rw [bauTakeAll_frame]
@[simp] theorem bauTakeAll_clu (es : List BauEvent) (s : State) : (es.foldl bauTake s).clu = s.clu := by rw [bauTakeAll_frame]
@[simp] theorem bauTakeAll_thu (es : List BauEvent) (s : State) : (es.foldl bauTake s).thu = s.thu := by rw [bauTakeAll_frame]
@[simp] theorem bauTakeAll_ovu (es : List BauEvent) (s : State) : (es.foldl bauTake s).ovu = s.ovu := by rw [bauTakeAll_frame]
@[simp] theorem bauTakeAll_pst (es : List BauEvent) (s : State) : (es.foldl bauTake s).pst = s.pst := by rw [bauTakeAll_frame]
@[simp] theorem bauTakeAll_evr (es : List BauEvent) (s : State) : (es.foldl bauTake s).evr = s.evr := by rw [bauTakeAll_frame]
@[simp] theorem bauTakeAll_pld (es : List BauEvent) (s : State) : (es.foldl bauTake s).pld = s.pld := by rw [bauTakeAll_frame]
@[simp] theorem bauTakeAll_pending (es : List BauEvent) (s : State) : (es.foldl bauTake s).pending = s.pending := by rw [bauTakeAll_frame]

@[simp] theorem bauCloseEvent_timeBase (s : State) : (bauCloseEvent s).timeBase = s.timeBase := by rw [bauCloseEvent_frame]
@[simp] theorem bauCloseEvent_pins (s : State) : (bauCloseEvent s).pins = s.pins := by rw [bauCloseEvent_frame]
@[simp] theorem bauCloseEvent_ewu (s : State) : (bauCloseEvent s).ewu = s.ewu := by rw [bauCloseEvent_frame]
@[simp] theorem bauCloseEvent_clu (s : State) : (bauCloseEvent s).clu = s.clu := by rw [bauCloseEvent_frame]
@[simp] theorem bauCloseEvent_thu (s : State) : (bauCloseEvent s).thu = s.thu := by rw [bauCloseEvent_frame]
@[simp] theorem bauCloseEvent_ovu (s : State) : (bauCloseEvent s).ovu = s.ovu := by rw [bauCloseEvent_frame]
@[simp] theorem bauCloseEvent_pst (s : State) : (bauCloseEvent s).pst = s.pst := by rw [bauCloseEvent_frame]
@[simp] theorem bauCloseEvent_evr (s : State) : (bauCloseEvent s).evr = s.evr := by rw [bauCloseEvent_frame]
@[simp] theorem bauCloseEvent_pld (s : State) : (bauCloseEvent s).pld = s.pld := by rw [bauCloseEvent_frame]
@[simp] theorem bauCloseEvent_pending (s : State) : (bauCloseEvent s).pending = s.pending := by rw [bauCloseEvent_frame]

@[simp] theorem bauEntry_timeBase (t : Stamp) (s : State) : (bauEntry t s).timeBase = s.timeBase := by rw [bauEntry_frame]
@[simp] theorem bauEntry_pins (t : Stamp) (s : State) : (bauEntry t s).pins = s.pins := by rw [bauEntry_frame]
@[simp] theorem bauEntry_ewu (t : Stamp) (s : State) : (bauEntry t s).ewu = s.ewu := by rw [bauEntry_frame]
@[simp] theorem bauEntry_clu (t : Stamp) (s : State) : (bauEntry t s).clu = s.clu := by rw [bauEntry_frame]
@[simp] theorem bauEntry_thu (t : Stamp) (s : State) : (bauEntry t s).thu = s.thu := by rw [bauEntry_frame]
@[simp] theorem bauEntry_ovu (t : Stamp) (s : State) : (bauEntry t s).ovu = s.ovu := by rw [bauEntry_frame]
@[simp] theorem bauEntry_pst (t : Stamp) (s : State) : (bauEntry t s).pst = s.pst := by rw [bauEntry_frame]
@[simp] theorem bauEntry_evr (t : Stamp) (s : State) : (bauEntry t s).evr = s.evr := by rw [bauEntry_frame]
@[simp] theorem bauEntry_pld (t : Stamp) (s : State) : (bauEntry t s).pld = s.pld := by rw [bauEntry_frame]
@[simp] theorem bauEntry_pending (t : Stamp) (s : State) : (bauEntry t s).pending = s.pending := by rw [bauEntry_frame]
@[simp] theorem bauEntry_ports (t : Stamp) (s : State) : (bauEntry t s).ports = s.ports := by rw [bauEntry_frame]

/-! ### Only the port that announces has its slot filled -/

theorem takeAnnounce_ports_of_ne {p q : Port} (hq : q ≠ p) (chain kind : Byte) (code : Code) (d : BitVec 16) (s : State) :
    (takeAnnounce p chain kind code d s).ports.get q = s.ports.get q := by
  simp only [takeAnnounce, acceptAnnounce]
  (repeat' split) <;> simp [PerPort.get_set, hq]

theorem bauReceive_announce_ports_of_ne {p q : Port} (hq : q ≠ p) (chain kind : Byte) (code : Code) (d : BitVec 16)
    (s : State) : (bauReceive (.announce p chain kind code d) s).ports.get q = s.ports.get q := by
  simp only [bauReceive]
  split
  · rfl
  · exact takeAnnounce_ports_of_ne hq ..

@[simp] theorem bauReceive_flush_ports (i : Chain) (s : State) : (bauReceive (.flush i) s).ports = s.ports := by
  simp only [bauReceive]
  split <;> rfl

@[simp] theorem bauReceive_flush_notices (i : Chain) (s : State) : (bauReceive (.flush i) s).notices = s.notices := by
  simp only [bauReceive]
  split
  · rfl
  · simp [bauTake, State.runChain, flushOn]

/-! ### Rises -/

/-- A chain's event changes one chain of the BAU and nothing else of the unit. -/
theorem otherChainsStand_of_runChain (s t : State) (i : Chain) (f : BauShared → Chain → BauChain → Eff BauChain)
    (h : t.bau = (s.runChain i f).bau) : OtherChainsStand s t i := by
  refine ⟨fun j hj => ?_, ?_⟩ <;> simp only [h]
  · exact s.runChain_get_of_ne i f hj
  · exact ⟨rfl, rfl, rfl, rfl, rfl⟩

/-- An unannounced rise on a chain with an empty queue is what R21 says. -/
theorem unannouncedRise_spec (sh : BauShared) (i : Chain) (t : Stamp) (c : BauChain) (hq : c.queue = []) :
    UnannouncedAt t sh i c (unannouncedRise sh i t c).val (unannouncedRise sh i t c).out := by
  let c1 : BauChain :=
    { c with
      pulse := some (openPulse c t c.power.cmax true none)
      grace := none
      pulsedInEpoch := true
      counters := c.counters.incUnannounced }
  have hu : unannouncedRise sh i t c =
      ⟨(judgeStart sh i (struckOnce sh c1)).val,
        [raiseChain .unannounced i, .activityNotice i] ++ strikeNotices sh i c1 ++
          (judgeStart sh i (struckOnce sh c1)).out⟩ := by
    simp only [unannouncedRise, Eff.andThen, Eff.sendFirst, strike_eq]; rfl
  have hf := judgeStart_frame sh i (struckOnce sh c1) (openPulse c t c.power.cmax true none) rfl rfl rfl rfl
  have hj := judgeStart_judged sh i (struckOnce sh c1) (openPulse c t c.power.cmax true none) rfl rfl
  rw [hu]
  refine ⟨by dsimp only; rw [hf]; exact ⟨rfl, rfl, rfl, rfl, rfl⟩, by dsimp only; rw [hf]; exact hq,
    by dsimp only; rw [hf]; rfl, by dsimp only; rw [hf]; rfl, ⟨_, by dsimp only; rw [hf], rfl, rfl, rfl, rfl, rfl, rfl⟩,
    _, rfl, hj.1, ?_⟩
  dsimp only
  rw [hj.2]
  rfl

/-- The lines sampled at the entry, chain by chain: a line found high is a rise at the stamp. -/
theorem risesAtEntry_spec (t : Stamp) (high : Chain → Bool) (s : State) (at_ : Chain → Eff BauChain)
    (h : ∀ i, at_ i = if high i then riseOn s.bau.shared i t (s.bau.chains.get i) else Eff.pure (s.bau.chains.get i)) :
    Chain.all.foldl (riseAtEntry t high) s =
      { s with
        bau := { s.bau with chains := PerChain.build fun i => (at_ i).val }
        notices := s.notices ++ (at_ .tx0).out ++ (at_ .tx1).out ++ (at_ .tx2).out ++ (at_ .tx3).out } := by
  have one : ∀ (x : State) (j : Chain), x.bau.shared = s.bau.shared → x.bau.chains.get j = s.bau.chains.get j →
      riseAtEntry t high x j =
        { x with bau := { x.bau with chains := x.bau.chains.set j (at_ j).val }, notices := x.notices ++ (at_ j).out } := by
    intro x j h1 h2
    simp only [riseAtEntry, h]
    split
    · rw [← h1, ← h2]; rfl
    · simp [Eff.pure, ← h2, PerChain.set_get_self]
  simp only [Chain.all, List.foldl_cons, List.foldl_nil]
  rw [one s .tx0 rfl rfl, one _ .tx1, one _ .tx2, one _ .tx3]
  all_goals rfl

/-- An unannounced rise: the pulse at cmax, one strike for it and one more when its first segment is an overshoot. -/
theorem unannouncedRise_frame (sh : BauShared) (i : Chain) (t : Stamp) (c : BauChain) :
    ∃ enforced enforcements, (unannouncedRise sh i t c).val =
      { c with
        pulse := some { openPulse c t c.power.cmax true none with
          segment := { newSegment c c.power.cmax t with marked := overshoots c c.power.cmax } }
        grace := none
        pulsedInEpoch := true
        strikes := (if overshoots c c.power.cmax then satInc8 (satInc8 c.strikes) else satInc8 c.strikes)
        enforced := enforced
        counters :=
          { c.counters with
            unannounced := satInc16 c.counters.unannounced
            overshoots :=
              (if overshoots c c.power.cmax then satInc16 c.counters.overshoots else c.counters.overshoots)
            enforcements := enforcements } } := by
  simp only [unannouncedRise, Eff.andThen_val, Eff.sendFirst_val]
  rw [strike_frame]
  exact ⟨_, _, judgeStart_frame sh i _ (openPulse c t c.power.cmax true none) rfl rfl rfl rfl⟩

/-! ### The stale recheck -/

/-- The recheck changes the queue and the stale counter alone. -/
theorem recheckStale_frame (sh : BauShared) (i : Chain) (t : Stamp) (n : Nat) (c : BauChain) :
    (recheckStale sh i t n c).val =
      { c with
        queue := (recheckStale sh i t n c).val.queue
        counters := { c.counters with stale := (recheckStale sh i t n c).val.counters.stale } } := by
  induction n generalizing c with
  | zero => rfl
  | succ n ih =>
    simp only [recheckStale, Eff.andThen_val]
    rw [ih]
    simp only [staleExpiryOn]
    split
    · rfl
    · split <;> rfl

/-- The recheck removes the heads that are due, one after another. -/
theorem recheckStale_queue (sh : BauShared) (i : Chain) (t : Stamp) (n : Nat) (c : BauChain) (h : c.queue.length ≤ n) :
    (recheckStale sh i t n c).val.queue = c.queue.dropWhile fun e => reached t (staleDeadline sh.staleMs e) := by
  induction n generalizing c with
  | zero =>
    have : c.queue = [] := List.eq_nil_of_length_eq_zero (by omega)
    simp [recheckStale, this]
  | succ n ih =>
    simp only [recheckStale, Eff.andThen_val]
    cases hq : c.queue with
    | nil => simp [staleExpiryOn, hq, ih c (by simp [hq])]
    | cons e rest =>
      rw [hq, List.length_cons] at h
      cases hr : reached t (staleDeadline sh.staleMs e)
      · have hs : staleExpiryOn sh i t c = Eff.pure c := by simp [staleExpiryOn, hq, hr]
        have : ∀ m, (recheckStale sh i t m c).val = c := by
          intro m
          induction m with
          | zero => rfl
          | succ m im => simp [recheckStale, hs, im]
        simp [hs, this, hq, hr]
      · rw [ih _ (by simp [staleExpiryOn, hq, hr, removeStale]; omega)]
        simp [staleExpiryOn, hq, hr, removeStale]

theorem satAdd16_zero (x : Count16) : satAdd16 x 0 = x := by
  have : min 65535 x.toNat = x.toNat := Nat.min_eq_right (by omega)
  simp [satAdd16, this]

theorem satAdd16_satInc16 (x : Count16) (k : Nat) : satAdd16 (satInc16 x) k = satAdd16 x (k + 1) := by
  simp only [satAdd16, satInc16]
  congr 1
  split
  · rename_i h; subst h
    have : (BitVec.allOnes 16).toNat = 65535 := rfl
    omega
  · rename_i h
    have h1 : x.toNat ≠ 65535 := fun h' => h (BitVec.eq_of_toNat_eq (by rw [h']; rfl))
    have h2 : (x + 1).toNat = x.toNat + 1 := by
      rw [BitVec.toNat_add]
      exact Nat.mod_eq_of_lt (by have := x.isLt; show x.toNat + 1 < 65536; omega)
    rw [h2]; omega

/-- The recheck in full: the heads that are due leave, each counted and raised. -/
theorem recheckStale_eq (sh : BauShared) (i : Chain) (t : Stamp) (n : Nat) (c : BauChain) (h : c.queue.length ≤ n)
    (q : List QueueEntry) (hq : q = c.queue.dropWhile fun e => reached t (staleDeadline sh.staleMs e)) :
    recheckStale sh i t n c =
      ⟨{ c with
          queue := q
          counters := { c.counters with stale := satAdd16 c.counters.stale (c.queue.length - q.length) } },
        List.replicate (c.queue.length - q.length) (raiseChain .stale i)⟩ := by
  have hsame : q = c.queue → Eff.pure c =
      ⟨{ c with
          queue := q
          counters := { c.counters with stale := satAdd16 c.counters.stale (c.queue.length - q.length) } },
        List.replicate (c.queue.length - q.length) (raiseChain .stale i)⟩ := by
    rintro rfl
    simp [satAdd16_zero, Eff.pure]
  induction n generalizing c with
  | zero =>
    have : c.queue = [] := List.eq_nil_of_length_eq_zero (by omega)
    exact hsame (by rw [hq, this]; rfl)
  | succ n ih =>
    have hnone : staleExpiryOn sh i t c = Eff.pure c → ∀ m, recheckStale sh i t m c = Eff.pure c := by
      intro hs m
      induction m with
      | zero => rfl
      | succ m im => simp [recheckStale, hs, Eff.andThen, Eff.pure] at im ⊢; rw [im]; exact ⟨rfl, rfl⟩
    cases hc : c.queue with
    | nil =>
      rw [hnone (by simp [staleExpiryOn, hc]), hsame (by rw [hq, hc]; rfl), hc]
    | cons e rest =>
      rw [hc, List.length_cons] at h
      cases hr : reached t (staleDeadline sh.staleMs e)
      · rw [hnone (by simp [staleExpiryOn, hc, hr]), hsame (by rw [hq, hc]; simp [hr]), hc]
      · have hq' : q = rest.dropWhile fun e => reached t (staleDeadline sh.staleMs e) := by rw [hq, hc]; simp [hr]
        have hle : q.length ≤ rest.length := by rw [hq']; exact (List.dropWhile_sublist _).length_le
        have he : staleExpiryOn sh i t c = removeStale i rest c := by simp [staleExpiryOn, hc, hr]
        rw [recheckStale, he]
        simp only [Eff.andThen, removeStale]
        rw [ih { c with queue := rest, counters := c.counters.incStale } (by simp only; omega) hq' (by rintro rfl; simp [satAdd16_zero, Eff.pure])]
        have e1 : (e :: rest).length - q.length = rest.length - q.length + 1 := by simp only [List.length_cons]; omega
        rw [e1, List.replicate_succ]
        simp [Counters.incStale, satAdd16_satInc16]

end Sys2Proof.Machine
end

