-- ==== Sys2Proof/Laws/Flags.lean ====
section
/-! SUPPORT. What a raise does to the event router, port by port. -/

namespace Sys2Proof.Machine

/-- One port's receipt of a raise leaves the routes and the other ports as they are. -/
theorem Evr.receive_frame (owners : PerChain Owner) (r : Raise) (e : Evr) (p : Port) :
    (Evr.receive owners r e p).routes = e.routes ∧
      ∀ q, q ≠ p →
        (Evr.receive owners r e p).sets.get q = e.sets.get q ∧ (Evr.receive owners r e p).irq.get q = e.irq.get q := by
  simp only [Evr.receive]
  split <;> simp +contextual [Evr.setPending, PerPort.get_set]

theorem Evr.takeRaise_routes (owners : PerChain Owner) (r : Raise) (e : Evr) :
    (e.takeRaise owners r).routes = e.routes := by
  simp [Evr.takeRaise, Port.all, Evr.receive_frame]

/-- A raise acts on each port as if it were the only one. -/
theorem Evr.takeRaise_at (owners : PerChain Owner) (r : Raise) (e : Evr) (p : Port) :
    (e.takeRaise owners r).sets.get p = (Evr.receive owners r e p).sets.get p ∧
      (e.takeRaise owners r).irq.get p = (Evr.receive owners r e p).irq.get p := by
  have f := Evr.receive_frame owners r
  simp only [Evr.takeRaise, Port.all, List.foldl]
  cases p
  · rw [((f _ .portC).2 .portA (by decide)).1, ((f _ .portB).2 .portA (by decide)).1,
      ((f _ .portC).2 .portA (by decide)).2, ((f _ .portB).2 .portA (by decide)).2]
    exact ⟨rfl, rfl⟩
  · rw [((f _ .portC).2 .portB (by decide)).1, ((f _ .portC).2 .portB (by decide)).2]
    have h1 := (f e .portA).2 .portB (by decide)
    have h2 := (f e .portA).1
    generalize Evr.receive owners r e .portA = e1 at *
    simp only [Evr.receive, h2]
    split <;> simp [Evr.setPending, h1]
  · have h1 := (f e .portA).2 .portC (by decide)
    have h2 := (f e .portA).1
    generalize Evr.receive owners r e .portA = e1 at *
    have h3 := (f e1 .portB).2 .portC (by decide)
    have h4 := (f e1 .portB).1
    generalize Evr.receive owners r e1 .portB = e2 at *
    simp only [Evr.receive, h2, h4]
    split <;> simp [Evr.setPending, h1, h3]

/-- A set that has received a raise is not empty. -/
theorem PendingSet.isEmpty_receive (ps : PendingSet) (k : EventClass) (m : Mask) : (ps.receive k m).isEmpty = false := by
  rw [PendingSet.isEmpty, List.all_eq_false]
  refine ⟨k, EventClass.mem_all k, ?_⟩
  simp only [PendingSet.receive, PerClass.get_set_self]
  split <;> simp

/-- Replacing a port's set leaves its line as the set has it, and the other ports as they are. -/
theorem Evr.setPending_at (e : Evr) (p q : Port) (ps : PendingSet) :
    (e.setPending p ps).sets.get q = (if q = p then ps else e.sets.get q) ∧
      (e.setPending p ps).irq.get q = if q = p then !ps.isEmpty else e.irq.get q := by
  simp [Evr.setPending, PerPort.get_set]

end Sys2Proof.Machine
end

