-- ==== Sys2Proof/Laws/Ports.lean ====
section
/-! SUPPORT. What the end of a frame and the taking of a delivered request can change. -/

namespace Sys2Proof.Machine

/-! ### The port at the end of a frame -/

theorem requestBytes_ne_nil (r : Request) : (requestBytes r).isEmpty = false := by simp [requestBytes]

/-- The port whose frame, with at least one whole byte, has ended. -/
def endedPort (c : Cpi) (bytes : List Byte) : Cpi := c.inFrame.closeFrame c.frameOr bytes

theorem endedPort_slot (c : Cpi) (bytes : List Byte) (h : bytes.isEmpty = false) :
    (endedPort c bytes).slot = collectedSlot c := by
  cases hf : c.frame <;> simp [endedPort, Cpi.inFrame, Cpi.openFrame, Cpi.closeFrame, Cpi.released, Cpi.statusLeft,
    collectedSlot, Cpi.frameOr, hf, h]

theorem endedPort_frame (c : Cpi) (bytes : List Byte) : (endedPort c bytes).frame = none := rfl
theorem endedPort_selectLow (c : Cpi) (bytes : List Byte) : (endedPort c bytes).selectLow = false := rfl
theorem endedPort_waitHigh (c : Cpi) (bytes : List Byte) : (endedPort c bytes).waitHigh = false := rfl
theorem endedPort_rxBuffer (c : Cpi) (bytes : List Byte) : (endedPort c bytes).rxBuffer = bytes.take 34 := rfl

theorem endedPort_truncated (c : Cpi) (bytes : List Byte) : (endedPort c bytes).truncated = c.truncated := by
  cases hf : c.frame <;> cases hb : bytes.isEmpty <;> simp [endedPort, Cpi.inFrame, Cpi.openFrame, Cpi.closeFrame, Cpi.released, Cpi.statusLeft, hf, hb]

theorem endedPort_dropped (c : Cpi) (bytes : List Byte) : (endedPort c bytes).dropped = c.dropped := by
  cases hf : c.frame <;> cases hb : bytes.isEmpty <;> simp [endedPort, Cpi.inFrame, Cpi.openFrame, Cpi.closeFrame, Cpi.released, Cpi.statusLeft, hf, hb]

/-- Ending a frame changes its port and nothing else. -/
theorem State.frameEnded_eq (s : State) (p : Port) (r : Request) :
    s.frameEnded p r = s.setPort p (endedPort (s.ports.get p) (requestBytes r)) := rfl

/-- The port once its frame has ended and its slot has been filled anew. -/
theorem portAfter_setSlot (s : State) (p : Port) (bytes : List Byte) (x : Slot) (t : State)
    (ht : t.ports = (s.ports.set p (endedPort (s.ports.get p) bytes)).set p
      { endedPort (s.ports.get p) bytes with slot := x }) : PortAfter s t p x := by
  refine ⟨⟨fun q hq => ?_, ?_, ?_, ?_⟩, ?_, ?_⟩ <;>
    simp [PerPort.get_set, endedPort_frame, endedPort_selectLow, endedPort_truncated, endedPort_dropped, *]

/-- The port once its frame has ended and its slot stands as the frame left it. -/
theorem portAfter_ended (s : State) (p : Port) (bytes : List Byte) (h : bytes.isEmpty = false) (t : State)
    (ht : t.ports = s.ports.set p (endedPort (s.ports.get p) bytes)) :
    PortAfter s t p (collectedSlot (s.ports.get p)) := by
  refine ⟨⟨fun q hq => ?_, ?_, ?_, ?_⟩, ?_, ?_⟩ <;>
    simp [PerPort.get_set, endedPort_frame, endedPort_selectLow, endedPort_truncated, endedPort_dropped,
      endedPort_slot _ _ h, *]

/-- The port of a request that has been answered after its frame ended. -/
theorem portAfter_answered (s u t : State) (p : Port) (r : Request) (st : Status) (k : Kind) (b : List Byte)
    (hu : u.ports = (s.frameEnded p r).ports) (ht : t.ports = (u.answer p st k.value b).ports) :
    PortAfter s t p (answerSlot st k b) := by
  refine portAfter_setSlot s p (requestBytes r) _ _ ?_
  rw [ht]
  simp [hu, State.frameEnded_eq, answerSlot]

/-- A request that is answered straight after its frame ended changes nothing but its port. -/
theorem answeredOnly_of_answer (s : State) (p : Port) (r : Request) (st : Status) (k : Kind) (b : List Byte) :
    AnsweredOnly s ((s.frameEnded p r).answer p st k.value b) p st k b :=
  ⟨portAfter_answered s _ _ p r st k b rfl rfl, rfl⟩

/-! ### A request's frame, judged -/

/-- A request's end releases a port that waits for its select line to rise, is nothing on a port whose ANNOUNCE is held,
and concludes its frame on any other. -/
theorem requestFrame_cases (p : Port) (r : Request) (strap : Bool) (s : State) :
    (requestFrame p r strap s = s.setPort p (s.ports.get p).released ∧ (s.ports.get p).waitHigh = true) ∨
      (requestFrame p r strap s = s ∧ s.awaitsAnswer p = true) ∨
      (requestFrame p r strap s =
          concludeFrame p strap (judgeCommand p (s.ports.get p).frameOr r) (s.frameEnded p r) ∧ TakesFrames s p) := by
  cases hw : (s.ports.get p).waitHigh <;> cases ha : s.awaitsAnswer p <;> simp [requestFrame, TakesFrames, hw, ha]

/-- A port that takes frames concludes the request's frame. -/
theorem requestFrame_concluded (p : Port) (r : Request) (strap : Bool) (s : State) (h : TakesFrames s p) :
    requestFrame p r strap s =
      concludeFrame p strap (judgeCommand p (s.ports.get p).frameOr r) (s.frameEnded p r) := by
  simp [requestFrame, h.1, h.2]

/-- A request that is dropped. -/
theorem requestFrame_dropped (p : Port) (r : Request) (strap : Bool) (s : State) (ht : TakesFrames s p)
    (hk : r.kind ≠ .poll) (h : (s.ports.get p).frameOr.startedPending = true) :
    requestFrame p r strap s =
      countFrame p (fun c => { c with dropped := satInc16 c.dropped }) (s.frameEnded p r) := by
  simp [requestFrame_concluded p r strap s ht, judgeCommand, concludeFrame, h, hk]

/-- POLL, and any request in a frame that began with the slot not PENDING, is not dropped. -/
theorem notDropped {p : Port} {r : Request} {s : State}
    (h : r.kind = .poll ∨ (s.ports.get p).frameOr.startedPending = false) :
    ¬((s.ports.get p).frameOr.startedPending = true ∧ ¬r.kind = .poll) := by
  rcases h with h | h <;> simp [h]

/-- A request of the wrong length. -/
theorem requestFrame_badLength (p : Port) (r : Request) (strap : Bool) (s : State) (ht : TakesFrames s p)
    (h : r.kind = .poll ∨ (s.ports.get p).frameOr.startedPending = false) (hl : requestLengthOk r = false) :
    requestFrame p r strap s = (s.frameEnded p r).answer p .badLength r.kind.value [] := by
  have h' := notDropped h
  simp [requestFrame_concluded p r strap s ht, judgeCommand, concludeFrame, h', hl]

/-- A request that the port may not carry. -/
theorem requestFrame_denied (p : Port) (r : Request) (strap : Bool) (s : State) (h : StartsFree s p)
    (hl : requestLengthOk r = true) (hp : r.kind.permitted p = false) :
    requestFrame p r strap s = (s.frameEnded p r).answer p .denied r.kind.value [] := by
  simp [requestFrame_concluded p r strap s h.1, judgeCommand, judgePermission, concludeFrame, h.2, hl, hp]

/-- A request that is delivered. -/
theorem requestFrame_delivered (p : Port) (r : Request) (strap : Bool) (s : State) (ht : TakesFrames s p)
    (h : r.kind = .poll ∨ (s.ports.get p).frameOr.startedPending = false) (hl : requestLengthOk r = true)
    (hp : r.kind.permitted p = true) : requestFrame p r strap s = deliver p r strap (s.frameEnded p r) := by
  have h' := notDropped h
  simp [requestFrame_concluded p r strap s ht, judgeCommand, judgePermission, concludeFrame, h', hl, hp]

/-- A frame's end leaves a unit as it is unless the request is delivered. -/
theorem concludeFrame_cases (p : Port) (strap : Bool) (j : Judgement) (s : State) :
    (∃ r, j = .delivered r ∧ concludeFrame p strap j s = deliver p r strap s) ∨
      ∃ ports notices, concludeFrame p strap j s = { s with ports := ports, notices := notices } := by
  cases j
  · exact .inr ⟨_, _, rfl⟩
  · exact .inr ⟨_, _, rfl⟩
  · exact .inr ⟨_, _, rfl⟩
  · exact .inl ⟨_, rfl, rfl⟩

/-! ### PORT_RESET's flushes -/

@[simp] theorem flushOwned_timeBase (p : Port) (s : State) (i : Chain) : (flushOwned p s i).timeBase = s.timeBase := by
  simp only [flushOwned]; split <;> simp
@[simp] theorem flushOwned_pins (p : Port) (s : State) (i : Chain) : (flushOwned p s i).pins = s.pins := by
  simp only [flushOwned]; split <;> simp
@[simp] theorem flushOwned_ewu (p : Port) (s : State) (i : Chain) : (flushOwned p s i).ewu = s.ewu := by
  simp only [flushOwned]; split <;> simp
@[simp] theorem flushOwned_clu (p : Port) (s : State) (i : Chain) : (flushOwned p s i).clu = s.clu := by
  simp only [flushOwned]; split <;> simp
@[simp] theorem flushOwned_thu (p : Port) (s : State) (i : Chain) : (flushOwned p s i).thu = s.thu := by
  simp only [flushOwned]; split <;> simp
@[simp] theorem flushOwned_ovu (p : Port) (s : State) (i : Chain) : (flushOwned p s i).ovu = s.ovu := by
  simp only [flushOwned]; split <;> simp
@[simp] theorem flushOwned_pst (p : Port) (s : State) (i : Chain) : (flushOwned p s i).pst = s.pst := by
  simp only [flushOwned]; split <;> simp
@[simp] theorem flushOwned_evr (p : Port) (s : State) (i : Chain) : (flushOwned p s i).evr = s.evr := by
  simp only [flushOwned]; split <;> simp
@[simp] theorem flushOwned_pld (p : Port) (s : State) (i : Chain) : (flushOwned p s i).pld = s.pld := by
  simp only [flushOwned]; split <;> simp
@[simp] theorem flushOwned_pending (p : Port) (s : State) (i : Chain) : (flushOwned p s i).pending = s.pending := by
  simp only [flushOwned]; split <;> simp

@[simp] theorem flushOwned_ports (p : Port) (s : State) (i : Chain) : (flushOwned p s i).ports = s.ports := by
  simp only [flushOwned]; split <;> simp
@[simp] theorem flushOwned_notices (p : Port) (s : State) (i : Chain) : (flushOwned p s i).notices = s.notices := by
  simp only [flushOwned]; split <;> simp

@[simp] theorem takePortReset_ports (p : Port) (s : State) :
    (takePortReset p s).ports = s.ports.set p { s.ports.get p with slot := .empty } := by
  simp [takePortReset, Chain.all, emptyPending]
@[simp] theorem takePortReset_notices (p : Port) (s : State) : (takePortReset p s).notices = s.notices := by
  simp [takePortReset, Chain.all, emptyPending]
@[simp] theorem takePortReset_timeBase (p : Port) (s : State) : (takePortReset p s).timeBase = s.timeBase := by
  simp [takePortReset, Chain.all, emptyPending]
@[simp] theorem takePortReset_pins (p : Port) (s : State) : (takePortReset p s).pins = s.pins := by
  simp [takePortReset, Chain.all, emptyPending]
@[simp] theorem takePortReset_ewu (p : Port) (s : State) : (takePortReset p s).ewu = s.ewu := by
  simp [takePortReset, Chain.all, emptyPending]
@[simp] theorem takePortReset_clu (p : Port) (s : State) : (takePortReset p s).clu = s.clu := by
  simp [takePortReset, Chain.all, emptyPending]
@[simp] theorem takePortReset_thu (p : Port) (s : State) : (takePortReset p s).thu = s.thu := by
  simp [takePortReset, Chain.all, emptyPending]
@[simp] theorem takePortReset_ovu (p : Port) (s : State) : (takePortReset p s).ovu = s.ovu := by
  simp [takePortReset, Chain.all, emptyPending]
@[simp] theorem takePortReset_pst (p : Port) (s : State) : (takePortReset p s).pst = s.pst := by
  simp [takePortReset, Chain.all, emptyPending]
@[simp] theorem takePortReset_pld (p : Port) (s : State) : (takePortReset p s).pld = s.pld := by
  simp [takePortReset, Chain.all, emptyPending]
@[simp] theorem takePortReset_pending (p : Port) (s : State) : (takePortReset p s).pending = s.pending := by
  simp [takePortReset, Chain.all, emptyPending]
@[simp] theorem takePortReset_evr (p : Port) (s : State) :
    (takePortReset p s).evr = s.evr.setPending p PendingSet.empty := by
  simp [takePortReset, Chain.all, emptyPending]

/-! ### What a delivered request leaves as it is -/

theorem deliver_timeBase (p : Port) (r : Request) (strap : Bool) (s : State) (h : r ≠ .deviceReset) :
    (deliver p r strap s).timeBase = s.timeBase := by
  cases r <;> simp only [deliver, takeReadCeilings, takeReadStatus, takeReadHistory, takeReadThermal, takeReadEvents,
    takeAckEvents, takeSelectScenario, takeSetCap, takeSetOwner, takeSetRoute, takeLoadProfile, takeFlashXfer,
    startTransfer, setOwner] <;> (repeat' split) <;> simp at h ⊢
theorem deliver_ewu (p : Port) (r : Request) (strap : Bool) (s : State) (h : r ≠ .deviceReset) :
    (deliver p r strap s).ewu = s.ewu := by
  cases r <;> simp only [deliver, takeReadCeilings, takeReadStatus, takeReadHistory, takeReadThermal, takeReadEvents,
    takeAckEvents, takeSelectScenario, takeSetCap, takeSetOwner, takeSetRoute, takeLoadProfile, takeFlashXfer,
    startTransfer, setOwner] <;> (repeat' split) <;> simp at h ⊢
theorem deliver_clu (p : Port) (r : Request) (strap : Bool) (s : State) (h : r ≠ .deviceReset) :
    (deliver p r strap s).clu = s.clu := by
  cases r <;> simp only [deliver, takeReadCeilings, takeReadStatus, takeReadHistory, takeReadThermal, takeReadEvents,
    takeAckEvents, takeSelectScenario, takeSetCap, takeSetOwner, takeSetRoute, takeLoadProfile, takeFlashXfer,
    startTransfer, setOwner] <;> (repeat' split) <;> simp at h ⊢
theorem deliver_thu (p : Port) (r : Request) (strap : Bool) (s : State) (h : r ≠ .deviceReset) :
    (deliver p r strap s).thu = s.thu := by
  cases r <;> simp only [deliver, takeReadCeilings, takeReadStatus, takeReadHistory, takeReadThermal, takeReadEvents,
    takeAckEvents, takeSelectScenario, takeSetCap, takeSetOwner, takeSetRoute, takeLoadProfile, takeFlashXfer,
    startTransfer, setOwner] <;> (repeat' split) <;> simp at h ⊢
theorem deliver_ovu (p : Port) (r : Request) (strap : Bool) (s : State) (h : r ≠ .deviceReset) :
    (deliver p r strap s).ovu = s.ovu := by
  cases r <;> simp only [deliver, takeReadCeilings, takeReadStatus, takeReadHistory, takeReadThermal, takeReadEvents,
    takeAckEvents, takeSelectScenario, takeSetCap, takeSetOwner, takeSetRoute, takeLoadProfile, takeFlashXfer,
    startTransfer, setOwner] <;> (repeat' split) <;> simp at h ⊢
theorem deliver_pending (p : Port) (r : Request) (strap : Bool) (s : State) : (deliver p r strap s).pending = s.pending := by
  cases r <;> simp only [deliver, takeReadCeilings, takeReadStatus, takeReadHistory, takeReadThermal, takeReadEvents,
    takeAckEvents, takeSelectScenario, takeSetCap, takeSetOwner, takeSetRoute, takeLoadProfile, takeFlashXfer,
    startTransfer, setOwner] <;> (repeat' split) <;> simp

/-- A delivered request leaves the other ports as they are. -/
theorem deliver_ports_of_ne {p q : Port} (hq : q ≠ p) (r : Request) (strap : Bool) (s : State) (h : r ≠ .deviceReset) :
    (deliver p r strap s).ports.get q = s.ports.get q := by
  cases r <;> simp only [deliver, takeReadCeilings, takeReadStatus, takeReadHistory, takeReadThermal, takeReadEvents,
    takeAckEvents, takeSelectScenario, takeSetCap, takeSetOwner, takeSetRoute, takeLoadProfile, takeFlashXfer,
    startTransfer, setOwner] <;> (repeat' split) <;>
    first | contradiction | simp [PerPort.get_set, hq, bauReceive_announce_ports_of_ne]

/-- The end of a frame leaves the other ports as they are, a device reset excepted. -/
theorem concludeFrame_ports_of_ne {p q : Port} (hq : q ≠ p) (strap : Bool) (j : Judgement) (s : State)
    (h : j ≠ .delivered .deviceReset) : (concludeFrame p strap j s).ports.get q = s.ports.get q := by
  cases j with
  | delivered r => exact deliver_ports_of_ne hq r strap s (by rintro rfl; exact h rfl)
  | _ => simp [concludeFrame, countFrame, PerPort.get_set, hq]

/-- A request that is judged delivered is the request itself, on a port that may carry it. -/
theorem judgeCommand_delivered {p : Port} {f : Frame} {r r' : Request} (h : judgeCommand p f r = .delivered r') :
    r' = r ∧ r.kind.permitted p = true ∧ requestLengthOk r = true := by
  simp only [judgeCommand, judgePermission] at h
  (repeat' split at h) <;> simp at h
  exact ⟨h.symm, by assumption, by assumption⟩

/-- A request's frame leaves the other ports as they are, a DEVICE_RESET on port C excepted. -/
theorem requestFrame_ports_of_ne {p q : Port} (hq : q ≠ p) (r : Request) (strap : Bool) (s : State)
    (h : r ≠ .deviceReset ∨ p ≠ .portC) : (requestFrame p r strap s).ports.get q = s.ports.get q := by
  rcases requestFrame_cases p r strap s with ⟨e, -⟩ | ⟨e, -⟩ | ⟨e, -⟩ <;> rw [e]
  · simp [PerPort.get_set, hq]
  rw [concludeFrame_ports_of_ne hq, State.frameEnded_eq]
  · simp [PerPort.get_set, hq]
  · intro hj
    obtain ⟨rfl, hp, -⟩ := judgeCommand_delivered hj
    simp [Request.kind, Kind.permitted] at hp
    simp [hp] at h

/-! ### What the end of a frame leaves as it is, a device reset excepted -/

theorem concludeFrame_ewu (p : Port) (strap : Bool) (j : Judgement) (s : State) :
    (concludeFrame p strap j s).ewu = s.ewu ∨ (concludeFrame p strap j s).ewu = Ewu.reset := by
  rcases concludeFrame_cases p strap j s with ⟨r, _, h⟩ | ⟨a, b, h⟩ <;> rw [h]
  · by_cases hr : r = .deviceReset
    · subst hr; exact .inr rfl
    · exact .inl (deliver_ewu p r strap s hr)
  · exact .inl rfl

theorem requestFrame_ewu (p : Port) (r : Request) (strap : Bool) (s : State) :
    (requestFrame p r strap s).ewu = s.ewu ∨ (requestFrame p r strap s).ewu = Ewu.reset := by
  rcases requestFrame_cases p r strap s with ⟨e, -⟩ | ⟨e, -⟩ | ⟨e, -⟩ <;> rw [e]
  · exact .inl rfl
  · exact .inl rfl
  · exact concludeFrame_ewu ..

theorem selectRise_ewu (p : Port) (bytes : List Byte) (part strap : Bool) (s : State) :
    (selectRise p bytes part strap s).ewu = s.ewu ∨ (selectRise p bytes part strap s).ewu = Ewu.reset := by
  simp only [selectRise, endFrame]
  (repeat' split) <;> first | exact .inl rfl | exact concludeFrame_ewu ..

theorem concludeFrame_clu (p : Port) (strap : Bool) (j : Judgement) (s : State) :
    (concludeFrame p strap j s).clu = s.clu ∨ (concludeFrame p strap j s).clu = Clu.reset := by
  rcases concludeFrame_cases p strap j s with ⟨r, _, h⟩ | ⟨a, b, h⟩ <;> rw [h]
  · by_cases hr : r = .deviceReset
    · subst hr; exact .inr rfl
    · exact .inl (deliver_clu p r strap s hr)
  · exact .inl rfl

theorem requestFrame_clu (p : Port) (r : Request) (strap : Bool) (s : State) :
    (requestFrame p r strap s).clu = s.clu ∨ (requestFrame p r strap s).clu = Clu.reset := by
  rcases requestFrame_cases p r strap s with ⟨e, -⟩ | ⟨e, -⟩ | ⟨e, -⟩ <;> rw [e]
  · exact .inl rfl
  · exact .inl rfl
  · exact concludeFrame_clu ..

theorem selectRise_clu (p : Port) (bytes : List Byte) (part strap : Bool) (s : State) :
    (selectRise p bytes part strap s).clu = s.clu ∨ (selectRise p bytes part strap s).clu = Clu.reset := by
  simp only [selectRise, endFrame]
  (repeat' split) <;> first | exact .inl rfl | exact concludeFrame_clu ..

theorem concludeFrame_thu (p : Port) (strap : Bool) (j : Judgement) (s : State) :
    (concludeFrame p strap j s).thu = s.thu ∨ (concludeFrame p strap j s).thu = Thu.reset := by
  rcases concludeFrame_cases p strap j s with ⟨r, _, h⟩ | ⟨a, b, h⟩ <;> rw [h]
  · by_cases hr : r = .deviceReset
    · subst hr; exact .inr rfl
    · exact .inl (deliver_thu p r strap s hr)
  · exact .inl rfl

theorem requestFrame_thu (p : Port) (r : Request) (strap : Bool) (s : State) :
    (requestFrame p r strap s).thu = s.thu ∨ (requestFrame p r strap s).thu = Thu.reset := by
  rcases requestFrame_cases p r strap s with ⟨e, -⟩ | ⟨e, -⟩ | ⟨e, -⟩ <;> rw [e]
  · exact .inl rfl
  · exact .inl rfl
  · exact concludeFrame_thu ..

theorem selectRise_thu (p : Port) (bytes : List Byte) (part strap : Bool) (s : State) :
    (selectRise p bytes part strap s).thu = s.thu ∨ (selectRise p bytes part strap s).thu = Thu.reset := by
  simp only [selectRise, endFrame]
  (repeat' split) <;> first | exact .inl rfl | exact concludeFrame_thu ..

theorem concludeFrame_ovu (p : Port) (strap : Bool) (j : Judgement) (s : State) :
    (concludeFrame p strap j s).ovu = s.ovu ∨ (concludeFrame p strap j s).ovu = Ovu.reset := by
  rcases concludeFrame_cases p strap j s with ⟨r, _, h⟩ | ⟨a, b, h⟩ <;> rw [h]
  · by_cases hr : r = .deviceReset
    · subst hr; exact .inr rfl
    · exact .inl (deliver_ovu p r strap s hr)
  · exact .inl rfl

theorem requestFrame_ovu (p : Port) (r : Request) (strap : Bool) (s : State) :
    (requestFrame p r strap s).ovu = s.ovu ∨ (requestFrame p r strap s).ovu = Ovu.reset := by
  rcases requestFrame_cases p r strap s with ⟨e, -⟩ | ⟨e, -⟩ | ⟨e, -⟩ <;> rw [e]
  · exact .inl rfl
  · exact .inl rfl
  · exact concludeFrame_ovu ..

theorem selectRise_ovu (p : Port) (bytes : List Byte) (part strap : Bool) (s : State) :
    (selectRise p bytes part strap s).ovu = s.ovu ∨ (selectRise p bytes part strap s).ovu = Ovu.reset := by
  simp only [selectRise, endFrame]
  (repeat' split) <;> first | exact .inl rfl | exact concludeFrame_ovu ..

theorem concludeFrame_pending (p : Port) (strap : Bool) (j : Judgement) (s : State) :
    (concludeFrame p strap j s).pending = s.pending := by
  rcases concludeFrame_cases p strap j s with ⟨r, _, h⟩ | ⟨a, b, h⟩ <;> rw [h]
  exact deliver_pending ..

@[simp] theorem requestFrame_pending (p : Port) (r : Request) (strap : Bool) (s : State) :
    (requestFrame p r strap s).pending = s.pending := by
  rcases requestFrame_cases p r strap s with ⟨e, -⟩ | ⟨e, -⟩ | ⟨e, -⟩ <;> rw [e]
  · rfl
  · exact concludeFrame_pending ..

@[simp] theorem selectRise_pending (p : Port) (bytes : List Byte) (part strap : Bool) (s : State) :
    (selectRise p bytes part strap s).pending = s.pending := by
  simp only [selectRise, endFrame]
  (repeat' split) <;> first | rfl | exact concludeFrame_pending ..

/-! ### The other commands that reach the ports or several units -/

theorem selectFall_frame (p : Port) (s : State) : selectFall p s = { s with ports := (selectFall p s).ports } := by
  simp only [selectFall]; split <;> rfl

theorem statusByteShifted_frame (p : Port) (s : State) :
    statusByteShifted p s = { s with ports := (statusByteShifted p s).ports } := by
  simp only [statusByteShifted]; split <;> rfl

theorem lineRises_frame (i : Chain) (s : State) :
    lineRises i s =
      { s with
        pins := (lineRises i s).pins
        ports := (lineRises i s).ports
        bau := (lineRises i s).bau
        notices := (lineRises i s).notices } := by
  simp only [lineRises]
  (repeat' split) <;> first | rfl | (rw [bauReceive_frame]; rfl) | (rw [State.awaitEntry_frame]; rfl)

theorem lineFalls_frame (i : Chain) (s : State) :
    lineFalls i s =
      { s with
        pins := (lineFalls i s).pins
        ports := (lineFalls i s).ports
        bau := (lineFalls i s).bau
        notices := (lineFalls i s).notices } := by
  simp only [lineFalls]
  (repeat' split) <;> first | rfl | (rw [bauReceive_frame]; rfl) | (rw [State.awaitEntry_frame]; rfl)

theorem takeBauEntry_frame (t : Stamp) (s : State) :
    takeBauEntry t s = { s with bau := (takeBauEntry t s).bau, notices := (takeBauEntry t s).notices } := by
  simp only [takeBauEntry]
  split
  · rfl
  · exact bauEntry_frame ..

theorem takePstClose_frame (s : State) :
    takePstClose s =
      { s with pst := (takePstClose s).pst, pld := (takePstClose s).pld, notices := (takePstClose s).notices } := by
  simp only [takePstClose]; split <;> rfl

theorem takeReloadEnd_frame (img : FlashImage) (s : State) :
    takeReloadEnd img s =
      { s with
        ports := (takeReloadEnd img s).ports
        pld := (takeReloadEnd img s).pld
        notices := (takeReloadEnd img s).notices } := by
  simp only [takeReloadEnd, answerPending]; (repeat' split) <;> rfl

theorem takeTransferEnd_frame (read : List Byte) (s : State) :
    takeTransferEnd read s =
      { s with ports := (takeTransferEnd read s).ports, pld := (takeTransferEnd read s).pld } := by
  simp only [takeTransferEnd]; split <;> rfl

theorem takeStrapFall_frame (n : Nat) (s : State) :
    takeStrapFall n s = { s with ports := (takeStrapFall n s).ports, pld := (takeStrapFall n s).pld } := by
  simp only [takeStrapFall, abortTransfer]; (repeat' split) <;> rfl

theorem droopRises_frame (s : State) :
    droopRises s =
      { s with pins := (droopRises s).pins, ovu := (droopRises s).ovu, notices := (droopRises s).notices } := by
  simp only [droopRises]; (repeat' split) <;> rfl

theorem droopFalls_frame (s : State) :
    droopFalls s =
      { s with pins := (droopFalls s).pins, ovu := (droopFalls s).ovu, notices := (droopFalls s).notices } := by
  simp only [droopFalls]
  (repeat' split) <;> first | rfl | simp [State.runOvu, State.setPins]

@[simp] theorem selectFall_timeBase (p : Port) (s : State) : (selectFall p s).timeBase = s.timeBase := by rw [selectFall_frame]
@[simp] theorem selectFall_pins (p : Port) (s : State) : (selectFall p s).pins = s.pins := by rw [selectFall_frame]
@[simp] theorem selectFall_bau (p : Port) (s : State) : (selectFall p s).bau = s.bau := by rw [selectFall_frame]
@[simp] theorem selectFall_ewu (p : Port) (s : State) : (selectFall p s).ewu = s.ewu := by rw [selectFall_frame]
@[simp] theorem selectFall_clu (p : Port) (s : State) : (selectFall p s).clu = s.clu := by rw [selectFall_frame]
@[simp] theorem selectFall_thu (p : Port) (s : State) : (selectFall p s).thu = s.thu := by rw [selectFall_frame]
@[simp] theorem selectFall_ovu (p : Port) (s : State) : (selectFall p s).ovu = s.ovu := by rw [selectFall_frame]
@[simp] theorem selectFall_pst (p : Port) (s : State) : (selectFall p s).pst = s.pst := by rw [selectFall_frame]
@[simp] theorem selectFall_evr (p : Port) (s : State) : (selectFall p s).evr = s.evr := by rw [selectFall_frame]
@[simp] theorem selectFall_pld (p : Port) (s : State) : (selectFall p s).pld = s.pld := by rw [selectFall_frame]
@[simp] theorem selectFall_notices (p : Port) (s : State) : (selectFall p s).notices = s.notices := by rw [selectFall_frame]
@[simp] theorem selectFall_pending (p : Port) (s : State) : (selectFall p s).pending = s.pending := by rw [selectFall_frame]

@[simp] theorem statusByteShifted_timeBase (p : Port) (s : State) : (statusByteShifted p s).timeBase = s.timeBase := by rw [statusByteShifted_frame]
@[simp] theorem statusByteShifted_pins (p : Port) (s : State) : (statusByteShifted p s).pins = s.pins := by rw [statusByteShifted_frame]
@[simp] theorem statusByteShifted_bau (p : Port) (s : State) : (statusByteShifted p s).bau = s.bau := by rw [statusByteShifted_frame]
@[simp] theorem statusByteShifted_ewu (p : Port) (s : State) : (statusByteShifted p s).ewu = s.ewu := by rw [statusByteShifted_frame]
@[simp] theorem statusByteShifted_clu (p : Port) (s : State) : (statusByteShifted p s).clu = s.clu := by rw [statusByteShifted_frame]
@[simp] theorem statusByteShifted_thu (p : Port) (s : State) : (statusByteShifted p s).thu = s.thu := by rw [statusByteShifted_frame]
@[simp] theorem statusByteShifted_ovu (p : Port) (s : State) : (statusByteShifted p s).ovu = s.ovu := by rw [statusByteShifted_frame]
@[simp] theorem statusByteShifted_pst (p : Port) (s : State) : (statusByteShifted p s).pst = s.pst := by rw [statusByteShifted_frame]
@[simp] theorem statusByteShifted_evr (p : Port) (s : State) : (statusByteShifted p s).evr = s.evr := by rw [statusByteShifted_frame]
@[simp] theorem statusByteShifted_pld (p : Port) (s : State) : (statusByteShifted p s).pld = s.pld := by rw [statusByteShifted_frame]
@[simp] theorem statusByteShifted_notices (p : Port) (s : State) : (statusByteShifted p s).notices = s.notices := by rw [statusByteShifted_frame]
@[simp] theorem statusByteShifted_pending (p : Port) (s : State) : (statusByteShifted p s).pending = s.pending := by rw [statusByteShifted_frame]

@[simp] theorem lineRises_timeBase (i : Chain) (s : State) : (lineRises i s).timeBase = s.timeBase := by rw [lineRises_frame]
@[simp] theorem lineRises_ewu (i : Chain) (s : State) : (lineRises i s).ewu = s.ewu := by rw [lineRises_frame]
@[simp] theorem lineRises_clu (i : Chain) (s : State) : (lineRises i s).clu = s.clu := by rw [lineRises_frame]
@[simp] theorem lineRises_thu (i : Chain) (s : State) : (lineRises i s).thu = s.thu := by rw [lineRises_frame]
@[simp] theorem lineRises_ovu (i : Chain) (s : State) : (lineRises i s).ovu = s.ovu := by rw [lineRises_frame]
@[simp] theorem lineRises_pst (i : Chain) (s : State) : (lineRises i s).pst = s.pst := by rw [lineRises_frame]
@[simp] theorem lineRises_evr (i : Chain) (s : State) : (lineRises i s).evr = s.evr := by rw [lineRises_frame]
@[simp] theorem lineRises_pld (i : Chain) (s : State) : (lineRises i s).pld = s.pld := by rw [lineRises_frame]
@[simp] theorem lineRises_pending (i : Chain) (s : State) : (lineRises i s).pending = s.pending := by rw [lineRises_frame]

@[simp] theorem lineFalls_timeBase (i : Chain) (s : State) : (lineFalls i s).timeBase = s.timeBase := by rw [lineFalls_frame]
@[simp] theorem lineFalls_ewu (i : Chain) (s : State) : (lineFalls i s).ewu = s.ewu := by rw [lineFalls_frame]
@[simp] theorem lineFalls_clu (i : Chain) (s : State) : (lineFalls i s).clu = s.clu := by rw [lineFalls_frame]
@[simp] theorem lineFalls_thu (i : Chain) (s : State) : (lineFalls i s).thu = s.thu := by rw [lineFalls_frame]
@[simp] theorem lineFalls_ovu (i : Chain) (s : State) : (lineFalls i s).ovu = s.ovu := by rw [lineFalls_frame]
@[simp] theorem lineFalls_pst (i : Chain) (s : State) : (lineFalls i s).pst = s.pst := by rw [lineFalls_frame]
@[simp] theorem lineFalls_evr (i : Chain) (s : State) : (lineFalls i s).evr = s.evr := by rw [lineFalls_frame]
@[simp] theorem lineFalls_pld (i : Chain) (s : State) : (lineFalls i s).pld = s.pld := by rw [lineFalls_frame]
@[simp] theorem lineFalls_pending (i : Chain) (s : State) : (lineFalls i s).pending = s.pending := by rw [lineFalls_frame]

@[simp] theorem takeBauEntry_timeBase (t : Stamp) (s : State) : (takeBauEntry t s).timeBase = s.timeBase := by rw [takeBauEntry_frame]
@[simp] theorem takeBauEntry_pins (t : Stamp) (s : State) : (takeBauEntry t s).pins = s.pins := by rw [takeBauEntry_frame]
@[simp] theorem takeBauEntry_ports (t : Stamp) (s : State) : (takeBauEntry t s).ports = s.ports := by rw [takeBauEntry_frame]
@[simp] theorem takeBauEntry_ewu (t : Stamp) (s : State) : (takeBauEntry t s).ewu = s.ewu := by rw [takeBauEntry_frame]
@[simp] theorem takeBauEntry_clu (t : Stamp) (s : State) : (takeBauEntry t s).clu = s.clu := by rw [takeBauEntry_frame]
@[simp] theorem takeBauEntry_thu (t : Stamp) (s : State) : (takeBauEntry t s).thu = s.thu := by rw [takeBauEntry_frame]
@[simp] theorem takeBauEntry_ovu (t : Stamp) (s : State) : (takeBauEntry t s).ovu = s.ovu := by rw [takeBauEntry_frame]
@[simp] theorem takeBauEntry_pst (t : Stamp) (s : State) : (takeBauEntry t s).pst = s.pst := by rw [takeBauEntry_frame]
@[simp] theorem takeBauEntry_evr (t : Stamp) (s : State) : (takeBauEntry t s).evr = s.evr := by rw [takeBauEntry_frame]
@[simp] theorem takeBauEntry_pld (t : Stamp) (s : State) : (takeBauEntry t s).pld = s.pld := by rw [takeBauEntry_frame]
@[simp] theorem takeBauEntry_pending (t : Stamp) (s : State) : (takeBauEntry t s).pending = s.pending := by rw [takeBauEntry_frame]

@[simp] theorem takePstClose_timeBase (s : State) : (takePstClose s).timeBase = s.timeBase := by rw [takePstClose_frame]
@[simp] theorem takePstClose_pins (s : State) : (takePstClose s).pins = s.pins := by rw [takePstClose_frame]
@[simp] theorem takePstClose_ports (s : State) : (takePstClose s).ports = s.ports := by rw [takePstClose_frame]
@[simp] theorem takePstClose_bau (s : State) : (takePstClose s).bau = s.bau := by rw [takePstClose_frame]
@[simp] theorem takePstClose_ewu (s : State) : (takePstClose s).ewu = s.ewu := by rw [takePstClose_frame]
@[simp] theorem takePstClose_clu (s : State) : (takePstClose s).clu = s.clu := by rw [takePstClose_frame]
@[simp] theorem takePstClose_thu (s : State) : (takePstClose s).thu = s.thu := by rw [takePstClose_frame]
@[simp] theorem takePstClose_ovu (s : State) : (takePstClose s).ovu = s.ovu := by rw [takePstClose_frame]
@[simp] theorem takePstClose_evr (s : State) : (takePstClose s).evr = s.evr := by rw [takePstClose_frame]
@[simp] theorem takePstClose_pending (s : State) : (takePstClose s).pending = s.pending := by rw [takePstClose_frame]

@[simp] theorem takeReloadEnd_timeBase (img : FlashImage) (s : State) : (takeReloadEnd img s).timeBase = s.timeBase := by rw [takeReloadEnd_frame]
@[simp] theorem takeReloadEnd_pins (img : FlashImage) (s : State) : (takeReloadEnd img s).pins = s.pins := by rw [takeReloadEnd_frame]
@[simp] theorem takeReloadEnd_bau (img : FlashImage) (s : State) : (takeReloadEnd img s).bau = s.bau := by rw [takeReloadEnd_frame]
@[simp] theorem takeReloadEnd_ewu (img : FlashImage) (s : State) : (takeReloadEnd img s).ewu = s.ewu := by rw [takeReloadEnd_frame]
@[simp] theorem takeReloadEnd_clu (img : FlashImage) (s : State) : (takeReloadEnd img s).clu = s.clu := by rw [takeReloadEnd_frame]
@[simp] theorem takeReloadEnd_thu (img : FlashImage) (s : State) : (takeReloadEnd img s).thu = s.thu := by rw [takeReloadEnd_frame]
@[simp] theorem takeReloadEnd_ovu (img : FlashImage) (s : State) : (takeReloadEnd img s).ovu = s.ovu := by rw [takeReloadEnd_frame]
@[simp] theorem takeReloadEnd_pst (img : FlashImage) (s : State) : (takeReloadEnd img s).pst = s.pst := by rw [takeReloadEnd_frame]
@[simp] theorem takeReloadEnd_evr (img : FlashImage) (s : State) : (takeReloadEnd img s).evr = s.evr := by rw [takeReloadEnd_frame]
@[simp] theorem takeReloadEnd_pending (img : FlashImage) (s : State) : (takeReloadEnd img s).pending = s.pending := by rw [takeReloadEnd_frame]

@[simp] theorem takeTransferEnd_timeBase (read : List Byte) (s : State) : (takeTransferEnd read s).timeBase = s.timeBase := by rw [takeTransferEnd_frame]
@[simp] theorem takeTransferEnd_pins (read : List Byte) (s : State) : (takeTransferEnd read s).pins = s.pins := by rw [takeTransferEnd_frame]
@[simp] theorem takeTransferEnd_bau (read : List Byte) (s : State) : (takeTransferEnd read s).bau = s.bau := by rw [takeTransferEnd_frame]
@[simp] theorem takeTransferEnd_ewu (read : List Byte) (s : State) : (takeTransferEnd read s).ewu = s.ewu := by rw [takeTransferEnd_frame]
@[simp] theorem takeTransferEnd_clu (read : List Byte) (s : State) : (takeTransferEnd read s).clu = s.clu := by rw [takeTransferEnd_frame]
@[simp] theorem takeTransferEnd_thu (read : List Byte) (s : State) : (takeTransferEnd read s).thu = s.thu := by rw [takeTransferEnd_frame]
@[simp] theorem takeTransferEnd_ovu (read : List Byte) (s : State) : (takeTransferEnd read s).ovu = s.ovu := by rw [takeTransferEnd_frame]
@[simp] theorem takeTransferEnd_pst (read : List Byte) (s : State) : (takeTransferEnd read s).pst = s.pst := by rw [takeTransferEnd_frame]
@[simp] theorem takeTransferEnd_evr (read : List Byte) (s : State) : (takeTransferEnd read s).evr = s.evr := by rw [takeTransferEnd_frame]
@[simp] theorem takeTransferEnd_notices (read : List Byte) (s : State) : (takeTransferEnd read s).notices = s.notices := by rw [takeTransferEnd_frame]
@[simp] theorem takeTransferEnd_pending (read : List Byte) (s : State) : (takeTransferEnd read s).pending = s.pending := by rw [takeTransferEnd_frame]

@[simp] theorem takeStrapFall_timeBase (n : Nat) (s : State) : (takeStrapFall n s).timeBase = s.timeBase := by rw [takeStrapFall_frame]
@[simp] theorem takeStrapFall_pins (n : Nat) (s : State) : (takeStrapFall n s).pins = s.pins := by rw [takeStrapFall_frame]
@[simp] theorem takeStrapFall_bau (n : Nat) (s : State) : (takeStrapFall n s).bau = s.bau := by rw [takeStrapFall_frame]
@[simp] theorem takeStrapFall_ewu (n : Nat) (s : State) : (takeStrapFall n s).ewu = s.ewu := by rw [takeStrapFall_frame]
@[simp] theorem takeStrapFall_clu (n : Nat) (s : State) : (takeStrapFall n s).clu = s.clu := by rw [takeStrapFall_frame]
@[simp] theorem takeStrapFall_thu (n : Nat) (s : State) : (takeStrapFall n s).thu = s.thu := by rw [takeStrapFall_frame]
@[simp] theorem takeStrapFall_ovu (n : Nat) (s : State) : (takeStrapFall n s).ovu = s.ovu := by rw [takeStrapFall_frame]
@[simp] theorem takeStrapFall_pst (n : Nat) (s : State) : (takeStrapFall n s).pst = s.pst := by rw [takeStrapFall_frame]
@[simp] theorem takeStrapFall_evr (n : Nat) (s : State) : (takeStrapFall n s).evr = s.evr := by rw [takeStrapFall_frame]
@[simp] theorem takeStrapFall_notices (n : Nat) (s : State) : (takeStrapFall n s).notices = s.notices := by rw [takeStrapFall_frame]
@[simp] theorem takeStrapFall_pending (n : Nat) (s : State) : (takeStrapFall n s).pending = s.pending := by rw [takeStrapFall_frame]

@[simp] theorem droopRises_timeBase (s : State) : (droopRises s).timeBase = s.timeBase := by rw [droopRises_frame]
@[simp] theorem droopRises_ports (s : State) : (droopRises s).ports = s.ports := by rw [droopRises_frame]
@[simp] theorem droopRises_bau (s : State) : (droopRises s).bau = s.bau := by rw [droopRises_frame]
@[simp] theorem droopRises_ewu (s : State) : (droopRises s).ewu = s.ewu := by rw [droopRises_frame]
@[simp] theorem droopRises_clu (s : State) : (droopRises s).clu = s.clu := by rw [droopRises_frame]
@[simp] theorem droopRises_thu (s : State) : (droopRises s).thu = s.thu := by rw [droopRises_frame]
@[simp] theorem droopRises_pst (s : State) : (droopRises s).pst = s.pst := by rw [droopRises_frame]
@[simp] theorem droopRises_evr (s : State) : (droopRises s).evr = s.evr := by rw [droopRises_frame]
@[simp] theorem droopRises_pld (s : State) : (droopRises s).pld = s.pld := by rw [droopRises_frame]
@[simp] theorem droopRises_pending (s : State) : (droopRises s).pending = s.pending := by rw [droopRises_frame]

@[simp] theorem droopFalls_timeBase (s : State) : (droopFalls s).timeBase = s.timeBase := by rw [droopFalls_frame]
@[simp] theorem droopFalls_ports (s : State) : (droopFalls s).ports = s.ports := by rw [droopFalls_frame]
@[simp] theorem droopFalls_bau (s : State) : (droopFalls s).bau = s.bau := by rw [droopFalls_frame]
@[simp] theorem droopFalls_ewu (s : State) : (droopFalls s).ewu = s.ewu := by rw [droopFalls_frame]
@[simp] theorem droopFalls_clu (s : State) : (droopFalls s).clu = s.clu := by rw [droopFalls_frame]
@[simp] theorem droopFalls_thu (s : State) : (droopFalls s).thu = s.thu := by rw [droopFalls_frame]
@[simp] theorem droopFalls_pst (s : State) : (droopFalls s).pst = s.pst := by rw [droopFalls_frame]
@[simp] theorem droopFalls_evr (s : State) : (droopFalls s).evr = s.evr := by rw [droopFalls_frame]
@[simp] theorem droopFalls_pld (s : State) : (droopFalls s).pld = s.pld := by rw [droopFalls_frame]
@[simp] theorem droopFalls_pending (s : State) : (droopFalls s).pending = s.pending := by rw [droopFalls_frame]

end Sys2Proof.Machine
end

