-- ==== Sys2Proof/Laws/Bursts.lean ====
section
/-! SUPPORT. What the transmit burst unit keeps (R13, R27, R91, R92). -/

namespace Sys2Proof.Machine

/-- A strike. -/
theorem burstChainInv_strike {sh i} {c : BauChain} (h : BurstChainInv c) : BurstChainInv (strike sh i c).val := by
  rw [strike_frame]; exact h

/-- An overshoot. -/
theorem burstChainInv_overshoot {sh i} {c : BauChain} (pl : Pulse) (hq : c.queue.length ≤ 8)
    (hi : pl.segment.inhibited = c.heldInhibit) : BurstChainInv (overshoot sh i pl c).val := by
  rw [overshoot_frame]
  refine ⟨hq, ?_, by simp⟩
  rintro pl' ⟨⟩
  exact hi

/-- A segment start judged. -/
theorem burstChainInv_judgeStart {sh i} {c : BauChain} (h : BurstChainInv c) :
    BurstChainInv (judgeStart sh i c).val := by
  simp only [judgeStart]
  split
  · exact h
  · rename_i pl hp
    (repeat' split)
    · exact h
    · exact burstChainInv_overshoot pl h.1 (h.2.1 pl hp)
    · exact h

/-- A pulse opened. -/
theorem burstChainInv_openPulse {c : BauChain} (hq : c.queue.length ≤ 8) (q : List QueueEntry) (hq' : q.length ≤ 8)
    (t code u d) (x y) : BurstChainInv
    { c with queue := q, pulse := some (openPulse c t code u d), grace := none, pulsedInEpoch := x, counters := y } := by
  refine ⟨hq', ?_, by simp⟩
  rintro pl ⟨⟩
  rfl

/-- A rise. -/
theorem burstChainInv_riseOn {sh i t} {c : BauChain} (h : BurstChainInv c) : BurstChainInv (riseOn sh i t c).val := by
  have hq : c.queue.length ≤ 8 := h.1
  simp only [riseOn]
  split
  · exact h
  · split
    · simp only [unannouncedRise, Eff.andThen_val, Eff.sendFirst_val]
      exact burstChainInv_judgeStart (burstChainInv_strike (burstChainInv_openPulse hq _ hq _ _ _ _ _ _))
    · rename_i e rest he
      simp only [pairedRise, Eff.sendFirst_val]
      rw [he, List.length_cons] at hq
      exact burstChainInv_judgeStart (burstChainInv_openPulse h.1 _ (by omega) _ _ _ _ _ _)

/-- A fall. -/
theorem burstChainInv_fallOn {sh i t} {c : BauChain} (h : BurstChainInv c) : BurstChainInv (fallOn sh i t c).val := by
  simp only [fallOn]
  split
  · exact h
  · exact ⟨h.1, by simp [Eff.pure], by simp [Eff.pure]⟩

/-- A stale expiry. -/
theorem burstChainInv_staleExpiryOn {sh i t} {c : BauChain} (h : BurstChainInv c) :
    BurstChainInv (staleExpiryOn sh i t c).val := by
  simp only [staleExpiryOn]
  split
  · exact h
  · rename_i e rest he
    split
    · refine ⟨?_, h.2⟩
      have := h.1
      rw [he, List.length_cons] at this
      simp only [removeStale]; omega
    · exact h

/-- The stale recheck. -/
theorem burstChainInv_recheckStale {sh i t} (n) {c : BauChain} (h : BurstChainInv c) :
    BurstChainInv (recheckStale sh i t n c).val := by
  induction n generalizing c with
  | zero => exact h
  | succ n ih =>
    simp only [recheckStale, Eff.andThen_val]
    exact ih (burstChainInv_staleExpiryOn h)

/-- An overrun expiry. -/
theorem burstChainInv_overrunExpiryOn {sh i t} {c : BauChain} (h : BurstChainInv c) :
    BurstChainInv (overrunExpiryOn sh i t c).val := by
  simp only [overrunExpiryOn]
  split
  · exact h
  · rename_i pl hp
    have hx : ∀ n, BurstChainInv { c with pulse := some { pl with overrunMark := true }, counters := n } := by
      intro n
      refine ⟨h.1, ?_, fun hg => ?_⟩
      · rintro pl' ⟨⟩; exact h.2.1 pl hp
      · obtain ⟨pl', h1, h2⟩ := h.2.2 hg
        rw [hp] at h1; cases h1
        exact ⟨_, rfl, h2⟩
    (repeat' split)
    · exact hx _
    · simp only [Eff.sendFirst_val]
      exact burstChainInv_strike (hx _)
    · exact h

/-- A grace expiry. -/
theorem burstChainInv_graceExpiryOn {sh i t} {c : BauChain} (h : BurstChainInv c) :
    BurstChainInv (graceExpiryOn sh i t c).val := by
  simp only [graceExpiryOn]
  split
  · exact h
  · split
    · rename_i hp
      exact ⟨h.1, by simp [Eff.pure, hp], by simp [Eff.pure]⟩
    · rename_i pl hp
      exact burstChainInv_overshoot pl h.1 (h.2.1 pl hp)

/-- A grace timer started. -/
theorem burstChainInv_graceStart {sh i t} {c : BauChain} (pl : Pulse) (hq : c.queue.length ≤ 8)
    (hp : c.pulse = some pl) (hi : pl.segment.inhibited = c.heldInhibit)
    (h0 : c.heldInhibit = false) (hm : pl.segment.marked = false) (hx : exceeds pl.segment.code c.heldCeiling = true) : BurstChainInv (graceStart sh i t pl c).val := by
  simp only [graceStart]
  split
  · exact burstChainInv_overshoot pl hq hi
  · refine ⟨hq, ?_, fun _ => ⟨pl, hp, by rw [hi, h0], hm, hx⟩⟩
    intro pl' h'
    have h' : c.pulse = some pl' := h'
    rw [hp] at h'; cases h'
    exact hi

/-- A ceiling change. -/
theorem burstChainInv_ceilingChangeOn {n sh i} {c : BauChain} (h : BurstChainInv c) :
    BurstChainInv (ceilingChangeOn n sh i c).val := by
  simp only [ceilingChangeOn]
  split
  · rename_i hp
    refine ⟨h.1, by simp [Eff.pure, hp], fun hg => ?_⟩
    obtain ⟨pl, h1, _⟩ := h.2.2 hg
    rw [hp] at h1; cases h1
  · rename_i pl hp
    have hi := h.2.1 pl hp
    split
    · rename_i he
      split
      · rename_i hn
        refine ⟨h.1, ?_, fun hg => ?_⟩
        · intro pl' h'
          have h' : c.pulse = some pl' := h'
          rw [hp] at h'; cases h'
          exact hi.trans he
        · obtain ⟨pl', h1, h2, _⟩ := h.2.2 hg
          rw [hp] at h1; cases h1
          rw [hi, he, hn] at h2; cases h2
      · rename_i hn
        simp only [Bool.not_eq_true] at hn
        simp only [judgeDrop]
        have hpi : ∀ pl', c.pulse = some pl' → pl'.segment.inhibited = n.inhibit := by
          intro pl' h'; rw [hp] at h'; cases h'; exact hi.trans he
        split
        · rename_i hm
          refine ⟨h.1, hpi, fun hg => ?_⟩
          obtain ⟨pl', h1, h2, h3, _⟩ := h.2.2 hg
          rw [hp] at h1; cases h1
          rw [hm] at h3; cases h3
        · rename_i hm
          simp only [Bool.not_eq_true] at hm
          split
          · rename_i hx
            split
            · exact ⟨h.1, hpi, fun hg => ⟨pl, hp, by rw [hi, he, hn], hm, hx⟩⟩
            · exact burstChainInv_graceStart pl h.1 hp (hi.trans he) hn hm hx
          · exact ⟨h.1, hpi, by simp [Eff.pure]⟩
    · simp only [inhibitChange]
      have hb : BurstChainInv { cutSegment pl pl.segment.code n.stamp { c with heldCeiling := n.ceiling, heldInhibit := n.inhibit } with grace := none } := by
        refine ⟨h.1, ?_, by simp⟩
        rintro pl' ⟨⟩
        rfl
      split
      · exact hb
      · rename_i hn
        simp only [Bool.not_eq_true] at hn
        split
        · rename_i hx
          exact burstChainInv_graceStart _ h.1 rfl rfl hn rfl hx
        · exact hb

/-- An ANNOUNCE NOW. -/
theorem burstChainInv_announceNowOn {code t sh i} {c : BauChain} (h : BurstChainInv c) :
    BurstChainInv (announceNowOn code t sh i c).val := by
  simp only [announceNowOn]
  split
  · exact h
  · simp only [Eff.sendFirst_val]
    apply burstChainInv_judgeStart
    refine ⟨h.1, ?_, by simp⟩
    rintro pl' ⟨⟩
    rfl

/-- A flush. -/
theorem burstChainInv_flushOn {sh i} {c : BauChain} (h : BurstChainInv c) : BurstChainInv (flushOn sh i c).val :=
    ⟨Nat.zero_le _, h.2⟩

/-- The next epoch opened. -/
theorem burstChainInv_openEpoch {b p} {c : BauChain} (h : BurstChainInv c) : BurstChainInv (openEpoch b p c) := by
  refine ⟨h.1, ?_, fun hg => ?_⟩
  · intro pl hp
    simp only [openEpoch, Option.map_eq_some_iff] at hp
    obtain ⟨pl', _, rfl⟩ := hp
    rfl
  · obtain ⟨pl, h1, h2, h3, h4⟩ := h.2.2 hg
    refine ⟨{ pl with segment := newSegment { c with power := p } pl.segment.code b },
        by simp only [openEpoch, h1, Option.map_some], ?_, rfl, h4⟩
    have := h.2.1 pl h1
    exact this.symm.trans h2

/-- A chain's close. -/
theorem burstChainInv_closeChain {old new a b i} {c : BauChain} (h : BurstChainInv c) :
    BurstChainInv (closeChain old new a b i c).val := by
  simp only [closeChain, Eff.andThen_val, judgeBoundary]
  have h1 : BurstChainInv (recheckAfter old new i b (openEpoch b (powerAfter c a i) c)).val := by
    simp only [recheckAfter]
    split
    · exact burstChainInv_openEpoch h
    · exact burstChainInv_recheckStale _ (burstChainInv_openEpoch h)
  split
  · exact h1
  · exact burstChainInv_judgeStart h1

/-- Every chain is legal. -/
def AllChains (s : State) : Prop := ∀ i, BurstChainInv (s.bau.chains.get i)

/-- One chain takes an event. -/
theorem allChains_runChain {s : State} (h : AllChains s) (i f)
    (hf : ∀ sh c, BurstChainInv c → BurstChainInv (f sh i c).val) : AllChains (s.runChain i f) := by
  intro j
  by_cases hj : j = i
  · subst hj; rw [State.runChain_get_self]; exact hf _ _ (h j)
  · rw [State.runChain_get_of_ne _ _ _ hj]; exact h j

/-- The BAU takes an event. -/
theorem allChains_bauTake {s : State} (h : AllChains s) (e) : AllChains (bauTake s e) := by
  cases e
  case announce p chain kind code d =>
    simp only [bauTake, takeAnnounce]
    split
    · exact h
    · rename_i i hc
      suffices AllChains (acceptAnnounce i kind code d s) from this
      simp only [acceptAnnounce]
      split
      · rename_i hk
        intro j
        by_cases hj : j = i
        · subst hj
          rw [State.runChain_get_self]
          have : (s.bau.chains.get j).queue.length < 8 := by
            simp only [announceCheck, hk, if_true] at hc
            (repeat' split at hc) <;> simp at hc
            subst hc
            assumption
          exact ⟨by simp [announceNextOn]; simp only [Config.queueCapacity]; omega, (h j).2⟩
        · rw [State.runChain_get_of_ne _ _ _ hj]; exact h j
      · exact allChains_runChain h _ _ fun _ _ => burstChainInv_announceNowOn
  · exact allChains_runChain h _ _ fun _ _ => burstChainInv_riseOn
  · exact allChains_runChain h _ _ fun _ _ => burstChainInv_fallOn
  · exact allChains_runChain h _ _ fun _ _ => burstChainInv_staleExpiryOn
  · exact allChains_runChain h _ _ fun _ _ => burstChainInv_overrunExpiryOn
  · exact allChains_runChain h _ _ fun _ _ => burstChainInv_graceExpiryOn
  · exact allChains_runChain h _ _ fun _ _ => burstChainInv_ceilingChangeOn
  · exact allChains_runChain h _ _ fun _ _ => burstChainInv_flushOn

/-- Taking an event leaves what is held and what waits. -/
theorem bauTake_held (s : State) (e) : (bauTake s e).bau.held = s.bau.held ∧ (bauTake s e).bau.closeNotice =
    s.bau.closeNotice ∧ (bauTake s e).bau.inRun = s.bau.inRun ∧ (bauTake s e).bau.early = s.bau.early := by
  cases e
  case announce =>
    simp only [bauTake, takeAnnounce]
    split
    · exact ⟨rfl, rfl, rfl, rfl⟩
    · simp only [acceptAnnounce]
      split <;> exact ⟨rfl, rfl, rfl, rfl⟩
  all_goals exact ⟨rfl, rfl, rfl, rfl⟩

/-- The BAU takes an event. -/
theorem burstInv_bauTake {s : State} (h : BurstInv s.bau) (e) : BurstInv (bauTake s e).bau := by
  refine ⟨allChains_bauTake h.1 e, ?_⟩
  have := bauTake_held s e
  simp only [HeldInv, this]
  exact h.2

/-- The BAU takes the held events. -/
theorem burstInv_bauTakeAll {s : State} (h : BurstInv s.bau) (es : List BauEvent) :
    BurstInv (es.foldl bauTake s).bau := by
  induction es generalizing s with
  | nil => exact h
  | cons e es ih => exact ih (burstInv_bauTake h e)

/-- An event reaches the BAU. -/
theorem burstInv_bauReceive {s : State} (h : BurstInv s.bau) (e) : BurstInv (bauReceive e s).bau := by
  simp only [bauReceive]
  split
  · rename_i hc
    refine ⟨h.1, fun hn => ?_, h.2.2⟩
    have hn : s.bau.closeNotice = none := hn
    rw [hn] at hc; cases hc
  · exact burstInv_bauTake h e

/-- An event reaches the BAU, other units changed. -/
theorem burstInv_bauReceive_of_eq {s s1 : State} (h : BurstInv s.bau) (hs : s1.bau = s.bau) (e) :
    BurstInv (bauReceive e s1).bau :=
  burstInv_bauReceive (by rw [hs]; exact h) e

/-- The BAU at reset. -/
theorem burstInv_reset : BurstInv Bau.reset := by
  refine ⟨fun i => ⟨?_, ?_, ?_⟩, fun _ => rfl, fun _ => rfl⟩
      <;> cases i <;> simp [Bau.reset, Rom.everyChain, BauChain.reset, PerChain.get_build]

/-- A flush of an owned chain. -/
theorem burstInv_flushOwned {s : State} (h : BurstInv s.bau) (p i) : BurstInv (flushOwned p s i).bau := by
  simp only [flushOwned]
  split
  · exact burstInv_bauReceive h _
  · exact h

/-- The BAU stands. -/
theorem burstInv_of_eq {s t : State} (h : BurstInv s.bau) (e : t.bau = s.bau) : BurstInv t.bau := by rw [e]; exact h

/-- An owner replaced. -/
theorem burstInv_setOwner {s : State} (h : BurstInv s.bau) (i o) : BurstInv (setOwner i o s).bau := by
  simp only [setOwner]
  refine burstInv_bauReceive_of_eq (s := s) h ?_ _; rfl

/-- A delivered request. -/
theorem burstInv_deliver (p r strap) (s : State) (h : BurstInv s.bau) : BurstInv (deliver p r strap s).bau := by
  cases r <;> simp only [deliver]
  case announce => exact burstInv_bauReceive h _
  case portReset =>
    simp only [takePortReset, Chain.all, List.foldl_cons, List.foldl_nil]
    refine burstInv_flushOwned (burstInv_flushOwned (burstInv_flushOwned (burstInv_flushOwned ?_ _ _) _ _) _ _) _ _
    exact h
  case setOwner =>
    simp only [takeSetOwner]
    split
    · exact h
    · split
      · exact burstInv_setOwner h _ _
      · exact h
  case deviceReset => exact burstInv_reset
  all_goals
    refine burstInv_of_eq h ?_
    simp only [takeReadCeilings, takeReadStatus, takeReadHistory, takeReadThermal, takeReadEvents,
      takeAckEvents, takeSelectScenario, takeSetCap, takeSetRoute, takeLoadProfile, takeFlashXfer, startTransfer]
    try (repeat' split)
    all_goals simp

/-- The end of a frame. -/
theorem burstInv_concludeFrame (p strap j) (s : State) (h : BurstInv s.bau) :
    BurstInv (concludeFrame p strap j s).bau := by
  rcases concludeFrame_cases p strap j s with ⟨r, _, hc⟩ | ⟨a, b, hc⟩ <;> rw [hc]
  · exact burstInv_deliver _ _ _ _ h
  · exact h

/-- A request's frame. -/
theorem burstInv_requestFrame (p r strap) (s : State) (h : BurstInv s.bau) :
    BurstInv (requestFrame p r strap s).bau := by
  rcases requestFrame_cases p r strap s with ⟨e, -⟩ | ⟨e, -⟩ | ⟨e, -⟩ <;> rw [e]
  · exact h
  · exact h
  · exact burstInv_concludeFrame _ _ _ _ h

/-- A rising select edge. -/
theorem burstInv_selectRise (p bytes part strap) (s : State) (h : BurstInv s.bau) :
    BurstInv (selectRise p bytes part strap s).bau := by
  simp only [selectRise, endFrame]
  (repeat' split) <;> first | exact h | exact burstInv_concludeFrame _ _ _ _ h

/-- One chain takes an event. -/
theorem burstInv_runChain {s : State} (h : BurstInv s.bau) (i f)
    (hf : ∀ sh c, BurstChainInv c → BurstChainInv (f sh i c).val) : BurstInv (s.runChain i f).bau :=
  ⟨allChains_runChain h.1 i f hf, h.2⟩

/-- The lines sampled at the entry. -/
theorem burstInv_risesAtEntry (t high) (is : List Chain) {s : State} (h : BurstInv s.bau) :
    BurstInv (is.foldl (riseAtEntry t high) s).bau := by
  induction is generalizing s with
  | nil => exact h
  | cons i is ih =>
    refine ih (s := riseAtEntry t high s i) ?_
    simp only [riseAtEntry]
    split
    · exact burstInv_runChain h _ _ fun _ _ => burstChainInv_riseOn
    · exact h

/-- The edges that waited for the entry. -/
theorem burstInv_takeEarlyEdges (es : List (Chain × LineEdge)) {s : State} (h : BurstInv s.bau) :
    BurstInv (es.foldl takeEarlyEdge s).bau := by
  induction es generalizing s with
  | nil => exact h
  | cons e es ih =>
    exact ih (s := takeEarlyEdge s e) (burstInv_bauTake h _)

/-- An edge before the BAU has taken the entry. -/
theorem burstInv_awaitEntry {s : State} (h : BurstInv s.bau) (hr : s.bau.inRun = false) (i r) :
    BurstInv (s.awaitEntry i r).bau := by
  simp only [State.awaitEntry]
  split
  · exact h
  · refine ⟨h.1, h.2.1, fun hn => ?_⟩
    have hn : s.bau.inRun = true := hn
    rw [hr] at hn; cases hn

/-- The entry to RUN. -/
theorem burstInv_takeBauEntry {s : State} (h : BurstInv s.bau) (t) : BurstInv (takeBauEntry t s).bau := by
  simp only [takeBauEntry]
  split
  · exact h
  · exact burstInv_takeEarlyEdges _ (burstInv_risesAtEntry _ _ _ ⟨h.1, h.2.1, fun _ => rfl⟩)

end Sys2Proof.Machine
end

