-- ==== Sys2Proof/Laws/Energy.lean ====
section
/-! SUPPORT. What the power codes and energies satisfy (R1 to R6). -/

namespace Sys2Proof.Machine

/-- The linear power does not decrease with the code. -/
theorem linNat_mono : ∀ a b : Nat, a ≤ b → b < 256 → linNat a ≤ linNat b := by
  have h : ∀ b : Nat, b < 256 → b ≠ 0 → linNat (b - 1) < linNat b := by decide +kernel
  intro a b hab hb
  induction b with
  | zero => simp at hab; subst hab; exact Nat.le_refl _
  | succ b ih =>
    rcases Nat.eq_or_lt_of_le hab with rfl | h'
    · exact Nat.le_refl _
    · exact Nat.le_trans (ih (by omega) (by omega)) (Nat.le_of_lt (h (b+1) hb (by omega)))

/-- The linear power strictly increases with the code (R5). -/
theorem lin_strictMono : ∀ c d : Code, c.toNat < d.toNat → lin c < lin d := by
  intro c d h
  have hs : ∀ b : Nat, b < 256 → b ≠ 0 → linNat (b - 1) < linNat b := by decide +kernel
  have := hs d.toNat d.isLt (by omega)
  have h2 := linNat_mono c.toNat (d.toNat - 1) (by omega) (by have := d.isLt; omega)
  exact Nat.lt_of_le_of_lt h2 this

/-- A greater code has at least the energy of a lesser one over an epoch. -/
theorem epochEnergy_mono (f a : Code) (t) (h : f.toNat ≤ a.toNat) : epochEnergy f t ≤ epochEnergy a t :=
  Nat.div_le_div_right (Nat.mul_le_mul_right _ (linNat_mono _ _ h a.isLt))

/-- The energies of a list of records are at most their excesses and one reserve each. -/
theorem energies_le_excesses (w : List EpochRecord) (e : Nat) :
    (w.map fun r => r.energy.toNat).sum ≤ (w.map fun r => excess r.energy.toNat e).sum + w.length * e := by
  induction w with
  | nil => simp
  | cons a w ih => simp only [List.map_cons, List.sum_cons, List.length_cons, excess] at ih ⊢; rw [Nat.add_mul]; omega

/-- What the search below n finds: the greatest code whose linear power is at most p, OFF when there is none. -/
theorem codeBelow_spec (p n : Nat) (hn : n ≤ 256) :
    (∀ c, codeBelow p n = .code c → c.toNat < n ∧ linNat c.toNat ≤ p ∧ ∀ m, c.toNat < m → m < n → p < linNat m) ∧ (codeBelow p n = .off → ∀ m, m < n → p < linNat m) := by
  induction n with
  | zero => exact ⟨fun c h => by simp [codeBelow] at h, fun _ m h => by omega⟩
  | succ n ih =>
    simp only [codeBelow]
    split
    · rename_i hl
      refine ⟨fun c h => ?_, fun h => by cases h⟩
      cases h
      rw [BitVec.toNat_ofNat, Nat.mod_eq_of_lt (by omega)]
      exact ⟨by omega, hl, fun m h1 h2 => by omega⟩
    · rename_i hl
      refine ⟨fun c h => ?_, fun h m hm => ?_⟩
      · obtain ⟨h1, h2, h3⟩ := (ih (by omega)).1 c h
        refine ⟨by omega, h2, fun m h4 h5 => ?_⟩
        rcases Nat.eq_or_lt_of_le (Nat.le_of_lt_succ h5) with rfl | h6
        · omega
        · exact h3 m h4 h6
      · rcases Nat.eq_or_lt_of_le (Nat.le_of_lt_succ hm) with rfl | h6
        · omega
        · exact (ih (by omega)).2 h m h6

/-- The code of a power is the greatest whose linear power is at most it (R3). -/
theorem codeOf_eq_code (p c) : codeOf p = .code c ↔ lin c ≤ p ∧ ∀ d : Code, c.toNat < d.toNat → p < lin d := by
  have s := codeBelow_spec p 256 (Nat.le_refl _)
  constructor
  · intro h
    obtain ⟨-, h2, h3⟩ := s.1 c h
    exact ⟨h2, fun d hd => h3 d.toNat hd d.isLt⟩
  · rintro ⟨h1, h2⟩
    cases h : codeOf p with
    | off => exact absurd (s.2 h c.toNat c.isLt) (Nat.not_lt.2 h1)
    | code x =>
      obtain ⟨-, h4, h5⟩ := s.1 x h
      have : x = c := by
        apply BitVec.eq_of_toNat_eq
        rcases Nat.lt_trichotomy x.toNat c.toNat with h | h | h
        · exact absurd (h5 c.toNat h c.isLt) (Nat.not_lt.2 h1)
        · exact h
        · exact absurd (h2 x h) (Nat.not_lt.2 h4)
      rw [this]

/-- A code that the search finds has at most the power. -/
theorem codeBelow_le (n) (p) : ∀ c, codeBelow p n = .code c → n ≤ 256 → linNat c.toNat ≤ p := by
  induction n with
  | zero => intro c h; simp [codeBelow] at h
  | succ n ih =>
    intro c h hn
    simp only [codeBelow] at h
    split at h
    · rename_i hl
      cases h
      rw [BitVec.toNat_ofNat, Nat.mod_eq_of_lt (by omega)]
      exact hl
    · exact ih c h (by omega)

end Sys2Proof.Machine
end

