-- ==== Sys2Proof/Laws/Ceilings.lean ====
section
/-! SUPPORT. What the ceilings and the ceiling table satisfy (R65 to R80). -/

namespace Sys2Proof.Machine

/-- A recompute does what Recomputed says. -/
theorem recomputed_of_recompute (now) (c : Clu) (s t : State) (base) (h1 : t.clu = (recompute now c).val)
    (h2 : t.notices = base ++ (recompute now c).out) : Recomputed now base c t := by
  simp only [Recomputed, h1, h2, recompute]
  cases tableChanges c <;> simp [withTable]

/-- A mask's bits are the chains that satisfy the test. -/
theorem chainMask_getLsbD (f : Chain → Bool) (i : Chain) : (chainMask f).getLsbD (chainIndex i) = f i := by
  simp only [chainMask]
  cases i <;> cases f .tx0 <;> cases f .tx1 <;> cases f .tx2 <;> cases f .tx3 <;> rfl

/-- A mask is 0 exactly when no chain satisfies the test. -/
theorem chainMask_eq_zero_iff (f : Chain → Bool) : chainMask f = 0 ↔ Chain.all.any f = false := by
  simp only [chainMask, Chain.all, List.any_cons, List.any_nil]
  cases f .tx0 <;> cases f .tx1 <;> cases f .tx2 <;> cases f .tx3 <;> decide

/-- Some chain satisfies a test. -/
theorem chain_any_iff (f : Chain → Bool) : Chain.all.any f = true ↔ ∃ i, f i = true := by
  rw [List.any_eq_true]; exact ⟨fun ⟨i, _, h⟩ => ⟨i, h⟩, fun ⟨i, h⟩ => ⟨i, Chain.mem_all i, h⟩⟩

/-- Two codes compare as numbers. -/
theorem atMost_code_iff (a b : Code) : atMost (.code a) (.code b) ↔ a.toNat ≤ b.toNat := by
  simp only [atMost, leastCeiling]
  by_cases h : a.toNat ≤ b.toNat
  · simp [h]
  · simp only [h, if_false, Ceiling.code.injEq, iff_false]
    rintro rfl; exact h (Nat.le_refl _)

/-- At most is transitive. -/
theorem atMost_trans {a b c : Ceiling} (h : atMost a b) (h' : atMost b c) : atMost a c := by
  cases a with
  | off => rfl
  | code x => cases b with
    | off => cases h
    | code y => cases c with
      | off => cases h'
      | code z => rw [atMost_code_iff] at *; omega

/-- The lesser of two ceilings is at most each. -/
theorem leastCeiling_atMost (a b : Ceiling) : atMost (leastCeiling a b) a ∧ atMost (leastCeiling a b) b := by
  cases a with
  | off => exact ⟨rfl, rfl⟩
  | code x => cases b with
    | off => exact ⟨rfl, rfl⟩
    | code y =>
      simp only [leastCeiling]
      split <;> rw [atMost_code_iff, atMost_code_iff] <;> omega

/-- The lesser with a contribution that may be none is at most each. -/
theorem leastWith_atMost (x : Ceiling) (o : Option Ceiling) : atMost (leastWith x o) x ∧ ∀ y, o = some y →
    atMost (leastWith x o) y := by
  cases o with
  | none => refine ⟨?_, fun y h => by cases h⟩; cases x <;> simp [leastWith, atMost, leastCeiling]
  | some y => exact ⟨(leastCeiling_atMost x y).1, fun z h => by cases h; exact (leastCeiling_atMost x y).2⟩

/-- The lesser of two ceilings is one of them. -/
theorem leastCeiling_eq_or (a b : Ceiling) : leastCeiling a b = a ∨ leastCeiling a b = b := by
  cases a with
  | off => simp [leastCeiling]
  | code x => cases b with
    | off => simp [leastCeiling]
    | code y => by_cases h : x.toNat ≤ y.toNat <;> simp [leastCeiling, h]

/-- The lesser with a contribution that may be none is one of them. -/
theorem leastWith_eq_or (x : Ceiling) (o : Option Ceiling) : leastWith x o = x ∨ o = some (leastWith x o) := by
  cases o with
  | none => exact .inl rfl
  | some y => simp only [leastWith]; rcases leastCeiling_eq_or x y with h | h <;> simp [h]

/-- A transmit ceiling that is a code (R67). -/
theorem transmitCeiling_code {cmax k e x} (h : transmitCeiling cmax k (.code e) = .code x) : x.toNat =
    min cmax.toNat (e.toNat + k) ∧ (x.toNat - k ≤ e.toNat) := by
  simp only [transmitCeiling, Ceiling.code.injEq] at h
  subst h
  have : min cmax.toNat (e.toNat + k) % 2^8 = min cmax.toNat (e.toNat + k) := Nat.mod_eq_of_lt (by have := cmax.isLt; omega)
  rw [BitVec.toNat_ofNat, this]
  omega

/-- The exposure code is the code less k, not below 0. -/
theorem exposureCode_toNat (p : Code) (k) : (exposureCode p k).toNat = p.toNat - k := by
  simp only [exposureCode, lessCodes, BitVec.toNat_ofNat]
  exact Nat.mod_eq_of_lt (by have := p.isLt; omega)

/-- Four shares by weight add to at most the whole. -/
theorem shares_le (P W a b c d : Nat) (h : a + b + c + d = W) :
    P * a / W + P * b / W + P * c / W + P * d / W ≤ P := by
  rcases Nat.eq_zero_or_pos W with h0 | h0
  · subst h0; simp
  · have hx : (P * a / W + P * b / W + P * c / W + P * d / W) * W ≤ P * W := by
      have e := fun x => Nat.div_mul_le_self (P * x) W
      have := e a; have := e b; have := e c; have := e d
      rw [Nat.add_mul, Nat.add_mul, Nat.add_mul]
      have : P * W = P * a + P * b + P * c + P * d := by rw [← h]; simp only [Nat.mul_add]
      omega
    exact Nat.le_of_mul_le_mul_right hx h0

/-- The table does not enter into itself. -/
theorem tableEntry_withTable (c : Clu) (g : BitVec 8) (i : Chain) : tableEntry { withTable c with generation := g }
    i = tableEntry c i := by
  cases i <;> rfl

/-- A recompute replaces the table and the generation. -/
theorem recompute_val (now) (c : Clu) : ∃ g, (recompute now c).val = { withTable c with generation := g } := by
  simp only [recompute]; split
  · exact ⟨_, rfl⟩
  · exact ⟨c.generation, rfl⟩

/-- A recompute changes each chain's entry and the generation. -/
theorem recompute_frame (now) (c : Clu) : (recompute now c).val.epoch = c.epoch ∧
    (recompute now c).val.heldSets = c.heldSets ∧
    (recompute now c).val.power = c.power ∧ (recompute now c).val.zones = c.zones ∧ (recompute now c).val.level = c.level ∧
    (recompute now c).val.oStep = c.oStep ∧ (recompute now c).val.loading = c.loading ∧
    ∀ i, (recompute now c).val.chains.get i = { c.chains.get i with entry := ((recompute now c).val.chains.get i).entry } := by
  obtain ⟨g, h⟩ := recompute_val now c
  rw [h]
  refine ⟨rfl, rfl, rfl, rfl, rfl, rfl, rfl, fun i => ?_⟩
  simp [withTable]

/-- The held set requests set the enforced epoch of the chains they name for the running epoch, and change the table. -/
theorem applySets_frame (now) (l : List (Chain × EpochIndex)) (c : Clu) : (applySets now l c).val.epoch = c.epoch ∧
    (applySets now l c).val.heldSets = c.heldSets ∧
    (applySets now l c).val.power = c.power ∧ (applySets now l c).val.zones = c.zones ∧ (applySets now l c).val.level = c.level ∧
    (applySets now l c).val.oStep = c.oStep ∧ (applySets now l c).val.loading = c.loading ∧
    ∀ i, (applySets now l c).val.chains.get i = { c.chains.get i with
        entry := ((applySets now l c).val.chains.get i).entry
        enforcedEpoch := if (i, c.epoch) ∈ l then some c.epoch else (c.chains.get i).enforcedEpoch } := by
  induction l generalizing c with
  | nil => refine ⟨rfl, rfl, rfl, rfl, rfl, rfl, rfl, fun i => ?_⟩; simp [applySets, Eff.pure]
  | cons r l ih =>
    obtain ⟨j, e⟩ := r
    by_cases h : e = c.epoch
    · subst h
      have hr := recompute_frame now (c.setChain j fun x => { x with enforcedEpoch := some c.epoch })
      have := ih (applySet now j c.epoch c).val
      simp only [applySets, Eff.andThen_val, if_true]
      simp only [applySet] at this ⊢
      obtain ⟨h1, h2, h3, h4, h5, h6, h7, h8⟩ := hr
      obtain ⟨k1, k2, k3, k4, k5, k6, k7, k8⟩ := this
      refine ⟨k1.trans h1, k2.trans h2, k3.trans h3, k4.trans h4, k5.trans h5, k6.trans h6, k7.trans h7, fun i => ?_⟩
      rw [k8 i, h8 i]
      simp only [h1]
      by_cases hi : i = j
      · subst hi; simp [Clu.setChain, PerChain.get_set]
      · simp [Clu.setChain, PerChain.get_set, hi]
    · have := ih c
      simp only [applySets, Eff.andThen_val, h, if_false, Eff.pure_val]
      obtain ⟨k1, k2, k3, k4, k5, k6, k7, k8⟩ := this
      refine ⟨k1, k2, k3, k4, k5, k6, k7, fun i => ?_⟩
      rw [k8 i]
      have hx : ∀ i, ((i, c.epoch) ∈ (j, e) :: l) ↔ (i, c.epoch) ∈ l := by
        intro i; simp [Ne.symm h]
      simp [hx]

/-- Held set requests that name another epoch change nothing. -/
theorem applySets_none (now) (l : List (Chain × EpochIndex)) (c : Clu) (h : ∀ r ∈ l, r.2 ≠ c.epoch) :
    applySets now l c = Eff.pure c := by
  induction l with
  | nil => rfl
  | cons r l ih =>
    have := ih fun r hr => h r (.tail _ hr)
    simp [applySets, h r (.head _), this, Eff.andThen, Eff.pure]

/-- A recompute leaves the table its inputs make. -/
theorem ceilingInv_recompute (now) (c : Clu) : CeilingInv (recompute now c).val := by
  obtain ⟨g, h⟩ := recompute_val now c
  rw [h]
  intro i
  rw [tableEntry_withTable]
  simp [withTable]

/-- What the table does not read may change. -/
theorem ceilingInv_of_same {c c' : Clu} (h : CeilingInv c)
    (he : ∀ i, (c'.chains.get i).entry = (c.chains.get i).entry) (ht : ∀ i, tableEntry c' i = tableEntry c i) : CeilingInv c' := by
  intro i; rw [he, ht]; exact h i

/-- The table at reset. -/
theorem ceilingInv_reset : CeilingInv Clu.reset := by intro i; cases i <;> decide +kernel

/-- The activity mark does not enter into the table. -/
theorem ceilingInv_activity (c : Clu) (h : CeilingInv c) (i) (b) :
    CeilingInv (c.setChain i fun x => { x with activitySinceClose := b }) := by
  refine ceilingInv_of_same h (fun j => ?_) (fun j => ?_)
  · simp only [Clu.setChain, PerChain.get_set]; split <;> simp_all
  · cases i <;> cases j <;> rfl

/-- The epoch and the held requests do not enter into the table. -/
theorem ceilingInv_beginEpoch (c : Clu) (h : CeilingInv c) (e) (hs) :
    CeilingInv { beginEpoch e c with heldSets := hs } := by
  refine ceilingInv_of_same h (fun j => ?_) (fun j => ?_)
  · simp [beginEpoch, Clu.mapChains]
  · cases j <;> rfl

/-- Held requests that are applied keep the table. -/
theorem ceilingInv_applySets (now) (l) (c : Clu) (h : CeilingInv c) : CeilingInv (applySets now l c).val := by
  induction l generalizing c with
  | nil => exact h
  | cons a l ih =>
    simp only [applySets, Eff.andThen_val]
    apply ih
    split
    · exact ceilingInv_recompute _ _
    · exact h

/-- Either branch keeps the table. -/
theorem ceilingInv_ite (p : Prop) [Decidable p] (a b : Eff Clu) (ha : CeilingInv a.val) (hb : CeilingInv b.val) :
    CeilingInv (if p then a else b).val := by
  split
  · exact ha
  · exact hb

end Sys2Proof.Machine
end

