-- ==== Sys2Proof/Laws/Events.lean ====
section
/-! SUPPORT. What the event router keeps (R163 to R168). -/

namespace Sys2Proof.Machine

/-- The EVR at reset. -/
theorem eventInv_reset : EventInv Evr.reset := by intro p; cases p <;> decide +kernel

/-- A pending set replaced. -/
theorem eventInv_setPending {e : Evr} (h : EventInv e) (p : Port) (ps : PendingSet) : EventInv (e.setPending p ps)
    := by
  intro q
  rw [(Evr.setPending_at e p q ps).1, (Evr.setPending_at e p q ps).2]
  split
  · rfl
  · exact h q

/-- A raise taken. -/
theorem eventInv_takeRaise {e : Evr} (h : EventInv e) (o) (r) : EventInv (e.takeRaise o r) := by
  intro q
  rw [(Evr.takeRaise_at o r e q).1, (Evr.takeRaise_at o r e q).2]
  simp only [Evr.receive]
  split
  · exact h q
  · exact eventInv_setPending h _ _ q

/-- The end of a frame. -/
theorem eventInv_concludeFrame (p strap j) (s : State) (h : EventInv s.evr) :
    EventInv (concludeFrame p strap j s).evr := by
  rcases concludeFrame_cases p strap j s with ⟨r, _, hc⟩ | ⟨a, b, hc⟩ <;> rw [hc]
  · cases r <;> simp only [deliver, takeReadCeilings, takeReadStatus, takeReadHistory, takeReadThermal, takeReadEvents,
      takeAckEvents, takeSelectScenario, takeSetCap, takeSetOwner, takeSetRoute, takeLoadProfile, takeFlashXfer,
      startTransfer, setOwner] <;> (repeat' split) <;>
      first
      | (simpa [State.deviceReset, State.reset] using h; done)
      | (simpa using eventInv_setPending h _ _; done)
      | exact eventInv_reset
      | exact h
  · exact h

/-- A request frame. -/
theorem eventInv_requestFrame (p r strap) (s : State) (h : EventInv s.evr) : EventInv (requestFrame p r strap s).evr := by
  rcases requestFrame_cases p r strap s with ⟨e, -⟩ | ⟨e, -⟩ | ⟨e, -⟩ <;> rw [e]
  · exact h
  · exact h
  · exact eventInv_concludeFrame _ _ _ _ h

/-- A rising select edge. -/
theorem eventInv_selectRise (p bytes part strap) (s : State) (h : EventInv s.evr) :
    EventInv (selectRise p bytes part strap s).evr := by
  simp only [selectRise, endFrame]
  (repeat' split) <;> first | exact h | exact eventInv_concludeFrame _ _ _ _ h

end Sys2Proof.Machine
end

