-- ==== Sys2Proof/Laws/Operands.lean ====
section
/-! SUPPORT. What the wire forms satisfy: lengths, and requests read back from their bytes (R153 to R156). -/

namespace Sys2Proof.Machine

/-- Two bytes read back. -/
theorem u16_le (a : Nat) (h : a < 65536) (pre post : List Byte) :
    u16 (pre ++ le 2 a ++ post) pre.length = a := by
  simp [u16, u8, byteAt, le, List.getD_eq_getElem?_getD, List.getElem?_append]
  omega

/-- Three bytes read back. -/
theorem u24_le (a : Nat) (h : a < 16777216) (pre post : List Byte) :
    u24 (pre ++ le 3 a ++ post) pre.length = a := by
  simp [u24, u8, byteAt, le, List.getD_eq_getElem?_getD, List.getElem?_append]
  omega

/-- A payload reads back as the request it carries. -/
theorem parsePayload_payloadBytes (r : Request) : parsePayload r.kind (payloadBytes r) = r := by
  cases r with
  | announce chain kind code d =>
    have := u16_le d.toNat d.isLt [chain, kind, code] []
    simp only [List.append_nil, List.length_cons, List.length_nil] at this
    simp [Request.kind, parsePayload, payloadBytes, byteAt] 
    simp at this; simp [this]
  | readHistory g o c =>
    have := u16_le o.toNat o.isLt [g] [c]
    simp [Request.kind, parsePayload, payloadBytes, byteAt, le] at this ⊢
    simp [this]
  | ackEvents c =>
    have := u16_le c.toNat c.isLt [] []
    simp [Request.kind, parsePayload, payloadBytes, byteAt, le] at this ⊢
    simp [this]
  | flashXfer x =>
    have := u24_le x.address.toNat x.address.isLt [x.command, x.addressMode] ([x.dummy, x.direction, x.count] ++ x.data)
    simp [Request.kind, parsePayload, payloadBytes, byteAt, le] at this ⊢
    simp [this]
  | _ => simp [Request.kind, parsePayload, payloadBytes, byteAt]

/-- A payload of the right length has at most 32 bytes. -/
theorem payloadBytes_length_le (r : Request) (h : requestLengthOk r = true) : (payloadBytes r).length ≤ 32 := by
  cases r <;> simp [payloadBytes, le, requestLengthOk, xferLengthOk] at h ⊢
  rename_i x
  have := h.1
  simp only [Config.longestTransfer] at this
  have h2 := h.2
  split at h2 <;> omega

/-- A kind reads back from its byte. -/
theorem kindOfByte_value (k : Kind) : kindOfByte k.value = some k := by cases k <;> decide

/-- A payload passes the length check, whatever bytes follow it. -/
theorem lengthOk_payloadBytes (r : Request) (h : requestLengthOk r = true) (extra : List Byte) :
    lengthOk r.kind (payloadBytes r).length (payloadBytes r ++ extra) = true := by
  cases r <;> simp [Request.kind, lengthOk, Kind.fixedLength, payloadBytes, le, byteAt, requestLengthOk] at h ⊢
  rename_i x
  have : x.data.length + 8 = 8 + x.data.length := by omega
  simpa [this] using h

/-- A number in n bytes has n bytes. -/
theorem le_length (n v) : (le n v).length = n := by
  induction n generalizing v with
  | zero => rfl
  | succ n ih => simp [le, ih]

/-- A ceiling has two bytes. -/
theorem ceilingBytes_length (c) : (ceilingBytes c).length = 2 := by cases c <;> rfl

/-- A cap has two bytes. -/
theorem capBytes_length (c) : (capBytes c).length = 2 := by cases c <;> rfl

/-- A temperature has two bytes. -/
theorem optionTemp_length (c) : (optionTemp c).length = 2 := by cases c <;> simp [optionTemp, leSigned16, le_length]

/-- The ceiling report has 22 bytes. -/
theorem ceilingReport_length (s : State) : (ceilingReport s).length = 22 := by
  simp [ceilingReport, entryBytes, ceilingBytes_length]

/-- A status page fits a response. -/
theorem statusPage_length_le (s : State) (page) (b) (h : statusPage s page = some b) : b.length ≤ 60 := by
  simp only [statusPage] at h
  split at h <;> simp at h <;> subst h
  · simp [devicePage, le_length, capBytes_length, PerChain.toList]
  · simp [groupPage, le_length]
  · simp [groupPage, le_length]
  · simp [chainsPage, chainCounters, le_length]
  · simp [portsPage, le_length]

/-- A history response fits. -/
theorem historyPayload_length_le (g : Byte) (ring) (o n : Nat) :
    (historyPayload g ring (historyRecords ring o n)).length ≤ 60 := by
  have hr : ∀ l : List EpochRecord, (l.flatMap recordBytes).length = 11 * l.length := by
    intro l
    induction l with
    | nil => rfl
    | cons a l ih => simp only [List.flatMap_cons, List.length_append, ih, List.length_cons]; simp [recordBytes, le_length]; omega
  have h3 : (historyRecords ring o n).length ≤ 3 := by
    simp only [historyRecords, List.length_take, Config.historyReadLimit]; omega
  simp only [historyPayload, List.length_append, hr, le_length, List.length_singleton]; omega

/-- A thermal response fits. -/
theorem thermalPayload_length_le (s : State) : (thermalPayload s).length ≤ 60 := by
  simp [thermalPayload, Sensor.all, Zone.all, sensorBytes, zoneBytes, optionTemp_length, le_length, PerChain.toList]

/-- Two bytes for each class. -/
theorem flatMap_length_two (f : EventClass → List Byte) (h : ∀ k, (f k).length = 2) (l : List EventClass) :
    (l.flatMap f).length = 2 * l.length := by
  induction l with
  | nil => rfl
  | cons a l ih => rw [List.flatMap_cons, List.length_append, ih, h]; simp; omega

/-- An events response fits. -/
theorem eventPayload_length_le (ps : PendingSet) : ps.payload.length ≤ 60 := by
  rw [PendingSet.payload, List.length_append, flatMap_length_two, le_length]
  · decide
  · intro k; split <;> rfl

/-- A result record has seven bytes. -/
theorem resultBytes_length (r) : (resultBytes r).length = 7 := rfl

/-- A byte of a little-endian number. -/
theorem le_getElem? (w v j : Nat) (h : j < w) : (le w v)[j]? = some (BitVec.ofNat 8 (v / 256 ^ j)) := by
  induction w generalizing v j with
  | zero => omega
  | succ w ih =>
    cases j with
    | zero => simp [le]
    | succ j => simp only [le, List.getElem?_cons_succ, ih _ _ (Nat.lt_of_succ_lt_succ h), Nat.div_div_eq_div_mul, Nat.pow_succ']

/-- Bit j of a byte of flags is the jth flag. -/
theorem bitsByte_testBit (bs : List Bool) (j : Nat) : (bitsByte bs).testBit j = bs.getD j false := by
  induction bs generalizing j with
  | nil => simp [bitsByte]
  | cons b bs ih =>
    cases j with
    | zero => cases b <;> simp [bitsByte, Nat.testBit_zero]
    | succ j =>
      have : bitsByte (b :: bs) / 2 = bitsByte bs := by simp only [bitsByte]; split <;> omega
      rw [Nat.testBit_succ, this, ih]; simp

/-- Bit j of a flag byte is the jth flag. -/
theorem flagByte_getLsbD (bs : List Bool) (j : Nat) (h : j < 8) : (flagByte bs).getLsbD j = bs.getD j false := by
  rw [flagByte, BitVec.getLsbD_ofNat, bitsByte_testBit]; simp [h]

/-! ### Fields read from bytes (section 0.5.5) -/

/-- A byte within a list is the one read there. -/
theorem getElem?_eq_some_iff_byteAt {b : List Byte} {n : Nat} {x : Byte} (h : n < b.length) :
    b[n]? = some x ↔ byteAt b n = x := by
  simp [byteAt, List.getD_eq_getElem?_getD, h]

/-- A byte of a list that reads as a value other than nothing. -/
theorem byteAt_eq {b : List Byte} {n : Nat} {x : Byte} (h : b[n]? = some x) : byteAt b n = x := by
  simp [byteAt, List.getD_eq_getElem?_getD, h]

theorem u8_lt (b : List Byte) (n : Nat) : u8 b n < 256 := (byteAt b n).isLt

theorem u16_lt (b : List Byte) (n : Nat) : u16 b n < 65536 := by
  have := u8_lt b n; have := u8_lt b (n + 1); simp only [u16]; omega

theorem u24_lt (b : List Byte) (n : Nat) : u24 b n < 16777216 := by
  have := u8_lt b n; have := u8_lt b (n + 1); have := u8_lt b (n + 2); simp only [u24]; omega

/-- The byte of a number, read back. -/
theorem getElem?_ofNat_iff {b : List Byte} {n : Nat} (h : n < b.length) (m : Nat) :
    b[n]? = some (BitVec.ofNat 8 m) ↔ u8 b n = m % 256 := by
  rw [getElem?_eq_some_iff_byteAt h, u8]
  exact ⟨fun e => by rw [e, BitVec.toNat_ofNat], fun e => BitVec.eq_of_toNat_eq (by rw [e, BitVec.toNat_ofNat])⟩

/-- A field of one byte holds the number read there. -/
theorem fieldAt_one {b : List Byte} {n v : Nat} (h : n < b.length) (hv : v < 256) : FieldAt b n 1 v ↔ u8 b n = v := by
  have e := getElem?_ofNat_iff h v
  rw [Nat.mod_eq_of_lt hv] at e
  rw [← e]
  refine ⟨fun f => by simpa using f 0 (by omega), fun f j hj => ?_⟩
  obtain rfl : j = 0 := by omega
  simpa using f

/-- A field of two bytes holds the number read there. -/
theorem fieldAt_two {b : List Byte} {n v : Nat} (h : n + 1 < b.length) (hv : v < 65536) :
    FieldAt b n 2 v ↔ u16 b n = v := by
  have e0 := getElem?_ofNat_iff (b := b) (n := n) (by omega) v
  have e1 := getElem?_ofNat_iff h (v / 256)
  have := u8_lt b n
  refine ⟨fun f => ?_, fun f j hj => ?_⟩
  · have f0 := e0.1 (by simpa using f 0 (by omega)); have f1 := e1.1 (by simpa using f 1 (by omega))
    simp only [u16]; omega
  · simp only [u16] at f
    obtain rfl | rfl : j = 0 ∨ j = 1 := by omega
    · simpa using e0.2 (by omega)
    · simpa using e1.2 (by omega)

/-- A field of three bytes holds the number read there. -/
theorem fieldAt_three {b : List Byte} {n v : Nat} (h : n + 2 < b.length) (hv : v < 16777216) :
    FieldAt b n 3 v ↔ u24 b n = v := by
  have e0 := getElem?_ofNat_iff (b := b) (n := n) (by omega) v
  have e1 := getElem?_ofNat_iff (b := b) (n := n + 1) (by omega) (v / 256)
  have e2 := getElem?_ofNat_iff h (v / 65536)
  have := u8_lt b n; have := u8_lt b (n + 1)
  refine ⟨fun f => ?_, fun f j hj => ?_⟩
  · have f0 := e0.1 (by simpa using f 0 (by omega)); have f1 := e1.1 (by simpa using f 1 (by omega))
    have f2 := e2.1 (by simpa using f 2 (by omega))
    simp only [u24]; omega
  · simp only [u24] at f
    obtain rfl | rfl | rfl : j = 0 ∨ j = 1 ∨ j = 2 := by omega
    · simpa using e0.2 (by omega)
    · simpa using e1.2 (by omega)
    · simpa using e2.2 (by omega)

/-- A signed field holds the number read there. -/
theorem signedAt_iff {b : List Byte} {n : Nat} {v : Int} (h : n + 1 < b.length) (hl : -32768 ≤ v) (hh : v < 32768) :
    SignedAt b n v ↔ s16 b n = v := by
  have hu := u16_lt b n
  rw [SignedAt, fieldAt_two h (by omega), s16]
  simp only [BitVec.toInt_eq_toNat_bmod, BitVec.toNat_ofNat, Nat.reducePow, Nat.mod_eq_of_lt hu, Int.bmod]
  split <;> omega

theorem s16_bounds (b : List Byte) (n : Nat) : -32768 ≤ s16 b n ∧ s16 b n < 32768 := by
  have := @BitVec.le_toInt 16 (BitVec.ofNat 16 (u16 b n)); have := @BitVec.toInt_lt 16 (BitVec.ofNat 16 (u16 b n))
  simp only [s16]; omega

end Sys2Proof.Machine
end

