-- ==== Sys2Proof/Laws/Overload.lean ====
section
/-! SUPPORT. What the overload unit keeps (R122 to R129). -/

namespace Sys2Proof.Machine

/-- The chronic condition (R123). -/
theorem isChronic_iff (t o) : isChronic t o = true ↔ o.history.length = 8 ∧ ∃ x rest, o.history = x :: rest ∧
    elapsed x t ≤ o.params.chronicS * 1000000 := by
  simp only [isChronic]
  cases h : o.history with
  | nil => simp
  | cons x rest => simp [Config.historyCapacity]

/-- The history holds at most 8 stamps. -/
theorem pushStamp_length_le (h : List Stamp) (t : Stamp) : (pushStamp h t).length ≤ 8 := by
  simp only [pushStamp, Config.historyCapacity, List.length_drop, List.length_append, List.length_singleton]; omega

/-- A rise keeps the timers legal. -/
theorem overloadInv_rise (t : Stamp) (o : Ovu) (h : OverloadInv o) (hd : o.droopHeld = true) :
    OverloadInv (rise t o).val := by
  obtain ⟨run, level, held, hold, restrike, release, lock, hist, chronic, params, early⟩ := o
  cases level with
  | lock => exact h
  | level n =>
    simp only [OverloadInv, OverloadLevel.wf, within] at h hd
    simp only [rise]
    split <;> simp [OverloadInv, OverloadLevel.wf, within, raiseLevel, enterLock, levelChanged, hd] at h ⊢ <;> grind

/-- A rising edge keeps the timers legal. -/
theorem overloadInv_risingEdge (t : Stamp) (o : Ovu) (h : OverloadInv o) : OverloadInv (risingEdge t o).val := by
  obtain ⟨run, level, held, hold, restrike, release, lock, hist, chronic, params, early⟩ := o
  have hp := pushStamp_length_le hist t
  cases level with
  | lock => simp [OverloadInv, OverloadLevel.wf, within, risingEdge, rise, evaluateChronic, Eff.pure] at h ⊢; simp only [Config.historyCapacity] at *; grind
  | level n =>
    simp only [OverloadInv, OverloadLevel.wf, within] at h
    simp only [risingEdge, evaluateChronic, rise]
    split <;> simp [OverloadInv, OverloadLevel.wf, within, raiseLevel, enterLock, levelChanged, Config.historyCapacity] at h ⊢ <;> grind

/-- A falling edge keeps the timers legal. -/
theorem overloadInv_fallingEdge (t : Stamp) (o : Ovu) (h : OverloadInv o) : OverloadInv (fallingEdge t o) := by
  obtain ⟨h1, h2, h3, h4, h5, h6, h7, h8⟩ := h
  refine ⟨h1, h2, h3, fun hl => ?_, fun hl => ?_, by simp [fallingEdge, evaluateChronic],
      by simp [fallingEdge, evaluateChronic], h8⟩
  · have hl : o.level = .lock := hl
    have := h4 hl
    simp [fallingEdge, evaluateChronic, holdAfterFall, hl, this]
  · have hl : o.level = .level 0 := hl
    have := h5 hl
    simp [fallingEdge, evaluateChronic, holdAfterFall, hl, this]

/-- An edge at its stamp keeps the timers legal. -/
theorem overloadInv_droopEdge (e : LineEdge) (o : Ovu) (h : OverloadInv o) : OverloadInv (droopEdge e o).val := by
  simp only [droopEdge]
  split
  · exact overloadInv_risingEdge _ _ h
  · exact overloadInv_fallingEdge _ _ h

/-- Edges one after another keep the timers legal. -/
theorem overloadInv_droopEdges (es : List LineEdge) (o : Ovu) (h : OverloadInv o) :
    OverloadInv (droopEdges es o).val := by
  induction es generalizing o with
  | nil => exact h
  | cons e es ih => exact ih _ (overloadInv_droopEdge e o h)

/-- The entry to RUN keeps the timers legal. -/
theorem overloadInv_takeOvuEntry (entry line) (o : Ovu) (h : OverloadInv o) :
    OverloadInv (takeOvuEntry entry line o).val := by
  simp only [takeOvuEntry]
  split
  · exact h
  · have h1 : OverloadInv { o with inRun := true, early := [] } := by
      obtain ⟨h1, h2, h3, h4, h5, h6, h7, -⟩ := h
      exact ⟨h1, h2, h3, h4, h5, h6, h7, fun _ => rfl⟩
    refine overloadInv_droopEdges _ _ ?_
    simp only [edgeAtEntry]
    split
    · exact overloadInv_risingEdge _ _ h1
    · exact h1

/-- An edge of the line keeps the timers legal, taken, waiting or not watched. -/
theorem overloadInv_ovuEdge (loading e) (o : Ovu) (h : OverloadInv o) : OverloadInv (ovuEdge loading e o).val := by
  simp only [ovuEdge]
  split
  · exact overloadInv_droopEdge _ _ h
  · rename_i hr
    split
    · exact h
    · obtain ⟨h1, h2, h3, h4, h5, h6, h7, -⟩ := h
      exact ⟨h1, h2, h3, h4, h5, h6, h7, fun hn => absurd hn hr⟩

/-- A step attempt keeps the timers legal. -/
theorem overloadInv_stepAttempt (t : Stamp) (o : Ovu) (h : OverloadInv o) (hd : o.droopHeld = false) :
    OverloadInv (stepAttempt t o).val := by
  obtain ⟨run, level, held, hold, restrike, release, lock, hist, chronic, params, early⟩ := o
  cases level with
  | lock => exact h
  | level n =>
    cases n with
    | zero => exact h
    | succ n =>
      simp only [OverloadInv, OverloadLevel.wf, within] at h hd
      simp only [stepAttempt, stepDown, evaluateChronic, lowerLevel]
      (repeat' split) <;> simp [OverloadInv, OverloadLevel.wf, within, restartRelease, settleAtZero, levelChanged, Eff.pure, hd, Config.historyCapacity] at h ⊢ <;> grind

/-- A timer that is due runs to that deadline. -/
theorem running_of_dueTimer {now : Stamp} {tm : Option Stamp} {d : Stamp} (h : dueTimer now tm = some d) : tm =
    some d := by
  cases tm with
  | none => cases h
  | some x => simp only [dueTimer] at h; split at h <;> simp_all

/-- An expiry keeps the timers legal when its effect does. -/
theorem overloadInv_onExpiry (now : Stamp) (tm : Option Stamp) (f) (o : Ovu) (h : OverloadInv o)
    (hf : ∀ d, tm = some d → OverloadInv (f d o).val) : OverloadInv (onExpiry now tm f o).val := by
  simp only [onExpiry]
  cases hd : dueTimer now tm with
  | none => exact h
  | some d => exact hf d (running_of_dueTimer hd)

/-- An expiry of the hold timer keeps the timers legal. -/
theorem overloadInv_holdExpired (o : Ovu) (h : OverloadInv o) (d) (hh : o.hold = some d) :
    OverloadInv (holdExpired d o).val := by
  have hx := h
  obtain ⟨h1, h2, h3, h4, h5, h6, h7, h8⟩ := h
  have hn : OverloadInv { o with hold := none } :=
    ⟨h1, h2, h3, fun hl => ⟨rfl, (h4 hl).2⟩, fun hl => ⟨rfl, (h5 hl).2⟩, h6, h7, h8⟩
  simp only [holdExpired, holdExpired.holdAttempt]
  split
  · exact hn
  · split
    · exact hn
    · exact overloadInv_stepAttempt _ _ hn (by simpa using ‹¬ o.droopHeld = true›)

/-- The OVU at reset. -/
theorem overloadInv_reset : OverloadInv Ovu.reset := by simp only [OverloadInv]; decide +kernel

/-- A level that is not below m. -/
def NotBelow (m : Nat) (l : OverloadLevel) : Prop := ∀ n, l = .level n → m ≤ n

/-- A rise does not lower the level. -/
theorem notBelow_rise (t : Stamp) (o : Ovu) (m) (h : NotBelow m o.level) : NotBelow m (rise t o).val.level := by
  intro n
  simp only [rise]
  cases hl : o.level with
  | lock => intro h'; simp [Eff.pure, hl] at h'
  | level k =>
    have := h k hl
    dsimp only
    split
    · simp [raiseLevel, levelChanged]; omega
    · simp [enterLock, levelChanged]

/-- An edge does not lower the level. -/
theorem notBelow_droopEdge (e : LineEdge) (o : Ovu) (m) (h : NotBelow m o.level) :
    NotBelow m (droopEdge e o).val.level := by
  simp only [droopEdge]
  split
  · exact notBelow_rise _ _ m h
  · exact h

/-- Edges one after another do not lower the level. -/
theorem notBelow_droopEdges (es : List LineEdge) (o : Ovu) (m) (h : NotBelow m o.level) :
    NotBelow m (droopEdges es o).val.level := by
  induction es generalizing o with
  | nil => exact h
  | cons e es ih => exact ih _ (notBelow_droopEdge e o m h)

/-- The entry to RUN does not lower the level. -/
theorem notBelow_takeOvuEntry (entry line) (o : Ovu) (m) (h : NotBelow m o.level) :
    NotBelow m (takeOvuEntry entry line o).val.level := by
  simp only [takeOvuEntry]
  split
  · exact h
  · refine notBelow_droopEdges _ _ m ?_
    simp only [edgeAtEntry]
    split
    · exact notBelow_rise _ _ m h
    · exact h

/-- A step attempt lowers the level by one. -/
theorem stepAttempt_lowers (t : Stamp) (o : Ovu) (m n : Nat) (h : o.level = .level m)
    (hn : (stepAttempt t o).val.level = .level n) (hlt : n < m) :
    n + 1 = m ∧ (n = 0 → (stepAttempt t o).val.chronic = false) := by
  revert hn
  simp only [stepAttempt, stepDown, evaluateChronic, h]
  cases m with
  | zero => omega
  | succ m =>
    dsimp only
    split
    · simp [Eff.pure, restartRelease, h]; omega
    · rename_i hc
      simp only [lowerLevel]
      split
      · simp [levelChanged, settleAtZero]
        rintro rfl
        simpa [*] using hc
      · simp [levelChanged, restartRelease]; omega

end Sys2Proof.Machine
end

