-- ==== Sys2Proof/Laws/Profile.lean ====
section
/-! SUPPORT. What reading an image gives: each section is the bytes that hold it (section 9.10), accepted exactly
    when it
passes
the checks of R171; and what a flash transfer shifts out. -/

namespace Sys2Proof.Machine

/-- A checked value is there exactly when its check holds. -/
theorem checked_eq_some {α} {b : Bool} {a x : α} : checked b a = some x ↔ b = true ∧ a = x := by
  cases b <;> simp [checked]

/-- A number lies in its range. -/
theorem inRange_iff {lo hi v : Nat} : inRange lo hi v = true ↔ lo ≤ v ∧ v ≤ hi := by simp [inRange]
/-- A number lies in its range. -/
theorem within_iff {lo hi v : Nat} : within lo hi v = true ↔ lo ≤ v ∧ v ≤ hi := by simp [within]
/-- A signed number lies in its range. -/
theorem inRangeInt_iff {lo hi v : Int} : inRangeInt lo hi v = true ↔ lo ≤ v ∧ v ≤ hi := by simp [inRangeInt]
/-- A signed number lies in its range. -/
theorem withinInt_iff {lo hi v : Int} : withinInt lo hi v = true ↔ lo ≤ v ∧ v ≤ hi := by simp [withinInt]

/-- The two orders of thresholds are one. -/
theorem strictlyRising_eq_increasing : ∀ l, strictlyRising l = increasing l
  | [] => rfl
  | [_] => rfl
  | x :: y :: r => by simp [strictlyRising, increasing, strictlyRising_eq_increasing (y :: r)]

/-- The two orders of backoffs are one. -/
theorem neverFalling_eq_nonDecreasing : ∀ l, neverFalling l = nonDecreasing l
  | [] => rfl
  | [_] => rfl
  | x :: y :: r => by simp [neverFalling, nonDecreasing, neverFalling_eq_nonDecreasing (y :: r)]

/-! ### One value for each -/

/-- What holds of every chain holds of each. -/
theorem forall_chain {P : Chain → Prop} : (∀ i, P i) ↔ P .tx0 ∧ P .tx1 ∧ P .tx2 ∧ P .tx3 :=
  ⟨fun h => ⟨h _, h _, h _, h _⟩, fun h i => by cases i <;> simp [h]⟩
/-- What holds of every group holds of each. -/
theorem forall_group {P : Group → Prop} : (∀ g, P g) ↔ P .g0 ∧ P .g1 :=
  ⟨fun h => ⟨h _, h _⟩, fun h g => by cases g <;> simp [h]⟩
/-- What holds of every zone holds of each. -/
theorem forall_zone {P : Zone → Prop} : (∀ z, P z) ↔ P .z0 ∧ P .z1 ∧ P .z2 :=
  ⟨fun h => ⟨h _, h _, h _⟩, fun h z => by cases z <;> simp [h]⟩
/-- What holds of every sensor holds of each. -/
theorem forall_sensor {P : Sensor → Prop} : (∀ n, P n) ↔ P .s0 ∧ P .s1 ∧ P .s2 ∧ P .s3 :=
  ⟨fun h => ⟨h _, h _, h _, h _⟩, fun h n => by cases n <;> simp [h]⟩

/-- There is a value for every chain exactly when there is one for each. -/
theorem allChains_eq_some {α} {f : Chain → Option α} {v} : allChains f = some v ↔ ∀ i, f i = some (v.get i) := by
  rw [forall_chain]; obtain ⟨a, b, c, d⟩ := v
  simp only [allChains, PerChain.get]
  split
  · simp_all
  · rename_i h; simp only [reduceCtorEq, false_iff]; rintro ⟨h0, h1, h2, h3⟩; exact h _ _ _ _ h0 h1 h2 h3

/-- There is a value for every group exactly when there is one for each. -/
theorem allGroups_eq_some {α} {f : Group → Option α} {v} : allGroups f = some v ↔ ∀ g, f g = some (v.get g) := by
  rw [forall_group]; obtain ⟨a, b⟩ := v
  simp only [allGroups, PerGroup.get]
  split
  · simp_all
  · rename_i h; simp only [reduceCtorEq, false_iff]; rintro ⟨h0, h1⟩; exact h _ _ h0 h1

/-- There is a value for every zone exactly when there is one for each. -/
theorem allZones_eq_some {α} {f : Zone → Option α} {v} : allZones f = some v ↔ ∀ z, f z = some (v.get z) := by
  rw [forall_zone]; obtain ⟨a, b, c⟩ := v
  simp only [allZones, PerZone.get]
  split
  · simp_all
  · rename_i h; simp only [reduceCtorEq, false_iff]; rintro ⟨h0, h1, h2⟩; exact h _ _ _ h0 h1 h2

/-- There is a value for every sensor exactly when there is one for each. -/
theorem allSensors_eq_some {α} {f : Sensor → Option α} {v} : allSensors f = some v ↔ ∀ n, f n = some (v.get n) := by
  rw [forall_sensor]; obtain ⟨a, b, c, d⟩ := v
  simp only [allSensors, PerSensor.get]
  split
  · simp_all
  · rename_i h; simp only [reduceCtorEq, false_iff]; rintro ⟨h0, h1, h2, h3⟩; exact h _ _ _ _ h0 h1 h2 h3

/-- There is a list of values exactly when there is one at each place. -/
theorem allSome_eq_some {α} : ∀ {l : List (Option α)} {v}, allSome l = some v ↔ l = v.map some
  | [], v => by cases v <;> simp [allSome]
  | none :: _, v => by cases v <;> simp [allSome]
  | some a :: r, v => by
    cases v with
    | nil => simp [allSome]
    | cons x v =>
      simp only [allSome, Option.map_eq_some_iff, allSome_eq_some, List.map_cons, List.cons.injEq, Option.some.injEq]
      exact ⟨fun ⟨_, e, h, hv⟩ => ⟨h, hv ▸ e⟩, fun ⟨h, e⟩ => ⟨_, e, h, rfl⟩⟩

/-- A value at each of n places. -/
theorem allSome_range_eq_some {α} {n : Nat} {f : Nat → Option α} {v : List α} :
    allSome ((List.range n).map f) = some v ↔ v.length = n ∧ ∀ j x, v[j]? = some x → f j = some x := by
  rw [allSome_eq_some]
  constructor
  · intro h
    have hl : n = v.length := by simpa using congrArg List.length h
    refine ⟨hl.symm, fun j x hx => ?_⟩
    have hj : j < n := by rw [hl]; exact (List.getElem?_eq_some_iff.1 hx).1
    have := congrArg (·[j]?) h
    simpa [hj, hx] using this
  · rintro ⟨hl, h⟩
    refine List.ext_getElem (by simp [hl]) fun j h1 h2 => ?_
    have hj : j < v.length := by simpa using h2
    simpa using h j v[j] (by simp [hj])

/-! ### Values of one byte -/

/-- The byte of a group. -/
theorem groupOfByte_eq_some {b : Byte} {g : Group} : groupOfByte b = some g ↔ b.toNat = groupIndex g := by
  simp only [groupOfByte]; split <;> cases g <;> simp_all [groupIndex]

/-- The byte of an owner. -/
theorem ownerOfByte_eq_some {b : Byte} {o : Owner} :
    ownerOfByte b = some o ↔ b.toNat = ownerCode o := by
  simp only [ownerOfByte]; split <;> cases o <;> simp_all [ownerCode]

/-- The byte of a zone. -/
theorem zoneOfByte_eq_some {b : Byte} {z : Zone} : zoneOfByte b = some z ↔ b.toNat = zoneIndex z := by
  simp only [zoneOfByte]; split <;> cases z <;> simp_all [zoneIndex]

/-- The byte of the precharge. -/
theorem prechargeOfByte_eq_some {b : Byte} {p : Precharge} :
    prechargeOfByte b = some p ↔ b.toNat = prechargeCode p := by
  simp only [prechargeOfByte]; split <;> cases p <;> simp_all [prechargeCode]

/-- The bytes of a default cap. -/
theorem parseDefaultCap_eq_some {f c : Byte} {x : Option Code} :
    parseDefaultCap f c = some x ↔ (match x with | some y => f.toNat = 0 ∧ c = y | none => f.toNat = 2) := by
  simp only [parseDefaultCap]; split <;> cases x <;> simp_all

/-! ### Sections (section 9.10, R117, R132, R135, R171) -/

theorem chainIndex_lt (i : Chain) : chainIndex i < 4 := by cases i <;> decide
theorem groupIndex_lt (g : Group) : groupIndex g < 2 := by cases g <;> decide
theorem zoneIndex_lt (z : Zone) : zoneIndex z < 3 := by cases z <;> decide
theorem sensorIndex_lt (n : Sensor) : sensorIndex n < 4 := by cases n <;> decide

/-- The limits of one chain are the four bytes that hold them. -/
theorem parseChainLimits_iff {b : List Byte} (h : b.length = 34) {i : Chain} {c : ChainLimits} :
    parseChainLimits b i = some c ↔
      (b[4 * chainIndex i]? = some c.cmax ∧ FieldAt b (1 + 4 * chainIndex i) 1 (groupIndex c.group) ∧
        FieldAt b (2 + 4 * chainIndex i) 1 c.k ∧
        FieldAt b (3 + 4 * chainIndex i) 1 (ownerCode c.owner)) ∧
      within 0 32 c.k = true := by
  have hi := chainIndex_lt i
  have hg := groupIndex_lt c.group
  have ho : ownerCode c.owner < 256 := by cases c.owner <;> decide
  have e : parseChainLimits b i = some c ↔ (u8 b (1 + 4 * chainIndex i) = groupIndex c.group ∧
      u8 b (3 + 4 * chainIndex i) = ownerCode c.owner ∧ u8 b (2 + 4 * chainIndex i) ≤ 32 ∧
      byteAt b (4 * chainIndex i) = c.cmax ∧ u8 b (2 + 4 * chainIndex i) = c.k) := by
    rw [u8, ← groupOfByte_eq_some, u8, ← ownerOfByte_eq_some]
    obtain ⟨_, _, _, _⟩ := c
    simp only [parseChainLimits]
    split
    · simp_all [checked_eq_some, inRange]
      grind
    · grind
  rw [e, getElem?_eq_some_iff_byteAt (by omega), fieldAt_one (by omega) (by omega), fieldAt_one (by omega) ho,
    within_iff]
  by_cases hk : c.k < 256
  · rw [fieldAt_one (by omega) hk]; grind
  · grind [u8_lt]

/-- A run of bytes is the one at a place exactly when it has its bytes. -/
theorem take_drop_eq_iff {b g : List Byte} {m n : Nat} (h : m + n ≤ b.length) :
    (b.drop m).take n = g ↔ n = g.length ∧ ∀ j, j < g.length → b[m + j]? = g[j]? := by
  constructor
  · rintro rfl
    have hl : ((b.drop m).take n).length = n := by rw [List.length_take, List.length_drop]; omega
    refine ⟨hl.symm, fun j hj => ?_⟩
    rw [hl] at hj
    simp [hj]
  · rintro ⟨rfl, hg⟩
    refine List.ext_getElem? fun j => ?_
    by_cases hj : j < g.length
    · simp [hj, hg j hj]
    · rw [List.getElem?_eq_none (by rw [List.length_take]; omega), List.getElem?_eq_none (by omega)]

/-- The ranges of LIMITS. -/
theorem LimitsSection.wf_iff (l : LimitsSection) :
    l.wf = true ↔ (∀ i, within 0 32 (l.chains.get i).k = true) ∧ l.tMs ∈ [50, 100, 200, 500] ∧ l.threshold ≤ 15 ∧
      l.graceMs ≤ 10 ∧ (1 ≤ l.staleMs ∧ l.staleMs ≤ 100) ∧ (1 ≤ l.protectedEnd ∧ l.protectedEnd ≤ 255) ∧
      l.guarded.length ≤ 8 := by
  rw [forall_chain]
  simp only [LimitsSection.wf, PerChain.toList, PerChain.get, List.all_cons, List.all_nil, within_iff,
    Bool.and_eq_true, decide_eq_true_eq, and_assoc, true_and, and_true, Nat.zero_le]

/-- The scalar fields of LIMITS lie in their ranges. -/
theorem limitsScalarsOk_iff (b : List Byte) :
    limitsScalarsOk b = true ↔ u16 b 18 ∈ [50, 100, 200, 500] ∧ u8 b 21 ≤ 15 ∧ u8 b 22 ≤ 10 ∧
      (1 ≤ u8 b 23 ∧ u8 b 23 ≤ 100) ∧ (1 ≤ u8 b 24 ∧ u8 b 24 ≤ 255) ∧ u8 b 25 ≤ 8 := by
  simp only [limitsScalarsOk, inRange_iff, Bool.and_eq_true, decide_eq_true_eq, and_assoc, true_and, Nat.zero_le]

/-- LIMITS is the 34 bytes that hold it, with every field in its range. -/
theorem parseLimits_iff {b : List Byte} (h : b.length = 34) {l : LimitsSection} :
    parseLimits b = some l ↔ LimitsSectionLayout b l ∧ l.wf = true := by
  have e : parseLimits b = some l ↔ ((∀ i, parseChainLimits b i = some (l.chains.get i)) ∧
      u8 b 20 = prechargeCode l.precharge ∧ limitsScalarsOk b = true ∧
      (byteAt b 16 = l.aMax.g0 ∧ byteAt b 17 = l.aMax.g1) ∧ u16 b 18 = l.tMs ∧ u8 b 21 = l.threshold ∧
      u8 b 22 = l.graceMs ∧ u8 b 23 = l.staleMs ∧ u8 b 24 = l.protectedEnd ∧ (b.drop 26).take (u8 b 25) = l.guarded) := by
    rw [u8, ← prechargeOfByte_eq_some, ← allChains_eq_some]
    obtain ⟨_, ⟨_, _⟩, _, _, _, _, _, _, _⟩ := l
    simp only [parseLimits]
    split
    · simp_all [checked_eq_some]
      grind
    · grind
  have hp : prechargeCode l.precharge < 256 := by cases l.precharge <;> decide
  have h18 := u16_lt b 18; have h21 := u8_lt b 21; have h22 := u8_lt b 22; have h23 := u8_lt b 23
  have h24 := u8_lt b 24
  have hc : (∀ i, parseChainLimits b i = some (l.chains.get i)) ↔ _ := forall_congr' fun i => parseChainLimits_iff h
  have ha : (∀ g : Group, b[16 + groupIndex g]? = some (l.aMax.get g)) ↔
      byteAt b 16 = l.aMax.g0 ∧ byteAt b 17 = l.aMax.g1 := by
    rw [forall_group, getElem?_eq_some_iff_byteAt (by simp [groupIndex]; omega),
      getElem?_eq_some_iff_byteAt (by simp [groupIndex]; omega)]; rfl
  rw [e, hc, forall_and, LimitsSectionLayout, ha, fieldAt_one (by omega) hp, limitsScalarsOk_iff, LimitsSection.wf_iff]
  constructor
  · rintro ⟨⟨k, r⟩, p, ⟨s1, s2, s3, s4, s5, s6⟩, a, e1, e2, e3, e4, e5, g⟩
    rw [take_drop_eq_iff (by omega)] at g
    exact ⟨⟨h, k, a, (fieldAt_two (by omega) (by omega)).2 e1, p, (fieldAt_one (by omega) (by omega)).2 e2,
      (fieldAt_one (by omega) (by omega)).2 e3, (fieldAt_one (by omega) (by omega)).2 e4,
      (fieldAt_one (by omega) (by omega)).2 e5, (fieldAt_one (by omega) (by omega)).2 g.1, g.2⟩,
      r, e1 ▸ s1, e2 ▸ s2, e3 ▸ s3, e4 ▸ s4, e5 ▸ s5, g.1 ▸ s6⟩
  · rintro ⟨⟨-, k, a, e1, p, e2, e3, e4, e5, e6, g⟩, r, s1, s2, s3, s4, s5, s6⟩
    have ht : l.tMs < 65536 := by simp at s1; omega
    rw [fieldAt_two (by omega) ht] at e1
    rw [fieldAt_one (by omega) (by omega)] at e2 e3 e4 e5 e6
    rw [take_drop_eq_iff (by omega)]
    exact ⟨⟨k, r⟩, p, ⟨e1 ▸ s1, e2 ▸ s2, e3 ▸ s3, e4 ▸ s4, e5 ▸ s5, e6 ▸ s6⟩, a, e1, e2, e3, e4, e5, e6, g⟩

@[simp] theorem byteAt_drop (b : List Byte) (m n : Nat) : byteAt (b.drop m) n = byteAt b (m + n) := by
  simp [byteAt, List.getD_eq_getElem?_getD]
@[simp] theorem u8_drop (b : List Byte) (m n : Nat) : u8 (b.drop m) n = u8 b (m + n) := by simp [u8]
@[simp] theorem u16_drop (b : List Byte) (m n : Nat) : u16 (b.drop m) n = u16 b (m + n) := by
  simp [u16, Nat.add_assoc]
@[simp] theorem s16_drop (b : List Byte) (m n : Nat) : s16 (b.drop m) n = s16 b (m + n) := by simp [s16]

/-- The limits of one group are the four bytes that hold them. -/
theorem parseGroupLimits_iff {b : List Byte} {m : Nat} (h : m + 20 ≤ b.length) {g : Group} {l : GroupLimits} :
    parseGroupLimits (b.drop m) g = some l ↔
      (b[m + 4 * groupIndex g]? = some l.avg ∧ b[m + (1 + 4 * groupIndex g)]? = some l.floor ∧
        FieldAt b (m + (2 + 4 * groupIndex g)) 2 l.window) ∧ within 2 1024 l.window = true := by
  have hg := groupIndex_lt g
  rw [getElem?_eq_some_iff_byteAt (by omega), getElem?_eq_some_iff_byteAt (by omega), within_iff, parseGroupLimits,
    checked_eq_some, inRange_iff]
  obtain ⟨_, _, w⟩ := l
  by_cases hw : w < 65536
  · rw [fieldAt_two (by omega) hw]; simp; grind
  · simp only [u16_drop, GroupLimits.mk.injEq]; grind [u16_lt]

/-- A weight is the byte that holds it. -/
theorem parseWeight_iff {b : List Byte} {n : Nat} (h : n < b.length) {w : Nat} :
    checked (inRange 0 15 (u8 b n)) (u8 b n) = some w ↔ FieldAt b n 1 w ∧ within 0 15 w = true := by
  rw [checked_eq_some, inRange_iff, within_iff]
  by_cases hw : w < 256
  · rw [fieldAt_one h hw]; grind
  · grind [u8_lt]

/-- A default cap is the two bytes that hold it. -/
theorem parseDefaultCap_iff {b : List Byte} {n k : Nat} (hn : n < b.length) (hk : k < b.length) {x : Option Code} :
    parseDefaultCap (byteAt b n) (byteAt b k) = some x ↔
      (match x with | some c => FieldAt b n 1 0 ∧ b[k]? = some c | none => FieldAt b n 1 2) := by
  rw [parseDefaultCap_eq_some]
  cases x with
  | none => simp only [fieldAt_one hn (show 2 < 256 by omega)]; rfl
  | some c => simp only [fieldAt_one hn (show 0 < 256 by omega), getElem?_eq_some_iff_byteAt hk]; rfl

/-- The ranges of a scenario record. -/
theorem ScenarioRecord.wf_iff (r : ScenarioRecord) :
    r.wf = true ↔ (∀ g, within 2 1024 (r.limits.get g).window = true) ∧ 
      ∀ i, within 0 15 (r.weights.get i) = true := by
  rw [forall_chain, forall_group]
  simp only [ScenarioRecord.wf, PerChain.toList, PerChain.get, PerGroup.get, List.all_cons, List.all_nil,
    Bool.and_eq_true, and_true]

/-- A scenario record is the 20 bytes that hold it, with every field in its range. -/
theorem parseScenario_iff {b : List Byte} {m : Nat} (h : m + 20 ≤ b.length) {r : ScenarioRecord} :
    parseScenario (b.drop m) = some r ↔ ScenarioAt b m r ∧ r.wf = true := by
  have e : parseScenario (b.drop m) = some r ↔ (∀ g, parseGroupLimits (b.drop m) g = some (r.limits.get g)) ∧
      (∀ i, checked (inRange 0 15 (u8 b (m + (8 + chainIndex i)))) (u8 b (m + (8 + chainIndex i))) =
        some (r.weights.get i)) ∧
      ∀ i, parseDefaultCap (byteAt b (m + (12 + 2 * chainIndex i))) (byteAt b (m + (13 + 2 * chainIndex i))) =
        some (r.defaultCaps.get i) := by
    rw [← allGroups_eq_some, ← allChains_eq_some, ← allChains_eq_some]
    obtain ⟨_, _, _⟩ := r
    simp only [parseScenario, byteAt_drop, u8_drop]
    split
    · simp_all
    · grind
  have h1 : (∀ g, parseGroupLimits (b.drop m) g = some (r.limits.get g)) ↔ _ :=
    forall_congr' fun g => parseGroupLimits_iff h
  have h2 : (∀ i, checked (inRange 0 15 (u8 b (m + (8 + chainIndex i)))) (u8 b (m + (8 + chainIndex i))) =
        some (r.weights.get i)) ↔ _ :=
    forall_congr' fun i => parseWeight_iff (have := chainIndex_lt i; by omega)
  have h3 : (∀ i, parseDefaultCap (byteAt b (m + (12 + 2 * chainIndex i))) (byteAt b (m + (13 + 2 * chainIndex i))) =
        some (r.defaultCaps.get i)) ↔ _ :=
    forall_congr' fun i => parseDefaultCap_iff (have := chainIndex_lt i; by omega) (have := chainIndex_lt i; by omega)
  rw [e, h1, h2, h3, ScenarioRecord.wf_iff, ScenarioAt, forall_and, forall_and, forall_and]
  grind

/-- SCENARIOS is the bytes that hold its records, with every field in its range. -/
theorem parseScenarios_iff {b : List Byte} (h : b.length = 1 + 20 * u8 b 0) {t : List ScenarioRecord} :
    parseScenarios b = some t ↔ ScenariosSectionLayout b t ∧ ∀ r ∈ t, r.wf = true := by
  have h0 := u8_lt b 0
  rw [parseScenarios, allSome_range_eq_some, ScenariosSectionLayout]
  constructor
  · rintro ⟨hl, ht⟩
    have hp : ∀ j r, t[j]? = some r → ScenarioAt b (1 + 20 * j) r ∧ r.wf = true := fun j r hr => by
      have := (List.getElem?_eq_some_iff.1 hr).1
      exact (parseScenario_iff (by omega)).1 (ht j r hr)
    exact ⟨⟨by omega, (fieldAt_one (by omega) (by omega)).2 hl.symm, fun j r hr => (hp j r hr).1⟩,
      fun r hr => (List.getElem?_of_mem hr).elim fun j hj => (hp j r hj).2⟩
  · rintro ⟨⟨hl, hc, ht⟩, hw⟩
    have hn : t.length = u8 b 0 := by omega
    refine ⟨hn, fun j r hr => ?_⟩
    obtain ⟨hj, rfl⟩ := List.getElem?_eq_some_iff.1 hr
    exact (parseScenario_iff (by omega)).2 ⟨ht j _ hr, hw _ (List.getElem_mem hj)⟩

/-- OVERLOAD is the 10 bytes that hold it, with every field in its range. -/
theorem parseOverload_iff {b : List Byte} (h : b.length = 10) {o : OverloadSection} :
    parseOverload b = some o ↔ OverloadSectionLayout b o ∧ o.wf = true := by
  have h0 := u8_lt b 0; have h1 := u16_lt b 1; have h3 := u16_lt b 3; have h5 := u16_lt b 5; have h7 := u16_lt b 7
  have h9 := u8_lt b 9
  obtain ⟨_, _, _, _, _, _⟩ := o
  simp only [parseOverload, checked_eq_some, OverloadSectionLayout, OverloadSection.wf, Bool.and_eq_true,
    inRange_iff, within_iff, OverloadSection.mk.injEq, h, true_and]
  constructor
  · rintro ⟨r, rfl, rfl, rfl, rfl, rfl, rfl⟩
    refine ⟨⟨(fieldAt_one ?_ ?_).2 rfl, (fieldAt_two ?_ ?_).2 rfl, (fieldAt_two ?_ ?_).2 rfl,
      (fieldAt_two ?_ ?_).2 rfl, (fieldAt_two ?_ ?_).2 rfl, (fieldAt_one ?_ ?_).2 rfl⟩, r⟩ <;> omega
  · rintro ⟨⟨e0, e1, e3, e5, e7, e9⟩, r⟩
    rw [fieldAt_one (by omega) (by omega)] at e0 e9
    rw [fieldAt_two (by omega) (by omega)] at e1 e3 e5 e7
    subst e0 e1 e3 e5 e7 e9
    exact ⟨r, rfl, rfl, rfl, rfl, rfl, rfl⟩

/-- The places of the twelve classes. -/
theorem EventClass.idxOf_lt (k : EventClass) : EventClass.all.idxOf k < 12 := by cases k <;> decide

/-- ROUTING is the 12 bytes that hold it, each at most 15. -/
theorem parseRouting_iff {b : List Byte} (h : b.length = 12) {r : PerClass Mask} :
    parseRouting b = some r ↔ RoutingSectionLayout b r := by
  have hf : ∀ k, FieldAt b (EventClass.all.idxOf k) 1 (r.get k).toNat ↔
      u8 b (EventClass.all.idxOf k) = (r.get k).toNat :=
    fun k => fieldAt_one (h ▸ EventClass.idxOf_lt k) (have := (r.get k).isLt; by omega)
  simp only [parseRouting, checked_eq_some, RoutingSectionLayout, h, true_and, hf, List.all_eq_true, List.mem_range,
    inRange_iff]
  constructor
  · rintro ⟨hr, rfl⟩ k
    have := hr _ (EventClass.idxOf_lt k)
    rw [PerClass.get_build, BitVec.toNat_setWidth, Nat.mod_eq_of_lt]
    · rfl
    · simp only [u8] at this; omega
  · intro hk
    refine ⟨fun j hj => ⟨by omega, ?_⟩, ?_⟩
    · have : ∀ j, j < 12 → ∃ k ∈ EventClass.all, EventClass.all.idxOf k = j := by decide
      obtain ⟨k, -, rfl⟩ := this j hj
      have := (r.get k).isLt; have := hk k; omega
    · refine (congrArg PerClass.build (funext fun k => BitVec.eq_of_toNat_eq ?_)).trans
        (show PerClass.build r.get = r from rfl)
      have := hk k
      simp only [u8] at this
      rw [BitVec.toNat_setWidth, this, Nat.mod_eq_of_lt (r.get k).isLt]

/-- A list is the values of a function at its places exactly when each value is. -/
theorem eq_range_map_iff {α} {n : Nat} {f : Nat → α} {l : List α} :
    l = (List.range n).map f ↔ l.length = n ∧ ∀ j x, l[j]? = some x → f j = x := by
  constructor
  · rintro rfl
    refine ⟨by simp, fun j x hx => ?_⟩
    obtain ⟨hj, hx⟩ := List.getElem?_eq_some_iff.1 hx
    simpa using hx
  · rintro ⟨hl, h⟩
    refine List.ext_getElem (by simp [hl]) fun j h1 h2 => ?_
    simpa using (h j l[j] (by simp [h1])).symm

/-- A byte of at most 15 has no bit above bit 3. -/
theorem byte_le_15_iff : ∀ x : Byte, x.toNat ≤ 15 ↔ ∀ j, j < 8 → 4 ≤ j → x.getLsbD j = false := by decide +kernel

/-- A set of sensors is the byte that holds its bits, with no other bit. -/
theorem membersAt_iff {b : List Byte} {n : Nat} (h : n < b.length) {v : PerSensor Bool} :
    BitsAt b n [v.s0, v.s1, v.s2, v.s3] ↔
      v = PerSensor.build (fun k => (byteAt b n).getLsbD (sensorIndex k)) ∧ u8 b n ≤ 15 := by
  obtain ⟨a0, a1, a2, a3⟩ := v
  simp only [BitsAt, getElem?_eq_some_iff_byteAt h, exists_eq_left', u8, byte_le_15_iff, PerSensor.build,
    PerSensor.mk.injEq, sensorIndex]
  generalize byteAt b n = x
  constructor
  · intro hx
    refine ⟨⟨(hx 0 (by omega)).symm, (hx 1 (by omega)).symm, (hx 2 (by omega)).symm, (hx 3 (by omega)).symm⟩,
      fun j hj h4 => ?_⟩
    rw [hx j hj]
    obtain ⟨k, rfl⟩ := Nat.exists_eq_add_of_le h4
    simp [Nat.add_comm 4 k]
  · rintro ⟨⟨rfl, rfl, rfl, rfl⟩, hx⟩ j hj
    by_cases h4 : 4 ≤ j
    · rw [hx j hj h4]
      obtain ⟨k, rfl⟩ := Nat.exists_eq_add_of_le h4
      simp [Nat.add_comm 4 k]
    · obtain rfl | rfl | rfl | rfl : j = 0 ∨ j = 1 ∨ j = 2 ∨ j = 3 := by omega
      all_goals rfl

/-- Signed fields at a list of places. -/
theorem signedList_iff {b : List Byte} {l : List Int} {n : Nat} {p : Nat → Nat} (hp : ∀ j, j < n → p j + 1 < b.length)
    (hl : l.length = n) (hr : ∀ x ∈ l, -32768 ≤ x ∧ x < 32768) :
    (∀ j x, l[j]? = some x → SignedAt b (p j) x) ↔ l = (List.range n).map fun j => s16 b (p j) := by
  rw [eq_range_map_iff, and_iff_right hl]
  refine forall_congr' fun j => forall_congr' fun x => imp_congr_right fun hx => ?_
  have := hr x (List.mem_of_getElem? hx)
  exact signedAt_iff (hp j (hl ▸ (List.getElem?_eq_some_iff.1 hx).1)) this.1 this.2

/-- Fields of one byte at a list of places. -/
theorem byteList_iff {b : List Byte} {l : List Nat} {n : Nat} {p : Nat → Nat} (hp : ∀ j, j < n → p j < b.length)
    (hl : l.length = n) (hr : ∀ x ∈ l, x < 256) :
    (∀ j x, l[j]? = some x → FieldAt b (p j) 1 x) ↔ l = (List.range n).map fun j => u8 b (p j) := by
  rw [eq_range_map_iff, and_iff_right hl]
  refine forall_congr' fun j => forall_congr' fun x => imp_congr_right fun hx => ?_
  exact fieldAt_one (hp j (hl ▸ (List.getElem?_eq_some_iff.1 hx).1)) (hr x (List.mem_of_getElem? hx))

/-- The ranges of a zone. -/
theorem ZoneParams.wf_iff (z : ZoneParams) :
    z.wf = true ↔ (z.rise.length = 7 ∧ z.backoff.length = 7) ∧
      ((∀ x ∈ z.rise ++ [z.riseTrip], -320 ≤ x ∧ x ≤ 1200) ∧ increasing (z.rise ++ [z.riseTrip]) = true) ∧
      z.hyst ≤ 80 ∧ (100 ≤ z.dwellMs ∧ z.dwellMs ≤ 60000) ∧
      ((∀ x ∈ z.backoff, x ≤ 255) ∧ nonDecreasing z.backoff = true) ∧ z.faultStage ≤ 7 := by
  simp only [ZoneParams.wf, Bool.and_eq_true, decide_eq_true_eq, within_iff, withinInt_iff, List.all_eq_true,
    and_assoc, Nat.zero_le, true_and]

/-- The fields of a zone block lie in their ranges. -/
theorem zoneBlockOk_drop_iff (b : List Byte) (m : Nat) :
    zoneBlockOk (b.drop m) = true ↔ u8 b m ≤ 15 ∧
      ((∀ x ∈ zoneThresholds (b.drop m), -320 ≤ x ∧ x ≤ 1200) ∧ increasing (zoneThresholds (b.drop m)) = true) ∧
      u8 b (m + 17) ≤ 80 ∧ (100 ≤ u16 b (m + 18) ∧ u16 b (m + 18) ≤ 60000) ∧
      nonDecreasing (zoneBackoffs (b.drop m)) = true ∧ u8 b (m + 27) ≤ 7 := by
  simp only [zoneBlockOk, Bool.and_eq_true, inRange_iff, inRangeInt_iff, List.all_eq_true, and_assoc, Nat.zero_le,
    true_and, u8_drop, u16_drop, strictlyRising_eq_increasing, neverFalling_eq_nonDecreasing, Nat.add_zero]

/-- A zone is the 28 bytes that hold it, with every field in its range. -/
theorem parseZone_iff {b : List Byte} {m : Nat} (h : m + 28 ≤ b.length) {z : ZoneParams} :
    parseZone (b.drop m) = some z ↔ ZoneBlockAt b m z ∧ z.wf = true := by
  have ht : zoneThresholds (b.drop m) = (List.range 8).map fun j => s16 b (m + (1 + 2 * j)) := by
    simp [zoneThresholds]
  have hb : zoneBackoffs (b.drop m) = (List.range 7).map fun j => u8 b (m + (20 + j)) := by simp [zoneBackoffs]
  have e : parseZone (b.drop m) = some z ↔ zoneBlockOk (b.drop m) = true ∧
      z.members = PerSensor.build (fun n => (byteAt b m).getLsbD (sensorIndex n)) ∧
      (z.rise.length = 7 ∧ z.rise ++ [z.riseTrip] = zoneThresholds (b.drop m)) ∧ u8 b (m + 17) = z.hyst ∧
      u16 b (m + 18) = z.dwellMs ∧ z.backoff = zoneBackoffs (b.drop m) ∧ u8 b (m + 27) = z.faultStage := by
    have hs : (z.rise.length = 7 ∧ z.rise ++ [z.riseTrip] = zoneThresholds (b.drop m)) ↔
        (zoneThresholds (b.drop m)).take 7 = z.rise ∧ s16 b (m + 15) = z.riseTrip := by
      have e8 : zoneThresholds (b.drop m) = (zoneThresholds (b.drop m)).take 7 ++ [s16 b (m + 15)] := by
        rw [ht]; rfl
      have l7 : ((zoneThresholds (b.drop m)).take 7).length = 7 := by simp [ht]
      generalize (zoneThresholds (b.drop m)).take 7 = T at e8 l7 ⊢
      rw [e8]
      constructor
      · rintro ⟨hl, he⟩
        obtain ⟨h1, h2⟩ := List.append_inj he (hl.trans l7.symm)
        exact ⟨h1.symm, by simpa using h2.symm⟩
      · rintro ⟨rfl, h2⟩; exact ⟨l7, by rw [h2]⟩
    rw [hs, parseZone, checked_eq_some]
    obtain ⟨_, _, _, _, _, _, _⟩ := z
    simp only [ZoneParams.mk.injEq, byteAt_drop, s16_drop, u8_drop, u16_drop, Nat.add_zero]
    grind
  have h18 := u16_lt b (m + 18)
  have hr : z.rise.length = 7 → (∀ x ∈ z.rise ++ [z.riseTrip], -320 ≤ x ∧ x ≤ 1200) →
      ((∀ j x, (z.rise ++ [z.riseTrip])[j]? = some x → SignedAt b (m + (1 + 2 * j)) x) ↔
        z.rise ++ [z.riseTrip] = zoneThresholds (b.drop m)) := fun hl hx => by
    rw [ht]
    exact signedList_iff (fun j hj => by omega) (by simp [hl]) fun x h => by
      have := hx x h
      omega
  have hk : z.backoff.length = 7 → (∀ x ∈ z.backoff, x ≤ 255) →
      ((∀ j x, z.backoff[j]? = some x → FieldAt b (m + (20 + j)) 1 x) ↔ z.backoff = zoneBackoffs (b.drop m)) :=
    fun hl hx => by
      rw [hb]
      exact byteList_iff (fun j hj => by omega) hl fun x h => by
        have := hx x h
        omega
  rw [e, zoneBlockOk_drop_iff, ZoneParams.wf_iff, ZoneBlockAt, membersAt_iff (by omega)]
  constructor
  · rintro ⟨⟨o1, ⟨o2, o3⟩, o4, o5, o6, o7⟩, f1, ⟨f2, f3⟩, f4, f5, f6, f7⟩
    have hbl : z.backoff.length = 7 := by rw [f6, hb]; simp
    have hbr : ∀ x ∈ z.backoff, x ≤ 255 := fun x hx => by
      rw [f6, hb, List.mem_map] at hx
      obtain ⟨j, -, rfl⟩ := hx
      have := u8_lt b (m + (20 + j)); omega
    rw [← f3] at o2 o3
    exact ⟨⟨⟨f1, o1⟩, (hr f2 o2).2 f3, (fieldAt_one (by omega) (by omega)).2 f4,
      (fieldAt_two (by omega) (by omega)).2 f5, (hk hbl hbr).2 f6,
      (fieldAt_one (by omega) (by omega)).2 f7⟩, ⟨f2, hbl⟩, ⟨o2, o3⟩, f4 ▸ o4, f5 ▸ o5, ⟨hbr, f6 ▸ o6⟩, f7 ▸ o7⟩
  · rintro ⟨⟨⟨f1, o1⟩, g3, f4, f5, g6, f7⟩, ⟨f2, hbl⟩, ⟨o2, o3⟩, o4, o5, ⟨hbr, o6⟩, o7⟩
    rw [fieldAt_one (by omega) (by omega)] at f4 f7
    rw [fieldAt_two (by omega) (by omega)] at f5
    have f3 := (hr f2 o2).1 g3
    have f6 := (hk hbl hbr).1 g6
    exact ⟨⟨o1, f3 ▸ ⟨o2, o3⟩, f4 ▸ o4, f5 ▸ o5, f6 ▸ o6, f7 ▸ o7⟩, f1, ⟨f2, f3⟩, f4, f5, f6, f7⟩

/-- A linearisation table is the 66 bytes that hold it, with every point in its range. -/
theorem parseTable_iff {b : List Byte} (h : b.length = 353) {n : Sensor} {t : List Int} :
    parseTable b n = some t ↔
      (∀ j x, t[j]? = some x → SignedAt b (66 * sensorIndex n + 2 * j) x) ∧ tableWf t = true := by
  have hn := sensorIndex_lt n
  rw [parseTable, allSome_range_eq_some]
  have hw : tableWf t = true ↔ t.length = 33 ∧ ∀ x ∈ t, -4096 ≤ x ∧ x ≤ 4095 := by
    simp only [tableWf, Bool.and_eq_true, decide_eq_true_eq, List.all_eq_true, withinInt_iff]
  rw [hw]
  constructor
  · rintro ⟨hl, ht⟩
    have key : ∀ j x, t[j]? = some x → s16 b (66 * sensorIndex n + 2 * j) = x ∧ -4096 ≤ x ∧ x ≤ 4095 := by
      intro j x hx
      have := ht j x hx
      rw [checked_eq_some, inRangeInt_iff] at this
      exact ⟨this.2, this.2 ▸ this.1⟩
    refine ⟨fun j x hx => ?_, hl, fun x hx => ?_⟩
    · have := key j x hx; have := (List.getElem?_eq_some_iff.1 hx).1
      exact (signedAt_iff (by omega) (by omega) (by omega)).2 (key j x hx).1
    · obtain ⟨j, hj⟩ := List.getElem?_of_mem hx
      exact (key j x hj).2
  · rintro ⟨ht, hl, hr⟩
    refine ⟨hl, fun j x hx => ?_⟩
    have hx' := hr x (List.mem_of_getElem? hx); have := (List.getElem?_eq_some_iff.1 hx).1
    have e := (signedAt_iff (by omega) (by omega) (by omega)).1 (ht j x hx)
    rw [checked_eq_some, inRangeInt_iff, e]
    exact ⟨hx', rfl⟩

/-- The ranges of THERMAL. -/
theorem ThermalSection.wf_iff (t : ThermalSection) :
    t.wf = true ↔ (∀ n, tableWf (t.tables.get n) = true) ∧ (10 ≤ t.periodMs ∧ t.periodMs ≤ 250) ∧
      ∀ z, (t.zones.get z).wf = true := by
  rw [forall_sensor, forall_zone]
  simp only [ThermalSection.wf, PerSensor.get, PerZone.get, Bool.and_eq_true, within_iff, and_assoc]

/-- THERMAL is the 353 bytes that hold it, with every field in its range. -/
theorem parseThermal_iff {b : List Byte} (h : b.length = 353) {t : ThermalSection} :
    parseThermal b = some t ↔ ThermalSectionLayout b t ∧ t.wf = true := by
  have e : parseThermal b = some t ↔ (∀ n, parseTable b n = some (t.tables.get n)) ∧
      (∀ z, parseZone (b.drop (265 + 28 * zoneIndex z)) = some (t.zones.get z)) ∧
      (∀ i, zoneOfByte (byteAt b (349 + chainIndex i)) = some (t.chainZone.get i)) ∧
      (10 ≤ u8 b 264 ∧ u8 b 264 ≤ 250) ∧ u8 b 264 = t.periodMs := by
    rw [← allSensors_eq_some, ← allZones_eq_some (f := fun z => parseZone (b.drop (265 + 28 * zoneIndex z))),
      ← allChains_eq_some (f := fun i => zoneOfByte (byteAt b (349 + chainIndex i)))]
    obtain ⟨_, _, _, _⟩ := t
    simp only [parseThermal]
    split
    · simp_all [checked_eq_some, inRange_iff]; grind
    · grind
  have h1 : (∀ n, parseTable b n = some (t.tables.get n)) ↔ _ := forall_congr' fun n => parseTable_iff h
  have h2 : (∀ z, parseZone (b.drop (265 + 28 * zoneIndex z)) = some (t.zones.get z)) ↔ _ :=
    forall_congr' fun z => parseZone_iff (have := zoneIndex_lt z; by omega)
  have h3 : (∀ i, zoneOfByte (byteAt b (349 + chainIndex i)) = some (t.chainZone.get i)) ↔
      ∀ i, FieldAt b (349 + chainIndex i) 1 (zoneIndex (t.chainZone.get i)) := forall_congr' fun i => by
    have := chainIndex_lt i; have := zoneIndex_lt (t.chainZone.get i)
    rw [zoneOfByte_eq_some, fieldAt_one (by omega) (by omega)]; rfl
  rw [e, h1, h2, h3, ThermalSection.wf_iff, ThermalSectionLayout, forall_and, forall_and]
  by_cases hp : t.periodMs < 256
  · rw [fieldAt_one (by omega) hp]; grind
  · have := u8_lt b 264; grind

/-! ### Reading the flash -/

/-- A read has the bytes it asks for. -/
theorem flashRead_length (img : FlashImage) (a n : Nat) : (flashRead img a n).length = n := by simp [flashRead]

/-- Each byte of a read is the flash's. -/
theorem flashRead_getElem? (img : FlashImage) (a : Nat) {n j : Nat} (h : j < n) :
    (flashRead img a n)[j]? = some (flashByte img (a + j)) := by simp [flashRead, h]

/-- The byte the flash returns is the one it holds. -/
theorem flashByte_holds (img : FlashImage) (a : Nat) : FlashHolds img a (flashByte img a) := by
  have hn : ∀ r, blockByte a r = none → ¬Covers r a := fun r hr hc => by
    simp only [blockByte, hc.1, if_true, List.getElem?_eq_none_iff] at hr
    have := hc.2; have := hc.1; omega
  rw [flashByte]
  cases h : img.findSome? (blockByte a) with
  | none => exact .inr ⟨fun c hc => hn c (List.findSome?_eq_none_iff.1 h c hc), rfl⟩
  | some x =>
    obtain ⟨pre, r, post, rfl, hr, hpre⟩ := List.findSome?_eq_some_iff.1 h
    refine .inl ⟨pre, r, post, rfl, fun c hc => hn c (hpre c hc), ?_⟩
    simp only [blockByte] at hr
    split at hr
    · exact ⟨‹_›, hr⟩
    · cases hr

/-- Bytes pass checks 1 to 3 exactly when they are the section's and the section passes them. -/
theorem checkedBytes_eq_some {img : FlashImage} {n : Nat} {e : DirEntry} {b : List Byte} :
    checkedBytes img n e = some b ↔ SectionChecked img e n ∧ flashRead img e.offset e.length = b := by
  have hi : placeOk n e = true ↔ e.length = n ∧ e.offset + e.length ≤ 16777216 := by
    simp only [placeOk, Bool.and_eq_true, decide_eq_true_eq]; rfl
  rw [checkedBytes, SectionChecked, ← and_assoc]
  by_cases hp : placeOk n e = true
  · rw [if_pos hp, checked_eq_some, decide_eq_true_eq]
    simp only [checksumOf, and_iff_right (hi.1 hp)]
  · rw [if_neg hp]
    simp only [reduceCtorEq, false_iff]
    exact fun h => hp (hi.2 h.1.1)

/-- The required length of SCENARIOS follows from its first byte. -/
theorem scenariosLength_eq_some {img : FlashImage} {e : DirEntry} {n : Nat} :
    scenariosLength img e = some n ↔
      (1 ≤ (flashByte img e.offset).toNat ∧ (flashByte img e.offset).toNat ≤ 8) ∧
        1 + 20 * (flashByte img e.offset).toNat = n := by
  rw [scenariosLength, checked_eq_some, inRange_iff]

/-! ### The directory -/

/-- The entries of the directory are those the image holds. -/
theorem parseEntry_at (img : FlashImage) (j : Nat) : EntryAt img j (parseEntry (flashRead img (6 + 8 * j) 8)) := by
  have hl := flashRead_length img (6 + 8 * j) 8
  generalize hb : flashRead img (6 + 8 * j) 8 = b at hl
  have h0 := u8_lt b 0; have h24 := u24_lt b 1; have h4 := u16_lt b 4; have h6 := u16_lt b 6
  rw [EntryAt, hb]
  exact ⟨⟨h0, h24, h4, h6⟩, (fieldAt_one (by omega) h0).2 rfl, (fieldAt_three (by omega) h24).2 rfl,
    (fieldAt_two (by omega) h4).2 rfl, (fieldAt_two (by omega) h6).2 rfl⟩

/-- The image holds one entry at a place. -/
theorem entryAt_iff {img : FlashImage} {j : Nat} {e : DirEntry} :
    EntryAt img j e ↔ e = parseEntry (flashRead img (6 + 8 * j) 8) := by
  refine ⟨fun h => ?_, fun h => h ▸ parseEntry_at img j⟩
  obtain ⟨⟨h0, h1, h4, h6⟩, f0, f1, f4, f6⟩ := h
  have hl := flashRead_length img (6 + 8 * j) 8
  rw [fieldAt_one (by omega) h0] at f0
  rw [fieldAt_three (by omega) h1] at f1
  rw [fieldAt_two (by omega) h4] at f4
  rw [fieldAt_two (by omega) h6] at f6
  obtain ⟨_, _, _, _⟩ := e
  simp only [parseEntry, DirEntry.mk.injEq]
  exact ⟨f0.symm, f1.symm, f4.symm, f6.symm⟩

/-- The first entry of a kind, in a directory of a number of entries. -/
theorem verdictOf_for {α : Type} {img : FlashImage} {count : Nat} (hc : (flashByte img 5).toNat = count) (kind : Nat)
    (judge : DirEntry → Option α) :
    VerdictFor img count kind judge (verdictOf (entryOf (directory img) kind) judge) := by
  refine ⟨fun h => ?_, fun j e hj he hk hf => ?_⟩
  · have : entryOf (directory img) kind = none := by
      rw [entryOf, List.find?_eq_none]
      intro e he
      obtain ⟨j, hj, rfl⟩ := List.mem_map.1 he
      simpa using h j _ (hc ▸ List.mem_range.1 hj) (parseEntry_at img j)
    rw [this]; rfl
  · have hx := entryAt_iff.1 he
    have : entryOf (directory img) kind = some e := by
      rw [entryOf, List.find?_eq_some_iff_getElem]
      refine ⟨by simpa using hk, j, by simp [directory]; omega, by simp [directory, hx], fun i hi => ?_⟩
      simpa [directory] using hf i _ hi (parseEntry_at img i)
    rw [this]
    refine ⟨fun hn => by simp [verdictOf, hn], fun a ha => by simp [verdictOf, ha]⟩

/-- The header is right exactly when it is the header of an image. -/
theorem headerOk_iff {img : FlashImage} {count : Nat} (hc : (flashByte img 5).toNat = count) :
    headerOk (flashRead img 0 6) = true ↔ ImageHeader img count := by
  have h : flashRead img 0 6 = [flashByte img 0, flashByte img 1, flashByte img 2, flashByte img 3, flashByte img 4,
      flashByte img 5] := rfl
  have h5 : flashByte img 5 = BitVec.ofNat 8 count := by rw [← hc]; simp
  rw [ImageHeader, h]
  simp only [headerOk, inRange, u8, byteAt, List.take, List.getD_cons_zero, List.getD_cons_succ,
    Bool.and_eq_true, decide_eq_true_eq, List.cons.injEq, h5]
  grind

/-- The count of a header is its byte 5. -/
theorem imageHeader_count {img : FlashImage} {count : Nat} (h : ImageHeader img count) :
    (flashByte img 5).toNat = count := by
  obtain ⟨h1, h8, e⟩ := h
  have := congrArg (·[5]?) e
  simp [flashRead] at this
  rw [this, BitVec.toNat_ofNat]; omega

/-! ### Flash transfers -/

/-- What a transfer shifts out, as R176 lists it. -/
theorem xferSequence_eq (x : XferRequest) : xferSequence x = headerOnBus x ++ dataOnBus x := rfl

/-- A cut within a transfer leaves the data bytes wholly shifted that come after its header. -/
theorem dataShifted_of_le {x : XferRequest} {n : Nat} (h : n ≤ (headerOnBus x).length + x.count.toNat) :
    dataShifted x n = n - (headerOnBus x).length := by
  have e : xferHeader x = headerOnBus x := rfl
  simp only [dataShifted, e]; omega

end Sys2Proof.Machine
end

