-- ==== Sys2Proof/Laws/Policy.lean ====
section
/-! SUPPORT. What the policy store and the profile loader keep (R135 to R146, R169 to R177). -/

namespace Sys2Proof.Machine

/-- The lesser of two codes, as a number. -/
theorem minCode_toNat (a b : Code) : (minCode a b).toNat = min a.toNat b.toNat := by
  simp only [minCode]; split <;> omega

/-- The record of a valid index. -/
theorem record_of_getElem {p : Pst} {j r} (h : p.table[j]? = some r) : p.record j = r := by
  simp [Pst.record, List.getD_eq_getElem?_getD, h]

/-- Only the loader's own requests and a device reset change it. -/
theorem deliver_pld (p r strap) (s : State) (h : r ≠ .deviceReset) (h1 : r ≠ .loadProfile)
    (h2 : ∀ x, r ≠ .flashXfer x) : (deliver p r strap s).pld = s.pld := by
  cases r <;> simp only [deliver, takeReadCeilings, takeReadStatus, takeReadHistory, takeReadThermal, takeReadEvents,
    takeAckEvents, takeSelectScenario, takeSetCap, takeSetOwner, takeSetRoute, setOwner] <;> (repeat' split) <;> first | contradiction | exact absurd rfl (h2 _) | simp

/-- The PST at reset. -/
theorem policyInv_reset : PolicyInv Pst.reset := by
  refine ⟨by simp only [tableWfLength]; decide +kernel, by decide +kernel, ?_, by decide +kernel⟩
  intro j h; cases h

/-- An apply of a valid entry. -/
theorem policyInv_applyScenario (p : Pst) (j) (h : tableWfLength p.table) (hj : j < p.table.length) :
    PolicyInv (p.applyScenario j) :=
  ⟨h, hj, fun _ h => (by cases h), rfl⟩

/-- A close without a new table. -/
theorem policyInv_settle (p : Pst) (h : PolicyInv p) : PolicyInv (p.settle (p.applyIndex false)) := by
  simp only [Pst.applyIndex, Pst.settle]
  split
  · exact h
  · rename_i j hj; exact policyInv_applyScenario _ _ h.1 (h.2.2.1 j hj)

/-- A LIMITS section taken. -/
theorem policyInv_takeLimits (p : Pst) (h : PolicyInv p) (l) : PolicyInv (p.takeLimits l) :=
    ⟨h.1, h.2.1, h.2.2.1, rfl⟩

/-- A close. -/
theorem policyInv_afterClose (p : Pst) (h : PolicyInv p) (x : Option Sections)
    (hx : ∀ y, x = some y → ∀ t, y.scenarios = some t → tableWfLength t) : PolicyInv (p.afterClose x) := by
  cases x with
  | none => exact policyInv_settle p h
  | some x =>
    simp only [Pst.afterClose]
    have h1 : PolicyInv (match x.limits with | none => p | some l => p.takeLimits l) := by
      split
      · exact h
      · exact policyInv_takeLimits p h _
    cases hs : x.scenarios with
    | none =>
      have : PolicyInv (p.takeSections x) := by
        simp only [Pst.takeSections, hs]
        exact h1
      simpa [hs] using policyInv_settle _ this
    | some t =>
      have ht := hx x rfl t hs
      have e : (p.takeSections x).table = t := by simp [Pst.takeSections, hs]
      simp only [Option.isSome_some, Pst.applyIndex]
      have hr : (p.takeSections x).reapplied < (p.takeSections x).table.length := by
        simp only [Pst.reapplied]
        split
        · assumption
        · rw [e]; exact ht.1
      have hw : tableWfLength (p.takeSections x).table := by rw [e]; exact ht
      split
      · split
        · exact policyInv_applyScenario _ _ hw (by assumption)
        · exact policyInv_applyScenario _ _ hw hr
      · exact policyInv_applyScenario _ _ hw hr
      all_goals contradiction

/-- The start-up delivery. -/
theorem policyInv_started (p : Pst) (d : PolicyDelivery) (hc : d.wf = true) : PolicyInv (p.started d) := by
  have hw : tableWfLength d.scenarios := by
    simp only [PolicyDelivery.wf, within, Bool.and_eq_true, decide_eq_true_eq] at hc
    exact hc.1.1
  exact policyInv_applyScenario _ 0 hw hw.1

/-- The end of a frame. -/
theorem policyInv_concludeFrame (p strap j) (s : State) (h : PolicyInv s.pst) (hg : StagedTable s.pld) :
    PolicyInv (concludeFrame p strap j s).pst ∧ StagedTable (concludeFrame p strap j s).pld := by
  rcases concludeFrame_cases p strap j s with ⟨r, _, hc⟩ | ⟨a, b, hc⟩ <;> rw [hc]
  · cases r <;> simp only [deliver, takeReadCeilings, takeReadStatus, takeReadHistory, takeReadThermal, takeReadEvents,
      takeAckEvents, takeSelectScenario, takeSetCap, takeSetOwner, takeSetRoute, takeLoadProfile, takeFlashXfer,
      startTransfer, setOwner] <;> (repeat' split) <;>
      first
      | exact ⟨h, hg⟩
      | (simp; exact ⟨h, hg⟩)
      | exact ⟨policyInv_reset, fun _ h => by cases h⟩
      | skip
    refine ⟨⟨h.1, h.2.1, ?_, h.2.2.2⟩, hg⟩
    rintro j' ⟨⟩
    assumption
  · exact ⟨h, hg⟩

/-- A request frame. -/
theorem policyInv_requestFrame (p r strap) (s : State) (h : PolicyInv s.pst) (hg : StagedTable s.pld) :
    PolicyInv (requestFrame p r strap s).pst ∧ StagedTable (requestFrame p r strap s).pld := by
  rcases requestFrame_cases p r strap s with ⟨e, -⟩ | ⟨e, -⟩ | ⟨e, -⟩ <;> rw [e]
  · exact ⟨h, hg⟩
  · exact ⟨h, hg⟩
  · exact policyInv_concludeFrame _ _ _ _ h hg

/-- A rising select edge. -/
theorem policyInv_selectRise (p bytes part strap) (s : State) (h : PolicyInv s.pst) (hg : StagedTable s.pld) :
    PolicyInv (selectRise p bytes part strap s).pst ∧ StagedTable (selectRise p bytes part strap s).pld := by
  simp only [selectRise, endFrame]
  (repeat' split) <;> first | exact ⟨h, hg⟩ | exact policyInv_concludeFrame _ _ _ _ h hg

/-- The PLD at reset. -/
theorem loaderInv_reset : LoaderInv Pld.reset := by simp only [LoaderInv]; decide +kernel

/-- The end of a frame. -/
theorem loaderInv_concludeFrame (p strap j) (s : State) (h : LoaderInv s.pld) :
    LoaderInv (concludeFrame p strap j s).pld := by
  rcases concludeFrame_cases p strap j s with ⟨r, _, hc⟩ | ⟨a, b, hc⟩ <;> rw [hc]
  · cases r <;> simp only [deliver, takeReadCeilings, takeReadStatus, takeReadHistory, takeReadThermal, takeReadEvents,
      takeAckEvents, takeSelectScenario, takeSetCap, takeSetOwner, takeSetRoute, takeLoadProfile, takeFlashXfer,
      startTransfer, setOwner] <;> (repeat' split) <;>
      first
      | exact h
      | (simp; exact h)
      | exact loaderInv_reset
      | (obtain ⟨a, b, c, d, e⟩ := h
         simp_all [LoaderInv])
      | skip
  · exact h

/-- A request frame. -/
theorem loaderInv_requestFrame (p r strap) (s : State) (h : LoaderInv s.pld) :
    LoaderInv (requestFrame p r strap s).pld := by
  rcases requestFrame_cases p r strap s with ⟨e, -⟩ | ⟨e, -⟩ | ⟨e, -⟩ <;> rw [e]
  · exact h
  · exact h
  · exact loaderInv_concludeFrame _ _ _ _ h

/-- The entry to RUN leaves STARTUP with a start-up result. -/
theorem loaderInv_enterRun (s : State) (h : LoaderInv s.pld) : LoaderInv s.enterRunWhenDelivered.pld := by
  cases hd : s.startupDelivered with
  | false => rw [State.enterRun_of_not hd]; exact h
  | true =>
    rw [State.enterRun_of_delivered hd]
    simp only [State.startupDelivered, Bool.and_eq_true, decide_eq_true_eq] at hd
    obtain ⟨a, b, c, d, e⟩ := h
    have hr : s.pld.startupResult ≠ none := fun hn => by simp [hn] at hd
    simp_all [LoaderInv, State.send]

/-- The entry to RUN leaves the staged profile. -/
theorem stagedTable_enterRun (s : State) (h : StagedTable s.pld) : StagedTable s.enterRunWhenDelivered.pld := by
  simp only [State.enterRunWhenDelivered]; split <;> exact h

/-- A rising select edge. -/
theorem loaderInv_selectRise (p bytes part strap) (s : State) (h : LoaderInv s.pld) :
    LoaderInv (selectRise p bytes part strap s).pld := by
  simp only [selectRise, endFrame]
  (repeat' split) <;> first | exact h | exact loaderInv_concludeFrame _ _ _ _ h

/-- The end of a transfer. -/
theorem loaderInv_endTransfer (out) (p : Pld) (t) (ht : p.transfer = some t) (h : LoaderInv p) :
    LoaderInv (endTransfer out p) := by
  obtain ⟨a, b, c, d, e⟩ := h
  simp_all [LoaderInv, endTransfer]

end Sys2Proof.Machine
end

