-- ==== Sys2Proof/Laws/Slots.lean ====
section
/-! SUPPORT. What the ports and slots keep (R148 to R152). -/

namespace Sys2Proof.Machine

/-- ANNOUNCE is permitted on ports A and B. -/
theorem announce_permitted (p) (hp : p ≠ Port.portC) : Kind.permitted .announce p = true :=
    by cases p <;> first | rfl | exact absurd rfl hp

/-- An ANNOUNCE that is delivered. -/
theorem requestFrame_announce (p chain k code d strap) (s : State) (hp : p ≠ Port.portC) (h : StartsFree s p) :
    requestFrame p (.announce chain k code d) strap s =
      deliver p (.announce chain k code d) strap (s.frameEnded p (.announce chain k code d)) :=
  requestFrame_delivered _ _ _ _ h.1 (.inr h.2) rfl (announce_permitted _ hp)

/-! ### The ANNOUNCEs that wait -/

/-- The ANNOUNCEs of a port that the BAU holds. -/
def heldAnnounces (s : State) (p : Port) : List BauEvent := s.bau.held.filter (BauEvent.announcesOn p)

/-- A port awaits an answer exactly when the BAU holds an ANNOUNCE of it. -/
theorem awaitsAnswer_false_iff (s : State) (p : Port) : s.awaitsAnswer p = false ↔ heldAnnounces s p = [] := by
  simp only [State.awaitsAnswer, heldAnnounces, List.any_eq_false, List.filter_eq_nil_iff]

theorem awaitsAnswer_congr {s t : State} {p : Port} (h : heldAnnounces t p = heldAnnounces s p) :
    t.awaitsAnswer p = s.awaitsAnswer p := by
  have := awaitsAnswer_false_iff s p
  have := awaitsAnswer_false_iff t p
  cases hs : s.awaitsAnswer p <;> cases ht : t.awaitsAnswer p <;> simp_all

/-- A port with select low awaits no answer. -/
theorem awaits_of_selectLow {s : State} (h : PortsInv s) {p} (hl : (s.ports.get p).selectLow = true) :
    s.awaitsAnswer p = false := by
  cases ha : s.awaitsAnswer p
  · rfl
  · have := (h.2.2.2 p ha).2.2.2.1
    rw [hl] at this; cases this

/-! ### What keeps the ports legal -/

/-- A slot that waits for no operation. -/
def SlotFree (x : Slot) : Prop := x = .empty ∨ ∃ r, x = .ready r ∧ r.payload.length ≤ 60

/-- A slot that waits for nothing is legal. -/
theorem slotInv_free {s : State} {p} (h : SlotFree (s.ports.get p).slot) : SlotInv s p := by
  simp only [SlotInv]
  rcases h with h | ⟨r, h, hr⟩ <;> simp [h]
  exact hr

/-- A change of one port that keeps it legal: its slot and frame stand, or the port awaits nothing and its new slot is one
a port may hold. -/
def PortStep (s : State) (q : Port) (c : Cpi) : Prop :=
  FrameInv c ∧
    ((c.slot = (s.ports.get q).slot ∧ c.frame = (s.ports.get q).frame ∧ c.selectLow = (s.ports.get q).selectLow) ∨
      (s.awaitsAnswer q = false ∧ (c.slot = (s.ports.get q).slot ∨ SlotFree c.slot) ∧ (q ≠ .portC → ModemSlotInv c)))

/-- A port as it stands. -/
theorem portStep_same {s : State} (h : PortsInv s) (q) : PortStep s q (s.ports.get q) :=
  ⟨(h.2.1 q).2, .inl ⟨rfl, rfl, rfl⟩⟩

/-- A modem's port between two frames may hold any slot that waits for nothing. -/
theorem modemSlotInv_free {c : Cpi} (hs : SlotFree c.slot) (hf : c.frame = none) : ModemSlotInv c := by
  refine ⟨fun k hk => ?_, fun f r h => by rw [hf] at h; cases h⟩
  rcases hs with h | ⟨r, h, -⟩ <;> rw [h] at hk <;> cases hk

/-- Ports that keep legal, with the ANNOUNCEs that wait as they were: what the slots' operations ask of the loader is
left to the caller. -/
theorem portsInv_step {s t : State} (h : PortsInv s) (ht : TransferInv t.pld)
    (hb : ∀ q, heldAnnounces t q = heldAnnounces s q) (hp : ∀ q, PortStep s q (t.ports.get q))
    (hs : ∀ q, SlotInv t q) : PortsInv t := by
  refine ⟨ht, fun q => ⟨hs q, (hp q).1⟩, fun q hq => ?_, fun q ha => ?_⟩
  · rcases (hp q).2 with ⟨h1, h2, -⟩ | ⟨-, -, h3⟩
    · have := h.2.2.1 q hq
      exact ⟨fun k => by rw [h1]; exact this.1 k, fun f r => by rw [h1, h2]; exact this.2 f r⟩
    · exact h3 hq
  · rw [awaitsAnswer_congr (hb q)] at ha
    rcases (hp q).2 with ⟨h1, h2, h3⟩ | ⟨h1, -⟩
    · obtain ⟨a, b, c, d, e⟩ := h.2.2.2 q ha
      exact ⟨a, h1.trans b, h2.trans c, h3.trans d, by rw [show List.filter _ _ = _ from hb q]; exact e⟩
    · rw [ha] at h1; cases h1

/-- The loader and the ANNOUNCEs that wait stand, and every port keeps legal. -/
theorem portsInv_keep {s t : State} (h : PortsInv s) (hl : t.pld = s.pld)
    (hb : ∀ q, heldAnnounces t q = heldAnnounces s q) (hp : ∀ q, PortStep s q (t.ports.get q)) : PortsInv t := by
  refine portsInv_step h (by rw [hl]; exact h.1) hb hp fun q => ?_
  have h2 : (t.ports.get q).slot = (s.ports.get q).slot ∨ SlotFree (t.ports.get q).slot := by
    rcases (hp q).2 with ⟨h2, -⟩ | ⟨-, h2, -⟩
    · exact .inl h2
    · exact h2
  rcases h2 with h2 | h2
  · have := (h.2.1 q).1
    simp only [SlotInv, operationFor, h2, hl] at this ⊢
    exact this
  · exact slotInv_free h2

/-- The loader, the ports and the ANNOUNCEs that wait stand. -/
theorem portsInv_same {s t : State} (h : PortsInv s) (hl : t.pld = s.pld) (hp : t.ports = s.ports)
    (hb : t.bau.held = s.bau.held) : PortsInv t :=
  portsInv_keep h hl (fun q => by simp only [heldAnnounces, hb]) fun q => by rw [hp]; exact portStep_same h q

/-- One port replaced. -/
theorem portsInv_setPort {s : State} (h : PortsInv s) (p) (c : Cpi) (hc : PortStep s p c) : PortsInv (s.setPort p c) := by
  refine portsInv_keep h rfl (fun _ => rfl) fun q => ?_
  rw [State.setPort_ports, PerPort.get_set]
  split
  · subst_vars; exact hc
  · exact portStep_same h q

/-- A port whose request is being judged: no frame is open, nothing awaits, and a modem's slot is EMPTY. -/
def Asked (s : State) (p : Port) : Prop :=
  s.awaitsAnswer p = false ∧ (s.ports.get p).frame = none ∧ (s.ports.get p).selectLow = false ∧
    (p ≠ .portC → (s.ports.get p).slot = .empty)

/-- One port answered, that awaits nothing and has no frame open. -/
theorem portsInv_answer {s : State} (h : PortsInv s) (p st k) (b : List Byte) (hb : b.length ≤ 60)
    (ha : s.awaitsAnswer p = false) (hf : p ≠ .portC → (s.ports.get p).frame = none) : PortsInv (s.answer p st k b) :=
  portsInv_setPort h p _ ⟨(h.2.1 p).2, .inr ⟨ha, .inr (.inr ⟨_, rfl, hb⟩), fun hp =>
    modemSlotInv_free (.inr ⟨_, rfl, hb⟩) (hf hp)⟩⟩

/-- The port of a request answered. -/
theorem portsInv_answerAsked {s : State} (h : PortsInv s) {p} (hk : Asked s p) (st k) (b : List Byte)
    (hb : b.length ≤ 60) : PortsInv (s.answer p st k b) :=
  portsInv_answer h p st k b hb hk.1 fun _ => hk.2.1

/-! ### The BAU's events -/

/-- An ANNOUNCE taken. -/
theorem portsInv_takeAnnounce {s : State} (h : PortsInv s) (p c k code d) (ha : s.awaitsAnswer p = false)
    (hf : p ≠ .portC → (s.ports.get p).frame = none) : PortsInv (takeAnnounce p c k code d s) := by
  simp only [takeAnnounce]
  split
  · exact portsInv_answer h _ _ _ _ (by simp) ha hf
  · rename_i i _
    have e : (acceptAnnounce i k code d s).ports = s.ports ∧ (acceptAnnounce i k code d s).pld = s.pld ∧
        (acceptAnnounce i k code d s).bau.held = s.bau.held := by
      simp only [acceptAnnounce]; split <;> exact ⟨rfl, rfl, rfl⟩
    refine portsInv_answer (portsInv_same h e.2.1 e.1 e.2.2) _ _ _ _ ?_ ?_ ?_
    · simp [announcePayload, ceilingBytes_length]
    · simpa [State.awaitsAnswer, e.2.2] using ha
    · simpa [e.1] using hf

/-- Held events taken by the BAU, none held any more. -/
theorem portsInv_bauTakeAll {s : State} (h : PortsInv s) (hb : s.bau.held = []) (es : List BauEvent)
    (hf : ∀ e ∈ es, ∀ p, e.announcesOn p = true → (s.ports.get p).frame = none) : PortsInv (es.foldl bauTake s) := by
  induction es generalizing s with
  | nil => exact h
  | cons e es ih =>
    have hno : ∀ p, s.awaitsAnswer p = false := fun p => by simp [State.awaitsAnswer, hb]
    have keep : PortsInv (bauTake s e) ∧ (bauTake s e).bau.held = [] ∧
        ∀ q, ((bauTake s e).ports.get q).frame = (s.ports.get q).frame := by
      cases e with
      | announce p c k code d =>
        refine ⟨portsInv_takeAnnounce h _ _ _ _ _ (hno p) fun _ => hf _ (.head _) p (by simp [BauEvent.announcesOn]), ?_, ?_⟩
        · simp only [bauTake, takeAnnounce, acceptAnnounce]
          (repeat' split) <;> exact hb
        · intro q
          simp only [bauTake, takeAnnounce, acceptAnnounce]
          (repeat' split) <;> simp only [State.answer, State.setSlot, State.setPort_ports, State.runChain_ports, PerPort.get_set] <;>
            split <;> simp_all
      | _ => exact ⟨portsInv_same h rfl rfl rfl, hb, fun _ => rfl⟩
    refine ih keep.1 keep.2.1 fun e' he p hp => ?_
    rw [keep.2.2]
    exact hf e' (.tail _ he) p hp

/-- The close event at the BAU. -/
theorem portsInv_bauCloseEvent {s : State} (h : PortsInv s) : PortsInv (bauCloseEvent s) := by
  simp only [bauCloseEvent]
  split
  · rename_i n a _ _
    have h1 : PortsInv (s.runBau (bauClose n a)) := by
      refine ⟨h.1, h.2.1, h.2.2.1, fun p ha => ?_⟩
      simp [State.awaitsAnswer, bauClose] at ha
    refine portsInv_bauTakeAll h1 rfl _ fun e he p hp => (h.2.2.2 p ?_).2.2.1
    exact List.any_eq_true.2 ⟨e, he, hp⟩
  · exact h

/-- An event of the BAU that is no ANNOUNCE. -/
theorem portsInv_bauReceive {s : State} (h : PortsInv s) (e : BauEvent) (he : ∀ p, e.announcesOn p = false) :
    PortsInv (bauReceive e s) := by
  simp only [bauReceive]
  split
  · refine portsInv_keep h rfl (fun q => ?_) (portStep_same h)
    simp [heldAnnounces, he]
  · cases e
    case announce p c k code d => have := he p; simp [BauEvent.announcesOn] at this
    all_goals exact portsInv_same h rfl rfl rfl

/-- An ANNOUNCE that is delivered. -/
theorem portsInv_bauAnnounce {s : State} (h : PortsInv s) {p} (hk : Asked s p) (hp : p ≠ .portC) (c k code d) :
    PortsInv (bauReceive (.announce p c k code d) s) := by
  simp only [bauReceive]
  split
  · refine ⟨h.1, h.2.1, h.2.2.1, fun q ha => ?_⟩
    have e : heldAnnounces s p = [] := (awaitsAnswer_false_iff s p).1 hk.1
    simp only [State.awaitsAnswer, List.any_append, List.any_cons, List.any_nil, Bool.or_false, Bool.or_eq_true,
      BauEvent.announcesOn, decide_eq_true_eq] at ha
    by_cases hq : p = q
    · subst hq
      refine ⟨hp, hk.2.2.2 hp, hk.2.1, hk.2.2.1, ?_⟩
      simp only [heldAnnounces] at e
      simp [e, BauEvent.announcesOn]
    · obtain ⟨a, b, c, d, e⟩ := h.2.2.2 q (ha.resolve_right hq)
      exact ⟨a, b, c, d, by simpa [BauEvent.announcesOn, hq] using e⟩
  · exact portsInv_takeAnnounce h _ _ _ _ _ hk.1 fun _ => hk.2.1

/-! ### A delivered request -/

/-- In IDLE no slot waits. -/
theorem slotFree_of_idle {s : State} (hl : LoaderInv s.pld) (h : PortsInv s) (hi : s.pld.state = .idle) (q) :
    SlotFree (s.ports.get q).slot := by
  obtain ⟨a, b, c, d, e⟩ := hl
  have := (h.2.1 q).1
  simp only [SlotInv, operationFor] at this
  cases hs : (s.ports.get q).slot with
  | empty => exact .inl rfl
  | ready r => rw [hs] at this; exact .inr ⟨r, rfl, this⟩
  | pending k =>
    rw [hs] at this
    rcases this with ⟨_, h2⟩ | ⟨_, t, h2, _⟩ <;> simp_all

/-- Ports, loader and the BAU's held events at their reset values. -/
theorem portsInv_of_reset (s : State) (hq : s.pld = Pld.reset) (hb : s.bau.held = [])
    (hp : ∀ q, s.ports.get q = Cpi.reset (s.ports.get q).selectLow) : PortsInv s := by
  have he : ∀ q, (s.ports.get q).slot = .empty := fun q => by rw [hp q]; rfl
  have hf : ∀ q, (s.ports.get q).frame = none := fun q => by rw [hp q]; rfl
  refine ⟨?_, fun q => ⟨slotInv_free (.inl (he q)), ?_⟩, fun q _ => modemSlotInv_free (.inl (he q)) (hf q), ?_⟩
  · rw [hq]; exact ⟨by rintro t ⟨⟩, by rintro t ⟨⟩⟩
  · rw [hp q]
    simp [FrameInv, Cpi.reset]
  · intro q ha
    simp [State.awaitsAnswer, hb] at ha

/-- A device reset. -/
theorem portsInv_deviceReset (s : State) : PortsInv s.deviceReset := by
  refine portsInv_of_reset _ rfl rfl fun q => ?_
  simp [State.deviceReset, Cpi.reset]

/-- Port C waits for an operation that it has begun; no other slot waits. -/
theorem portsInv_begun {s t : State} (hl : LoaderInv s.pld) (h : PortsInv s) (hi : s.pld.state = .idle)
    (ht : TransferInv t.pld) (k : Byte) (hb : t.bau = s.bau)
    (hp : t.ports = s.ports.set .portC { s.ports.get .portC with slot := .pending k })
    (ho : operationFor t .portC k) : PortsInv t := by
  refine ⟨ht, fun q => ?_, fun q hq => ?_, fun q ha => ?_⟩
  · by_cases hqp : q = .portC
    · subst hqp
      refine ⟨?_, ?_⟩
      · simp only [SlotInv, hp, PerPort.get_set, if_true]; exact ho
      · simpa [hp, FrameInv] using (h.2.1 .portC).2
    · have e : t.ports.get q = s.ports.get q := by simp [hp, PerPort.get_set, hqp]
      exact ⟨slotInv_free (by rw [e]; exact slotFree_of_idle hl h hi q), by rw [e]; exact (h.2.1 q).2⟩
  · have e : t.ports.get q = s.ports.get q := by simp [hp, PerPort.get_set, hq]
    rw [e]; exact h.2.2.1 q hq
  · rw [awaitsAnswer_congr (s := s) (by simp only [heldAnnounces, hb])] at ha
    obtain ⟨a, b⟩ := h.2.2.2 q ha
    have e : t.ports.get q = s.ports.get q := by simp [hp, PerPort.get_set, a]
    rw [e, hb]; exact ⟨a, b⟩

/-- A transfer names at most 24 bytes. -/
def CountOk (r : Request) : Prop := ∀ x, r = .flashXfer x → x.count.toNat ≤ Config.longestTransfer

/-- The length check bounds the count. -/
theorem countOk_of_requestLengthOk (r) (h : requestLengthOk r = true) : CountOk r := by
  rintro x rfl
  simp only [requestLengthOk, xferLengthOk, Bool.and_eq_true, decide_eq_true_eq] at h
  exact h.1

/-- A delivered request. -/
theorem portsInv_deliver {s : State} (hl : LoaderInv s.pld) (h : PortsInv s) (p r strap) (hr : CountOk r)
    (hk : Asked s p) (hq : r.kind.permitted p = true) : PortsInv (deliver p r strap s) := by
  cases r <;> simp only [deliver, takeReadCeilings, takeReadStatus, takeReadHistory, takeReadThermal, takeReadEvents,
      takeAckEvents, takeSelectScenario, takeSetCap, takeSetOwner, takeSetRoute, takeLoadProfile, takeFlashXfer]
  case announce => exact portsInv_bauAnnounce h hk (by rintro rfl; simp [Request.kind, Kind.permitted] at hq) _ _ _ _
  case readCeilings => exact portsInv_answerAsked h hk _ _ _ (by rw [ceilingReport_length]; omega)
  case readStatus =>
    split <;> exact portsInv_answerAsked h hk _ _ _ (by first | exact statusPage_length_le _ _ _ (by assumption) | simp)
  case readHistory => split <;> exact portsInv_answerAsked h hk _ _ _ (by first | exact historyPayload_length_le .. | simp)
  case readThermal => exact portsInv_answerAsked h hk _ _ _ (thermalPayload_length_le s)
  case readEvents => exact portsInv_answerAsked h hk _ _ _ (eventPayload_length_le _)
  case ackEvents => exact portsInv_answerAsked (portsInv_same h rfl rfl rfl) hk _ _ _ (by simp [le_length])
  case poll => exact h
  case portReset =>
    refine portsInv_keep h (by simp) (fun q => ?_) fun q => ?_
    · have e : ∀ (u : State) (i : Chain), heldAnnounces (flushOwned p u i) q = heldAnnounces u q := by
        intro u i
        simp only [flushOwned, bauReceive]
        (repeat' split) <;> simp [heldAnnounces, BauEvent.announcesOn, bauTake, State.runChain]
      simp only [takePortReset, Chain.all, List.foldl_cons, List.foldl_nil, e]
      rfl
    · simp only [takePortReset_ports, PerPort.get_set]
      split
      · subst_vars
        exact ⟨(h.2.1 _).2, .inr ⟨hk.1, .inr (.inl rfl), fun _ => modemSlotInv_free (.inl rfl) hk.2.1⟩⟩
      · exact portStep_same h q
  case selectScenario => (repeat' split) <;> exact portsInv_answerAsked (by exact h) hk _ _ _ (by simp)
  case setCap =>
    (repeat' split) <;> exact portsInv_answerAsked (by exact portsInv_same h rfl rfl rfl) hk _ _ _ (by simp [capBytes_length])
  case setOwner c o =>
    (repeat' split)
    · exact portsInv_answerAsked h hk _ _ _ (by simp)
    · rename_i i _ _ _
      have h1 : ∀ o', PortsInv (setOwner i o' s) := by
        intro o'
        refine portsInv_bauReceive ?_ _ fun _ => rfl
        exact portsInv_same h rfl rfl rfl
      have e : ∀ o', (setOwner i o' s).ports = s.ports := fun o' => bauReceive_flush_ports _ _
      have ea : ∀ o', (setOwner i o' s).awaitsAnswer p = s.awaitsAnswer p := by
        intro o'
        simp only [setOwner, bauReceive]
        split <;> simp [State.awaitsAnswer, BauEvent.announcesOn, bauTake, State.runChain]
      exact portsInv_answer (h1 _) _ _ _ _ (by simp) ((ea _).trans hk.1) fun _ => by rw [e]; exact hk.2.1
    · exact portsInv_answerAsked h hk _ _ _ (by simp)
  case setRoute => (repeat' split) <;> exact portsInv_answerAsked (by exact portsInv_same h rfl rfl rfl) hk _ _ _ (by simp)
  case loadProfile =>
    have hp : p = .portC := by cases p <;> first | rfl | simp [Request.kind, Kind.permitted] at hq
    subst hp
    split
    · rename_i hi
      exact portsInv_begun hl h hi ⟨h.1.1, fun q hq => by cases hq; rfl⟩ _ rfl rfl (.inl ⟨rfl, rfl⟩)
    · exact portsInv_answerAsked h hk _ _ _ (by simp)
  case flashXfer x =>
    have hp : p = .portC := by cases p <;> first | rfl | simp [Request.kind, Kind.permitted] at hq
    subst hp
    (repeat' split)
    · exact portsInv_answerAsked (portsInv_same h rfl rfl rfl) hk _ _ _ (by simp)
    · exact portsInv_answerAsked (portsInv_same h rfl rfl rfl) hk _ _ _ (by simp)
    · exact portsInv_answerAsked (portsInv_same h rfl rfl rfl) hk _ _ _ (by simp)
    · rename_i hi _ _
      simp only [ne_eq, Decidable.not_not] at hi
      refine portsInv_begun hl h hi ⟨?_, h.1.2⟩ _ rfl rfl (.inr ⟨rfl, _, rfl, rfl⟩)
      rintro t ⟨⟩
      exact ⟨hr x rfl, rfl⟩
  case deviceReset => exact portsInv_deviceReset s

/-! ### Frames -/

/-- The end of a frame. -/
theorem portsInv_concludeFrame {s : State} (hl : LoaderInv s.pld) (h : PortsInv s) (p strap j)
    (hw : s.awaitsAnswer p = false) (hf : (s.ports.get p).frame = none)
    (hj : ∀ r, j = .delivered r → CountOk r ∧ r.kind.permitted p = true ∧ Asked s p) :
    PortsInv (concludeFrame p strap j s) := by
  cases j with
  | delivered r => exact portsInv_deliver hl h p r strap (hj r rfl).1 (hj r rfl).2.2 (hj r rfl).2.1
  | refused st k => exact portsInv_answer h _ _ _ _ (by simp) hw fun _ => hf
  | truncated =>
    have := portsInv_setPort h p { s.ports.get p with truncated := satInc16 (s.ports.get p).truncated }
      ⟨(h.2.1 p).2, .inl ⟨rfl, rfl, rfl⟩⟩
    exact portsInv_same this rfl rfl rfl
  | dropped =>
    have := portsInv_setPort h p { s.ports.get p with dropped := satInc16 (s.ports.get p).dropped }
      ⟨(h.2.1 p).2, .inl ⟨rfl, rfl, rfl⟩⟩
    exact portsInv_same this rfl rfl rfl

/-- A frame's end empties the slot or leaves it. -/
theorem closeFrame_slot (f : Frame) (bytes) (c : Cpi) : (c.closeFrame f bytes).slot = c.slot ∨
    SlotFree (c.closeFrame f bytes).slot := by
  simp only [Cpi.closeFrame, Cpi.released, Cpi.statusLeft]
  split
  · exact .inl rfl
  · dsimp only
    split
    · exact .inr (.inl rfl)
    · exact .inl rfl

/-- A frame's end leaves a legal port. -/
theorem frameInv_closeFrame (f : Frame) (bytes) (c : Cpi) : FrameInv (c.closeFrame f bytes) := by
  exact ⟨by simp [Cpi.closeFrame, Cpi.released], List.length_take_le _ _, by simp [Cpi.closeFrame, Cpi.released]⟩

/-- A modem's slot after a frame's end waits for nothing and is no PENDING one. -/
theorem modemSlotInv_closeFrame {c : Cpi} (h : ModemSlotInv c) (f : Frame) (bytes) : ModemSlotInv (c.closeFrame f bytes) := by
  refine ⟨fun k hk => ?_, fun f' r hf => by cases hf⟩
  rcases closeFrame_slot f bytes c with e | e
  · rw [e] at hk; exact h.1 k hk
  · rw [hk] at e; rcases e with e | ⟨_, e, _⟩ <;> cases e

/-- A modem's port collects its response in any frame with a whole byte: its slot is EMPTY when its request is judged. -/
theorem modemSlot_collected {c : Cpi} (h : ModemSlotInv c) : collectedSlot c = .empty := by
  cases hs : c.slot with
  | empty => simp [collectedSlot, hs]
  | pending k => exact absurd hs (h.1 k)
  | ready r =>
    cases hf : c.frame with
    | none => simp [collectedSlot, Cpi.frameOr, hf, hs, startFrame]
    | some f => have := h.2 f r hf hs; simp [collectedSlot, Cpi.frameOr, hf, this.1, this.2]

/-- The frame of a port that awaits nothing ends. -/
theorem portsInv_endedPort {s : State} (h : PortsInv s) (p bytes) (hw : s.awaitsAnswer p = false) :
    PortsInv (s.setPort p (endedPort (s.ports.get p) bytes)) := by
  refine portsInv_setPort h p _ ⟨frameInv_closeFrame _ _ _, .inr ⟨hw, ?_, fun hp => ?_⟩⟩
  · rcases closeFrame_slot (s.ports.get p).frameOr bytes (s.ports.get p).inFrame with h | h
    · left; rw [endedPort, h]; simp only [Cpi.inFrame]; split <;> rfl
    · exact .inr h
  · have := h.2.2.1 p hp
    cases hb : bytes.isEmpty
    · refine ⟨fun k => ?_, fun f r hf => by cases hf⟩
      rw [endedPort_slot _ _ hb, modemSlot_collected this]
      exact fun hc => by cases hc
    · refine ⟨fun k => ?_, fun f r hf => by cases hf⟩
      have e : (endedPort (s.ports.get p) bytes).slot = (s.ports.get p).slot := by
        cases hf : (s.ports.get p).frame <;>
          simp [endedPort, Cpi.inFrame, Cpi.openFrame, Cpi.closeFrame, Cpi.released, hf, hb]
      rw [e]; exact this.1 k

/-- A port whose frame has ended with a whole byte is asked. -/
theorem asked_endedPort {s : State} (h : PortsInv s) (p bytes) (hw : s.awaitsAnswer p = false)
    (hb : bytes.isEmpty = false) : Asked (s.setPort p (endedPort (s.ports.get p) bytes)) p := by
  refine ⟨hw, by simp [endedPort_frame], by simp [endedPort_selectLow], fun hp => ?_⟩
  simp only [State.setPort_ports, PerPort.get_set, if_true]
  rw [endedPort_slot _ _ hb, modemSlot_collected (h.2.2.1 p hp)]

/-- A port released without a frame. -/
theorem portsInv_released {s : State} (h : PortsInv s) (p) (hw : s.awaitsAnswer p = false) :
    PortsInv (s.setPort p (s.ports.get p).released) := by
  have hf := (h.2.1 p).2
  refine portsInv_setPort h p _ ⟨⟨by simp [Cpi.released], hf.2.1, by simp [Cpi.released]⟩, .inr ⟨hw, .inl rfl, fun hp => ?_⟩⟩
  exact ⟨(h.2.2.1 p hp).1, fun f r hf => by cases hf⟩

/-- A request's frame. -/
theorem portsInv_requestFrame {s : State} (hl : LoaderInv s.pld) (h : PortsInv s) (p r strap) :
    PortsInv (requestFrame p r strap s) := by
  rcases requestFrame_cases p r strap s with ⟨e, hw⟩ | ⟨e, -⟩ | ⟨e, ht⟩ <;> rw [e]
  · exact portsInv_released h p (awaits_of_selectLow h ((h.2.1 p).2.2.2 hw).1)
  · exact h
  · have hb := requestBytes_ne_nil r
    rw [State.frameEnded_eq]
    refine portsInv_concludeFrame (by exact hl) (portsInv_endedPort h p _ ht.2) _ _ _ ht.2 (by simp [endedPort_frame])
      fun r' hj => ?_
    obtain ⟨rfl, hq, hx⟩ := judgeCommand_delivered hj
    exact ⟨countOk_of_requestLengthOk _ hx, hq, asked_endedPort h p _ ht.2 hb⟩

/-- A request judged delivered names at most 24 bytes. -/
theorem countOk_of_judgeRequest {p bytes r} (h : judgeRequest p bytes = .delivered r) : CountOk r := by
  simp only [judgeRequest, judgePermission] at h
  (repeat' split at h) <;> simp at h
  rename_i k hk hlo hp
  subst h
  rintro x hx
  cases k <;> simp only [parsePayload] at hx <;> try (cases hx; done)
  simp only [lengthOk, xferLengthOk, Bool.and_eq_true, decide_eq_true_eq] at hlo
  cases hx
  have : byteAt (List.take (u8 bytes 1) (List.drop 2 bytes)) 7 = byteAt (List.drop 2 bytes) 7 := by
    simp only [byteAt, List.getD_eq_getElem?_getD]
    rw [List.getElem?_take_of_lt (by omega)]
  simp only [this]
  exact hlo.2.1

/-- A request judged delivered is one that its port may carry. -/
theorem permitted_of_judgeRequest {p bytes r} (h : judgeRequest p bytes = .delivered r) : r.kind.permitted p = true := by
  simp only [judgeRequest, judgePermission] at h
  (repeat' split at h) <;> simp at h
  subst h; assumption

/-- A rising select edge. -/
theorem portsInv_selectRise {s : State} (hl : LoaderInv s.pld) (h : PortsInv s) (p bytes part strap) :
    PortsInv (selectRise p bytes part strap s) := by
  simp only [selectRise, endFrame]
  split
  · rename_i hlow
    have hw := awaits_of_selectLow h hlow
    split
    · exact portsInv_released h p hw
    · rename_i f hf
      have e : (s.ports.get p).closeFrame f bytes = endedPort (s.ports.get p) bytes := by
        simp [endedPort, Cpi.inFrame, Cpi.frameOr, hf]
      split
      · exact portsInv_released h p hw
      · rw [e]
        refine portsInv_concludeFrame (by exact hl) (portsInv_endedPort h p _ hw) _ _ _ hw (by simp [endedPort_frame])
          fun r hj => ?_
        have hb : bytes.isEmpty = false := by
          cases bytes with
          | nil => simp [judgeFrame, isComplete] at hj
          | cons => rfl
        simp only [judgeFrame] at hj
        (repeat' split at hj) <;> try (simp at hj; done)
        exact ⟨countOk_of_judgeRequest hj, permitted_of_judgeRequest hj, asked_endedPort h p _ hw hb⟩
  · exact h

/-- A falling select edge. -/
theorem portsInv_selectFall {s : State} (h : PortsInv s) (p) : PortsInv (selectFall p s) := by
  simp only [selectFall]
  split
  · exact h
  · rename_i hlow
    simp only [Bool.or_eq_true, not_or, Bool.not_eq_true] at hlow
    have hf := (h.2.1 p).2
    refine portsInv_setPort h p _ ⟨⟨fun _ => rfl, hf.2.1, fun hw => ?_⟩, .inr ⟨hlow.2, .inl rfl, fun hp => ?_⟩⟩
    · have := (hf.2.2 hw).1
      rw [hlow.1] at this; cases this
    · refine ⟨(h.2.2.1 p hp).1, fun f r hf hr => ?_⟩
      cases hf
      simp only [Cpi.openFrame] at hr
      simp [startFrame, hr]

/-- The first byte has left. -/
theorem portsInv_statusByteShifted {s : State} (h : PortsInv s) (p) : PortsInv (statusByteShifted p s) := by
  simp only [statusByteShifted]
  split
  · exact h
  · rename_i f hf
    have hi := (h.2.1 p).2
    have hlow := hi.1 (by rw [hf]; rfl)
    refine portsInv_setPort h p _ ⟨⟨fun _ => hlow, hi.2.1, fun hw => ?_⟩, .inr ⟨awaits_of_selectLow h hlow, ?_, fun hp => ?_⟩⟩
    · have := (hi.2.2 hw).2
      rw [hf] at this; cases this
    · simp only [Cpi.statusLeft]
      split
      · exact .inr (.inl rfl)
      · exact .inl rfl
    · obtain ⟨h1, h2⟩ := h.2.2.1 p hp
      refine ⟨fun k => ?_, fun f' r hf' hr => ?_⟩
      · simp only [Cpi.statusLeft]
        split
        · exact fun hc => by cases hc
        · exact h1 k
      · exfalso
        simp only [Cpi.statusLeft] at hr
        split at hr
        · cases hr
        · rename_i hc
          have := h2 f r hf hr
          simp [this.1, this.2] at hc

/-! ### The loader's operations -/

/-- The ports stand and every operation goes on. -/
theorem portsInv_ops {s t : State} (h : PortsInv s) (ht : TransferInv t.pld) (hp : t.ports = s.ports)
    (hb : t.bau.held = s.bau.held) (ho : ∀ q k, operationFor s q k → operationFor t q k) : PortsInv t := by
  refine portsInv_step h ht (fun q => by simp only [heldAnnounces, hb]) (fun q => by rw [hp]; exact portStep_same h q) fun q => ?_
  have := (h.2.1 q).1
  simp only [SlotInv, hp] at this ⊢
  split <;> rename_i hs <;> rw [hs] at this
  · trivial
  · exact ho _ _ this
  · exact this

/-- The BAU's entry to RUN holds and takes no held event. -/
theorem takeBauEntry_held (t : Stamp) (s : State) : (takeBauEntry t s).bau.held = s.bau.held := by
  simp only [takeBauEntry]
  split
  · rfl
  · rw [bauEntry_eq]

/-- The entry to RUN. -/
theorem portsInv_enterRun {s : State} (h : PortsInv s) : PortsInv s.enterRunWhenDelivered := by
  simp only [State.enterRunWhenDelivered]
  split
  · exact portsInv_ops h h.1 rfl rfl fun _ _ => id
  · exact h

/-- An operation of port C ends and the port is answered. -/
theorem portsInv_ended {s t : State} (p : Port) (h : PortsInv s) (ht : TransferInv t.pld) (r : Response)
    (hr : r.payload.length ≤ 60) (hc : p = .portC) (hb : t.bau.held = s.bau.held)
    (hp : t.ports = s.ports.set p { s.ports.get p with slot := .ready r })
    (ho : ∀ q k, operationFor s q k → operationFor t q k ∨ q = p) : PortsInv t := by
  refine portsInv_step h ht (fun q => by simp only [heldAnnounces, hb]) (fun q => ?_) fun q => ?_
  · by_cases hq : q = p
    · subst hq
      rw [hp, PerPort.get_set, if_pos rfl]
      refine ⟨(h.2.1 _).2, .inr ⟨?_, .inr (.inr ⟨r, rfl, hr⟩), fun hn => absurd hc hn⟩⟩
      cases ha : s.awaitsAnswer q
      · rfl
      · exact absurd hc (h.2.2.2 q ha).1
    · rw [hp, PerPort.get_set, if_neg hq]; exact portStep_same h q
  · have := (h.2.1 q).1
    by_cases hq : q = p
    · subst hq
      exact slotInv_free (.inr ⟨r, by simp [hp], hr⟩)
    · simp only [SlotInv, hp, PerPort.get_set, hq, if_false] at this ⊢
      split <;> rename_i hs <;> rw [hs] at this
      · trivial
      · exact (ho _ _ this).resolve_right hq
      · exact this

/-- A transfer ends. -/
theorem portsInv_endTransfer {s : State} (hl : LoaderInv s.pld) (h : PortsInv s) (x : Transfer) (out)
    (hx : s.pld.transfer = some x)
    (st k b) (hb : b.length ≤ 60) : PortsInv (({ s with pld := endTransfer out s.pld }).answer x.port st k b) := by
  refine portsInv_ended x.port h ⟨by rintro t ⟨⟩, h.1.2⟩ _ hb (h.1.1 x hx).2 rfl rfl ?_
  rintro q k (⟨_, h1⟩ | ⟨_, t, h1, h2⟩)
  · obtain ⟨a, b, c, d, e⟩ := hl; simp_all
  · right; rw [hx] at h1; cases h1; exact h2.symm

end Sys2Proof.Machine
end

