-- ==== Sys2Proof/Laws/Step.lean ====
section
/-! SUPPORT. What one step is: the time base passes on, or the front command runs. -/

namespace Sys2Proof.Machine

/-- A step that answers next: the time base passed on, or the command at the front ran on the rest of the queue. -/
theorem step_cases {s t : State} (h : step s = .next t) :
    t = { s with timeBase := s.timeBase + 1 } ∨
      ∃ c rest, s.pending = c :: rest ∧ exec c { s with pending := rest } = .next t := by
  unfold step at h
  split at h
  · left; exact (Host.Outcome.next.inj h).symm
  · rename_i c rest hp; exact .inr ⟨c, rest, hp, h⟩

end Sys2Proof.Machine
end

