-- ==== Sys2Proof/Laws/Thermal.lean ====
section
/-! SUPPORT. What readings and the stage machine keep (R105, R108 to R114). -/

namespace Sys2Proof.Machine

/-- The stage reached is the highest whose threshold is at or below t (R112). -/
theorem stageReached_spec (p : ZoneParams) (t) (n) : stageReached p t n ≤ n ∧
    (∀ u, stageReached p t n < u → u ≤ n → t < riseOf p u) ∧ (stageReached p t n ≠ 0 → riseOf p (stageReached p t n) ≤ t) ∧ ∀ u, u ≤ n → u ≠ 0 → riseOf p u ≤ t → u ≤ stageReached p t n := by
  induction n with
  | zero => simp [stageReached]; intro u h1 h2; omega
  | succ n ih =>
    simp only [stageReached]
    split
    · rename_i h
      exact ⟨Nat.le_refl _, fun u h1 h2 => by omega, fun _ => h, fun u h1 _ _ => h1⟩
    · rename_i h
      refine ⟨by omega, fun u h1 h2 => ?_, ih.2.2.1, fun u h1 h2 h3 => ?_⟩
      · rcases Nat.eq_or_lt_of_le h2 with rfl | h4
        · omega
        · exact ih.2.1 u h1 (by omega)
      · rcases Nat.eq_or_lt_of_le h1 with rfl | h4
        · exact absurd h3 h
        · exact ih.2.2.2 u (by omega) h2 h3

/-- A good reading keeps the runs legal. -/
theorem sensorInv_goodReading (t : Int) (r : SensorRecord) (h : SensorInv r) : SensorInv (goodReading t r).val := by
  obtain ⟨st, temp, lr, fr, gr⟩ := r
  simp only [SensorInv] at h
  simp only [goodReading]
  (repeat' split) <;> simp_all [SensorInv, Eff.pure]
  omega

/-- A fault reading keeps the runs legal. -/
theorem sensorInv_faultReading (r : SensorRecord) (h : SensorInv r) : SensorInv (faultReading r).val := by
  obtain ⟨st, temp, lr, fr, gr⟩ := r
  simp only [SensorInv] at h
  simp only [faultReading]
  (repeat' split) <;> simp_all [SensorInv, Eff.pure]
  omega

/-- A reading keeps the runs legal. -/
theorem sensorInv_readSensor (tb raw) (r : SensorRecord) (h : SensorInv r) : SensorInv (readSensor tb raw r).val := by
  simp only [readSensor]
  split
  · exact sensorInv_faultReading _ h
  · exact sensorInv_goodReading _ _ h

/-- A round keeps the stage legal. -/
theorem zoneInv_updateZone (z) (p : ZoneParams) (sensors) (at_) (r : ZoneRecord) (h : ZoneInv p r) :
    ZoneInv p (updateZone z p sensors at_ r).val := by
  obtain ⟨h1, h2, h3, h4⟩ := h
  have hs : ∀ t, stageReached p t 7 ≤ 7 := fun t => (stageReached_spec p t 7).1
  simp only [updateZone, handleForced, evaluateZone, changeStage, changeTrip, restartDwell]
  (repeat' split) <;> simp_all [ZoneInv, Eff.pure] <;> omega

/-- The THU at reset. -/
theorem thermalInv_reset : ThermalInv Thu.reset := by
  refine ⟨fun n => ?_, fun z => ?_⟩ <;> simp only [SensorInv, ZoneInv]
  · cases n <;> decide +kernel
  · cases z <;> decide +kernel

/-! ### Members of a zone -/

theorem mem_membersOf (p : ZoneParams) (n : Sensor) : n ∈ membersOf p ↔ p.members.get n = true := by
  simp only [membersOf, List.mem_filter, and_iff_right_iff_imp]
  intro; cases n <;> decide

/-- A zone is forced when every member is in FAULT (R108). -/
theorem isForced_iff (sensors : PerSensor SensorRecord) (p : ZoneParams) :
    isForced sensors p = true ↔ ∀ n, p.members.get n = true → (sensors.get n).state = .fault := by
  simp [isForced, List.all_eq_true, mem_membersOf]

/-- What a sensor contributes: its temperature outside FAULT (R106). -/
theorem contribution_eq_some_iff (r : SensorRecord) (x : Int) :
    contribution r = some x ↔ r.state ≠ .fault ∧ r.temperature = some x := by
  simp only [contribution]
  cases r.state <;> simp

/-- The greatest of some temperatures that may be none. -/
theorem foldl_hottest_eq_some_iff (l : List (Option Int)) (a : Option Int) (x : Int) :
    l.foldl hottest a = some x ↔ some x ∈ a :: l ∧ ∀ y, some y ∈ a :: l → y ≤ x := by
  induction l generalizing a with
  | nil => simp only [List.foldl_nil, List.mem_singleton]; grind
  | cons b l ih =>
    rw [List.foldl_cons, ih]
    cases a <;> cases b <;> simp only [hottest, List.mem_cons] <;> grind

/-- A zone's temperature is the greatest contribution among its members (R108). -/
theorem zoneTemperature_eq_some_iff (sensors : PerSensor SensorRecord) (p : ZoneParams) (x : Int) :
    zoneTemperature sensors p = some x ↔
      (∃ n, p.members.get n = true ∧ contribution (sensors.get n) = some x) ∧
        ∀ n y, p.members.get n = true → contribution (sensors.get n) = some y → y ≤ x := by
  rw [zoneTemperature, foldl_hottest_eq_some_iff]
  simp only [List.mem_cons, List.mem_map, mem_membersOf]
  grind

end Sys2Proof.Machine
end

