-- ==== Sys2Proof/Laws/Windows.lean ====
section
/-! SUPPORT. What the rings and windows keep (R40 to R53). -/

namespace Sys2Proof.Machine

/-- A timer whose deadline is reached is due. -/
theorem dueTimer_of_reached {now d} (h : reached now d = true) : dueTimer now (some d) = some d :=
    by simp [dueTimer, h]

/-- A sum over some chains is a sum over all with zeros. -/
theorem sum_filter (p : Chain → Prop) [DecidablePred p] (f : Chain → Nat) (l : List Chain) :
    ((l.filter fun i => decide (p i)).map f).sum = (l.map fun i => if p i then f i else 0).sum := by
  induction l with
  | nil => rfl
  | cons a l ih => by_cases h : p a <;> simp [h, ih]

/-- A push keeps the newest 1023 and adds the record. -/
theorem pushRecord_eq (ring : List EpochRecord) (r) : pushRecord ring r = ring.drop (ring.length + 1 - 1024) ++ [r]
    := by
  simp only [pushRecord, Config.ringCapacity]
  rw [List.drop_append_of_le_length (by omega)]

/-- No epoch has the index 0 (R40). -/
theorem nextEpoch_ne_zero (e : EpochIndex) : nextEpoch e ≠ 0 := by
  simp only [nextEpoch]
  split
  · decide
  · rename_i h
    intro h0
    apply h
    have h1 : e + 1#32 - 1#32 = 0#32 - 1#32 := congrArg (· - 1#32) h0
    rw [BitVec.add_sub_cancel] at h1
    rw [h1]; decide

/-- The ring without its oldest record stands in order. -/
theorem ringOrdered_tail {a} {l : List EpochRecord} (h : RingOrdered (a :: l)) : RingOrdered l := by
  cases l with
  | nil => trivial
  | cons b l => exact h.2

/-- The newest records stand in order. -/
theorem ringOrdered_drop (n) {l : List EpochRecord} (h : RingOrdered l) : RingOrdered (l.drop n) := by
  induction n generalizing l with
  | zero => exact h
  | succ n ih =>
    cases l with
    | nil => trivial
    | cons a l => exact ih (ringOrdered_tail h)

/-- A record that follows the newest keeps the order. -/
theorem ringOrdered_push {l : List EpochRecord} {r} (h : RingOrdered l) (hr : ∀ x ∈ l.getLast?, recordsFollow x r)
    : RingOrdered (l ++ [r]) := by
  induction l with
  | nil => trivial
  | cons a l ih =>
    cases l with
    | nil => exact ⟨hr a rfl, trivial⟩
    | cons b l => exact ⟨h.1, ih h.2 hr⟩

/-- Assumed records stand in order. -/
theorem ringOrdered_assumed (n) (r : EpochRecord) (h : r.assumed = true) : RingOrdered (List.replicate n r) := by
  induction n with
  | zero => trivial
  | succ n ih =>
    cases n with
    | zero => trivial
    | succ n => exact ⟨⟨fun _ => h, fun h' => by rw [h] at h'; cases h'⟩, ih⟩

/-- The newest record of the newest records is the newest. -/
theorem getLast_of_drop {α} (l : List α) (n) (x) (h : x ∈ (l.drop n).getLast?) : x ∈ l.getLast? := by
  rw [Option.mem_def, List.getLast?_drop] at h
  split at h
  · cases h
  · exact h

/-- The EWU at reset. -/
theorem windowInv_reset : WindowInv Ewu.reset :=
  ⟨fun _ => by simp only [WindowStopped]; decide +kernel, fun h => absurd rfl h⟩

/-- What STOPPED holds for its entry does not enter into the invariant. -/
theorem windowInv_stopped {e : Ewu} (h : WindowInv e) (hs : e.state = .stopped) (p a t) :
    WindowInv { e with params := p, startupAnswer := a, heldEntry := t } :=
  ⟨fun _ => h.1 hs, fun hn => absurd hs hn⟩

/-- The entry to RUN. -/
theorem windowInv_startedEwu {e : Ewu} (h : WindowInv e) (hs : e.state = .stopped) (t a) :
    WindowInv (startedEwu t a e) := by
  obtain ⟨h1, h2, h3, h4, h5⟩ := h.1 hs
  refine ⟨fun h => (by cases h), fun _ => ⟨rfl, (by show (1 : EpochIndex) ≠ 0; decide), fun _ => ⟨h3, h4⟩,
      fun h => (by cases h), fun g => ?_⟩⟩
  have hg : (startedEwu t a e).groups.get g = startGroup e a g := by simp [startedEwu]
  rw [hg]
  refine ⟨rfl, ?_, ?_, ?_⟩
  · simp only [startGroup, EwuGroup.refresh, prechargedRing]
    split <;> simp
  · simp only [startGroup, EwuGroup.refresh, prechargedRing]
    split
    · exact ringOrdered_assumed _ _ rfl
    · trivial
  · simp only [startGroup, EwuGroup.refresh, prechargedRing]
    split
    · intro r hr
      rw [List.getLast?_replicate] at hr
      split at hr
      · cases hr
      · cases hr; exact .inl rfl
    · intro r hr; cases hr

/-- The expiry of the epoch timer. -/
theorem windowInv_epochExpiry {e : Ewu} (h : WindowInv e) (hs : e.state = .steady) (b) :
    WindowInv (epochExpiry b e).val := by
  obtain ⟨h1, h2, h3, h4, h5⟩ := h.2 (by rw [hs]; decide)
  refine ⟨fun h => (by cases h), fun _ => ⟨rfl, nextEpoch_ne_zero _, fun h => (by cases h), fun _ => rfl,
      fun g => ?_⟩⟩
  have := h5 g
  simp only [GroupInv, Ewu.openIndex, hs] at this ⊢
  exact this

/-- An item held in COLLECTING. -/
theorem windowInv_held {e : Ewu} (h : WindowInv e) (hs : e.state = .collecting) (r a) :
    WindowInv { e with report := r, answer := a } := by
  obtain ⟨h1, h2, h3, h4, h5⟩ := h.2 (by rw [hs]; decide)
  refine ⟨fun h => ?_, fun _ => ⟨h1, h2, fun h => ?_, h4, h5⟩⟩
  · have h : e.state = .stopped := h
    rw [hs] at h; cases h
  · have h : e.state = .steady := h
    rw [hs] at h; cases h

/-- A push keeps the ring within its capacity. -/
theorem pushRecord_length_le (l : List EpochRecord) (r) (h : l.length ≤ Config.ringCapacity) :
    (pushRecord l r).length ≤ Config.ringCapacity := by
  rw [pushRecord_eq, List.length_append, List.length_drop, List.length_singleton]
  revert h
  simp only [Config.ringCapacity]
  generalize l.length = n
  omega

/-- The close computation. -/
theorem windowInv_closedEwu {e : Ewu} (h : WindowInv e) (hs : e.state = .collecting) (r a) :
    WindowInv (closedEwu e r a) := by
  obtain ⟨h1, h2, h3, h4, h5⟩ := h.2 (by rw [hs]; decide)
  refine ⟨fun h => (by cases h), fun _ => ⟨h1, h2, fun _ => ⟨rfl, rfl⟩, fun h => (by cases h), fun g => ?_⟩⟩
  have hg : (closedEwu e r a).groups.get g = closeGroup e r a g := by simp [closedEwu]
  obtain ⟨g1, g2, g3, g4⟩ := h5 g
  simp only [Ewu.openIndex, hs, if_true] at g4
  have hring : (closeGroup e r a g).ring = pushRecord (e.groups.get g).ring (closingRecord e r g) := by
    simp only [closeGroup, EwuGroup.refresh]
  rw [hg]
  refine ⟨by simp only [closeGroup, EwuGroup.refresh, closedEwu], ?_, ?_, ?_⟩
  · rw [hring]; exact pushRecord_length_le _ _ g2
  · rw [hring, pushRecord_eq]
    generalize (e.groups.get g).ring.length + 1 - 1024 = n
    refine ringOrdered_push (ringOrdered_drop _ g3) fun x hx => ⟨fun h => (by cases h), fun hf => ?_⟩
    rcases g4 x (getLast_of_drop _ _ _ hx) with h | h
    · rw [hf] at h; cases h
    · exact h.symm
  · rw [hring, pushRecord_eq]
    intro x hx
    rw [List.getLast?_append] at hx
    simp at hx
    subst hx
    right
    exact h4 hs

end Sys2Proof.Machine
end

