-- ==== Sys2Proof/Tests/Slice0.lean ====
section
/-! SUPPORT. The package's own tests: ill-formed operands that the checks refuse, figures the spec gives, one step of each
command, and for every statement with hypotheses a state and operands that meet them. -/

namespace Sys2Proof.Tests

set_option Elab.async false

open Sys2Proof.Machine

/-! ### Small states -/

/-- The state a command leaves. -/
def after (c : Instr) (s : State) : State :=
  match exec c s with
  | .next t => t
  | _ => s

/-- A chain in RUN with a ceiling of 160 and its line released. -/
def openChain : BauChain := { BauChain.reset with heldCeiling := .code 160, heldInhibit := false }

/-- A part in RUN in epoch 1 with nothing announced. -/
def running : State :=
  { State.reset with
    timeBase := 1000
    bau := { Bau.reset with inRun := true, shared := { Bau.reset.shared with epoch := 1 }, chains := Rom.everyChain openChain }
    ewu := { Ewu.reset with state := .steady, timer := some 1000, epochIndex := 1 }
    clu := { Clu.reset with loading := false, epoch := 1 }
    thu := { Thu.reset with timer := some 1000 }
    ovu := { Ovu.reset with inRun := true }
    pld := { Pld.reset with state := .idle, startupResult := some zeroResult } }

/-- A chain's BAU record replaced. -/
def withChain (i : Chain) (c : BauChain) (s : State) : State :=
  { s with bau := { s.bau with chains := s.bau.chains.set i c } }

/-- A pulse at a code that rose at stamp 500. -/
def pulseAt (code : Code) : Pulse :=
  { rise := 500, unannounced := false, maxDuration := some 400, overrunDeadline := some 900, overrunMark := false,
    segment := { code := code, start := 500, k := 0, inhibited := false, marked := false } }

/-- An announcement that arrived at stamp 10. -/
def entryAt (code : Code) : QueueEntry := { code := code, maxDuration := some 400, arrival := 10 }

/-- The parameters of the last delivery of a start-up load. -/
def lastDelivery : EwuParams := { tMs := 50, precharge := .empty, map := Rom.chainGroups }

/-- A part in LOADING whose start-up load has been read, with one delivery under way. -/
def loaded : State :=
  { State.reset with
    pld := { Pld.reset with startupResult := some zeroResult }
    notices := [.ewuLimitsDelivery lastDelivery] }

/-- A port with a frame open on a slot. -/
def framed (x : Slot) : Cpi := { Cpi.reset false with selectLow := true, frame := some (startFrame x), slot := x }

/-- The slot of a port after a command. -/
def slotAfter (c : Instr) (s : State) (p : Port) : Slot := ((after c s).ports.get p).slot

/-- A transfer of 16 bytes in. -/
def readIn (count : Byte) : XferRequest :=
  { command := 0x9F, addressMode := 0, address := 0, dummy := 0, direction := 0, count := count, data := [] }

/-- A transfer out to an address. -/
def writeOut (address : BitVec 24) (data : List Byte) : XferRequest :=
  { command := 0x02, addressMode := 1, address := address, dummy := 0, direction := 1,
    count := BitVec.ofNat 8 data.length, data := data }

/-! ### Well-formedness: each check refuses an ill-formed operand -/

theorem test_illformed_requests :
    (Instr.flashXfer .portC (writeOut 0 (List.replicate 25 0)) true).wf = false ∧
      (Instr.transferEnd (List.replicate 25 0)).wf = false ∧ (Instr.strapFall 44).wf = false ∧
      (Instr.startupLoadEnd [{ base := 16777216, bytes := [0] }]).wf = false ∧
      (Instr.reloadEnd [{ base := 16777215, bytes := [0, 0] }]).wf = false := by decide +kernel

theorem test_illformed_notices :
    (Instr.ceilingChangeNotice { chain := .tx0, ceiling := .code 1, inhibit := true, stamp := 0 }).wf = false ∧
      (Instr.epochEnergyReport (Rom.everyChain { energy := 1185500001, strikes := 0 })).wf = false ∧
      (Instr.policyAnswer { scenario := 8, limits := ⟨Rom.groupLimits, Rom.groupLimits⟩, map := none }).wf = false ∧
      (Instr.policyAnswer
        { scenario := 0, limits := ⟨{ avg := 1, floor := 2, window := 2 }, Rom.groupLimits⟩, map := none }).wf = false ∧
      (Instr.policyAnswer
        { scenario := 0, limits := ⟨Rom.groupLimits, { avg := 2, floor := 2, window := 1025 }⟩, map := none }).wf = false ∧
      (Instr.groupAllowanceNotice .g0 24279040000001).wf = false ∧
      (Instr.scenarioDelivery (Rom.everyChain 16) (Rom.everyChain .uncapped)).wf = false ∧
      (Instr.profileDelivery (Rom.everyChain { cmax := 0, k := 33, group := .g0, zone := .z0 })).wf = false ∧
      (Instr.stageTripNotice { zone := .z0, stage := 8, backoff := 0, trip := false }).wf = false ∧
      (Instr.stageTripNotice { zone := .z0, stage := 7, backoff := 256, trip := false }).wf = false ∧
      (Instr.stageTripNotice { zone := .z0, stage := 6, backoff := 0, trip := true }).wf = false ∧
      (Instr.levelLockNotice (.level 5) 12).wf = false ∧ (Instr.levelLockNotice .lock 0).wf = false ∧
      (Instr.startupPolicyAnswer
        { scenario := 0, limits := ⟨Rom.groupLimits, Rom.groupLimits⟩, map := some Rom.chainGroups }).wf = false := by
  decide +kernel

theorem test_illformed_raises :
    (Instr.eventRaise { cls := .port, mask := 8 }).wf = false ∧ (Instr.eventRaise { cls := .ceiling, mask := 0 }).wf = false ∧
      (Instr.eventRaise { cls := .stale, mask := 3 }).wf = false ∧ (Instr.eventRaise { cls := .overshoot, mask := 0 }).wf = false ∧
      (Instr.eventRaise { cls := .enforce, mask := 0 }).wf = false ∧
      (Instr.eventRaise { cls := .unannounced, mask := 15 }).wf = false ∧
      (Instr.eventRaise { cls := .thermal, mask := 1 }).wf = false := by decide +kernel

/-- A LIMITS section out of its ranges in one field each. -/
theorem test_illformed_limits :
    { Rom.limits with chains := Rom.everyChain { cmax := 0, group := .g0, k := 33, owner := .noOwner } }.wf = false ∧
      { Rom.limits with tMs := 60 }.wf = false ∧ { Rom.limits with threshold := 16 }.wf = false ∧
      { Rom.limits with graceMs := 11 }.wf = false ∧ { Rom.limits with staleMs := 0 }.wf = false ∧
      { Rom.limits with protectedEnd := 0 }.wf = false ∧ { Rom.limits with guarded := List.replicate 9 0 }.wf = false ∧
      Rom.limits.wf = true := by decide +kernel

theorem test_illformed_policy :
    (Instr.pstStartupDelivery { scenarios := [], limits := Rom.limits, zones := Rom.chainZones }).wf = false ∧
      (Instr.pstStartupDelivery
        { scenarios := List.replicate 9 Rom.scenario, limits := Rom.limits, zones := Rom.chainZones }).wf = false ∧
      (Instr.pstStartupDelivery
        { scenarios := [{ Rom.scenario with weights := Rom.everyChain 16 }], limits := Rom.limits,
          zones := Rom.chainZones }).wf = false ∧
      { Rom.scenario with limits := ⟨{ avg := 0, floor := 0, window := 1 }, Rom.groupLimits⟩ }.wf = false ∧
      { Rom.scenario with limits := ⟨Rom.groupLimits, { avg := 0, floor := 0, window := 1 }⟩ }.wf = false ∧
      (Instr.pstStartupDelivery
        { scenarios := [Rom.scenario], limits := { Rom.limits with tMs := 60 }, zones := Rom.chainZones }).wf = false ∧
      (Instr.bauLimitsDelivery
        { chains := Rom.everyChain { cmax := 0, k := 33 }, staleMs := 20, graceMs := 2, threshold := 4 }).wf = false ∧
      (Instr.bauLimitsDelivery
        { chains := Rom.everyChain { cmax := 0, k := 0 }, staleMs := 101, graceMs := 2, threshold := 4 }).wf = false ∧
      (Instr.bauLimitsDelivery
        { chains := Rom.everyChain { cmax := 0, k := 0 }, staleMs := 20, graceMs := 11, threshold := 4 }).wf = false ∧
      (Instr.bauCloseAnswer
        (some { chains := Rom.everyChain { cmax := 0, k := 0 }, staleMs := 20, graceMs := 2, threshold := 16 })).wf = false ∧
      (Instr.ewuLimitsDelivery { tMs := 75, precharge := .full, map := Rom.chainGroups }).wf = false := by decide +kernel

/-- One zone of the ROM out of its ranges in one field each. -/
theorem test_illformed_thermal :
    { Rom.zone ⟨true, true, false, false⟩ with rise := [360] }.wf = false ∧
      { Rom.zone ⟨true, true, false, false⟩ with backoff := [4] }.wf = false ∧
      { Rom.zone ⟨true, true, false, false⟩ with riseTrip := 1201 }.wf = false ∧
      { Rom.zone ⟨true, true, false, false⟩ with riseTrip := 600 }.wf = false ∧
      { Rom.zone ⟨true, true, false, false⟩ with hyst := 81 }.wf = false ∧
      { Rom.zone ⟨true, true, false, false⟩ with dwellMs := 99 }.wf = false ∧
      { Rom.zone ⟨true, true, false, false⟩ with backoff := [4, 8, 12, 16, 24, 32, 256] }.wf = false ∧
      { Rom.zone ⟨true, true, false, false⟩ with backoff := [4, 8, 12, 16, 24, 32, 31] }.wf = false ∧
      { Rom.zone ⟨true, true, false, false⟩ with faultStage := 8 }.wf = false ∧
      tableWf (Rom.sensorTable.take 32) = false ∧ tableWf (Rom.sensorTable.set 0 4096) = false ∧
      { Rom.thermal with periodMs := 9 }.wf = false ∧
      { Rom.thermal with tables := ⟨[], Rom.sensorTable, Rom.sensorTable, Rom.sensorTable⟩ }.wf = false ∧
      { Rom.thermal with tables := ⟨Rom.sensorTable, [], Rom.sensorTable, Rom.sensorTable⟩ }.wf = false ∧
      { Rom.thermal with tables := ⟨Rom.sensorTable, Rom.sensorTable, [], Rom.sensorTable⟩ }.wf = false ∧
      { Rom.thermal with tables := ⟨Rom.sensorTable, Rom.sensorTable, Rom.sensorTable, []⟩ }.wf = false ∧
      (∀ z, { Rom.thermal with zones := Rom.thermal.zones.set z { Rom.zone ⟨true, true, false, false⟩ with hyst := 81 } }.wf = false) ∧
      Rom.thermal.wf = true := by
  refine ⟨?_, ?_, ?_, ?_, ?_, ?_, ?_, ?_, ?_, ?_, ?_, ?_, ?_, ?_, ?_, ?_, fun z => ?_, ?_⟩ <;>
    first
    | decide +kernel
    | (cases z <;> decide +kernel)

theorem test_illformed_overload :
    (Instr.overloadDelivery { Rom.overload with oStep := 65 }).wf = false ∧
      (Instr.overloadDelivery { Rom.overload with holdMs := 9 }).wf = false ∧
      (Instr.overloadDelivery { Rom.overload with reStrikeMs := 501 }).wf = false ∧
      (Instr.overloadDelivery { Rom.overload with releaseMs := 49 }).wf = false ∧
      (Instr.overloadDelivery { Rom.overload with lockMs := 99 }).wf = false ∧
      (Instr.overloadDelivery { Rom.overload with chronicS := 61 }).wf = false ∧
      (Instr.overloadDelivery Rom.overload).wf = true := by decide +kernel

/-! ### Figures of the spec -/

/-- The table under R8, and the wrap of section 1.5. -/
theorem test_segment_energies :
    segmentEnergy 232 0 100000 = 63100000 ∧ segmentEnergy 200 8 2500 = 157750 ∧ segmentEnergy 181 0 1 = 34 ∧
      segmentEnergy 0 0 1 = 1 ∧ segmentEnergy 5 8 7 = 1 ∧ segmentEnergy 255 0 500000 = 1185500000 ∧
      segmentEnergy 232 0 0 = 0 ∧ elapsed 4294900000 33000 = 100296 := by decide +kernel

/-- The tables under R9 and R11. -/
theorem test_epoch_quantities :
    epochEnergy 200 100 = 10000000 ∧ epochEnergy 140 100 = 316200 ∧ epochEnergy 7 50 = 74 ∧
      epochEnergy 255 500 = 1185500000 ∧ groupPower 68168000 100 = 681680000 ∧ groupPower 3162001 200 = 15810005 ∧
      codeOf 681680000 = .code 233 ∧ codeOf 82300000 = .code 196 ∧ codeOf 34490000 = .code 181 ∧
      codeOf 1480 = .code 6 ∧ codeOf 980 = .off ∧ codeOf 15810005 = .code 167 := by decide +kernel

/-- The readings of sections 6.3 and 6.9. -/
theorem test_readings :
    linearise Rom.sensorTable 583 = 380 ∧ linearise Rom.sensorTable 561 = 411 ∧ linearise Rom.sensorTable 700 = 215 ∧
      linearise Rom.sensorTable 640 = 300 ∧
      linearise ((Rom.sensorTable.set 12 521).set 13 488) 384 = 521 ∧
      linearise ((Rom.sensorTable.set 12 521).set 13 488) 401 = 503 ∧ isFaultReading 2 = true ∧
      isFaultReading 3 = false ∧ isFaultReading 1020 = false ∧ isFaultReading 1021 = true := by decide +kernel

/-- The ring of section 3.8 at the close of epoch 21: seven records that count and one older. -/
def ring38 : List EpochRecord :=
  [2000000, 316200, 1500000, 0, 900000, 1200000, 400000, 600000].map fun e =>
    { epochIndex := 0, energy := e, assumed := false, strikes := 0, scenario := 0 }

/-- The table of section 3.8: the figures for epoch 22 under the four answers. -/
theorem test_window_figures :
    figuresOf ring38 { avg := 160, floor := 140, window := 8 } 100 =
        { sWin := 4916200, xWin := 3019000, xMax := 5470400, eAllow := 2767600, power := 27676000 } ∧
      figuresOf ring38 { avg := 160, floor := 140, window := 4 } 100 =
        { sWin := 2200000, xWin := 1251400, xMax := 2735200, eAllow := 1800000, power := 18000000 } ∧
      figuresOf ring38 { avg := 150, floor := 140, window := 8 } 100 =
        { sWin := 4916200, xWin := 3019000, xMax := 1968800, eAllow := 316200, power := 3162000 } ∧
      figuresOf ring38 { avg := 160, floor := 160, window := 8 } 100 =
        { sWin := 4916200, xWin := 700000, xMax := 0, eAllow := 1000000, power := 10000000 } := by decide +kernel

/-! ### The step, and the words of the table -/

theorem test_step_front_command :
    step { running with pending := [.droopRise, .droopFall] } =
      .next { after .droopRise running with pending := [.droopFall] } := by rfl

theorem test_step_tick : step running = .next { running with timeBase := 1001 } := by rfl

theorem test_no_words : decodeTableWord 0 0 = none ∧ decodeTableWord 32 0xFFFFFFFF = none := by decide

/-! ### Commands at the ports -/

theorem test_reset : after .reset running = State.reset := by decide +kernel

/-- A frame on an empty slot shifts out the NONE header and then the fill byte. -/
theorem test_selectFall :
    (((after (.selectFall .portA) running).ports.get .portA).byteOut 0,
      ((after (.selectFall .portA) running).ports.get .portA).byteOut 3) = (0x01, 0xFF) := by decide +kernel

/-- A frame that carries SET_CAP of TX1 to 170 (section 9.8, frame 6). -/
theorem test_selectRise :
    slotAfter (.selectRise .portC [0x11, 3, 1, 0, 170] false false)
        { running with ports := running.ports.set .portC (framed .empty) } .portC =
      answerSlot .ok .setCap [1, 0, 170] := by decide +kernel

/-- Its first two bytes only (section 9.8, frame 5). -/
theorem test_selectRise_truncated :
    ((after (.selectRise .portC [0x11, 3] false false)
        { running with ports := running.ports.set .portC (framed .empty) }).ports.get .portC).truncated = 1 := by
  decide +kernel

theorem test_responseStatusByteShifted :
    slotAfter (.responseStatusByteShifted .portC)
      { running with ports := running.ports.set .portC (framed (answerSlot .ok .poll [])) } .portC = .empty := by
  decide +kernel

theorem test_announceNext :
    slotAfter (.announceNext .portA 0 150 400) running .portA = answerSlot .ok .announce [1, 0, 160, 0] := by
  decide +kernel

/-- A part with port A's select line low since a device reset. -/
def lowPort : State := { running with ports := running.ports.set .portA (Cpi.reset true) }

/-- No frame starts there until the line has been seen high (R148). -/
theorem test_wait_high :
    (after (.announceNext .portA 0 150 400) lowPort).bau = lowPort.bau ∧ after (.selectFall .portA) lowPort = lowPort ∧
      slotAfter (.announceNext .portA 0 150 400) (after (.selectRise .portA [] false false) lowPort) .portA =
        answerSlot .ok .announce [1, 0, 160, 0] := by decide +kernel

theorem test_announceNow :
    ((after (.announceNow .portA 0 150 0)
        (withChain .tx0 { openChain with pulse := some (pulseAt 140) } running)).bau.chains.get .tx0).accumulator = 1581 := by
  decide +kernel

theorem test_readCeilings :
    slotAfter (.readCeilings .portB) running .portB = answerSlot .ok .readCeilings (ceilingReport running) := by
  decide +kernel

theorem test_readStatus : slotAfter (.readStatus .portA 5) running .portA = answerSlot .badValue .readStatus [] := by
  decide +kernel

theorem test_readHistory :
    slotAfter (.readHistory .portA 1 0 3) running .portA = answerSlot .ok .readHistory [1, 0, 0, 0] := by decide +kernel

theorem test_readThermal :
    slotAfter (.readThermal .portA) running .portA = answerSlot .ok .readThermal (thermalPayload running) := by
  decide +kernel

theorem test_readEvents :
    slotAfter (.readEvents .portA) running .portA = answerSlot .ok .readEvents (List.replicate 26 0) := by decide +kernel

/-- A part with TRIP pending on port A. -/
def tripped : State := { running with evr := running.evr.takeRaise running.pst.owners { cls := .trip, mask := 0 } }

theorem test_eventRaise :
    ((after (.eventRaise { cls := .trip, mask := 0 }) running).evr.irq,
      (after (.eventRaise { cls := .overshoot, mask := 4 }) running).evr.irq) =
      (⟨true, true, true⟩, ⟨false, true, true⟩) := by decide +kernel

/-- A part with the PORT raises of two ports and two raises of the BAU under way, in this order. -/
def raising : State :=
  { running with notices := [portRaise .portA, portRaise .portB, raiseChain .stale .tx0, raiseChain .overshoot .tx1] }

/-- A block's raises are taken in its order; the raises of two ports in either order (R163). -/
theorem test_raise_order :
    raising.inOrder (portRaise .portB) = true ∧ raising.inOrder (raiseChain .overshoot .tx1) = false ∧
      after (raiseChain .overshoot .tx1) raising = raising ∧
      (after (raiseChain .stale .tx0) raising).inOrder (raiseChain .overshoot .tx1) = true := by decide +kernel

theorem test_ackEvents :
    (slotAfter (.ackEvents .portA 64) tripped .portA, (after (.ackEvents .portA 64) tripped).evr.irq) =
      (answerSlot .ok .ackEvents [0, 0], ⟨false, true, true⟩) := by decide +kernel

theorem test_poll :
    slotAfter (.poll .portC) { running with ports := running.ports.set .portC { Cpi.reset false with slot := .pending 0x19 } }
      .portC = .pending 0x19 := by decide +kernel

theorem test_portReset : (after (.portReset .portA) tripped).evr.irq = ⟨false, true, true⟩ := by decide +kernel

theorem test_setRoute :
    ((after (.setRoute .portC 6 0xF1) running).evr.routes.get .trip) = 1 := by decide +kernel

theorem test_loadProfile :
    ((after (.loadProfile .portC) running).pld.state, slotAfter (.loadProfile .portC) running .portC) =
      (.reloading, .pending 0x18) := by decide +kernel

/-- A transfer that is not guarded, and a guarded one with the strap low. -/
theorem test_flashXfer :
    (slotAfter (.flashXfer .portC (readIn 16) false) running .portC,
      slotAfter (.flashXfer .portC (writeOut 8191 [1]) false) running .portC,
      slotAfter (.flashXfer .portC (writeOut 8192 [1]) false) running .portC) =
      (.pending 0x19, answerSlot .isProtected .flashXfer [], .pending 0x19) := by decide +kernel

theorem test_deviceReset :
    (after (.deviceReset .portC) running = State.reset) ∧
      slotAfter (.deviceReset .portA) running .portA = answerSlot .denied .deviceReset [] := by decide +kernel

/-! ### Transmit bursts -/

theorem test_txenRise :
    ((after (.txenRise .tx0) (withChain .tx0 { openChain with queue := [entryAt 170] } running)).bau.chains.get .tx0).strikes = 1 := by
  decide +kernel

theorem test_txenRise_unannounced :
    ((after (.txenRise .tx0) running).bau.chains.get .tx0).counters =
      { overshoots := 1, unannounced := 1, stale := 0, enforcements := 0, flushed := 0 } := by decide +kernel

/-- A held NOW has moved the segment's start past the fall's stamp: the segment is charged 0 (log 33). -/
theorem test_txenFall_before_start :
    ((after (.txenFall .tx0)
        (withChain .tx0 { openChain with pulse := some { pulseAt 140 with segment := { (pulseAt 140).segment with start := 1001 } } }
          { running with pins := { running.pins with txen := Rom.everyChain true } })).bau.chains.get .tx0).accumulator =
      0 := by decide +kernel

theorem test_txenFall :
    ((after (.txenFall .tx0)
        (withChain .tx0 { openChain with pulse := some (pulseAt 140) }
          { running with pins := { running.pins with txen := Rom.everyChain true } })).bau.chains.get .tx0).accumulator =
      1581 := by decide +kernel

theorem test_staleExpiry :
    (((after (.staleExpiry .tx0)
        (withChain .tx0 { openChain with queue := [entryAt 170] } { running with timeBase := 20010 })).bau.chains.get .tx0).queue,
      ((after (.staleExpiry .tx0)
        (withChain .tx0 { openChain with queue := [entryAt 170] } { running with timeBase := 20009 })).bau.chains.get .tx0).queue) =
      ([], [entryAt 170]) := by decide +kernel

theorem test_overrunExpiry :
    ((after (.overrunExpiry .tx0) (withChain .tx0 { openChain with pulse := some (pulseAt 140) } running)).bau.chains.get
      .tx0).strikes = 1 := by decide +kernel

theorem test_graceExpiry :
    ((after (.graceExpiry .tx0)
      (withChain .tx0 { openChain with pulse := some (pulseAt 170), grace := some 1000 } running)).bau.chains.get
      .tx0).counters.overshoots = 1 := by decide +kernel

theorem test_ceilingChangeNotice :
    ((after (.ceilingChangeNotice { chain := .tx0, ceiling := .code 130, inhibit := false, stamp := 700 })
      (withChain .tx0 { openChain with pulse := some (pulseAt 140) } running)).bau.chains.get .tx0).grace = some 2700 := by
  decide +kernel

theorem test_ceilingChangeNotice_inhibit :
    ((after (.ceilingChangeNotice { chain := .tx0, ceiling := .off, inhibit := true, stamp := 700 })
      (withChain .tx0 { openChain with pulse := some (pulseAt 140) } running)).bau.chains.get .tx0).accumulator = 633 := by
  decide +kernel

/-! ### The epoch close -/

/-- A close notice. -/
def notice : CloseNotice := { boundary := 1000, closing := 1 }

/-- A running part whose BAU holds the notice and the answer of a close. -/
def closing : State := { running with bau := { running.bau with closeNotice := some notice, closeAnswer := some none } }

theorem test_epochTimerExpiry :
    ((after .epochTimerExpiry running).ewu.timer, (after .epochTimerExpiry running).ewu.epochIndex) = (some 101000, 2) := by
  decide +kernel

theorem test_bauCloseNotice : (after (.bauCloseNotice notice) running).bau.closeNotice = some notice := by decide +kernel
theorem test_bauCloseAnswer : (after (.bauCloseAnswer none) running).bau.closeAnswer = some none := by decide +kernel

theorem test_bauCloseEvent :
    ((after .bauCloseEvent (withChain .tx0 { openChain with pulse := some (pulseAt 140), strikes := 3 } closing)).notices.head?,
      (after .bauCloseEvent closing).bau.shared.epoch) =
      (some (.epochEnergyReport ⟨{ energy := 1581, strikes := 3 }, { energy := 0, strikes := 0 }, { energy := 0, strikes := 0 },
        { energy := 0, strikes := 0 }⟩), 2) := by decide +kernel

/-- A report of 300,000 nJ on each chain, and an answer. -/
def report38 : PerChain ChainReport := Rom.everyChain { energy := 300000, strikes := 200 }
def answer38 : PolicyAnswer :=
  { scenario := 2, limits := ⟨Rom.groupLimits, { avg := 160, floor := 140, window := 8 }⟩, map := none }

/-- The EWU of section 3.8 with both items of the close of epoch 21 held. -/
def collecting : State :=
  { running with
    ewu := { running.ewu with
      state := .collecting, closing := 21, epochIndex := 22, report := some report38, answer := some answer38
      groups := running.ewu.groups.set .g1 { EwuGroup.reset with ring := ring38.take 7 } } }

theorem test_epochEnergyReport :
    (after (.epochEnergyReport report38) { running with ewu := { running.ewu with state := .collecting } }).ewu.report =
      some report38 := by decide +kernel
theorem test_policyAnswer :
    (after (.policyAnswer answer38) { running with ewu := { running.ewu with state := .collecting } }).ewu.answer =
      some answer38 := by decide +kernel

/-- The close of epoch 21 of section 3.8, unchanged; the strikes of two chains are clamped to 255. -/
theorem test_closeComputation :
    ((after .closeComputation collecting).ewu.groups.get .g1).figures =
        { sWin := 4916200, xWin := 3019000, xMax := 5470400, eAllow := 2767600, power := 27676000 } ∧
      ((after .closeComputation collecting).ewu.groups.get .g1).ring.getLast? =
        some { epochIndex := 21, energy := 600000, assumed := false, strikes := 255, scenario := 0 } := by decide +kernel

/-! ### Policy (section 8.8) -/

def scenario3 : ScenarioRecord where
  limits := ⟨{ avg := 210, floor := 190, window := 600 }, { avg := 170, floor := 175, window := 1000 }⟩
  weights := ⟨8, 8, 12, 4⟩
  defaultCaps := ⟨none, none, some 230, some 250⟩

/-- The policy store of section 8.8 with scenario 3 pending. -/
def policy88 : State :=
  { running with
    pst := { running.pst with
      table := [Rom.scenario, Rom.scenario, Rom.scenario, scenario3, Rom.scenario]
      active := 1
      pendingIndex := some 3
      aMax := ⟨200, 160⟩
      caps := running.pst.caps.set .tx1 (.code 170)
      chainParams := PerChain.build fun i => { cmax := 240, k := 0, group := Rom.chainGroups.get i } } }

theorem test_pstCloseNotice :
    ((after (.pstCloseNotice notice) policy88).pst.active, (after (.pstCloseNotice notice) policy88).pst.limits,
      (after (.pstCloseNotice notice) policy88).pst.caps) =
      (3, ⟨{ avg := 200, floor := 190, window := 600 }, { avg := 160, floor := 160, window := 1000 }⟩,
        ⟨.uncapped, .uncapped, .code 230, .code 240⟩) := by decide +kernel

theorem test_selectScenario :
    (slotAfter (.selectScenario .portC 2) policy88 .portC, slotAfter (.selectScenario .portC 6) policy88 .portC) =
      (answerSlot .ok .selectScenario [1, 2], answerSlot .badValue .selectScenario []) := by decide +kernel

theorem test_setCap :
    slotAfter (.setCap .portC 0 { form := 0, code := 250 }) policy88 .portC = answerSlot .ok .setCap [0, 0, 240] := by
  decide +kernel

theorem test_setOwner :
    ((after (.setOwner .portC 0 2) (withChain .tx0 { openChain with queue := [entryAt 1] } running)).bau.chains.get
      .tx0).counters.flushed = 1 := by decide +kernel

/-! ### Ceilings (section 4.8) -/

/-- The ceiling unit of section 4.8 before its step 1. -/
def clu48 : Clu :=
  withTable
    { Clu.reset with
      loading := false
      generation := 40
      power := ⟨0, 150000000⟩
      chains :=
        ⟨CluChain.reset .tx0, CluChain.reset .tx1,
          { CluChain.reset .tx2 with active := true, profile := { cmax := 220, k := 4, group := .g1, zone := .z1 } },
          { CluChain.reset .tx3 with weight := 4, profile := { cmax := 236, k := 0, group := .g1, zone := .z1 } }⟩ }

/-- The part of section 4.8. -/
def part48 : State := { running with clu := clu48 }

/-- After its step 1. -/
def active48 : State := after (.activityNotice .tx3) part48

/-- The final ceilings and the generation after a command. -/
def finals (c : Instr) (s : State) : List Ceiling × Nat :=
  ((after c s).clu.chains.toList.map fun x => x.entry.final, (after c s).clu.generation.toNat)

theorem test_activityNotice : finals (.activityNotice .tx3) part48 = ([.off, .off, .code 204, .code 187], 41) := by
  decide +kernel

theorem test_stageTripNotice :
    finals (.stageTripNotice { zone := .z1, stage := 3, backoff := 12, trip := false }) active48 =
      ([.off, .off, .code 204, .code 187], 41) := by decide +kernel

theorem test_levelLockNotice :
    finals (.levelLockNotice (.level 2) 12) active48 = ([.off, .off, .code 196, .code 187], 42) ∧
      finals (.levelLockNotice .lock 12) active48 = ([.off, .off, .off, .off], 42) := by decide +kernel

theorem test_capDelivery : finals (.capDelivery .tx3 (.code 180)) active48 = ([.off, .off, .code 204, .code 180], 42) := by
  decide +kernel

theorem test_groupAllowanceNotice :
    finals (.groupAllowanceNotice .g1 999) active48 = ([.off, .off, .off, .off], 42) := by decide +kernel

theorem test_scenarioDelivery :
    finals (.scenarioDelivery ⟨8, 8, 8, 0⟩ (Rom.everyChain .uncapped)) active48 =
      ([.off, .off, .code 211, .off], 42) := by decide +kernel

theorem test_profileDelivery :
    finals (.profileDelivery (Rom.everyChain { cmax := 100, k := 0, group := .g1, zone := .z1 })) active48 =
      ([.off, .off, .code 100, .code 100], 42) := by decide +kernel

theorem test_quietSummary :
    finals (.quietSummary (Rom.everyChain true)) part48 = ([.off, .off, .off, .off], 41) ∧
      finals (.quietSummary (Rom.everyChain true)) active48 = ([.off, .off, .off, .code 207], 42) := by decide +kernel

theorem test_enforcementSetRequest :
    finals (.enforcementSetRequest .tx2 0) active48 = ([.off, .off, .off, .code 187], 42) := by decide +kernel

/-- In LOADING a set request for epoch 1 joins the chain's causes at once (R99). -/
theorem test_enforcementSetRequest_loading :
    ((after (.enforcementSetRequest .tx2 1) State.reset).clu.chains.get .tx2).entry.causes =
      { loading := true, enforce := true, trip := false, lock := false } := by decide +kernel

theorem test_enforcementClearRequest :
    finals (.enforcementClearRequest .tx2 0) (after (.enforcementSetRequest .tx2 0) active48) =
      ([.off, .off, .code 204, .code 187], 43) := by decide +kernel

theorem test_cluCloseNotice :
    finals (.cluCloseNotice { boundary := 1, closing := 0 }) (after (.enforcementSetRequest .tx2 0) active48) =
      ([.off, .off, .code 204, .code 187], 43) := by decide +kernel

theorem test_cluEntryToRun :
    ((after .cluEntryToRun State.reset).clu.chains.toList.map fun x => x.entry.inhibit) = [false, false, false, false] := by
  decide +kernel

/-! ### A small flash -/

/-- The ROM LIMITS values as a section. -/
def limitsBytes : List Byte :=
  [200, 0, 0, 1, 200, 0, 0, 1, 200, 1, 0, 2, 200, 1, 0, 2, 160, 160, 100, 0, 1, 4, 2, 20, 2] ++ List.replicate 9 0

/-- Scenario 3 of section 8.8 as a section of one record. -/
def scenarioBytes : List Byte :=
  [1, 210, 190, 0x58, 2, 170, 175, 0xE8, 3, 8, 8, 12, 4, 2, 0, 2, 0, 0, 230, 0, 250]

/-- A zone of the ROM as 28 bytes. -/
def zoneBytesOf (members : Byte) : List Byte :=
  [members] ++ le 2 360 ++ le 2 400 ++ le 2 440 ++ le 2 480 ++ le 2 520 ++ le 2 560 ++ le 2 600 ++ le 2 680 ++ [16] ++
    le 2 2000 ++ [4, 8, 12, 16, 24, 32, 48, 5]

/-- The ROM THERMAL values as a section. -/
def thermalBytes : List Byte :=
  (List.range 4).flatMap (fun _ => Rom.sensorTable.flatMap leSigned16) ++ [50] ++ zoneBytesOf 3 ++ zoneBytesOf 5 ++
    zoneBytesOf 8 ++ [0, 0, 1, 1]

/-- The ROM OVERLOAD values as a section. -/
def overloadBytes : List Byte := [12] ++ le 2 200 ++ le 2 20 ++ le 2 500 ++ le 2 1000 ++ [10]

/-- A ROUTING section with the destination sets 4 to 15. -/
def routingBytes : List Byte := (List.range 12).map fun j => BitVec.ofNat 8 (j + 4)

/-- An image with one section right after its directory. -/
def imageOf (kind : Byte) (b : List Byte) : FlashImage :=
  [{ base := 0,
     bytes := [0x54, 0x42, 0x33, 0x31, 1, 1, kind] ++ le 3 14 ++ le 2 b.length ++ le 2 (checksumOf b) ++ b }]

/-- Its directory entry. -/
def entryFor (kind : Nat) (b : List Byte) : DirEntry :=
  { kind := kind, offset := 14, length := b.length, checksum := checksumOf b }

/-- A section is read as the values its bytes stand for; one wrong byte is rejected by the checksum. -/
theorem test_sections :
    (readImage (imageOf 1 limitsBytes) none).limits = .accepted Rom.limits ∧
      (readImage (imageOf 2 scenarioBytes) none).scenarios = .accepted [scenario3] ∧
      (readImage (imageOf 4 overloadBytes) none).overload = .accepted Rom.overload ∧
      (readImage (imageOf 4 overloadBytes ++ [{ base := 14, bytes := [13] }]) none).overload = .accepted Rom.overload ∧
      (readImage ([{ base := 14, bytes := [13] }] ++ imageOf 4 overloadBytes) none).overload = .rejected := by
  decide +kernel

theorem test_thermal_section : (readImage (imageOf 3 thermalBytes) none).thermal = .accepted Rom.thermal := by
  decide +kernel

/-! ### Start-up -/

theorem test_startupLoadEnd :
    ((after (.startupLoadEnd []) State.reset).pld.state,
      (after (.startupLoadEnd []) State.reset).pld.startupResult.map fun r => (r.noImage, r.limits),
      (after (.startupLoadEnd []) State.reset).notices.length) = (.startup, some (true, .rom), 7) ∧
      (after (.startupLoadEnd (imageOf 1 limitsBytes)) loaded).pld.startupResult = some zeroResult := by decide +kernel

/-- The entry to RUN in the step that takes the last start-up delivery, and no entry while one is under way. -/
theorem test_entry_to_run :
    ((after (.ewuLimitsDelivery lastDelivery) loaded).pld.state, (after (.ewuLimitsDelivery lastDelivery) loaded).notices) =
        (.idle, entryReports 0) ∧
      (after (.ewuLimitsDelivery lastDelivery)
        { loaded with notices := [.levelLockNotice (.level 0) 12, .ewuLimitsDelivery lastDelivery] }).pld.state = .startup := by
  decide +kernel

theorem test_pstStartupDelivery :
    (after (.pstStartupDelivery { scenarios := [scenario3], limits := Rom.limits, zones := Rom.chainZones })
      State.reset).pst.limits.g0 = { avg := 160, floor := 160, window := 600 } := by decide +kernel

/-- The start-up answer of the ROM scenario. -/
def startAnswer : PolicyAnswer := { scenario := 0, limits := ⟨Rom.groupLimits, Rom.groupLimits⟩, map := none }

theorem test_startupPolicyAnswer :
    (after (.startupPolicyAnswer startAnswer) State.reset).ewu.startupAnswer = some startAnswer := by decide +kernel
theorem test_thermalDelivery :
    (after (.thermalDelivery { Rom.thermal with periodMs := 10 }) State.reset).thu.params.periodMs = 10 := by decide +kernel
theorem test_overloadDelivery :
    (after (.overloadDelivery { Rom.overload with oStep := 20 }) State.reset).notices = [.levelLockNotice (.level 0) 20] := by
  decide +kernel
theorem test_routingDelivery :
    (after (.routingDelivery { Rom.routing with trip := 0 }) State.reset).evr.routes.trip = 0 := by decide +kernel
theorem test_bauLimitsDelivery :
    ((after (.bauLimitsDelivery
        { chains := Rom.everyChain { cmax := 7, k := 1 }, staleMs := 5, graceMs := 1, threshold := 2 }) State.reset).bau.chains.get
      .tx3).power = { cmax := 7, k := 1 } := by decide +kernel
theorem test_ewuLimitsDelivery :
    (after (.ewuLimitsDelivery { tMs := 50, precharge := .empty, map := Rom.chainGroups }) State.reset).ewu.params.tMs = 50 := by
  decide +kernel
theorem test_bauEntryToRun : (after (.bauEntryToRun 5) State.reset).bau.shared.epoch = 1 := by decide +kernel

/-- A part in RUN since stamp 900 whose units have not yet taken the entry, at a stamp, with TX0 and the droop line high. -/
def entered (now : Stamp) : State :=
  { State.reset with
    timeBase := now
    pins := { txen := ⟨true, false, false, false⟩, droop := true, strap := false }
    pld := { Pld.reset with state := .idle, startupResult := some zeroResult } }

/-- TX0 falls at 950 and rises at 970: the pulse found open at the entry closes, and a second one opens at 970 (R24). -/
theorem test_bauEntryToRun_early_edges :
    let s1 := after (.txenFall .tx0) (entered 950)
    let s2 := after (.txenRise .tx0) { s1 with timeBase := 970 }
    let t := after (.bauEntryToRun 900) { s2 with timeBase := 1000 }
    (s2.bau.early.length, (s2.bau.chains.get .tx0).pulse, t.bau.early, (t.bau.chains.get .tx0).pulse.map Pulse.rise,
        (t.bau.chains.get .tx0).counters.unannounced) =
      (2, none, [], some 970, 2) := by decide +kernel

/-- The droop line falls at 950 and rises at 970: two rising edges, at 900 and 970 (R122). -/
theorem test_ovuEntryToRun_early_edges :
    let s1 := after .droopFall (entered 950)
    let s2 := after .droopRise { s1 with timeBase := 970 }
    let t := after (.ovuEntryToRun 900) { s2 with timeBase := 1000 }
    (s2.ovu.level, s2.ovu.early.length, t.ovu.level, t.ovu.history, t.ovu.early) =
      (.level 0, 2, .level 2, [900, 970], []) := by decide +kernel

/-- With an empty precharge the window of epoch 1 holds nothing: the allowance is the floor and the whole excess. -/
theorem test_ewuEntryToRun :
    ((after (.ewuEntryToRun 5)
      { State.reset with
        ewu := { Ewu.reset with startupAnswer := some startAnswer, params := { Ewu.reset.params with precharge := .empty } } }).ewu.groups.get
      .g0).figures = { sWin := 0, xWin := 0, xMax := 683800000, eAllow := 684116200, power := 6841162000 } := by decide +kernel
theorem test_thuEntryToRun : (after (.thuEntryToRun 5) State.reset).thu.timer = some 50005 := by decide +kernel
theorem test_ovuEntryToRun :
    (after (.ovuEntryToRun 5) { State.reset with pins := { State.reset.pins with droop := true } }).ovu.level = .level 1 := by
  decide +kernel

/-! ### Thermal (sections 6.8, 6.9) -/

/-- S0 reads 380 and S1 411 in a zone at stage 2. -/
theorem test_samplingRound :
    ((after (.samplingRound ⟨583, 561, 583, 640⟩) running).thu.zones.z0.stage,
      (after (.samplingRound ⟨583, 561, 583, 640⟩) running).thu.timer) = (2, some 51000) := by decide +kernel

theorem test_dwellExpiry :
    (after (.dwellExpiry .z0)
      { running with
        thu := { running.thu with
          zones := running.thu.zones.set .z0
            { temperature := none, stage := 3, trip := false, forced := false, dwell := some 1000 } } }).thu.zones.z0.dwell =
      none := by decide +kernel

/-- Zone Z0 of section 6.8: 445 jumps to stage 3, 690 trips, 660 leaves the trip. -/
theorem test_stages :
    ((evaluateZone .z0 Rom.thermal.zones.z0 0 445
        { temperature := none, stage := 0, trip := false, forced := false, dwell := none }).val.stage,
      (evaluateZone .z0 Rom.thermal.zones.z0 0 690
        { temperature := none, stage := 5, trip := false, forced := false, dwell := some 9 }).val.trip,
      (evaluateZone .z0 Rom.thermal.zones.z0 0 664
        { temperature := none, stage := 7, trip := true, forced := false, dwell := some 9 }).val.trip,
      (evaluateZone .z0 Rom.thermal.zones.z0 0 663
        { temperature := none, stage := 7, trip := true, forced := false, dwell := some 9 }).val.trip) =
      (3, true, true, false) := by decide +kernel

/-! ### Overload (sections 7.10, 7.11), with one millisecond a thousand stamps -/

/-- The OVU at a level, droop_held as given. -/
def ovuAt (l : OverloadLevel) (held : Bool) : Ovu := { Ovu.reset with inRun := true, level := l, droopHeld := held }

theorem test_droopRise :
    ((after .droopRise running).ovu.level, (after .droopRise running).ovu.hold, (after .droopRise running).ovu.reStrike) =
      (.level 1, some 201000, some 21000) := by decide +kernel

theorem test_droopFall :
    ((after .droopFall
        { running with ovu := ovuAt (.level 2) true, pins := { running.pins with droop := true } }).ovu.hold,
      (after .droopFall { running with ovu := ovuAt .lock true, pins := { running.pins with droop := true } }).ovu.hold) =
      (some 201000, none) := by decide +kernel

theorem test_reStrikeExpiry :
    (after .reStrikeExpiry { running with ovu := { ovuAt (.level 4) true with reStrike := some 1000 } }).ovu =
      { ovuAt .lock true with lock := some 1001000 } := by decide +kernel

theorem test_holdExpiry :
    (after .holdExpiry { running with ovu := { ovuAt (.level 4) false with hold := some 1000 } }).ovu =
      { ovuAt (.level 3) false with release := some 501000 } := by decide +kernel

/-- The chronic floor: level 1 holds while the oldest of eight stamps is within the span. -/
theorem test_releaseExpiry :
    ((after .releaseExpiry
        { running with ovu := { ovuAt (.level 1) false with release := some 1000, history := List.replicate 8 0 } }).ovu.level,
      (after .releaseExpiry { running with ovu := { ovuAt (.level 1) false with release := some 1000 } }).ovu.level) =
      (.level 1, .level 0) := by decide +kernel

theorem test_lockExpiry :
    (after .lockExpiry { running with ovu := { ovuAt .lock false with lock := some 1000 } }).ovu =
      { ovuAt (.level 4) false with hold := some 201000 } := by decide +kernel

theorem test_droopStampRetirement :
    ((after .droopStampRetirement
        { running with timeBase := 60000001, ovu := { ovuAt (.level 0) false with history := [0, 5] } }).ovu.history,
      (after .droopStampRetirement
        { running with timeBase := 60000000, ovu := { ovuAt (.level 0) false with history := [0, 5] } }).ovu.history) =
      ([5], [0, 5]) := by decide +kernel

/-! ### The loader -/

/-- A transfer in flight. -/
def transferring (x : XferRequest) (guarded : Bool) : State :=
  { running with
    pld := { running.pld with
      state := .transfer, transfer := some { request := x, guarded := guarded, port := .portC }, flashSelectLow := true }
    ports := running.ports.set .portC { Cpi.reset false with slot := .pending 0x19 } }

/-- A reload in progress. -/
def reloading : State :=
  { running with
    pld := { running.pld with state := .reloading, loadPort := some .portC }
    ports := running.ports.set .portC { Cpi.reset false with slot := .pending 0x18 } }

theorem test_transferEnd :
    slotAfter (.transferEnd [7, 8]) (transferring (readIn 3) false) .portC = answerSlot .ok .flashXfer [3, 7, 8, 0xFF] := by
  decide +kernel

/-- The header of the OUT is four bytes: five bytes shifted are one byte of data. -/
theorem test_strapFall :
    (slotAfter (.strapFall 5) (transferring (writeOut 0 [1, 2]) true) .portC,
      slotAfter (.strapFall 5) (transferring (readIn 3) false) .portC) =
      (answerSlot .aborted .flashXfer [1], .pending 0x19) := by decide +kernel

/-- A cut inside the header leaves what was wholly shifted on the bus and no data byte. -/
theorem test_strapFall_in_header :
    ((after (.strapFall 2) (transferring (writeOut 0x123456 [1, 2]) true)).pld.busOut,
      slotAfter (.strapFall 2) (transferring (writeOut 0x123456 [1, 2]) true) .portC) =
      ([[0x02, 0x12]], answerSlot .aborted .flashXfer [0]) := by decide +kernel

theorem test_reloadEnd :
    ((after (.reloadEnd []) reloading).pld.state, (after (.reloadEnd []) reloading).notices) =
      (.idle, [.eventRaise { cls := .profile, mask := 0 }]) := by decide +kernel

/-! ### Witnesses: states and operands that meet the hypotheses of the statements -/

/-- A running part with a frame open on port C on a slot. -/
def framedPart (x : Slot) : State := { running with ports := running.ports.set .portC (framed x) }

/-- A running part with a staged profile. -/
def stagedPart : State :=
  { running with
    pld := { running.pld with
      state := .staged
      staged := some
        { limits := some Rom.limits, scenarios := some [Rom.scenario, scenario3], thermal := none, overload := none,
          routing := none } } }

/-- Port A's ANNOUNCE is held behind a close notice. -/
def awaiting : State := after (.announceNext .portA 0 150 400) closing

theorem portsInv_closing : PortsInv closing := by
  refine portsInv_ops (portsInv_of_reset State.reset rfl rfl fun q => ?_) ⟨?_, ?_⟩ rfl rfl ?_
  · cases q <;> rfl
  · rintro x ⟨⟩
  · rintro q ⟨⟩
  · rintro q k (⟨_, h⟩ | ⟨_, _, h, _⟩) <;> cases h

theorem portsInv_awaiting : PortsInv awaiting :=
  portsInv_requestFrame (s := closing) (by simp only [LoaderInv]; decide +kernel) portsInv_closing _ _ _

/-- Two ceiling changes of one chain, and a part with both under way. -/
def change (x : Ceiling) (inhibit : Bool) : CeilingChange := { chain := .tx0, ceiling := x, inhibit := inhibit, stamp := 700 }
def changing : State :=
  { running with notices := [.ceilingChangeNotice (change .off true), .ceilingChangeNotice (change (.code 9) false)] }

/-- A running part with these sections staged and this index pending. -/
def stagedWith (x : Sections) (pendingIndex : Option Nat) : State :=
  { running with
    pld := { running.pld with state := .staged, staged := some x }
    pst := { running.pst with pendingIndex := pendingIndex } }

theorem witness_StepRunsFrontCommandOrTicks : running.pending = [] := by decide +kernel

theorem witness_EveryCommandRunsAndKeepsTheQueue :
    laneOf changing.isLoading (.ceilingChangeNotice (change (.code 9) false)) = some .ceilings ∧
      (changing.notices.find? fun n => decide (laneOf changing.isLoading n = some .ceilings)) =
        some (.ceilingChangeNotice (change .off true)) ∧
      Instr.ceilingChangeNotice (change .off true) ≠ .ceilingChangeNotice (change (.code 9) false) := by decide +kernel

theorem witness_DeviceResetRestoresEveryUnit :
    StartsFree running .portC ∧ Port.portA ≠ .portC ∧ StartsFree running .portA ∧ Port.portB ≠ .portC ∧
      StartsFree running .portB := by decide +kernel

theorem witness_FrameStartsOnTheSlotAndCollectsIt :
    awaiting.awaitsAnswer .portA = true ∧ running.awaitsAnswer .portA = false ∧
      (running.ports.get .portA).selectLow = false ∧
      ((framedPart .empty).ports.get .portC).frame = some (startFrame .empty) := by decide +kernel

theorem witness_SelectRiseJudgesTheFrame :
    (lowPort.ports.get .portA).selectLow = true ∧ (lowPort.ports.get .portA).frame = none ∧
      ((framedPart .empty).ports.get .portC).selectLow = true ∧
      ((framedPart .empty).ports.get .portC).frame = some (startFrame .empty) ∧ (startFrame .empty).startedPending = false ∧
      ((framedPart (.pending 0x19)).ports.get .portC).selectLow = true ∧
      ((framedPart (.pending 0x19)).ports.get .portC).frame = some (startFrame (.pending 0x19)) ∧
      (startFrame (.pending 0x19)).startedPending = true ∧ isComplete [0x11] = false ∧ isComplete [0x11, 3, 1, 0] = false ∧
      isComplete [0x11, 3, 1, 0, 170] = true ∧ byteAt [0x11, 3, 1, 0, 170] 0 ≠ Kind.poll.value ∧
      isComplete [0x02, 0] = true ∧ isComplete [0x0A, 0] = true ∧ kindOfByte 0x0A = none ∧ kindOfByte 0 = none ∧
      kindOfByte 0x11 = some .setCap ∧ lengthOk .setCap 4 [1, 0, 170, 0] = false ∧ kindOfByte 0x01 = some .announce ∧
      isComplete [0x01, 5, 0, 0, 0, 0, 0] = true ∧ lengthOk .announce 5 [0, 0, 0, 0, 0] = true ∧
      Kind.permitted .announce .portC = false := by decide +kernel

theorem witness_RequestBytesReadBack :
    requestLengthOk (.flashXfer (writeOut 0 (List.replicate 24 0))) = true ∧ requestLengthOk .poll = true := by decide +kernel

theorem witness_FrameEdgesCarryOutTheRequest :
    requestOf (.flashXfer .portC (writeOut 0 (List.replicate 24 0)) true) =
        some (.portC, .flashXfer (writeOut 0 (List.replicate 24 0))) ∧
      requestLengthOk (.flashXfer (writeOut 0 (List.replicate 24 0))) = true ∧
      (running.ports.get .portC).selectLow = false ∧ (running.ports.get .portC).frame = none ∧
      (running.ports.get .portC).waitHigh = false := by decide +kernel

theorem witness_PortsDropWhilePendingAndStandApart :
    (lowPort.ports.get .portA).waitHigh = true ∧ (awaiting.ports.get .portA).waitHigh = false ∧
      awaiting.awaitsAnswer .portA = true ∧ TakesFrames (transferring (readIn 16) false) .portC ∧
      requestOf (.setCap .portC 1 { form := 0, code := 170 }) = some (.portC, .setCap 1 { form := 0, code := 170 }) ∧
      Request.kind (.setCap 1 { form := 0, code := 170 }) ≠ .poll ∧
      ((transferring (readIn 16) false).ports.get .portC).frameOr.startedPending = true ∧
      Instr.poll .portA ≠ .deviceReset .portC ∧ requestOf (.poll .portA) = some (.portA, .poll) ∧
      exec (.poll .portA) running = .next (after (.poll .portA) running) := by
  refine ⟨?_, ?_, ?_, ?_, ?_, ?_, ?_, ?_, ?_, rfl⟩ <;> decide +kernel

theorem witness_ReadsAnswerAndChangeOnlyTheirPort :
    StartsFree running .portA ∧ (statusPage running 0).isSome = true ∧ (statusPage running 4).isSome = true ∧
      4 < (5 : Byte).toNat ∧ groupOfByte 0 = some .g0 ∧ groupOfByte 1 = some .g1 ∧ 1 < (2 : Byte).toNat ∧
      2 < (historyRecords ring38 5 3).length ∧ 0 < (historyRecords ring38 7 3).length ∧
      (running.ports.get .portA).frame = none := by decide +kernel

theorem witness_RaisesReachAndEnterPendingSets :
    raising.inOrder (raiseChain .stale .tx0) = true ∧ running.inOrder (.eventRaise { cls := .trip, mask := 0 }) = true ∧
      (Rom.routing.get .ceiling).getLsbD (portIndex .portC) = true ∧
      (Rom.routing.get .thermal).getLsbD (portIndex .portA) = false ∧ (Rom.routing.get .thermal).getLsbD 3 = false ∧
      (Rom.routing.get .ceiling).getLsbD (portIndex .portA) = false ∧ (Rom.routing.get .ceiling).getLsbD 3 = true ∧
      maskKind .ceiling = .chains ∧ (Rom.routing.get .port).getLsbD (portIndex .portB) = false ∧
      (Rom.routing.get .port).getLsbD 3 = true ∧ maskKind .port = .port ∧
      (({ Rom.routing with thermal := 8 }).get .thermal).getLsbD (portIndex .portC) = false ∧
      (({ Rom.routing with thermal := 8 }).get .thermal).getLsbD 3 = true ∧ maskKind .thermal = .bare ∧
      (({ Rom.routing with ceiling := 8 }).get .ceiling).getLsbD (portIndex .portC) = false ∧
      delivered running.evr.routes running.pst.owners { cls := .thermal, mask := 0 } .portA = none ∧
      delivered running.evr.routes running.pst.owners { cls := .overshoot, mask := 4 } .portB = some 4 ∧
      (running.evr.sets.get .portA).get .trip = none ∧
      (tripped.evr.sets.get .portA).get .trip = some { mask := 0, count := 0 } := by decide +kernel

theorem witness_AcknowledgeAndReroute :
    running.inOrder (.routingDelivery Rom.routing) = true ∧ loaded.inOrder (.routingDelivery Rom.routing) = true ∧
      StartsFree running .portA ∧ StartsFree running .portC ∧ classOfByte 0 = some .ceiling ∧ classOfByte 11 = some .port ∧
      12 ≤ (12 : Byte).toNat := by decide +kernel

theorem witness_SelectAndCapRequests :
    StartsFree State.reset .portC ∧ State.reset.isLoading = true ∧ StartsFree running .portC ∧ running.isLoading = false ∧
      running.pst.table.length ≤ (1 : Byte).toNat ∧ (0 : Byte).toNat < running.pst.table.length ∧ 4 ≤ (4 : Byte).toNat ∧
      chainOfByte 3 = some .tx3 ∧ capOfWire { form := 0, code := 250 } = some (.code 250) ∧
      capOfWire { form := 1, code := 0 } = some .off ∧ capOfWire { form := 2, code := 0 } = some .uncapped := by decide +kernel

theorem witness_SetOwnerReplacesTheOwnerAndFlushes :
    StartsFree State.reset .portC ∧ State.reset.isLoading = true ∧ StartsFree running .portC ∧ running.isLoading = false ∧
      4 ≤ (4 : Byte).toNat ∧ 3 ≤ (3 : Byte).toNat ∧ running.bau.closeNotice = none ∧ chainOfByte 0 = some .tx0 ∧
      ownerOfByte 0 = some .noOwner ∧ ownerOfByte 2 = some .ownerB := by decide +kernel

theorem witness_PortResetActsOnOnePort :
    StartsFree running .portA ∧ running.bau.closeNotice = none ∧ running.owns .portA .tx0 = true ∧
      running.owns .portA .tx2 = false := by decide +kernel

theorem witness_CloseWithoutAProfile :
    readyProfile running.pld = none ∧ running.pst.pendingIndex = none ∧ readyProfile policy88.pld = none ∧
      policy88.pst.pendingIndex = some 3 ∧ policy88.pst.table[3]? = some scenario3 ∧
      scenario3.defaultCaps.get .tx0 = none ∧ scenario3.defaultCaps.get .tx3 = some 250 := by decide +kernel

theorem witness_CloseAppliesAStagedProfile :
    ∃ x, stagedPart.pld.state = .staged ∧ stagedPart.pld.staged = some x ∧ x.limits = some Rom.limits ∧
      x.scenarios = some [Rom.scenario, scenario3] ∧
      (stagedWith { x with limits := none, scenarios := none } none).pld.staged =
        some { x with limits := none, scenarios := none } ∧
      (stagedWith { x with limits := none, scenarios := none } none).pst.pendingIndex = none ∧
      (stagedWith x (some 2)).pst.pendingIndex = some [Rom.scenario, scenario3].length ∧
      (after (.pstCloseNotice notice) (stagedWith x (some 2))).pst.active = 0 ∧
      (after (.pstCloseNotice notice) (stagedWith x (some 2))).pst.table[0]? = some Rom.scenario ∧
      (after (.pstCloseNotice notice) (stagedWith x (some 1))).pst.table[1]? = some scenario3 ∧
      scenario3.defaultCaps.get .tx0 = none ∧ scenario3.defaultCaps.get .tx3 = some 250 := by
  refine ⟨_, rfl, rfl, rfl, rfl, rfl, rfl, rfl, ?_, ?_, ?_, rfl, rfl⟩ <;> decide +kernel

theorem witness_StartupDeliveryAppliesEntryZero :
    [scenario3, Rom.scenario][0]? = some scenario3 ∧ scenario3.defaultCaps.get .tx0 = none ∧
      scenario3.defaultCaps.get .tx3 = some 250 ∧ (Rom.limits.chains.get .tx3).cmax = 200 := by decide +kernel

theorem witness_LoaderTakesRequestsOnlyInIdle :
    StartsFree running .portC ∧ requestLengthOk (.flashXfer (readIn 24)) = true ∧ running.pld.state = .idle ∧
      StartsFree stagedPart .portC ∧ stagedPart.pld.state ≠ .idle ∧
      isGuarded running.pld.protectedEnd running.pld.guardedList (readIn 24) = false ∧
      isGuarded running.pld.protectedEnd running.pld.guardedList (writeOut 8191 [1]) = true ∧
      requestLengthOk (.flashXfer (writeOut 8191 [1])) = true ∧ (writeOut 8191 [1]).addressMode.toNat ≤ 1 ∧
      (writeOut 8191 [1]).dummy.toNat ≤ 15 ∧ (writeOut 8191 [1]).direction.toNat ≤ 1 ∧
      requestLengthOk (.flashXfer { readIn 1 with addressMode := 2 }) = true ∧
      1 < ({ readIn 1 with addressMode := 2 }).addressMode.toNat ∧
      requestLengthOk (.flashXfer { readIn 1 with dummy := 16 }) = true ∧ 15 < ({ readIn 1 with dummy := 16 }).dummy.toNat ∧
      requestLengthOk (.flashXfer { readIn 1 with direction := 2 }) = true ∧
      1 < ({ readIn 1 with direction := 2 }).direction.toNat := by decide +kernel

theorem witness_GuardedTransfersNeedTheStrap :
    ∃ tr, exec (.flashXfer .portC (writeOut 0 [1]) true) running =
        .next (after (.flashXfer .portC (writeOut 0 [1]) true) running) ∧
      running.pld.transfer = none ∧ (after (.flashXfer .portC (writeOut 0 [1]) true) running).pld.transfer = some tr ∧
      tr.guarded = true := by
  refine ⟨{ request := writeOut 0 [1], guarded := true, port := .portC }, rfl, ?_, ?_, rfl⟩ <;> decide +kernel

theorem witness_TransfersEndOrAreCut :
    ∃ tr, (transferring (writeOut 0 [1, 2]) true).pld.transfer = some tr ∧ tr.guarded = true ∧
      (2 ≤ (headerOnBus tr.request).length + tr.request.count.toNat ∧
        6 = (headerOnBus tr.request).length + tr.request.count.toNat) ∧
      ∃ u, (transferring (readIn 3) false).pld.transfer = some u ∧ u.guarded = false ∧ u.request.direction = 0 ∧
        2 < u.request.count.toNat ∧ 2 < [(1 : Byte), 2, 3].length := by
  refine ⟨_, rfl, rfl, ?_, _, rfl, rfl, rfl, ?_, ?_⟩ <;> decide +kernel

theorem witness_StartupLoadDeliversAndEntersRun :
    State.reset.pld.state = .startup ∧ State.reset.pld.startupResult = none ∧ running.pld.startupResult.isSome = true ∧
      loaded.pld.state = .startup ∧ loaded.pld.startupResult.isSome = true ∧
      (∀ c ∈ ({ loaded with notices := [.startupPolicyAnswer startAnswer] }).notices, isStartupDelivery c = false) ∧
      (∃ c ∈ loaded.notices, isStartupDelivery c = true) ∧ running.pld.state ≠ .startup ∧
      (readImage [] none).noImage = true ∧ (readImage (imageOf 1 limitsBytes) none).noImage = false ∧ (readImage (imageOf 1 limitsBytes) none).limits = .accepted Rom.limits ∧
      (readImage [] none).limits = .absent ∧ flashRead [] 0 4 ≠ [0x54, 0x42, 0x33, 0x31] ∧
      flashByte [{ base := 0, bytes := [0x54, 0x42, 0x33, 0x31, 2, 1] }] 4 ≠ 1 ∧
      (flashByte [{ base := 0, bytes := [0x54, 0x42, 0x33, 0x31, 1, 0] }] 5).toNat = 0 ∧
      8 < (flashByte [{ base := 0, bytes := [0x54, 0x42, 0x33, 0x31, 1, 9] }] 5).toNat := by decide +kernel

theorem witness_ReloadStagesOrGivesUp :
    reloading.pld.state = .reloading ∧ reloading.pld.loadPort = some .portC ∧ reloading.pld.startupResult = some zeroResult ∧
      (acceptedSections (readImage (imageOf 4 overloadBytes) (some 2))).any = true ∧
      (acceptedSections (readImage [] (some 2))).any = false := by decide +kernel

/-- An image whose directory has these entries and whose one section stands at an offset. -/
def imageWith (d : List DirEntry) (offset : Nat) (b : List Byte) : FlashImage :=
  [{ base := 0,
     bytes := [0x54, 0x42, 0x33, 0x31, 1, BitVec.ofNat 8 d.length] ++
       d.flatMap fun e => [BitVec.ofNat 8 e.kind] ++ le 3 e.offset ++ le 2 e.length ++ le 2 e.checksum },
    { base := offset, bytes := b }]

/-- The entry of LIMITS at an offset. -/
def limitsEntryAt (offset : Nat) : DirEntry := { entryFor 1 limitsBytes with offset := offset }

/-- The read of a section gives its bytes, and it passes checks 1 to 3. -/
theorem witness_AcceptedSectionsLieInTheirRanges_checked :
    SectionChecked (imageOf 1 limitsBytes) (entryFor 1 limitsBytes) 34 ∧
      SectionChecked (imageOf 2 scenarioBytes) (entryFor 2 scenarioBytes) (1 + 20 * [scenario3].length) ∧
      SectionChecked (imageOf 3 thermalBytes) (entryFor 3 thermalBytes) 353 ∧
      SectionChecked (imageOf 4 overloadBytes) (entryFor 4 overloadBytes) 10 ∧
      SectionChecked (imageOf 5 routingBytes) (entryFor 5 routingBytes) 12 ∧
      ¬SectionChecked (imageOf 4 overloadBytes) { entryFor 4 overloadBytes with checksum := 0 } 10 ∧
      ¬SectionChecked (imageOf 4 overloadBytes) { entryFor 4 overloadBytes with length := 11 } 10 ∧
      ¬SectionChecked (imageOf 4 overloadBytes) { entryFor 4 overloadBytes with offset := 16777207 } 10 := by
  simp only [SectionChecked]; decide +kernel

/-- Every layout is that of the bytes a section has. -/
theorem witness_AcceptedSectionsLieInTheirRanges_layouts :
    (LimitsSectionLayout limitsBytes Rom.limits ∧ Rom.limits.wf = true) ∧
      (ScenariosSectionLayout scenarioBytes [scenario3] ∧ ∀ r ∈ [scenario3], r.wf = true) ∧
      (ThermalSectionLayout thermalBytes Rom.thermal ∧ Rom.thermal.wf = true) ∧
      (OverloadSectionLayout overloadBytes Rom.overload ∧ Rom.overload.wf = true) ∧
      RoutingSectionLayout routingBytes (PerClass.build fun k => BitVec.ofNat 4 (EventClass.all.idxOf k + 4)) :=
  ⟨(parseLimits_iff (by decide +kernel)).1 (by decide +kernel),
    (parseScenarios_iff (by decide +kernel)).1 (by decide +kernel),
    (parseThermal_iff (by decide +kernel)).1 (by decide +kernel),
    (parseOverload_iff (by decide +kernel)).1 (by decide +kernel),
    (parseRouting_iff (by decide +kernel)).1 (by decide +kernel)⟩

/-- The directory: a kind with no entry, the first of two entries of a kind that decides though it is wrong, and no image. -/
theorem witness_AcceptedSectionsLieInTheirRanges_directory :
    ImageHeader (imageOf 1 limitsBytes) 1 ∧ EntryAt (imageOf 1 limitsBytes) 0 (entryFor 1 limitsBytes) ∧
      (∀ j e, j < 1 → EntryAt (imageOf 1 limitsBytes) j e → e.kind ≠ 2) ∧
      (readImage (imageOf 1 limitsBytes) none).scenarios = .absent ∧
      (readImage (imageWith [{ limitsEntryAt 22 with checksum := 0 }, limitsEntryAt 22] 22 limitsBytes) none).limits =
        .rejected ∧
      (readImage (imageWith [limitsEntryAt 22, { limitsEntryAt 22 with checksum := 0 }] 22 limitsBytes) none).limits =
        .accepted Rom.limits ∧
      ∀ count, ¬ImageHeader [] count := by
  refine ⟨?_, entryAt_iff.2 (by decide +kernel), fun j e hj he => ?_, by decide +kernel, by decide +kernel,
    by decide +kernel, fun count h => ?_⟩
  · simp only [ImageHeader]; decide +kernel
  · obtain rfl : j = 0 := by omega
    rw [entryAt_iff.1 he]; decide +kernel
  · have e : (some 0xFF : Option Byte) = some 0x54 := congrArg List.head? h.2.2
    exact absurd e (by decide)

/-- LIMITS may end at its own protected end of 2, and at a reload at the one in force, and not one byte further. -/
theorem witness_AcceptedSectionsLieInTheirRanges :
    judgeLimits (imageWith [limitsEntryAt 8158] 8158 limitsBytes) (some 2) (limitsEntryAt 8158) = some Rom.limits ∧
      judgeLimits (imageWith [limitsEntryAt 8159] 8159 limitsBytes) none (limitsEntryAt 8159) = none ∧
      judgeLimits (imageWith [limitsEntryAt 4062] 4062 limitsBytes) (some 1) (limitsEntryAt 4062) = some Rom.limits ∧
      judgeLimits (imageWith [limitsEntryAt 4063] 4063 limitsBytes) (some 1) (limitsEntryAt 4063) = none ∧
      judgeLimits (imageOf 1 limitsBytes) (some 1) (entryFor 1 limitsBytes) = some Rom.limits ∧
      judgeScenarios (imageOf 2 scenarioBytes) (entryFor 2 scenarioBytes) = some [scenario3] ∧
      judgeThermal (imageOf 3 thermalBytes) (entryFor 3 thermalBytes) = some Rom.thermal ∧
      judgeOverload (imageOf 4 overloadBytes) (entryFor 4 overloadBytes) = some Rom.overload ∧
      judgeRouting (imageOf 5 routingBytes) (entryFor 5 routingBytes) =
        some (PerClass.build fun k => BitVec.ofNat 4 (EventClass.all.idxOf k + 4)) ∧
      judgeRouting (imageOf 5 (List.replicate 12 16)) (entryFor 5 (List.replicate 12 16)) = none := by decide +kernel

/-- A part with a frame open on a port whose slot was EMPTY at its start. -/
def framedAt (p : Port) (s : State) : State := { s with ports := s.ports.set p (framed .empty) }

/-- A part whose BAU holds a close notice. -/
def holdingClose (s : State) : State := { s with bau := { s.bau with closeNotice := some { boundary := 0, closing := 1 } } }

/-- A running part whose chain TX0 has n announcements queued. -/
def queued (n : Nat) : State := withChain .tx0 { openChain with queue := List.replicate n (entryAt 150) } running

/-- A running part with a pulse open on TX0. -/
def pulsing (c : BauChain) : State := withChain .tx0 c { running with pins := { running.pins with txen := ⟨true, false, false, false⟩ } }

theorem witness_AnnounceNextJoinsTheQueueOrIsRefused :
    Port.portA ≠ .portC ∧ StartsFree (queued 7) .portA ∧ (queued 7).bau.inRun = true ∧ (queued 7).bau.closeNotice = none ∧
      chainOfByte 0 = some .tx0 ∧ (queued 7).owns .portA .tx0 = true ∧ ((queued 7).bau.chains.get .tx0).queue.length = 7 ∧
      StartsFree State.reset .portA ∧ State.reset.bau.closeNotice = none ∧ State.reset.bau.inRun = false ∧
      4 ≤ (4 : Byte).toNat ∧ (1 : BitVec 16) ≠ 0 ∧ chainOfByte 2 = some .tx2 ∧ running.owns .portA .tx2 = false ∧
      8 ≤ ((queued 8).bau.chains.get .tx0).queue.length ∧ (queued 8).owns .portA .tx0 = true ∧ StartsFree running .portC ∧
      ((framedAt .portA running).ports.get .portA).selectLow = true ∧
      ((framedAt .portA running).ports.get .portA).frame = some (startFrame .empty) ∧
      (startFrame .empty).startedPending = false ∧ 2 ≤ (2 : Byte).toNat ∧ (framedAt .portA running).bau.inRun = true ∧
      (framedAt .portA State.reset).bau.inRun = false ∧ (framedAt .portA running).bau.closeNotice = none ∧
      (framedAt .portA (holdingClose running)).bau.closeNotice.isSome ∧
      (((after (.selectRise .portA [1, 5, 0, 2, 150, 0, 0] false false) (framedAt .portA running)).ports.get .portA).slot =
        answerSlot .badValue .announce []) ∧
      running.bau.inRun = true ∧ running.bau.closeNotice = none ∧ StartsFree running .portA ∧
      ((queued 8).bau.chains.get .tx0).pulse = none := by decide +kernel

theorem witness_AnnounceNowChangesTheSegment :
    Port.portA ≠ .portC ∧ StartsFree (pulsing { openChain with pulse := some (pulseAt 140) }) .portA ∧
      (pulsing { openChain with pulse := some (pulseAt 140) }).bau.inRun = true ∧
      (pulsing { openChain with pulse := some (pulseAt 140) }).bau.closeNotice = none ∧ chainOfByte 0 = some .tx0 ∧
      (pulsing { openChain with pulse := some (pulseAt 140) }).owns .portA .tx0 = true ∧
      ((pulsing { openChain with pulse := some (pulseAt 140) }).bau.chains.get .tx0).pulse = some (pulseAt 140) ∧
      overshoots openChain 160 = false ∧ overshoots openChain 161 = true ∧
      strikeEnforces running.bau.shared { openChain with strikes := 3 } = true ∧
      strikeEnforces running.bau.shared openChain = false := by decide +kernel

theorem witness_RiseOpensAPulse :
    (queued 1).pins.txen.get .tx0 = false ∧ (queued 1).bau.inRun = true ∧ (queued 1).bau.closeNotice = none ∧
      ((queued 1).bau.chains.get .tx0).pulse = none ∧ ((queued 1).bau.chains.get .tx0).queue = entryAt 150 :: [] ∧
      overshoots ((queued 1).bau.chains.get .tx0) 150 = false ∧ overshoots ((queued 1).bau.chains.get .tx0) 161 = true ∧
      overshoots openChain openChain.power.cmax = true ∧
      strikeEnforces running.bau.shared { openChain with strikes := 3 } = true ∧
      strikeEnforces running.bau.shared (struckOnce running.bau.shared { openChain with strikes := 2 }) = true ∧ running.pins.txen.get .tx0 = false ∧
      (running.bau.chains.get .tx0).queue = [] ∧ (running.bau.chains.get .tx0).pulse = none := by decide +kernel

theorem witness_FallChargesAndClosesThePulse :
    (pulsing { openChain with pulse := some (pulseAt 140) }).pins.txen.get .tx0 = true ∧
      (pulsing { openChain with pulse := some (pulseAt 140) }).bau.inRun = true ∧
      (pulsing { openChain with pulse := some (pulseAt 140) }).bau.closeNotice = none ∧
      ((pulsing { openChain with pulse := some (pulseAt 140) }).bau.chains.get .tx0).pulse = some (pulseAt 140) ∧
      reached running.timeBase (pulseAt 140).segment.start = true ∧ reached running.timeBase 1001 = false := by
  decide +kernel

theorem witness_ExpiriesAndStrikes :
    running.bau.closeNotice = none ∧ reached 20010 (afterMs (entryAt 150).arrival running.bau.shared.staleMs) = true ∧
      ((queued 1).bau.chains.get .tx0).queue = entryAt 150 :: [] ∧ (pulseAt 140).overrunDeadline = some 900 ∧
      reached running.timeBase 900 = true ∧ (pulseAt 140).overrunMark = false ∧ (pulseAt 140).segment.inhibited = false ∧
      ({ openChain with pulse := some (pulseAt 170), grace := some 1000 }).grace = some 1000 ∧
      reached running.timeBase 1000 = true ∧ running.bau.shared.threshold ≠ 0 ∧ (satInc8 3).toNat = running.bau.shared.threshold ∧
      openChain.enforced = false ∧ ({ running.bau.shared with threshold := 0 }).threshold = 0 ∧
      (satInc8 2).toNat ≠ running.bau.shared.threshold ∧
      ({ (pulseAt 140).segment with inhibited := true }).inhibited = true ∧ ({ openChain with enforced := true }).enforced = true ∧
      strikeEnforces running.bau.shared { openChain with strikes := 3 } = true := by decide +kernel

theorem witness_CeilingChangesStartGraceOrCut :
    running.bau.closeNotice = none ∧ (running.bau.chains.get .tx0).pulse = none ∧ openChain.heldInhibit = false ∧
      ({ openChain with pulse := some (pulseAt 140) }).pulse = some (pulseAt 140) ∧ (pulseAt 140).segment.marked = false ∧
      (pulseAt 140).mark.segment.marked = true ∧ exceeds (pulseAt 140).segment.code (.code 140) = false ∧
      exceeds (pulseAt 140).segment.code (.code 139) = true ∧ exceeds (pulseAt 140).segment.code .off = true ∧
      running.bau.shared.graceMs ≠ 0 ∧ ({ running.bau.shared with graceMs := 0 }).graceMs = 0 ∧ openChain.grace = none ∧
      BauChain.reset.heldInhibit = true ∧ running.inOrder (.ceilingChangeNotice (change .off true)) = true ∧
      changing.inOrder (.ceilingChangeNotice (change .off true)) = true ∧ (change .off true).inhibit = true ∧
      (change (.code 9) false).inhibit = false ∧ exceeds (pulseAt 140).segment.code (change (.code 9) false).ceiling = true := by
  decide +kernel

theorem witness_CloseNoticeHoldsEveryEvent :
    closing.bau.closeNotice = some notice ∧ closing.bau.inRun = true ∧ closing.pins.txen.get .tx0 = false ∧
      ({ closing with pins := { closing.pins with txen := ⟨true, false, false, false⟩ } }).pins.txen.get .tx0 = true ∧
      Port.portA ≠ .portC ∧ StartsFree closing .portA ∧ StartsFree closing .portC ∧ closing.isLoading = false ∧
      chainOfByte 3 = some .tx3 ∧ ownerOfByte 1 = some .ownerA ∧
      closing.inOrder (.ceilingChangeNotice (change .off true)) = true ∧ running.bau.closeNotice = none ∧
      running.inOrder (.ceilingChangeNotice (change .off true)) = true ∧ StartsFree running .portA ∧
      (bauTake (queued 8) (.flush .tx0)).bau.chains.tx0.queue = [] ∧ PortsInv awaiting ∧
      awaiting.awaitsAnswer .portA = true := by
  refine ⟨?_, ?_, ?_, ?_, ?_, ?_, ?_, ?_, ?_, ?_, ?_, ?_, ?_, ?_, ?_, portsInv_awaiting, ?_⟩ <;> decide +kernel

/-- New parameters of the BAU, and the close whose answer carries them. -/
def newParams : BauParams := { chains := Rom.everyChain { cmax := 190, k := 2 }, staleMs := 1, graceMs := 3, threshold := 1 }
def closingWith (x : BauParams) : State := { closing with bau := { closing.bau with closeAnswer := some (some x) } }

/-- A close with new parameters: an entry older than the new stale limit leaves, and a boundary segment is judged against
the new threshold. -/
theorem test_bauCloseEvent_parameters :
    ((after .bauCloseEvent
        (withChain .tx0 { openChain with queue := [{ entryAt 150 with arrival := 4294966000 }], pulse := some (pulseAt 170) }
          (closingWith newParams))).notices.drop 2,
      ((after .bauCloseEvent
        (withChain .tx0 { openChain with pulse := some (pulseAt 170) } (closingWith newParams))).bau.chains.get .tx0).strikes) =
      ([raiseChain .stale .tx0, raiseChain .overshoot .tx0, raiseChain .enforce .tx0, .enforcementSetRequest .tx0 2], 1) := by
  decide +kernel

theorem witness_CloseEventReportsAndOpensTheEpoch :
    running.bau.closeNotice = none ∧ closing.bau.closeNotice = some notice ∧ closing.bau.closeAnswer = some none ∧
      closing.bau.held = [] ∧ (closing.bau.chains.get .tx0).pulse = none ∧
      ((withChain .tx0 { openChain with pulse := some (pulseAt 170), grace := some 2000 } closing).bau.chains.get .tx0).pulse =
        some (pulseAt 170) ∧
      ((withChain .tx0 { openChain with pulse := some (pulseAt 170), grace := some 2000 } closing).bau.chains.get
        .tx0).grace.isSome = true ∧
      ((withChain .tx0 { openChain with pulse := some (pulseAt 170) } closing).bau.chains.get .tx0).grace = none ∧
      overshoots openChain 170 = true ∧ overshoots openChain 160 = false ∧ awaiting.bau.closeNotice = some notice ∧
      awaiting.bau.closeAnswer = some none ∧ awaiting.bau.held = [.announce .portA 0 0 150 400] ∧
      (closingWith newParams).bau.closeAnswer = some (some newParams) ∧ newParams.staleMs ≠ running.bau.shared.staleMs ∧
      reached notice.boundary (afterMs (4294966000 : Stamp) newParams.staleMs) = true ∧
      reached notice.boundary (afterMs (entryAt 150).arrival newParams.staleMs) = false := by
  decide +kernel

theorem witness_BurstUnitStartsUp :
    State.reset.bau.inRun = false ∧
      (∀ i, (State.reset.bau.chains.get i).queue = [] ∧ (State.reset.bau.chains.get i).pulse = none) ∧
      (∀ i, StoodAtEntry (edgesOf i (entered 950).bau.early) ((entered 950).pins.txen.get i) (decide (i = .tx0))) ∧
      (∀ i, StoodAtEntry (edgesOf i (after (.txenFall .tx0) (entered 950)).bau.early)
        ((after (.txenFall .tx0) (entered 950)).pins.txen.get i) (decide (i = .tx0))) ∧
      (after (.txenFall .tx0) (entered 950)).pins.txen.get .tx0 = false ∧
      (∀ i, ((entered 950).bau.chains.get i).queue = [] ∧ ((entered 950).bau.chains.get i).pulse = none) ∧
      State.reset.isLoading = true ∧ (entered 950).isLoading = false ∧ (entered 950).bau.inRun = false ∧
      (entered 950).pins.txen.get .tx1 = false ∧ (entered 950).pins.txen.get .tx0 = true ∧ running.bau.inRun = true ∧
      running.bau.closeNotice = none ∧ running.pins.txen.get .tx0 = false ∧
      (pulsing { openChain with pulse := some (pulseAt 140) }).pins.txen.get .tx0 = true := by
  refine ⟨?_, fun i => ?_, fun i => ⟨?_, ?_⟩, fun i => ⟨?_, ?_⟩, ?_, fun i => ?_, ?_, ?_, ?_, ?_, ?_, ?_, ?_, ?_, ?_⟩ <;>
    first
    | decide +kernel
    | (cases i <;> decide +kernel)
    | (intro e rest h
       cases i <;> first | (cases h; done) | (obtain rfl := (List.cons.inj h).1; rfl))

theorem witness_EpochTimerClosesAndCollects :
    running.ewu.state = .steady ∧ running.ewu.timer = some 1000 ∧ reached running.timeBase 1000 = true ∧
      collecting.ewu.state = .collecting := by decide +kernel

theorem witness_CloseComputationPushesAndGrants :
    collecting.ewu.state = .collecting ∧ collecting.ewu.report = some report38 ∧ collecting.ewu.answer = some answer38 ∧
      ring38.length < 1024 ∧ (List.replicate 1024 (assumedRecord 0 0)).length = 1024 := by decide +kernel

/-- The limits of section 3.8, with the average at the given code. -/
def limits38 (avg : Code) : GroupLimits := { avg := avg, floor := 140, window := 8 }

theorem witness_WindowAndAllowanceKeepTheAverage :
    (exactFigures ring38 (limits38 150) 100).xMax ≤ (exactFigures ring38 (limits38 150) 100).xWin ∧
      (exactFigures ring38 (limits38 160) 100).xWin ≤ (exactFigures ring38 (limits38 160) 100).xMax ∧ 1 ≤ (limits38 160).window ∧
      (limits38 160).floor.toNat ≤ (limits38 160).avg.toNat ∧ 2767600 ≤ (exactFigures ring38 (limits38 160) 100).eAllow ∧
      (∀ r ∈ ring38, r.energy.toNat ≤ 4742000000) ∧ (limits38 160).window ≤ 1024 := by decide +kernel

theorem witness_WindowUnitStartsUp :
    State.reset.ewu.state = .stopped ∧ State.reset.ewu.heldEntry = none ∧ State.reset.ewu.startupAnswer = none ∧
      ({ State.reset.ewu with startupAnswer := some startAnswer }).startupAnswer = some startAnswer ∧
      ({ State.reset.ewu with heldEntry := some 5 }).heldEntry = some 5 ∧ 2 ≤ ({ limits38 160 with window := 2 }).window ∧
      ({ limits38 160 with window := 1024 }).window ≤ 1024 ∧ (limits38 160).floor.toNat ≤ (limits38 160).avg.toNat ∧
      (500 : Nat) ≤ 500 := by
  decide +kernel

theorem witness_DeliveriesRecomputeTheTable :
    Recomputed running.timeBase [] running.clu (running.runClu (recompute running.timeBase)) ∧ State.reset.clu.loading = true ∧ running.inOrder (.scenarioDelivery ⟨8, 8, 8, 8⟩ (Rom.everyChain .uncapped)) = true ∧
      running.inOrder (.capDelivery .tx0 .off) = true ∧
      running.inOrder (.profileDelivery (Rom.everyChain { cmax := 100, k := 0, group := .g1, zone := .z1 })) = true ∧
      running.inOrder (.stageTripNotice { zone := .z1, stage := 3, backoff := 12, trip := false }) = true ∧
      running.inOrder (.levelLockNotice .lock 12) = true := by
  refine ⟨recomputed_of_recompute _ _ running _ _ rfl rfl, ?_, ?_, ?_, ?_, ?_, ?_⟩ <;> decide +kernel

/-- A running part whose ceiling unit holds a set request of TX2 for an epoch. -/
def holding (e : EpochIndex) : State := { running with clu := { running.clu with heldSets := [(.tx2, e)] } }

theorem witness_ActivityAndEnforcement :
    (part48.clu.chains.get .tx3).active = false ∧ (part48.clu.chains.get .tx2).active = true ∧
      (∃ i, (Rom.everyChain true).get i = true ∧ (part48.clu.chains.get i).active = true ∧
        (part48.clu.chains.get i).activitySinceClose = false) ∧
      (∀ i, (Rom.everyChain false).get i = true → (part48.clu.chains.get i).active = true →
        (part48.clu.chains.get i).activitySinceClose = true) ∧
      running.inOrder (.enforcementSetRequest .tx2 1) = true ∧ running.inOrder (.enforcementClearRequest .tx2 1) = true ∧
      (1 : EpochIndex) = running.clu.epoch ∧ State.reset.clu.loading = true ∧ 1 = nextEpoch State.reset.clu.epoch ∧
      (2 : EpochIndex) ≠ running.clu.epoch ∧ 2 = nextEpoch running.clu.epoch ∧ running.clu.loading = false ∧
      (3 : EpochIndex) ≠ running.clu.epoch ∧ 3 ≠ nextEpoch running.clu.epoch ∧
      ((after (.enforcementSetRequest .tx2 1) running).clu.chains.get .tx2).enforcedEpoch = some 1 ∧
      (running.clu.chains.get .tx2).enforcedEpoch ≠ some 1 ∧ (holding 2).clu.heldSets = [(.tx2, nextEpoch notice.closing)] ∧
      (∀ r ∈ (holding 9).clu.heldSets, r.2 ≠ nextEpoch notice.closing) ∧
      (∀ i, ((holding 9).clu.chains.get i).enforcedEpoch = none) ∧
      (∃ i, ((after (.enforcementSetRequest .tx2 1) running).clu.chains.get i).enforcedEpoch.isSome) := by
  refine ⟨?_, ?_, ⟨.tx2, ?_⟩, fun i => ?_, ?_, ?_, ?_, ?_, ?_, ?_, ?_, ?_, ?_, ?_, ?_, ?_, ?_, ?_, fun i => ?_, ⟨.tx2, ?_⟩⟩ <;>
    first
    | decide +kernel
    | (cases i <;> decide +kernel)

/-- A close applies a held set request for the epoch that begins and discards one for another epoch. -/
theorem test_cluCloseNotice_held :
    ((after (.cluCloseNotice notice) (holding 2)).clu.chains.get .tx2).enforcedEpoch = some 2 ∧
      ((after (.cluCloseNotice notice) (holding 9)).clu.chains.get .tx2).enforcedEpoch = none ∧
      (after (.cluCloseNotice notice) (holding 9)).clu.heldSets = [] := by decide +kernel

theorem witness_FinalCeilingIsTheLeastContribution :
    (causesOf Clu.reset .tx0).any = true ∧ (causesOf clu48 .tx2).any = false ∧ (clu48.chains.get .tx3).active = false ∧
      ({ CluChain.reset .tx0 with weight := 0 }).weight = 0 ∧ (clu48.chains.get .tx2).active = true ∧
      0 < (clu48.chains.get .tx2).weight ∧ (clu48.zones.get .z1).trip = false ∧
      (({ stage := 7, backoff := 48, trip := true } : ZoneInput)).trip = true ∧ clu48.level = .level 0 ∧
      ({ clu48 with level := .lock }).level = .lock ∧ ({ CluChain.reset .tx0 with cap := .off }).cap = .off ∧
      ({ CluChain.reset .tx0 with cap := .code 170 }).cap = .code 170 ∧ (clu48.chains.get .tx2).cap = .uncapped ∧
      (finalCeiling { clu48 with chains := clu48.chains.set .tx2 { clu48.chains.get .tx2 with cap := .code 3 } } .tx2 =
        .code 3) ∧ CeilingInv Clu.reset ∧ Clu.reset.loading = true ∧
      (Clu.reset.chains.get .tx0).entry.inhibit = true := by
  refine ⟨?_, ?_, ?_, ?_, ?_, ?_, ?_, ?_, ?_, ?_, ?_, ?_, ?_, ?_, ceilingInv_reset, ?_, ?_⟩ <;> decide +kernel

theorem witness_CeilingsStayWithinTheGroupAllowance : CeilingInv clu48 ∧ groupExposure clu48 .g1 = 149600000 := by
  refine ⟨fun i => ?_, ?_⟩ <;> first | decide +kernel | (cases i <;> decide +kernel)

theorem witness_RoundsReadSensorsAndUpdateZones :
    3 ≤ (3 : BitVec 10).toNat ∧ (1020 : BitVec 10).toNat ≤ 1020 ∧ (2 : BitVec 10).toNat < 3 ∧
      1020 < (1021 : BitVec 10).toNat ∧ (running.thu.sensors.get .s0).state = .ok ∧
      (({ state := .suspect, lastRaw := none, temperature := none, faultRun := 2, goodRun := 0 } : SensorRecord)).faultRun + 1 = 3 ∧
      (({ state := .suspect, lastRaw := none, temperature := none, faultRun := 1, goodRun := 0 } : SensorRecord)).faultRun + 1 ≠ 3 ∧
      (({ state := .fault, lastRaw := none, temperature := none, faultRun := 3, goodRun := 2 } : SensorRecord)).goodRun + 1 = 3 ∧
      (({ state := .fault, lastRaw := none, temperature := none, faultRun := 3, goodRun := 1 } : SensorRecord)).goodRun + 1 ≠ 3 ∧
      running.thu.timer = some 1000 ∧ reached running.timeBase 1000 = true ∧
      (({ temperature := none, stage := 3, trip := false, forced := false, dwell := some 1000 } : ZoneRecord)).dwell = some 1000 := by
  decide +kernel

/-- A zone record at a stage. -/
def zoneAt (stage : Nat) (trip : Bool) (dwell : Option Stamp) : ZoneRecord :=
  { temperature := none, stage := stage, trip := trip, forced := false, dwell := dwell }

/-- The thresholds at their boundaries: 680 trips, 664 holds the trip, 663 leaves it, 440 reaches stage 3, 543 leaves
stage 6. -/
theorem witness_StageMachineOutcomes :
    (zoneAt 7 true none).trip = true ∧ (663 : Int) < Rom.thermal.zones.z0.riseTrip - (Rom.thermal.zones.z0.hyst : Int) ∧
      Rom.thermal.zones.z0.riseTrip - (Rom.thermal.zones.z0.hyst : Int) ≤ 664 ∧ (zoneAt 2 false none).trip = false ∧
      Rom.thermal.zones.z0.riseTrip ≤ 680 ∧ (440 : Int) < Rom.thermal.zones.z0.riseTrip ∧ (zoneAt 2 false none).stage < 7 ∧
      riseOf Rom.thermal.zones.z0 ((zoneAt 2 false none).stage + 1) ≤ 440 ∧ 0 < (zoneAt 6 false none).stage ∧
      (543 : Int) < riseOf Rom.thermal.zones.z0 7 ∧
      (543 : Int) < riseOf Rom.thermal.zones.z0 6 - (Rom.thermal.zones.z0.hyst : Int) ∧ (zoneAt 6 false none).dwell = none ∧
      (zoneAt 6 false (some 9)).dwell ≠ none ∧ (zoneAt 6 false none).stage ≤ 7 ∧
      (updateZone .z0 Rom.thermal.zones.z0 (PerSensor.build fun _ =>
        { state := .ok, lastRaw := none, temperature := some 543, faultRun := 0, goodRun := 0 }) 0 (zoneAt 6 false none)).val.stage <
        (zoneAt 6 false none).stage ∧
      isForced (PerSensor.build fun _ =>
        { state := .fault, lastRaw := none, temperature := none, faultRun := 3, goodRun := 0 }) Rom.thermal.zones.z0 = true ∧
      (zoneAt 2 false none).stage < Rom.thermal.zones.z0.faultStage ∧
      (zoneAt 5 false none).stage = Rom.thermal.zones.z0.faultStage ∧
      Rom.thermal.zones.z0.faultStage < (zoneAt 6 false none).stage ∧
      Rom.thermal.zones.z0.faultStage < (zoneAt 6 false (some 9)).stage ∧
      riseOf Rom.thermal.zones.z0 6 - (Rom.thermal.zones.z0.hyst : Int) ≤ 544 := by decide +kernel

/-- Sensors that have had no good reading: a zone is not forced and has no temperature. With S1 alone outside FAULT the
zone takes its temperature; with every member in FAULT it is forced (R108). -/
theorem test_zone_temperatures :
    let unread : SensorRecord := { state := .ok, lastRaw := none, temperature := none, faultRun := 0, goodRun := 0 }
    let failed : SensorRecord := { unread with state := .fault, temperature := some 700, faultRun := 3 }
    let zone (s : PerSensor SensorRecord) := (updateZone .z0 Rom.thermal.zones.z0 s 0 (zoneAt 6 false none)).val
    (zone ⟨unread, unread, unread, unread⟩ = zoneAt 6 false none) ∧
      (zone ⟨failed, { unread with temperature := some 600 }, unread, unread⟩).temperature = some 600 ∧
      zone ⟨failed, failed, unread, unread⟩ =
        { zoneAt 5 false (some (afterMs 0 Rom.thermal.zones.z0.dwellMs)) with forced := true } ∧
      (updateZone .z0 Rom.thermal.zones.z0 ⟨failed, failed, unread, unread⟩ 0 (zoneAt 6 false (some 9))).val.stage = 6 := by
  decide +kernel

theorem witness_ThermalParametersAndEntry : State.reset.thu.timer = none ∧ running.thu.timer ≠ none := by decide +kernel

theorem witness_DroopRisesClimbAndLock :
    (List.replicate 7 (0 : Stamp)).length < 8 ∧ (List.replicate 8 (0 : Stamp)).length = 8 ∧
      running.pins.droop = false ∧ running.ovu.inRun = true ∧ (ovuAt (.level 3) false).level = .level 3 ∧
      (ovuAt (.level 4) false).level = .level 4 ∧ (ovuAt .lock true).level = .lock ∧
      ({ ovuAt (.level 4) true with reStrike := some 1000 }).reStrike = some 1000 ∧ reached running.timeBase 1000 = true ∧
      State.reset.ovu.inRun = false ∧ State.reset.isLoading = true ∧ (entered 950).ovu.inRun = false ∧
      (entered 950).isLoading = false ∧ (entered 950).pins.droop = true ∧
      (after .droopFall (entered 950)).pins.droop = false := by
  decide +kernel

theorem witness_DroopFallRestartsTheHold :
    ({ running with pins := { running.pins with droop := true }, ovu := ovuAt (.level 1) true }).pins.droop = true ∧
      (ovuAt (.level 1) true).inRun = true ∧ (ovuAt (.level 1) true).level = .level 1 ∧
      (ovuAt (.level 0) true).level = .level 0 ∧ (ovuAt .lock true).level = .lock := by decide +kernel

theorem witness_HoldExpiryAttemptsAStep :
    ({ ovuAt (.level 1) false with hold := some 1000 }).hold = some 1000 ∧ reached running.timeBase 1000 = true ∧
      (ovuAt (.level 1) false).droopHeld = false ∧ (ovuAt (.level 1) false).level ≠ .level 0 ∧
      (ovuAt (.level 1) true).droopHeld = true ∧ (ovuAt (.level 0) false).level = .level 0 ∧
      OverloadInv { ovuAt .lock true with lock := some 9 } := by
  refine ⟨?_, ?_, ?_, ?_, ?_, ?_, ?_⟩ <;> first | decide +kernel | (simp only [OverloadInv]; decide +kernel)

theorem witness_StepAttemptsLowerTheLevel :
    (ovuAt (.level 1) false).level = .level 1 ∧ isChronic 0 (ovuAt (.level 1) false) = false ∧
      isChronic 0 { ovuAt (.level 1) false with history := List.replicate 8 0 } = true ∧
      ({ ovuAt (.level 2) false with release := some 1000 }).release = some 1000 ∧ reached running.timeBase 1000 = true ∧
      OverloadInv { ovuAt (.level 2) false with release := some 1000 } ∧
      exec .releaseExpiry { running with ovu := { ovuAt (.level 2) false with release := some 1000 } } =
        .next (after .releaseExpiry { running with ovu := { ovuAt (.level 2) false with release := some 1000 } }) ∧
      (after .releaseExpiry { running with ovu := { ovuAt (.level 2) false with release := some 1000 } }).ovu.level = .level 1 ∧
      (after .releaseExpiry { running with ovu := { ovuAt (.level 2) false with release := some 1000 } }).ovu.inRun = true := by
  refine ⟨?_, ?_, ?_, ?_, ?_, ?_, rfl, ?_, ?_⟩ <;> first | decide +kernel | (simp only [OverloadInv]; decide +kernel)

theorem witness_LockExpiryRetirementAndEntry :
    ({ ovuAt .lock false with lock := some 1000 }).lock = some 1000 ∧ reached running.timeBase 1000 = true ∧
      (ovuAt .lock false).droopHeld = false ∧ (ovuAt .lock true).droopHeld = true ∧ 60000000 < elapsed 0 60000001 ∧
      elapsed 0 60000000 ≤ 60000000 ∧ ({ ovuAt (.level 0) false with history := [0, 5] }).history = 0 :: [5] ∧
      State.reset.ovu.inRun = false ∧ StoodAtEntry State.reset.ovu.early State.reset.pins.droop false ∧
      (entered 950).ovu.inRun = false ∧ StoodAtEntry (entered 950).ovu.early (entered 950).pins.droop true ∧
      StoodAtEntry (after .droopFall (entered 950)).ovu.early (after .droopFall (entered 950)).pins.droop true ∧
      (entered 950).ovu.level = .level 0 ∧ running.ovu.inRun = true ∧ running.pins.droop = false ∧
      ({ running with pins := { running.pins with droop := true } }).pins.droop = true := by
  refine ⟨?_, ?_, ?_, ?_, ?_, ?_, ?_, ?_, ⟨?_, ?_⟩, ?_, ⟨?_, ?_⟩, ⟨?_, ?_⟩, ?_, ?_, ?_, ?_⟩ <;>
    first
    | decide +kernel
    | (intro e rest h; first | (cases h; done) | (obtain rfl := (List.cons.inj h).1; rfl))

theorem witness_CodeOfIsTheLargestCodeWithin :
    codeOf 1000 = .code 0 ∧ codeOf 999 = .off ∧ codeOf 2371000000 = .code 255 ∧ codeOf 2370999999 = .code 254 ∧
      2371000000 ≤ 2371000001 := by decide +kernel

theorem witness_TransmitCeilingKeepsTheExposure :
    (254 : Code).toNat < (255 : Code).toNat ∧ codeOf 150000000 = .code 207 ∧ transmitCeiling 220 4 (.code 207) = .code 211 ∧
      (211 : Code).toNat ≤ (211 : Code).toNat := by decide +kernel

/-! The invariants hold after reset, and a step on a command of the unit answers a next state there. -/

/-- The part after reset with one command waiting. -/
def waiting (c : Instr) : State := { State.reset with pending := [c] }

theorem witness_StepsKeepTheCeilingTable :
    CeilingInv (waiting .cluEntryToRun).clu ∧ step (waiting .cluEntryToRun) = .next (after .cluEntryToRun State.reset) :=
  ⟨ceilingInv_reset, rfl⟩

theorem witness_StepsKeepTheInterruptLines :
    EventInv (waiting (.eventRaise { cls := .trip, mask := 0 })).evr ∧
      step (waiting (.eventRaise { cls := .trip, mask := 0 })) =
        .next (after (.eventRaise { cls := .trip, mask := 0 }) State.reset) := ⟨eventInv_reset, rfl⟩

theorem witness_StepsKeepTheOverloadTimers :
    OverloadInv (waiting (.ovuEntryToRun 0)).ovu ∧
      step (waiting (.ovuEntryToRun 0)) = .next (after (.ovuEntryToRun 0) State.reset) := ⟨overloadInv_reset, rfl⟩

theorem witness_StepsKeepTheWindows :
    WindowInv (waiting (.ewuEntryToRun 0)).ewu ∧
      step (waiting (.ewuEntryToRun 0)) = .next (after (.ewuEntryToRun 0) State.reset) := ⟨windowInv_reset, rfl⟩

theorem witness_StepsKeepTheBursts :
    BurstInv (waiting (.bauEntryToRun 0)).bau ∧
      step (waiting (.bauEntryToRun 0)) = .next (after (.bauEntryToRun 0) State.reset) := ⟨burstInv_reset, rfl⟩

theorem witness_StepsKeepTheThermalState :
    QueueWf (waiting (.thermalDelivery Rom.thermal)) ∧ ThermalInv (waiting (.thermalDelivery Rom.thermal)).thu ∧
      step (waiting (.thermalDelivery Rom.thermal)) = .next (after (.thermalDelivery Rom.thermal) State.reset) := by
  refine ⟨fun c hc => ?_, thermalInv_reset, rfl⟩
  rw [List.mem_singleton.1 hc]
  decide +kernel

theorem witness_StepsKeepThePolicy :
    QueueWf (waiting (.pstCloseNotice notice)) ∧ PolicyInv (waiting (.pstCloseNotice notice)).pst ∧
      StagedTable (waiting (.pstCloseNotice notice)).pld ∧
      step (waiting (.pstCloseNotice notice)) = .next (after (.pstCloseNotice notice) State.reset) := by
  refine ⟨fun c hc => ?_, policyInv_reset, fun x h => (by cases h), rfl⟩
  rw [List.mem_singleton.1 hc]
  rfl

theorem witness_StepsKeepTheLoader :
    LoaderInv (waiting (.startupLoadEnd [])).pld ∧
      step (waiting (.startupLoadEnd [])) = .next (after (.startupLoadEnd []) State.reset) := ⟨loaderInv_reset, rfl⟩

theorem witness_StepsKeepThePorts :
    LoaderInv (waiting (.readThermal .portA)).pld ∧ PortsInv (waiting (.readThermal .portA)) ∧
      step (waiting (.readThermal .portA)) = .next (after (.readThermal .portA) State.reset) := by
  refine ⟨loaderInv_reset, portsInv_of_reset _ rfl rfl fun q => ?_, rfl⟩
  cases q <;> rfl

end Sys2Proof.Tests
end

/-! The statements about power codes and the transmit ceiling (R2 to R5). -/

namespace Sys2Proof.Machine

/-! ### The linear power of a code (R2) -/

/-- The least linear power, in nanowatts. -/
theorem lin_zero : lin 0 = 1000 := by decide

/-- The greatest linear power, in nanowatts. -/
theorem lin_255 : lin 255 = 2371000000 := by decide

/-- `lin_strictMono` without strictness. -/
theorem lin_le_lin {c d : Code} (h : c.toNat ≤ d.toNat) : lin c ≤ lin d :=
  linNat_mono c.toNat d.toNat h d.isLt

/-- No code is greater than 255. -/
theorem code_toNat_le_255 (d : Code) : d.toNat ≤ (255 : Code).toNat := Nat.le_of_lt_succ d.isLt

/-- Below 255 the next code is one more: the addition does not wrap. -/
theorem code_toNat_succ {c : Code} (h : c ≠ 255) : (c + 1).toNat = c.toNat + 1 := by
  have : c.toNat ≠ 255 := fun e => h (BitVec.eq_of_toNat_eq e)
  have := c.isLt
  rw [BitVec.toNat_add, show (1 : Code).toNat = 1 from rfl]
  omega

/-! ### The code of a power (R3) -/

/-- The code of a power is within that power. -/
theorem lin_le_of_codeOf {p : Nat} {c : Code} (h : codeOf p = .code c) : lin c ≤ p :=
  ((codeOf_eq_code p c).1 h).1

/-- Every code greater than the code of a power is beyond that power. -/
theorem lt_lin_of_codeOf {p : Nat} {c d : Code} (h : codeOf p = .code c) (hd : c.toNat < d.toNat) : p < lin d :=
  ((codeOf_eq_code p c).1 h).2 d hd

/-- A power has no code exactly when it is below the linear power of code 0. -/
theorem codeOf_eq_off (p : Nat) : codeOf p = .off ↔ p < 1000 := by
  constructor
  · intro h
    have hlin : p < lin 0 := (codeBelow_spec p 256 (Nat.le_refl _)).2 h 0 (by omega)
    rwa [lin_zero] at hlin
  · intro hp
    cases h : codeOf p with
    | off => rfl
    | code c =>
      have hle : lin c ≤ p := lin_le_of_codeOf h
      have h0 : lin 0 ≤ lin c := lin_le_lin (Nat.zero_le _)
      rw [lin_zero] at h0
      omega

/-- From the greatest linear power on, the code is 255: no code is greater. -/
theorem codeOf_eq_255 {p : Nat} (hp : 2371000000 ≤ p) : codeOf p = .code 255 :=
  (codeOf_eq_code p 255).2 ⟨by rwa [lin_255], fun d hd => absurd hd (Nat.not_lt.2 (code_toNat_le_255 d))⟩

/-- The code of a code's own linear power is that code, as `lin` is strictly increasing. -/
theorem codeOf_lin (c : Code) : codeOf (lin c) = .code c :=
  (codeOf_eq_code (lin c) c).2 ⟨Nat.le_refl _, fun d hd => lin_strictMono c d hd⟩

/-- The next code, where there is one, is beyond the power. -/
theorem lt_lin_succ_of_codeOf {p : Nat} {c : Code} (h : codeOf p = .code c) (hc : c ≠ 255) : p < lin (c + 1) :=
  lt_lin_of_codeOf h (by rw [code_toNat_succ hc]; exact Nat.lt_succ_self _)

/-- Settles O49: the greatest-code law is `codeOf_eq_code`, and the boundaries follow from it. -/
theorem codeOfIsTheLargestCodeWithin : Obligations.CodeOfIsTheLargestCodeWithin := by
  refine ⟨codeOf_eq_code, codeOf_eq_off, fun _ => codeOf_eq_255, codeOf_lin, fun _ => rfl, fun p c h => ?_⟩
  exact ⟨lin_le_of_codeOf h, lt_lin_succ_of_codeOf h, fun hc => hc ▸ lin_le_of_codeOf h⟩

/-! ### The transmit ceiling (R5) -/

/-- The transmit ceiling of a code is a code: only OFF gives OFF. -/
theorem transmitCeiling_code_exists (cmax : Code) (k : Nat) (e : Code) :
    ∃ x, transmitCeiling cmax k (.code e) = .code x := ⟨_, rfl⟩

/-- A code at most the transmit ceiling has an exposure code at most the exposure ceiling. -/
theorem exposureCode_le_of_le_transmitCeiling {cmax e x y : Code} {k : Nat}
    (h : transmitCeiling cmax k (.code e) = .code x) (hy : y.toNat ≤ x.toNat) : (exposureCode y k).toNat ≤ e.toNat := by
  obtain ⟨-, hx⟩ := transmitCeiling_code h
  rw [exposureCode_toNat]
  omega

/-- A code at most the transmit ceiling of a share's code has an exposure power within the share. -/
theorem exposurePower_le_share {cmax e x y : Code} {k share : Nat} (h : transmitCeiling cmax k (.code e) = .code x)
    (hs : codeOf share = .code e) (hy : y.toNat ≤ x.toNat) : lin (exposureCode y k) ≤ share :=
  calc lin (exposureCode y k) ≤ lin e := lin_le_lin (exposureCode_le_of_le_transmitCeiling h hy)
    _ ≤ share := lin_le_of_codeOf hs

/-- Settles O50: subtracting k undoes the k that the transmit ceiling adds, and `lin` keeps the order. -/
theorem transmitCeilingKeepsTheExposure : Obligations.TransmitCeilingKeepsTheExposure := by
  refine ⟨⟨lin_strictMono, lin_zero, lin_255, fun _ => rfl⟩, fun cmax k => ⟨rfl, fun e => ?_⟩⟩
  obtain ⟨x, hx⟩ := transmitCeiling_code_exists cmax k e
  obtain ⟨hmin, -⟩ := transmitCeiling_code hx
  exact ⟨x, hx, hmin, exposureCode_le_of_le_transmitCeiling hx (Nat.le_refl _),
    fun _ _ hs hy => exposurePower_le_share hx hs hy⟩

end Sys2Proof.Machine

/-! The exposure law of the ceiling table (R67): a final ceiling is within its chain's share, and the shares of a group
are within its allowance. -/

namespace Sys2Proof.Machine

/-! ### The final ceiling and the exposure ceiling (R66, R72) -/

/-- Only OFF is at most OFF (R1). -/
theorem eq_off_of_atMost_off {a : Ceiling} (h : atMost a .off) : a = .off := by
  cases a with
  | off => rfl
  | code _ => cases h

/-- A code that is at most a ceiling makes that ceiling a code, not less (R1). -/
theorem exists_code_of_code_atMost {y : Code} {b : Ceiling} (h : atMost (.code y) b) :
    ∃ x, b = .code x ∧ y.toNat ≤ x.toNat := by
  cases b with
  | off => cases eq_off_of_atMost_off h
  | code x => exact ⟨x, rfl, (atMost_code_iff y x).1 h⟩

/-- The exposure contribution always takes part in the final ceiling (R72). -/
theorem finalCeiling_atMost_exposureContribution (c : Clu) (i : Chain) :
    atMost (finalCeiling c i) (exposureContribution c i) := by
  have hLeast : atMost (leastCeiling (leastCeiling (exposureContribution c i) (thermalContribution c i))
      (leastCeiling (overloadContribution c i) (cmaxContribution c i))) (exposureContribution c i) :=
    atMost_trans (leastCeiling_atMost _ _).1 (leastCeiling_atMost _ _).1
  exact atMost_trans (leastWith_atMost _ _).1 (atMost_trans (leastWith_atMost _ _).1 hLeast)

/-- An exposure ceiling is a code only for an ACTIVE chain of positive weight, and then it is its share's code (R66). -/
theorem exposureCeiling_eq_code {c : Clu} {i : Chain} {e : Code} (h : exposureCeiling c i = .code e) :
    (c.chains.get i).active = true ∧ codeOf (shareOf c i) = .code e := by
  unfold exposureCeiling at h
  split at h
  case isTrue hact =>
    rw [Bool.and_eq_true] at hact
    exact ⟨hact.1, h⟩
  case isFalse => cases h

/-- A code as final ceiling belongs to an ACTIVE chain and has an exposure power within the chain's share (R67). -/
theorem exposurePower_le_shareOf {c : Clu} {i : Chain} {y : Code} (h : finalCeiling c i = .code y) :
    (c.chains.get i).active = true ∧ lin (exposureCode y (c.chains.get i).profile.k) ≤ shareOf c i := by
  obtain ⟨x, hx, hyx⟩ := exists_code_of_code_atMost (h ▸ finalCeiling_atMost_exposureContribution c i)
  unfold exposureContribution at hx
  cases he : exposureCeiling c i with
  | off => rw [he] at hx; cases hx
  | code e =>
    rw [he] at hx
    obtain ⟨hact, hshare⟩ := exposureCeiling_eq_code he
    exact ⟨hact, exposurePower_le_share hx hshare hyx⟩

/-! ### The shares of a group (R66, R67) -/

/-- The part of a group's allowance that falls to a chain by the weight it adds to the group: nothing for a chain of the
other group or one that is not ACTIVE. -/
def allowancePart (c : Clu) (g : Group) (i : Chain) : Nat :=
  (c.power.get g).toNat * activeWeight c g i / weightTotal c g

/-- For an ACTIVE chain that part, in its own group, is its share. -/
theorem allowancePart_eq_shareOf {c : Clu} {i : Chain} (hact : (c.chains.get i).active = true) :
    allowancePart c (c.chains.get i).profile.group i = shareOf c i := by
  simp [allowancePart, shareOf, activeWeight, hact]

/-- The parts of the four chains are within the allowance, as each is rounded down. -/
theorem allowanceParts_le (c : Clu) (g : Group) :
    allowancePart c g .tx0 + allowancePart c g .tx1 + allowancePart c g .tx2 + allowancePart c g .tx3 ≤
      (c.power.get g).toNat :=
  shares_le _ (weightTotal c g) _ _ _ _ rfl

/-- What a chain adds to the exposure of a group. -/
def exposureIn (c : Clu) (g : Group) (i : Chain) : Nat :=
  if (c.chains.get i).profile.group = g then ceilingExposure (c.chains.get i) else 0

/-- The exposure of a group is what its four chains add. -/
theorem groupExposure_eq (c : Clu) (g : Group) :
    groupExposure c g = exposureIn c g .tx0 + exposureIn c g .tx1 + exposureIn c g .tx2 + exposureIn c g .tx3 := by
  simp [groupExposure, exposureIn, Chain.all, Nat.add_assoc]

/-- With the table its inputs make, a chain adds at most its part of the allowance. -/
theorem exposureIn_le_allowancePart {c : Clu} (hc : CeilingInv c) (g : Group) (i : Chain) :
    exposureIn c g i ≤ allowancePart c g i := by
  unfold exposureIn
  split
  case isFalse => exact Nat.zero_le _
  case isTrue hg =>
    subst hg
    have hfinal : (c.chains.get i).entry.final = finalCeiling c i := by rw [hc i]; rfl
    unfold ceilingExposure
    rw [hfinal]
    cases h : finalCeiling c i with
    | off => exact Nat.zero_le _
    | code y =>
      obtain ⟨hact, hle⟩ := exposurePower_le_shareOf h
      rwa [allowancePart_eq_shareOf hact]

/-- Settles O40: chain by chain the exposure is within the part of the allowance, and the parts sum to at most it. -/
theorem ceilingsStayWithinTheGroupAllowance : Obligations.CeilingsStayWithinTheGroupAllowance := by
  intro c g hc
  have hle := exposureIn_le_allowancePart hc g
  calc groupExposure c g = _ := groupExposure_eq c g
    _ ≤ allowancePart c g .tx0 + allowancePart c g .tx1 + allowancePart c g .tx2 + allowancePart c g .tx3 :=
      Nat.add_le_add (Nat.add_le_add (Nat.add_le_add (hle .tx0) (hle .tx1)) (hle .tx2)) (hle .tx3)
    _ ≤ (c.power.get g).toNat := allowanceParts_le c g

end Sys2Proof.Machine

/-! The falling edge of the droop line (R126). -/

namespace Sys2Proof.Machine

/-! ### The falling edge of the OVU -/

/-- A falling edge changes droop_held, the chronic flag and two timers, and nothing else: no level. -/
theorem fallingEdge_eq (t : Stamp) (o : Ovu) :
    fallingEdge t o =
      { o with droopHeld := false, reStrike := none, hold := holdAfterFall t o, chronic := isChronic t o } := rfl

/-- At levels 1 to 4 the hold timer restarts, one hold interval after the edge's stamp. -/
theorem holdAfterFall_restarts {t : Stamp} {o : Ovu} {n : Nat} (hl : o.level = .level n) (hn : 1 ≤ n) :
    holdAfterFall t o = some (afterMs t o.params.holdMs) := by
  simp [holdAfterFall, hl, Nat.ne_of_gt hn]

/-- At level 0 and in LOCK the hold timer stays as it is. -/
theorem holdAfterFall_unchanged {t : Stamp} {o : Ovu} (hl : o.level = .level 0 ∨ o.level = .lock) :
    holdAfterFall t o = o.hold := by
  rcases hl with hl | hl <;> simp [holdAfterFall, hl]

/-! ### DROOP_FALL in RUN -/

/-- Once the OVU is in RUN it takes a falling edge at once, and sends no notice. -/
theorem ovuEdge_falling {loading : Bool} {t : Stamp} {o : Ovu} (hr : o.inRun = true) :
    ovuEdge loading { rising := false, stamp := t } o = Eff.pure (fallingEdge t o) := by
  simp [ovuEdge, droopEdge, hr]

/-- DROOP_FALL with the line high and the OVU in RUN: the line falls, and the OVU takes the edge at the time base. -/
theorem exec_droopFall {s : State} (hd : s.pins.droop = true) (hr : s.ovu.inRun = true) :
    exec .droopFall s =
      .next { s with pins := { s.pins with droop := false }, ovu := fallingEdge s.timeBase s.ovu } := by
  have hexec : exec .droopFall s = .next (droopFalls s) := rfl
  have hrun : (s.setPins { s.pins with droop := false }).ovu.inRun = true := hr
  rw [hexec, droopFalls, if_pos hd, State.runOvu, ovuEdge_falling hrun]
  simp [Eff.pure, State.setPins]

/-- Settles O45: the next state is that of `exec_droopFall`, and the chronic flag and the hold timer follow from the
lemmas about `isChronic` and `holdAfterFall`. -/
theorem droopFallRestartsTheHold : Obligations.DroopFallRestartsTheHold := by
  intro s hd hr
  exact ⟨_, exec_droopFall hd hr, rfl, fallingEdge_eq _ _, isChronic_iff _ _, fun _ => holdAfterFall_restarts,
    holdAfterFall_unchanged⟩

end Sys2Proof.Machine

/-! The judgement of a profile image's sections (R170, R171). -/

namespace Sys2Proof.Machine

/-! ### A fixed-length section -/

/-- A section of a required length is judged by the checks of its place and sum, and then by its bytes. -/
theorem checkedBytes_bind_eq_some {α : Type} {img : FlashImage} {n : Nat} {e : DirEntry} {parse : List Byte → Option α}
    {a : α} {P : List Byte → Prop} (hparse : ∀ b : List Byte, b.length = n → (parse b = some a ↔ P b)) :
    (checkedBytes img n e).bind parse = some a ↔ SectionChecked img e n ∧ P (flashRead img e.offset e.length) := by
  have hread : SectionChecked img e n → (flashRead img e.offset e.length).length = n := fun h => by
    rw [flashRead_length]
    exact h.1
  rw [Option.bind_eq_some_iff]
  constructor
  · rintro ⟨b, hb, ha⟩
    obtain ⟨hchecked, rfl⟩ := checkedBytes_eq_some.1 hb
    exact ⟨hchecked, (hparse _ (hread hchecked)).1 ha⟩
  · rintro ⟨hchecked, hp⟩
    exact ⟨_, checkedBytes_eq_some.2 ⟨hchecked, rfl⟩, (hparse _ (hread hchecked)).2 hp⟩

theorem judgeThermal_eq_some {img : FlashImage} {e : DirEntry} {t : ThermalSection} :
    judgeThermal img e = some t ↔
      SectionChecked img e 353 ∧ ThermalSectionLayout (flashRead img e.offset e.length) t ∧ t.wf = true :=
  checkedBytes_bind_eq_some (P := fun b => ThermalSectionLayout b t ∧ t.wf = true) fun _ h => parseThermal_iff h

theorem judgeOverload_eq_some {img : FlashImage} {e : DirEntry} {o : OverloadSection} :
    judgeOverload img e = some o ↔
      SectionChecked img e 10 ∧ OverloadSectionLayout (flashRead img e.offset e.length) o ∧ o.wf = true :=
  checkedBytes_bind_eq_some (P := fun b => OverloadSectionLayout b o ∧ o.wf = true) fun _ h => parseOverload_iff h

theorem judgeRouting_eq_some {img : FlashImage} {e : DirEntry} {r : PerClass Mask} :
    judgeRouting img e = some r ↔
      SectionChecked img e 12 ∧ RoutingSectionLayout (flashRead img e.offset e.length) r :=
  checkedBytes_bind_eq_some (P := fun b => RoutingSectionLayout b r) fun _ h => parseRouting_iff h

/-! ### LIMITS -/

/-- Below a protected end, for an entry of the length of LIMITS. -/
theorem liesBelow_iff {e : DirEntry} (h : e.length = 34) (pe : Nat) :
    liesBelow e pe = true ↔ e.offset + 34 ≤ pe * 4096 := by
  simp [liesBelow, h, Config.protectedUnit]

theorem judgeLimits_eq_some {img : FlashImage} {e : DirEntry} {inForce : Option Nat} {l : LimitsSection} :
    judgeLimits img inForce e = some l ↔
      SectionChecked img e 34 ∧ LimitsSectionLayout (flashRead img e.offset e.length) l ∧ l.wf = true ∧
        e.offset + 34 ≤ l.protectedEnd * 4096 ∧ ∀ pe, inForce = some pe → e.offset + 34 ≤ pe * 4096 := by
  have hbytes : ∀ l', (checkedBytes img 34 e).bind parseLimits = some l' ↔
      SectionChecked img e 34 ∧ LimitsSectionLayout (flashRead img e.offset e.length) l' ∧ l'.wf = true :=
    fun l' => checkedBytes_bind_eq_some (P := fun b => LimitsSectionLayout b l' ∧ l'.wf = true) fun _ h =>
      parseLimits_iff h
  have hplace : SectionChecked img e 34 → ((liesBelow e l.protectedEnd && inForce.all (liesBelow e)) = true ↔
      e.offset + 34 ≤ l.protectedEnd * 4096 ∧ ∀ pe, inForce = some pe → e.offset + 34 ≤ pe * 4096) := by
    rintro ⟨hlen, -⟩
    rw [Bool.and_eq_true, liesBelow_iff hlen]
    cases inForce with
    | none => simp
    | some pe => simp [liesBelow_iff hlen]
  unfold judgeLimits
  rw [Option.bind_eq_some_iff]
  constructor
  · rintro ⟨l', hl, hsome⟩
    obtain ⟨hbelow, rfl⟩ := checked_eq_some.1 hsome
    obtain ⟨hchecked, hlayout, hwf⟩ := (hbytes l').1 hl
    exact ⟨hchecked, hlayout, hwf, (hplace hchecked).1 hbelow⟩
  · rintro ⟨hchecked, hlayout, hwf, hbelow⟩
    exact ⟨l, (hbytes l).2 ⟨hchecked, hlayout, hwf⟩, checked_eq_some.2 ⟨(hplace hchecked).2 hbelow, rfl⟩⟩

/-! ### SCENARIOS, whose length is in its first byte -/

/-- The first byte of a section read whole is the flash's byte at its offset. -/
theorem u8_flashRead_zero (img : FlashImage) (a : Nat) {n : Nat} (h : 0 < n) :
    u8 (flashRead img a n) 0 = (flashByte img a).toNat := by
  have hbyte : byteAt (flashRead img a n) 0 = flashByte img a := byteAt_eq (flashRead_getElem? img a h)
  rw [u8, hbyte]

/-- The count of a table of at most eight records is the byte at the section's offset. -/
theorem count_of_scenariosLayout {img : FlashImage} {a n : Nat} {t : List ScenarioRecord} (ht : t.length ≤ 8)
    (h : ScenariosSectionLayout (flashRead img a n) t) : (flashByte img a).toNat = t.length := by
  obtain ⟨hlen, hcount, -⟩ := h
  rw [flashRead_length] at hlen
  rw [← u8_flashRead_zero img a (show 0 < n by omega)]
  exact (fieldAt_one (by rw [flashRead_length]; omega) (by omega)).1 hcount

theorem judgeScenarios_eq_some {img : FlashImage} {e : DirEntry} {t : List ScenarioRecord} :
    judgeScenarios img e = some t ↔
      (1 ≤ t.length ∧ t.length ≤ 8) ∧ SectionChecked img e (1 + 20 * t.length) ∧
        ScenariosSectionLayout (flashRead img e.offset e.length) t ∧ ∀ r ∈ t, r.wf = true := by
  have hcount : ∀ n, SectionChecked img e (1 + 20 * n) → (flashByte img e.offset).toNat = n →
      (flashRead img e.offset e.length).length = 1 + 20 * u8 (flashRead img e.offset e.length) 0 := by
    rintro n ⟨hlen, -⟩ hn
    rw [flashRead_length, u8_flashRead_zero img e.offset (by omega), hlen, hn]
  unfold judgeScenarios
  rw [Option.bind_eq_some_iff]
  constructor
  · rintro ⟨b, hb, ht⟩
    obtain ⟨n, hn, hb⟩ := Option.bind_eq_some_iff.1 hb
    obtain ⟨hrange, rfl⟩ := scenariosLength_eq_some.1 hn
    obtain ⟨hchecked, rfl⟩ := checkedBytes_eq_some.1 hb
    obtain ⟨hlayout, hwf⟩ := (parseScenarios_iff (hcount _ hchecked rfl)).1 ht
    have hlen : t.length = (flashByte img e.offset).toNat := by
      have hread := hlayout.1
      rw [flashRead_length, hchecked.1] at hread
      omega
    rw [← hlen] at hrange hchecked
    exact ⟨hrange, hchecked, hlayout, hwf⟩
  · rintro ⟨hrange, hchecked, hlayout, hwf⟩
    have hlen := count_of_scenariosLayout hrange.2 hlayout
    refine ⟨_, Option.bind_eq_some_iff.2 ⟨1 + 20 * t.length, scenariosLength_eq_some.2 ?_,
      checkedBytes_eq_some.2 ⟨hchecked, rfl⟩⟩, (parseScenarios_iff (hcount _ hchecked hlen)).2 ⟨hlayout, hwf⟩⟩
    rw [hlen]
    exact ⟨hrange, rfl⟩

/-! ### Whole images -/

/-- What every judgement of a kind needs fails for a section whose checks fail. -/
theorem eq_none_of_checked {α : Type} {o : Option α} {P : Prop} (h : ∀ a, o = some a → P) (hp : ¬P) : o = none :=
  Option.eq_none_iff_forall_ne_some.2 fun a ha => hp (h a ha)

theorem readImage_of_header {img : FlashImage} {count : Nat} (h : ImageHeader img count) (inForce : Option Nat) :
    readImage img inForce =
      { noImage := false
        limits := verdictOf (entryOf (directory img) 1) (judgeLimits img inForce)
        scenarios := verdictOf (entryOf (directory img) 2) (judgeScenarios img)
        thermal := verdictOf (entryOf (directory img) 3) (judgeThermal img)
        overload := verdictOf (entryOf (directory img) 4) (judgeOverload img)
        routing := verdictOf (entryOf (directory img) 5) (judgeRouting img)
        bus := [readSequence 0, readSequence 6] ++ (namedEntries (directory img)).flatMap (entryReads img) } := by
  have hok : headerOk (flashRead img 0 6) = true := (headerOk_iff (imageHeader_count h)).2 h
  rw [readImage, if_pos hok]

theorem readImage_of_noHeader {img : FlashImage} (h : ∀ count, ¬ImageHeader img count) (inForce : Option Nat) :
    readImage img inForce = noImageRead := by
  have hok : ¬headerOk (flashRead img 0 6) = true := fun hh => h _ ((headerOk_iff rfl).1 hh)
  rw [readImage, if_neg hok]

/-- Settles O23: a section is judged as its layout says, an image by its directory, a read by the flash. -/
theorem acceptedSectionsLieInTheirRanges : Obligations.AcceptedSectionsLieInTheirRanges := by
  refine ⟨fun img e => ⟨fun _ _ => judgeLimits_eq_some, fun _ => judgeScenarios_eq_some, fun _ => judgeThermal_eq_some,
    fun _ => judgeOverload_eq_some, fun _ => judgeRouting_eq_some⟩, fun img e inForce => ?_, fun img inForce count h => ?_,
    fun img inForce h => ?_, fun img a n => ⟨flashRead_length img a n, fun j hj => ?_⟩⟩
  · refine ⟨eq_none_of_checked fun _ h => (judgeLimits_eq_some.1 h).1, fun hall => ?_,
      eq_none_of_checked fun _ h => (judgeThermal_eq_some.1 h).1,
      eq_none_of_checked fun _ h => (judgeOverload_eq_some.1 h).1,
      eq_none_of_checked fun _ h => (judgeRouting_eq_some.1 h).1⟩
    refine Option.eq_none_iff_forall_ne_some.2 fun t ht => ?_
    obtain ⟨⟨hlow, hhigh⟩, hchecked, -⟩ := judgeScenarios_eq_some.1 ht
    exact hall _ hlow hhigh hchecked
  · have hc := imageHeader_count h
    rw [readImage_of_header h]
    exact ⟨rfl, fun j => ⟨_, parseEntry_at img j⟩, verdictOf_for hc 1 _, verdictOf_for hc 2 _, verdictOf_for hc 3 _,
      verdictOf_for hc 4 _, verdictOf_for hc 5 _⟩
  · rw [readImage_of_noHeader h]
    exact ⟨rfl, rfl, rfl, rfl, rfl, rfl⟩
  · exact ⟨_, flashRead_getElem? img a hj, flashByte_holds img (a + j)⟩

/-! ### The accepted sections -/

/-- An accepted section of a kind is what some entry was judged to hold. -/
theorem exists_entry_of_section {α : Type} {e : Option DirEntry} {judge : DirEntry → Option α} {a : α}
    (h : (verdictOf e judge).section? = some a) : ∃ d, judge d = some a := by
  unfold verdictOf at h
  split at h
  · cases h
  · split at h
    · cases h
    · rename_i d _ x hx
      cases h
      exact ⟨_, hx⟩

/-- The accepted scenarios of an image are a whole table. -/
theorem tableWfLength_of_acceptedSections {img : FlashImage} {inForce : Option Nat} {t : List ScenarioRecord}
    (h : (acceptedSections (readImage img inForce)).scenarios = some t) : tableWfLength t := by
  unfold readImage at h
  split at h
  case isTrue =>
    obtain ⟨d, hd⟩ := exists_entry_of_section h
    exact (judgeScenarios_eq_some.1 hd).1
  case isFalse => cases h

end Sys2Proof.Machine

/-! What every step keeps of the ceiling table, the interrupt lines, the overload timers and the windows. -/

namespace Sys2Proof.Machine

/-! ### From commands to steps -/

/-- What a tick and every command keep, every step keeps. -/
theorem step_keeps {P : State → Prop} {s t : State} (htick : P s.tick)
    (hexec : ∀ c rest, s.pending = c :: rest → exec c { s with pending := rest } = .next t → P t)
    (h : step s = .next t) : P t := by
  rcases step_cases h with rfl | ⟨c, rest, hp, hc⟩
  · exact htick
  · exact hexec c rest hp hc

/-- What holds of a unit and of the unit after reset holds of a unit that is one or the other. -/
theorem same_or_reset {α : Type} {P : α → Prop} {old new fresh : α} (hold : P old) (hfresh : P fresh)
    (h : new = old ∨ new = fresh) : P new := by
  rcases h with rfl | rfl
  · exact hold
  · exact hfresh

/-! ### A raise concerns the event router only -/

@[simp] theorem raiseAt_timeBase (r : Raise) (s : State) : (raiseAt r s).timeBase = s.timeBase := rfl
@[simp] theorem raiseAt_pins (r : Raise) (s : State) : (raiseAt r s).pins = s.pins := rfl
@[simp] theorem raiseAt_ports (r : Raise) (s : State) : (raiseAt r s).ports = s.ports := rfl
@[simp] theorem raiseAt_bau (r : Raise) (s : State) : (raiseAt r s).bau = s.bau := rfl
@[simp] theorem raiseAt_ewu (r : Raise) (s : State) : (raiseAt r s).ewu = s.ewu := rfl
@[simp] theorem raiseAt_clu (r : Raise) (s : State) : (raiseAt r s).clu = s.clu := rfl
@[simp] theorem raiseAt_thu (r : Raise) (s : State) : (raiseAt r s).thu = s.thu := rfl
@[simp] theorem raiseAt_ovu (r : Raise) (s : State) : (raiseAt r s).ovu = s.ovu := rfl
@[simp] theorem raiseAt_pst (r : Raise) (s : State) : (raiseAt r s).pst = s.pst := rfl
@[simp] theorem raiseAt_pld (r : Raise) (s : State) : (raiseAt r s).pld = s.pld := rfl
@[simp] theorem raiseAt_pending (r : Raise) (s : State) : (raiseAt r s).pending = s.pending := rfl

/-! ### The ceiling table -/

theorem ceilingInv_takeActivity {c : Clu} (h : CeilingInv c) (now : Stamp) (i : Chain) :
    CeilingInv (takeActivity now i c).val :=
  ceilingInv_ite _ _ _ (ceilingInv_activity c h i true) (ceilingInv_recompute now _)

theorem ceilingInv_takeQuiet {c : Clu} (h : CeilingInv c) (now : Stamp) (quiet : PerChain Bool) :
    CeilingInv (takeQuiet now quiet c).val :=
  ceilingInv_ite _ _ _ (ceilingInv_recompute now _) h

theorem ceilingInv_releaseEnforcement {c : Clu} (h : CeilingInv c) (now : Stamp) :
    CeilingInv (releaseEnforcement now c).val :=
  ceilingInv_ite _ _ _ (ceilingInv_recompute now _) h

theorem ceilingInv_takeCluClose {c : Clu} (h : CeilingInv c) (now : Stamp) (closing : EpochIndex) :
    CeilingInv (takeCluClose now closing c).val :=
  ceilingInv_applySets now _ _ (ceilingInv_releaseEnforcement (ceilingInv_beginEpoch c h closing []) now)

/-- The held set requests are no input of the table. -/
theorem ceilingInv_heldSets {c : Clu} (h : CeilingInv c) (r : List (Chain × EpochIndex)) :
    CeilingInv { c with heldSets := r } :=
  ceilingInv_of_same h (fun _ => rfl) (fun _ => rfl)

theorem ceilingInv_takeSet {c : Clu} (h : CeilingInv c) (now : Stamp) (i : Chain) (epoch : EpochIndex) :
    CeilingInv (takeSet now i epoch c).val :=
  ceilingInv_ite _ _ _ (ceilingInv_recompute now _) (ceilingInv_ite _ _ _ (ceilingInv_heldSets h _) h)

theorem ceilingInv_takeClear {c : Clu} (h : CeilingInv c) (now : Stamp) (i : Chain) (epoch : EpochIndex) :
    CeilingInv (takeClear now i epoch c).val :=
  ceilingInv_ite _ _ _ (ceilingInv_recompute now _) (ceilingInv_heldSets h _)

theorem ceilingInv_takeCluEntry {c : Clu} (h : CeilingInv c) (now : Stamp) : CeilingInv (takeCluEntry now c).val :=
  ceilingInv_ite _ _ _ (ceilingInv_recompute now _) h

/-- Every command keeps the table: a request can only reset the unit, and the commands of the CLU keep it as above. -/
theorem ceilingInv_exec {c : Instr} {s t : State} (hi : CeilingInv s.clu) (h : exec c s = .next t) :
    CeilingInv t.clu := by
  cases c <;> obtain rfl := Host.Outcome.next.inj h
  case reset => exact ceilingInv_reset
  case selectRise => exact same_or_reset hi ceilingInv_reset (selectRise_clu _ _ _ _ s)
  case announceNext | announceNow | readCeilings | readStatus | readHistory | readThermal | readEvents | ackEvents |
      poll | portReset | selectScenario | setCap | setOwner | setRoute | loadProfile | flashXfer | deviceReset =>
    exact same_or_reset hi ceilingInv_reset (requestFrame_clu _ _ _ s)
  case activityNotice => exact ceilingInv_takeActivity hi _ _
  case quietSummary => exact ceilingInv_takeQuiet hi _ _
  case cluCloseNotice => exact ceilingInv_takeCluClose hi _ _
  case groupAllowanceNotice => exact ceilingInv_recompute _ _
  case capDelivery => exact State.taking_induct (P := fun x => CeilingInv x.clu) hi (ceilingInv_recompute _ _)
  case scenarioDelivery | profileDelivery | stageTripNotice | levelLockNotice =>
    refine State.taking_induct (P := fun x => CeilingInv x.clu) hi ?_
    rw [State.enterRun_clu]
    exact ceilingInv_recompute _ _
  case enforcementSetRequest =>
    exact State.taking_induct (P := fun x => CeilingInv x.clu) hi (ceilingInv_takeSet hi _ _ _)
  case enforcementClearRequest =>
    exact State.taking_induct (P := fun x => CeilingInv x.clu) hi (ceilingInv_takeClear hi _ _ _)
  case cluEntryToRun => exact ceilingInv_takeCluEntry hi _
  all_goals simpa using hi

/-- Settles O52: a tick leaves the CLU as it is, and every command keeps the table. -/
theorem stepsKeepTheCeilingTable : Obligations.StepsKeepTheCeilingTable := fun s _ hi =>
  step_keeps (P := fun x => CeilingInv x.clu) (s := s) hi fun _ _ _ => ceilingInv_exec hi

/-! ### The interrupt lines -/

/-- Every command keeps the lines: requests as `eventInv_requestFrame` says, a raise as `eventInv_takeRaise` says, and a
table of routes is no part of it. -/
theorem eventInv_exec {c : Instr} {s t : State} (hi : EventInv s.evr) (h : exec c s = .next t) : EventInv t.evr := by
  cases c <;> obtain rfl := Host.Outcome.next.inj h
  case reset => exact eventInv_reset
  case selectRise => exact eventInv_selectRise _ _ _ _ s hi
  case announceNext | announceNow | readCeilings | readStatus | readHistory | readThermal | readEvents | ackEvents |
      poll | portReset | selectScenario | setCap | setOwner | setRoute | loadProfile | flashXfer | deviceReset =>
    exact eventInv_requestFrame _ _ _ s hi
  case eventRaise => exact State.taking_induct (P := fun x => EventInv x.evr) hi (eventInv_takeRaise hi _ _)
  case routingDelivery =>
    refine State.taking_induct (P := fun x => EventInv x.evr) hi ?_
    rw [State.enterRun_evr]
    exact hi
  all_goals simpa using hi

/-- Settles O53: a tick leaves the event router as it is, and every command keeps the lines. -/
theorem stepsKeepTheInterruptLines : Obligations.StepsKeepTheInterruptLines := fun s _ hi =>
  step_keeps (P := fun x => EventInv x.evr) (s := s) hi fun _ _ _ => eventInv_exec hi

/-! ### The overload timers -/

/-- The re-strike timer runs only under an edge that is held, so its expiry is a rise then. -/
theorem overloadInv_reStrikeExpiry {o : Ovu} (h : OverloadInv o) (now : Stamp) :
    OverloadInv (onExpiry now o.reStrike reStrikeExpired o).val := by
  refine overloadInv_onExpiry now _ _ o h fun d hd => ?_
  obtain ⟨hwf, hlen, hlock, hInLock, hAtZero, hStrike, hRelease, hEarly⟩ := h
  have hheld : o.droopHeld = true := hStrike (hd ▸ rfl)
  refine overloadInv_rise d _ ⟨hwf, hlen, hlock, fun hl => ?_, fun hl => ?_, nofun, hRelease, hEarly⟩ hheld
  · exact ⟨(hInLock hl).1, rfl, (hInLock hl).2.2⟩
  · exact ⟨(hAtZero hl).1, rfl, (hAtZero hl).2.2⟩

theorem overloadInv_releaseExpiry {o : Ovu} (h : OverloadInv o) (now : Stamp) :
    OverloadInv (onExpiry now o.release releaseExpired o).val := by
  refine overloadInv_onExpiry now _ _ o h fun d hd => ?_
  obtain ⟨hwf, hlen, hlock, hInLock, hAtZero, hStrike, hRelease, hEarly⟩ := h
  have hlow : o.droopHeld = false := hRelease (hd ▸ rfl)
  refine overloadInv_stepAttempt d _ ⟨hwf, hlen, hlock, fun hl => ?_, fun hl => ?_, hStrike, nofun, hEarly⟩ hlow
  · exact ⟨(hInLock hl).1, (hInLock hl).2.1, rfl⟩
  · exact ⟨(hAtZero hl).1, (hAtZero hl).2.1, rfl⟩

theorem overloadInv_lockExpiry {o : Ovu} (h : OverloadInv o) (now : Stamp) :
    OverloadInv (onExpiry now o.lock lockExpired o).val := by
  refine overloadInv_onExpiry now _ _ o h fun d hd => ?_
  obtain ⟨hwf, hlen, hlock, hInLock, hAtZero, hStrike, hRelease, hEarly⟩ := h
  have hl : o.level = .lock := hlock.1 (hd ▸ rfl)
  obtain ⟨hhold, hstrike, hrelease⟩ := hInLock hl
  unfold lockExpired
  split
  case isTrue =>
    exact ⟨hwf, hlen, ⟨fun _ => hl, fun _ => rfl⟩, hInLock, hAtZero, hStrike, hRelease, hEarly⟩
  case isFalse =>
    exact ⟨rfl, hlen, ⟨nofun, nofun⟩, nofun, nofun, hStrike, hRelease, hEarly⟩

theorem overloadInv_holdExpiry {o : Ovu} (h : OverloadInv o) (now : Stamp) :
    OverloadInv (onExpiry now o.hold holdExpired o).val :=
  overloadInv_onExpiry now _ _ o h fun d hd => overloadInv_holdExpired o h d hd

theorem overloadInv_retireStamp {o : Ovu} (h : OverloadInv o) (now : Stamp) : OverloadInv (retireStamp now o) := by
  unfold retireStamp
  split
  case h_1 => exact h
  case h_2 x rest hist =>
    split
    case isTrue =>
      obtain ⟨hwf, hlen, hothers⟩ := h
      rw [hist] at hlen
      exact ⟨hwf, Nat.le_of_succ_le hlen, hothers⟩
    case isFalse => exact h

/-- The parameters are no part of what the level allows. -/
theorem overloadInv_takeOverload {o : Ovu} (h : OverloadInv o) (new : OverloadSection) :
    OverloadInv (takeOverload new o).val := h

theorem overloadInv_droopRises {s : State} (h : OverloadInv s.ovu) : OverloadInv (droopRises s).ovu := by
  unfold droopRises
  split
  · exact h
  · exact overloadInv_ovuEdge _ _ _ h

theorem overloadInv_droopFalls {s : State} (h : OverloadInv s.ovu) : OverloadInv (droopFalls s).ovu := by
  unfold droopFalls
  split
  · exact overloadInv_ovuEdge _ _ _ h
  · exact h

theorem overloadInv_exec {c : Instr} {s t : State} (hi : OverloadInv s.ovu) (h : exec c s = .next t) :
    OverloadInv t.ovu := by
  cases c <;> obtain rfl := Host.Outcome.next.inj h
  case reset => exact overloadInv_reset
  case selectRise => exact same_or_reset hi overloadInv_reset (selectRise_ovu _ _ _ _ s)
  case announceNext | announceNow | readCeilings | readStatus | readHistory | readThermal | readEvents | ackEvents |
      poll | portReset | selectScenario | setCap | setOwner | setRoute | loadProfile | flashXfer | deviceReset =>
    exact same_or_reset hi overloadInv_reset (requestFrame_ovu _ _ _ s)
  case droopRise => exact overloadInv_droopRises hi
  case droopFall => exact overloadInv_droopFalls hi
  case reStrikeExpiry => exact overloadInv_reStrikeExpiry hi _
  case holdExpiry => exact overloadInv_holdExpiry hi _
  case releaseExpiry => exact overloadInv_releaseExpiry hi _
  case lockExpiry => exact overloadInv_lockExpiry hi _
  case droopStampRetirement => exact overloadInv_retireStamp hi _
  case overloadDelivery => exact overloadInv_takeOverload hi _
  case ovuEntryToRun => exact overloadInv_takeOvuEntry _ _ _ hi
  all_goals simpa using hi

/-- Settles O54: a tick leaves the OVU as it is, and every command keeps what the level allows of the timers. -/
theorem stepsKeepTheOverloadTimers : Obligations.StepsKeepTheOverloadTimers := fun s _ hi =>
  step_keeps (P := fun x => OverloadInv x.ovu) (s := s) hi fun _ _ _ => overloadInv_exec hi

/-! ### The exposure windows -/

theorem windowInv_epochTimer {e : Ewu} (h : WindowInv e) (now : Stamp) : WindowInv (epochTimer now e).val := by
  unfold epochTimer
  split
  case isTrue hs =>
    split
    · exact windowInv_epochExpiry h hs _
    · exact h
  case isFalse => exact h

theorem windowInv_holdReport {e : Ewu} (h : WindowInv e) (r : PerChain ChainReport) : WindowInv (holdReport r e) := by
  unfold holdReport
  split
  case isTrue hs => exact windowInv_held h hs (some r) e.answer
  case isFalse => exact h

theorem windowInv_holdAnswer {e : Ewu} (h : WindowInv e) (a : PolicyAnswer) : WindowInv (holdAnswer a e) := by
  unfold holdAnswer
  split
  case isTrue hs => exact windowInv_held h hs e.report (some a)
  case isFalse => exact h

theorem windowInv_closeComputation {e : Ewu} (h : WindowInv e) : WindowInv (closeComputation e).val := by
  unfold closeComputation
  split
  case isTrue hs =>
    split
    · exact windowInv_closedEwu h hs _ _
    · exact h
  case isFalse => exact h

theorem windowInv_takeStartupAnswer {e : Ewu} (h : WindowInv e) (a : PolicyAnswer) :
    WindowInv (takeStartupAnswer a e).val := by
  unfold takeStartupAnswer
  split
  case isTrue hs =>
    split
    · exact windowInv_stopped h hs e.params (some a) e.heldEntry
    · exact windowInv_startedEwu h hs _ _
  case isFalse => exact h

theorem windowInv_takeEntry {e : Ewu} (h : WindowInv e) (t : Stamp) : WindowInv (takeEntry t e).val := by
  unfold takeEntry
  split
  case isTrue hs =>
    split
    · exact windowInv_stopped h hs e.params e.startupAnswer (some t)
    · exact windowInv_startedEwu h hs _ _
  case isFalse => exact h

theorem windowInv_takeEwuParams {e : Ewu} (h : WindowInv e) (x : EwuParams) : WindowInv (takeEwuParams x e) := by
  unfold takeEwuParams
  split
  case isTrue hs => exact windowInv_stopped h hs x e.startupAnswer e.heldEntry
  case isFalse => exact h

theorem windowInv_exec {c : Instr} {s t : State} (hi : WindowInv s.ewu) (h : exec c s = .next t) :
    WindowInv t.ewu := by
  cases c <;> obtain rfl := Host.Outcome.next.inj h
  case reset => exact windowInv_reset
  case selectRise => exact same_or_reset hi windowInv_reset (selectRise_ewu _ _ _ _ s)
  case announceNext | announceNow | readCeilings | readStatus | readHistory | readThermal | readEvents | ackEvents |
      poll | portReset | selectScenario | setCap | setOwner | setRoute | loadProfile | flashXfer | deviceReset =>
    exact same_or_reset hi windowInv_reset (requestFrame_ewu _ _ _ s)
  case epochTimerExpiry => exact windowInv_epochTimer hi _
  case epochEnergyReport => exact windowInv_holdReport hi _
  case policyAnswer => exact windowInv_holdAnswer hi _
  case closeComputation => exact windowInv_closeComputation hi
  case startupPolicyAnswer => exact windowInv_takeStartupAnswer hi _
  case ewuLimitsDelivery =>
    rw [State.enterRun_ewu]
    exact windowInv_takeEwuParams hi _
  case ewuEntryToRun => exact windowInv_takeEntry hi _
  all_goals simpa using hi

/-- Settles O55: a tick leaves the EWU as it is, and every command keeps its windows. -/
theorem stepsKeepTheWindows : Obligations.StepsKeepTheWindows := fun s _ hi =>
  step_keeps (P := fun x => WindowInv x.ewu) (s := s) hi fun _ _ _ => windowInv_exec hi

/-! ### The sensors and zones -/

theorem thermalInv_roundAt {t : Thu} (h : ThermalInv t) (raw : PerSensor (BitVec 10)) (at_ : Stamp) :
    ThermalInv (roundAt raw at_ t).val := by
  obtain ⟨hsensors, hzones⟩ := h
  constructor
  · intro n
    have hsensor : (roundAt raw at_ t).val.sensors.get n =
        (readSensor (t.params.tables.get n) (raw.get n) (t.sensors.get n)).val := PerSensor.get_build _ n
    rw [hsensor]
    exact sensorInv_readSensor _ _ _ (hsensors n)
  · intro z
    have hzone : (roundAt raw at_ t).val.zones.get z =
        (updateZone z (t.params.zones.get z) (readSensors raw t).val at_ (t.zones.get z)).val := PerZone.get_build _ z
    rw [hzone]
    exact zoneInv_updateZone _ _ _ _ _ (hzones z)

theorem thermalInv_samplingRound {t : Thu} (h : ThermalInv t) (now : Stamp) (raw : PerSensor (BitVec 10)) :
    ThermalInv (samplingRound now raw t).val := by
  unfold samplingRound
  split
  · exact h
  · exact thermalInv_roundAt h raw _

/-- A dwell is no part of what a zone keeps. -/
theorem thermalInv_dwellExpiry {t : Thu} (h : ThermalInv t) (now : Stamp) (z : Zone) :
    ThermalInv (dwellExpiry now z t) := by
  unfold dwellExpiry
  split
  · exact h
  · obtain ⟨hsensors, hzones⟩ := h
    refine ⟨hsensors, fun y => ?_⟩
    rw [PerZone.get_set]
    split
    case isTrue hyz =>
      subst hyz
      exact hzones y
    case isFalse => exact hzones y

/-- A well-formed section gives every zone a fault stage of at most 7. -/
theorem thermalInv_takeThermal {t : Thu} (h : ThermalInv t) {new : ThermalSection} (hw : new.wf = true) :
    ThermalInv (takeThermal new t).val := by
  obtain ⟨hsensors, hzones⟩ := h
  obtain ⟨-, -, hnew⟩ := (ThermalSection.wf_iff new).1 hw
  refine ⟨hsensors, fun z => ?_⟩
  obtain ⟨hstage, htrip, hforced, -⟩ := hzones z
  obtain ⟨-, -, -, -, -, hfault⟩ := (ZoneParams.wf_iff _).1 (hnew z)
  exact ⟨hstage, htrip, hforced, hfault⟩

theorem thermalInv_takeThuEntry {t : Thu} (h : ThermalInv t) (entry : Stamp) : ThermalInv (takeThuEntry entry t) := by
  unfold takeThuEntry
  split <;> exact h

theorem thermalInv_exec {c : Instr} {s t : State} (hw : c.wf = true) (hi : ThermalInv s.thu) (h : exec c s = .next t) :
    ThermalInv t.thu := by
  cases c <;> obtain rfl := Host.Outcome.next.inj h
  case reset => exact thermalInv_reset
  case selectRise => exact same_or_reset hi thermalInv_reset (selectRise_thu _ _ _ _ s)
  case announceNext | announceNow | readCeilings | readStatus | readHistory | readThermal | readEvents | ackEvents |
      poll | portReset | selectScenario | setCap | setOwner | setRoute | loadProfile | flashXfer | deviceReset =>
    exact same_or_reset hi thermalInv_reset (requestFrame_thu _ _ _ s)
  case samplingRound => exact thermalInv_samplingRound hi _ _
  case dwellExpiry => exact thermalInv_dwellExpiry hi _ _
  case thermalDelivery => exact thermalInv_takeThermal hi hw
  case thuEntryToRun => exact thermalInv_takeThuEntry hi _
  all_goals simpa using hi

/-- The command at the front of a well-formed queue is well formed. -/
theorem wf_of_front {s : State} (hq : QueueWf s) {c : Instr} {rest : List Instr} (hp : s.pending = c :: rest) :
    c.wf = true := hq c (hp ▸ List.mem_cons_self)

/-- Settles O57: a tick leaves the THU as it is, and every well-formed command keeps its sensors and zones. -/
theorem stepsKeepTheThermalState : Obligations.StepsKeepTheThermalState := fun s _ hq hi =>
  step_keeps (P := fun x => ThermalInv x.thu) (s := s) hi fun _ _ hp => thermalInv_exec (wf_of_front hq hp) hi

end Sys2Proof.Machine

/-! What every step keeps of the bursts, the policy, the loader and the ports. -/

namespace Sys2Proof.Machine

/-! ### The bursts -/

/-- The close event closes every chain and leaves nothing held. -/
theorem burstInv_bauClose {b : Bau} (h : BurstInv b) (n : CloseNotice) (a : Option BauParams) :
    BurstInv (bauClose n a b).val := by
  obtain ⟨hchains, -, hearly⟩ := h
  refine ⟨fun i => ?_, fun _ => rfl, hearly⟩
  have hchain : (bauClose n a b).val.chains.get i =
      (closeChain b.shared (sharedAfter b.shared n.closing a) a n.boundary i (b.chains.get i)).val :=
    runChains_get _ i
  rw [hchain]
  exact burstChainInv_closeChain (hchains i)

theorem burstInv_bauCloseEvent {s : State} (h : BurstInv s.bau) : BurstInv (bauCloseEvent s).bau := by
  unfold bauCloseEvent
  split
  case h_1 n a _ _ => exact burstInv_bauTakeAll (s := s.runBau (bauClose n a)) (burstInv_bauClose h n a) _
  case h_2 => exact h

theorem burstInv_lineRises {s : State} (h : BurstInv s.bau) (i : Chain) : BurstInv (lineRises i s).bau := by
  unfold lineRises
  split
  case isTrue => exact h
  case isFalse =>
    dsimp only
    split
    case isTrue => exact burstInv_bauReceive_of_eq h (State.setPins_bau s _) _
    case isFalse hrun =>
      exact burstInv_awaitEntry (s := s.setPins { s.pins with txen := s.pins.txen.set i true }) h
        (Bool.eq_false_iff.2 hrun) i true

theorem burstInv_lineFalls {s : State} (h : BurstInv s.bau) (i : Chain) : BurstInv (lineFalls i s).bau := by
  unfold lineFalls
  split
  case isTrue =>
    dsimp only
    split
    case isTrue => exact burstInv_bauReceive_of_eq h (State.setPins_bau s _) _
    case isFalse hrun =>
      exact burstInv_awaitEntry (s := s.setPins { s.pins with txen := s.pins.txen.set i false }) h
        (Bool.eq_false_iff.2 hrun) i false
  case isFalse => exact h

/-- A chain's cmax and k are no part of what a chain keeps. -/
theorem burstInv_bauLimits {b : Bau} (h : BurstInv b) (x : BauParams) : BurstInv (bauLimits x b) := by
  obtain ⟨hchains, hheld⟩ := h
  refine ⟨fun i => ?_, hheld⟩
  have hchain : (bauLimits x b).chains.get i = { b.chains.get i with power := x.chains.get i } :=
    PerChain.get_build _ i
  rw [hchain]
  exact hchains i

theorem burstInv_exec {c : Instr} {s t : State} (hi : BurstInv s.bau) (h : exec c s = .next t) : BurstInv t.bau := by
  cases c <;> obtain rfl := Host.Outcome.next.inj h
  case reset => exact burstInv_reset
  case selectRise => exact burstInv_selectRise _ _ _ _ s hi
  case announceNext | announceNow | readCeilings | readStatus | readHistory | readThermal | readEvents | ackEvents |
      poll | portReset | selectScenario | setCap | setOwner | setRoute | loadProfile | flashXfer | deviceReset =>
    exact burstInv_requestFrame _ _ _ s hi
  case txenRise => exact burstInv_lineRises hi _
  case txenFall => exact burstInv_lineFalls hi _
  case staleExpiry | overrunExpiry | graceExpiry => exact burstInv_bauReceive hi _
  case ceilingChangeNotice =>
    exact State.taking_induct (P := fun x => BurstInv x.bau) hi (burstInv_bauReceive_of_eq hi (State.takeNotice_bau s _) _)
  case bauCloseEvent => exact burstInv_bauCloseEvent hi
  case bauCloseNotice =>
    obtain ⟨hchains, -, hearly⟩ := hi
    exact ⟨hchains, nofun, hearly⟩
  case bauCloseAnswer => exact hi
  case bauLimitsDelivery =>
    rw [State.enterRun_bau]
    exact burstInv_bauLimits hi _
  case bauEntryToRun t => exact burstInv_takeBauEntry (s := s.takeNotice (.bauEntryToRun t)) hi t
  all_goals simpa using hi

/-- Settles O56: a tick leaves the BAU as it is, and every command keeps its chains and what it holds. -/
theorem stepsKeepTheBursts : Obligations.StepsKeepTheBursts := fun s _ hi =>
  step_keeps (P := fun x => BurstInv x.bau) (s := s) hi fun _ _ _ => burstInv_exec hi

/-! ### The policy and a staged table -/

/-- The policy store and what the loader has staged for it. -/
def PolicyStaged (s : State) : Prop := PolicyInv s.pst ∧ StagedTable s.pld

/-- With nothing staged there is no staged table. -/
theorem stagedTable_of_none {p : Pld} (h : p.staged = none) : StagedTable p := fun x hx => by
  rw [h] at hx
  cases hx

theorem policyStaged_enterRun {s : State} (h : PolicyStaged s) : PolicyStaged s.enterRunWhenDelivered := by
  obtain ⟨hpolicy, hstaged⟩ := h
  exact ⟨by rwa [State.enterRun_pst], stagedTable_enterRun s hstaged⟩

/-- Only a loader that is STAGED has a profile ready (R175). -/
theorem readyProfile_eq_some {p : Pld} {x : Sections} (h : readyProfile p = some x) :
    p.state = .staged ∧ p.staged = some x := by
  unfold readyProfile at h
  split at h
  case isTrue hs => exact ⟨hs, h⟩
  case isFalse => cases h

theorem policyStaged_takePstClose {s : State} (h : PolicyStaged s) : PolicyStaged (takePstClose s) := by
  obtain ⟨hpolicy, hstaged⟩ := h
  unfold takePstClose
  split
  case h_1 => exact ⟨policyInv_afterClose s.pst hpolicy none (fun _ hx => by cases hx), hstaged⟩
  case h_2 x hx =>
    have hready : s.pld.staged = some x := (readyProfile_eq_some hx).2
    exact ⟨policyInv_afterClose s.pst hpolicy (some x) fun y hy => hstaged y (hready.trans hy), stagedTable_of_none rfl⟩

theorem stagedTable_takeStartupEnd {p : Pld} (h : StagedTable p) (img : FlashImage) :
    StagedTable (takeStartupEnd img p).val := by
  unfold takeStartupEnd
  split <;> exact h

theorem stagedTable_reloadPld (img : FlashImage) (inForce : Option Nat) (p : Pld) :
    StagedTable (reloadPld (readImage img inForce) p).val := by
  unfold reloadPld
  split
  case isTrue =>
    rintro x ⟨⟩ t ht
    exact tableWfLength_of_acceptedSections ht
  case isFalse => exact stagedTable_of_none rfl

@[simp] theorem answerPending_pld (port : Option Port) (st : Status) (k : Kind) (b : List Byte) (s : State) :
    (answerPending port st k b s).pld = s.pld := by
  cases port <;> rfl

theorem stagedTable_takeReloadEnd {s : State} (h : StagedTable s.pld) (img : FlashImage) :
    StagedTable (takeReloadEnd img s).pld := by
  unfold takeReloadEnd
  split
  case isTrue =>
    dsimp only
    rw [answerPending_pld]
    exact stagedTable_reloadPld img _ s.pld
  case isFalse => exact h

theorem stagedTable_takeTransferEnd {s : State} (h : StagedTable s.pld) (read : List Byte) :
    StagedTable (takeTransferEnd read s).pld := by
  unfold takeTransferEnd
  split <;> exact h

theorem stagedTable_takeStrapFall {s : State} (h : StagedTable s.pld) (n : Nat) :
    StagedTable (takeStrapFall n s).pld := by
  unfold takeStrapFall
  split
  · exact h
  · split <;> exact h

theorem policyStaged_exec {c : Instr} {s t : State} (hw : c.wf = true) (hi : PolicyStaged s) (h : exec c s = .next t) :
    PolicyStaged t := by
  obtain ⟨hpolicy, hstaged⟩ := id hi
  cases c <;> obtain rfl := Host.Outcome.next.inj h
  case reset => exact ⟨policyInv_reset, stagedTable_of_none rfl⟩
  case selectRise => exact policyInv_selectRise _ _ _ _ s hpolicy hstaged
  case announceNext | announceNow | readCeilings | readStatus | readHistory | readThermal | readEvents | ackEvents |
      poll | portReset | selectScenario | setCap | setOwner | setRoute | loadProfile | flashXfer | deviceReset =>
    exact policyInv_requestFrame _ _ _ s hpolicy hstaged
  case pstCloseNotice n => exact policyStaged_takePstClose (s := s.takeNotice (.pstCloseNotice n)) hi
  case pstStartupDelivery d => exact ⟨policyInv_started s.pst d hw, hstaged⟩
  case startupLoadEnd => exact ⟨hpolicy, stagedTable_takeStartupEnd hstaged _⟩
  case reloadEnd => exact ⟨by simpa using hpolicy, stagedTable_takeReloadEnd hstaged _⟩
  case transferEnd => exact ⟨by simpa using hpolicy, stagedTable_takeTransferEnd hstaged _⟩
  case strapFall n =>
    exact ⟨by simpa using hpolicy, stagedTable_takeStrapFall (s := s.setPins { s.pins with strap := false }) hstaged n⟩
  case scenarioDelivery | profileDelivery | stageTripNotice | levelLockNotice | routingDelivery =>
    exact State.taking_induct hi (policyStaged_enterRun hi)
  case bauLimitsDelivery | ewuLimitsDelivery => exact policyStaged_enterRun hi
  all_goals simpa [PolicyStaged] using hi

/-- Settles O58: a tick leaves policy store and loader as they are, and every well-formed command keeps them right. -/
theorem stepsKeepThePolicy : Obligations.StepsKeepThePolicy := fun s _ hq hpolicy hstaged =>
  step_keeps (P := PolicyStaged) (s := s) ⟨hpolicy, hstaged⟩ fun _ _ hp =>
    policyStaged_exec (wf_of_front hq hp) ⟨hpolicy, hstaged⟩

/-! ### The loader -/

theorem loaderInv_takeStartupEnd {p : Pld} (h : LoaderInv p) (img : FlashImage) :
    LoaderInv (takeStartupEnd img p).val := by
  unfold takeStartupEnd
  split
  case isTrue =>
    obtain ⟨htransfer, hselect, hstaged, hport, -⟩ := h
    exact ⟨htransfer, hselect, hstaged, hport, nofun⟩
  case isFalse => exact h

/-- A reload that ends goes from RELOADING to STAGED or to IDLE (R173). -/
theorem loaderInv_reloadPld {p : Pld} (h : LoaderInv p) (hs : p.state = .reloading) (r : ImageRead) :
    LoaderInv (reloadPld r p).val := by
  obtain ⟨htransfer, hselect, -, -, hresult⟩ := h
  have hnone : p.transfer = none := by simpa [hs] using htransfer
  have hlow : p.flashSelectLow = false := by rw [hselect, hnone]; rfl
  have hread : p.startupResult ≠ none := fun he => by simp [hs] at hresult; exact hresult he
  unfold reloadPld
  split
  case isTrue => simp [LoaderInv, hnone, hlow, hread]
  case isFalse => simp [LoaderInv, hnone, hlow, hread]

theorem loaderInv_takeReloadEnd {s : State} (h : LoaderInv s.pld) (img : FlashImage) :
    LoaderInv (takeReloadEnd img s).pld := by
  unfold takeReloadEnd
  split
  case isTrue hs =>
    dsimp only
    rw [answerPending_pld]
    exact loaderInv_reloadPld h hs _
  case isFalse => exact h

theorem loaderInv_takeTransferEnd {s : State} (h : LoaderInv s.pld) (read : List Byte) :
    LoaderInv (takeTransferEnd read s).pld := by
  unfold takeTransferEnd
  split
  case h_1 => exact h
  case h_2 t ht => exact loaderInv_endTransfer _ _ t ht h

theorem loaderInv_takeStrapFall {s : State} (h : LoaderInv s.pld) (n : Nat) : LoaderInv (takeStrapFall n s).pld := by
  unfold takeStrapFall
  split
  case h_1 => exact h
  case h_2 t ht =>
    split
    · exact loaderInv_endTransfer _ _ t ht h
    · exact h

/-- A staged profile that a close applies leaves the loader IDLE (R175). -/
theorem loaderInv_takePstClose {s : State} (h : LoaderInv s.pld) : LoaderInv (takePstClose s).pld := by
  unfold takePstClose
  split
  case h_1 => exact h
  case h_2 x hx =>
    obtain ⟨htransfer, hselect, hstaged, hport, hresult⟩ := h
    have hs : s.pld.state = .staged := (readyProfile_eq_some hx).1
    refine ⟨by simpa [hs, profileTaken] using htransfer, hselect, by simp [profileTaken],
      by simpa [hs, profileTaken] using hport, fun he => ?_⟩
    exact absurd (hresult he) (by simp [hs])

theorem loaderInv_exec {c : Instr} {s t : State} (hi : LoaderInv s.pld) (h : exec c s = .next t) : LoaderInv t.pld := by
  cases c <;> obtain rfl := Host.Outcome.next.inj h
  case reset => exact loaderInv_reset
  case selectRise => exact loaderInv_selectRise _ _ _ _ s hi
  case announceNext | announceNow | readCeilings | readStatus | readHistory | readThermal | readEvents | ackEvents |
      poll | portReset | selectScenario | setCap | setOwner | setRoute | loadProfile | flashXfer | deviceReset =>
    exact loaderInv_requestFrame _ _ _ s hi
  case pstCloseNotice n => exact loaderInv_takePstClose (s := s.takeNotice (.pstCloseNotice n)) hi
  case startupLoadEnd => exact loaderInv_takeStartupEnd hi _
  case reloadEnd => exact loaderInv_takeReloadEnd hi _
  case transferEnd => exact loaderInv_takeTransferEnd hi _
  case strapFall n => exact loaderInv_takeStrapFall (s := s.setPins { s.pins with strap := false }) hi n
  case scenarioDelivery | profileDelivery | stageTripNotice | levelLockNotice | routingDelivery =>
    exact State.taking_induct (P := fun x => LoaderInv x.pld) hi (loaderInv_enterRun _ hi)
  case bauLimitsDelivery | ewuLimitsDelivery => exact loaderInv_enterRun _ hi
  all_goals simpa using hi

/-- Settles O59: a tick leaves the loader as it is, and every command keeps what its state holds. -/
theorem stepsKeepTheLoader : Obligations.StepsKeepTheLoader := fun s _ hi =>
  step_keeps (P := fun x => LoaderInv x.pld) (s := s) hi fun _ _ _ => loaderInv_exec hi

/-! ### The ports -/

/-- A change of a line's level is none of the ports' (R148). -/
theorem portsInv_setPins {s : State} (h : PortsInv s) (x : Pins) : PortsInv (s.setPins x) :=
  portsInv_same h rfl rfl rfl

theorem portsInv_awaitEntry {s : State} (h : PortsInv s) (i : Chain) (rising : Bool) :
    PortsInv (s.awaitEntry i rising) :=
  portsInv_same h (State.awaitEntry_pld s i rising) (State.awaitEntry_ports s i rising)
    (State.awaitEntry_held s i rising)

theorem portsInv_lineRises {s : State} (h : PortsInv s) (i : Chain) : PortsInv (lineRises i s) := by
  unfold lineRises
  split
  case isTrue => exact h
  case isFalse =>
    dsimp only
    split
    · exact portsInv_bauReceive (portsInv_setPins h _) _ fun _ => rfl
    · exact portsInv_awaitEntry (portsInv_setPins h _) i true

theorem portsInv_lineFalls {s : State} (h : PortsInv s) (i : Chain) : PortsInv (lineFalls i s) := by
  unfold lineFalls
  split
  case isTrue =>
    dsimp only
    split
    · exact portsInv_bauReceive (portsInv_setPins h _) _ fun _ => rfl
    · exact portsInv_awaitEntry (portsInv_setPins h _) i false
  case isFalse => exact h

/-- A loader that changes nothing of a transfer and of the port that asked for a reload. -/
theorem portsInv_samePld {s t : State} (h : PortsInv s) (hp : t.ports = s.ports) (hb : t.bau.held = s.bau.held)
    (ht : t.pld.transfer = s.pld.transfer) (hl : t.pld.loadPort = s.pld.loadPort) : PortsInv t := by
  refine portsInv_ops h ?_ hp hb fun q k ho => ?_
  · unfold TransferInv
    rw [ht, hl]
    exact h.1
  · unfold operationFor
    rw [ht, hl]
    exact ho

theorem portsInv_takePstClose {s : State} (h : PortsInv s) : PortsInv (takePstClose s) := by
  unfold takePstClose
  split
  · exact portsInv_samePld h rfl rfl rfl rfl
  · exact portsInv_samePld h rfl rfl rfl rfl

theorem portsInv_takeStartupEnd {s : State} (h : PortsInv s) (img : FlashImage) :
    PortsInv (s.runPld (takeStartupEnd img)) := by
  refine portsInv_samePld h rfl rfl ?_ ?_
  all_goals
    rw [State.runPld_pld]
    unfold takeStartupEnd
    split <;> rfl

/-- After a reload no port waits for one, and a transfer in flight stays. -/
theorem reloadPld_frame (r : ImageRead) (p : Pld) :
    (reloadPld r p).val.loadPort = none ∧ (reloadPld r p).val.transfer = p.transfer := by
  unfold reloadPld
  split
  · exact ⟨rfl, rfl⟩
  · exact ⟨rfl, rfl⟩

/-- The answer to LOAD_PROFILE holds two result records (R174). -/
theorem reloadPayload_length (p : Pld) (r : ImageRead) : (reloadPayload p r).length = 14 := by
  rw [reloadPayload, List.length_append, resultBytes_length, resultBytes_length]

theorem portsInv_takeReloadEnd {s : State} (hl : LoaderInv s.pld) (h : PortsInv s) (img : FlashImage) :
    PortsInv (takeReloadEnd img s) := by
  unfold takeReloadEnd
  split
  case isFalse => exact h
  case isTrue hs =>
    obtain ⟨-, -, -, hport, -⟩ := hl
    obtain ⟨p, hp⟩ := Option.isSome_iff_exists.1 (hport.2 hs)
    obtain ⟨htransfer, hload⟩ := h.1
    obtain ⟨hnoLoad, hsame⟩ := reloadPld_frame (readImage img (some s.pld.protectedEnd)) s.pld
    simp only [hp, answerPending]
    refine portsInv_ended p h ⟨fun t ht => htransfer t (hsame ▸ ht), fun q hq => ?_⟩ _ ?_ (hload p hp) rfl rfl ?_
    · exact absurd (hnoLoad.symm.trans hq) (by simp)
    · show (reloadPayload s.pld _).length ≤ 60
      rw [reloadPayload_length]
      decide
    · rintro q k (⟨-, hq⟩ | ⟨hk, t, ht, hq⟩)
      · exact .inr (Option.some.inj (hq.symm.trans hp))
      · exact .inl (.inr ⟨hk, t, hsame.trans ht, hq⟩)

/-- What a transfer's end answers: the count and at most that many bytes read. -/
theorem readBytes_length_le (x : XferRequest) (read : List Byte) : (readBytes x read).length ≤ x.count.toNat := by
  unfold readBytes
  split <;> simp

theorem portsInv_takeTransferEnd {s : State} (hl : LoaderInv s.pld) (h : PortsInv s) (read : List Byte) :
    PortsInv (takeTransferEnd read s) := by
  unfold takeTransferEnd
  split
  case h_1 => exact h
  case h_2 t ht =>
    have hcount : t.request.count.toNat ≤ 24 := (h.1.1 t ht).1
    have hread := readBytes_length_le t.request read
    refine portsInv_endTransfer hl h t _ ht _ _ _ ?_
    rw [List.length_append, List.length_singleton]
    omega

theorem portsInv_takeStrapFall {s : State} (hl : LoaderInv s.pld) (h : PortsInv s) (n : Nat) :
    PortsInv (takeStrapFall n s) := by
  unfold takeStrapFall
  split
  case h_1 => exact h
  case h_2 t ht =>
    split
    · exact portsInv_endTransfer hl h t _ ht _ _ _ (by simp)
    · exact h

theorem portsInv_exec {c : Instr} {s t : State} (hl : LoaderInv s.pld) (hi : PortsInv s) (h : exec c s = .next t) :
    PortsInv t := by
  have hsame : ∀ {u : State}, u.pld = s.pld → u.ports = s.ports → u.bau.held = s.bau.held → PortsInv u :=
    fun hpld hports hheld => portsInv_same hi hpld hports hheld
  cases c <;> obtain rfl := Host.Outcome.next.inj h
  case reset => exact portsInv_deviceReset s
  case selectFall => exact portsInv_selectFall hi _
  case selectRise => exact portsInv_selectRise hl hi _ _ _ _
  case responseStatusByteShifted => exact portsInv_statusByteShifted hi _
  case announceNext | announceNow | readCeilings | readStatus | readHistory | readThermal | readEvents | ackEvents |
      poll | portReset | selectScenario | setCap | setOwner | setRoute | loadProfile | flashXfer | deviceReset =>
    exact portsInv_requestFrame hl hi _ _ _
  case txenRise => exact portsInv_lineRises hi _
  case txenFall => exact portsInv_lineFalls hi _
  case staleExpiry | overrunExpiry | graceExpiry => exact portsInv_bauReceive hi _ fun _ => rfl
  case ceilingChangeNotice n =>
    exact State.taking_induct hi
      (portsInv_bauReceive (s := s.takeNotice (.ceilingChangeNotice n)) (hsame rfl rfl rfl) _ fun _ => rfl)
  case bauCloseEvent => exact portsInv_bauCloseEvent hi
  case bauEntryToRun => exact hsame (by simp) (by simp) (takeBauEntry_held _ _)
  case bauCloseNotice | bauCloseAnswer => exact hsame rfl rfl rfl
  case pstCloseNotice n => exact portsInv_takePstClose (s := s.takeNotice (.pstCloseNotice n)) (hsame rfl rfl rfl)
  case startupLoadEnd => exact portsInv_takeStartupEnd hi _
  case reloadEnd => exact portsInv_takeReloadEnd hl hi _
  case transferEnd => exact portsInv_takeTransferEnd hl hi _
  case strapFall n =>
    exact portsInv_takeStrapFall (s := s.setPins { s.pins with strap := false }) hl (portsInv_setPins hi _) n
  case scenarioDelivery | profileDelivery | stageTripNotice | levelLockNotice | routingDelivery =>
    exact State.taking_induct hi (portsInv_enterRun (hsame rfl rfl rfl))
  case bauLimitsDelivery | ewuLimitsDelivery => exact portsInv_enterRun (hsame rfl rfl rfl)
  all_goals exact hsame (by simp) (by simp) (by simp)

/-- Settles O60: a tick leaves ports and loader as they are, and every command keeps them, the loader's states right. -/
theorem stepsKeepThePorts : Obligations.StepsKeepThePorts := fun s _ hl hi =>
  step_keeps (P := PortsInv) (s := s) (portsInv_same hi rfl rfl rfl) fun _ rest _ h =>
    portsInv_exec (s := { s with pending := rest }) hl (portsInv_same hi rfl rfl rfl) h

/-! ### After reset -/

/-- Settles O51: the state after reset satisfies each invariant by its own lemma. -/
theorem resetSatisfiesEveryInvariant : Obligations.ResetSatisfiesEveryInvariant :=
  ⟨ceilingInv_reset, eventInv_reset, overloadInv_reset, windowInv_reset, burstInv_reset, thermalInv_reset,
    policyInv_reset, stagedTable_of_none rfl, loaderInv_reset,
    portsInv_of_reset State.reset rfl rfl fun q => by cases q <;> rfl⟩

end Sys2Proof.Machine

/-! Commands and the queue, resets, and the frames of the ports. -/

namespace Sys2Proof.Machine

/-! ### The step and the queue -/

/-- Settles O1: both are the two branches of the step. -/
theorem stepRunsFrontCommandOrTicks : Obligations.StepRunsFrontCommandOrTicks := by
  refine ⟨fun _ _ => rfl, fun s h => ?_⟩
  unfold step
  split
  case h_1 => rfl
  case h_2 hp => cases h.symm.trans hp

/-- Every command answers a next state with the queue's rest as it was. -/
theorem exec_next (c : Instr) (s : State) : ∃ t, exec c s = .next t ∧ t.pending = s.pending := by
  cases c <;> refine ⟨_, rfl, ?_⟩ <;> simp

/-- An older notice of its lane makes a notice come out of its order. -/
theorem inOrder_false {s : State} {c m : Instr} {l : Lane} (hl : laneOf s.isLoading c = some l)
    (hm : s.frontOf l = some m) (hne : m ≠ c) : s.inOrder c = false := by
  simp [State.inOrder, hl, hm, hne]

/-- A notice of a lane that comes out of its order changes nothing. -/
theorem exec_of_outOfOrder {c : Instr} {s : State} (hl : (laneOf s.isLoading c).isSome = true)
    (h : s.inOrder c = false) : exec c s = .next s := by
  cases c
  case ceilingChangeNotice | enforcementSetRequest | enforcementClearRequest | stageTripNotice | levelLockNotice |
      profileDelivery | scenarioDelivery | capDelivery | eventRaise | routingDelivery =>
    exact congrArg Host.Outcome.next (State.taking_of_not _ h)
  all_goals cases hl

/-- Settles O2: by `exec_next`, and by `exec_of_outOfOrder` for a notice behind an older one. -/
theorem everyCommandRunsAndKeepsTheQueue : Obligations.EveryCommandRunsAndKeepsTheQueue :=
  ⟨exec_next, fun _ _ _ _ hl hm hne => exec_of_outOfOrder (hl ▸ rfl) (inOrder_false hl hm hne)⟩

/-! ### The command of a request -/

/-- A request command is the end of a frame with that request. -/
theorem exec_of_requestOf {c : Instr} {p : Port} {r : Request} (h : requestOf c = some (p, r)) (s : State) :
    exec c s = .next (requestFrame p r (strapOf c s) s) := by
  cases c <;> cases h <;> rfl

/-! ### Resets -/

theorem resetOutcome_deviceReset {s u : State} (h : u.pins = s.pins) : ResetOutcome s u.deviceReset := by
  refine ⟨rfl, rfl, rfl, rfl, rfl, rfl, rfl, rfl, rfl, rfl, h, fun p => ?_⟩
  rw [State.deviceReset_ports, PerPort.get_build]
  rfl

/-- Only port C may carry a DEVICE_RESET. -/
theorem deviceReset_permitted_iff (p : Port) : Kind.permitted .deviceReset p = decide (p = .portC) := rfl

/-- Settles O3: every reset is `State.deviceReset`, and the values after it are those of the reset state. -/
theorem deviceResetRestoresEveryUnit : Obligations.DeviceResetRestoresEveryUnit := by
  refine ⟨⟨fun s => ⟨_, rfl, resetOutcome_deviceReset rfl⟩, fun s h => ?_, fun s p hp h => ?_⟩, ?_⟩
  · obtain ⟨htakes, hfree⟩ := h
    have hdelivered := requestFrame_delivered .portC .deviceReset s.pins.strap s htakes (.inr hfree) rfl rfl
    exact ⟨_, congrArg Host.Outcome.next hdelivered, resetOutcome_deviceReset rfl⟩
  · have hdenied := requestFrame_denied p .deviceReset s.pins.strap s h rfl
      ((deviceReset_permitted_iff p).trans (decide_eq_false hp))
    exact ⟨_, congrArg Host.Outcome.next hdenied, answeredOnly_of_answer s p .deviceReset .denied .deviceReset []⟩
  · refine ⟨rfl, rfl, ?_, rfl, rfl, ?_, rfl, rfl, rfl, rfl, ?_, ?_, ?_, rfl, rfl, rfl, rfl, rfl, rfl, rfl, ?_, rfl, rfl⟩
    · intro i; cases i <;> decide +kernel
    · intro i; cases i <;> decide +kernel
    · intro g; cases g <;> rfl
    · intro n; cases n <;> exact ⟨rfl, rfl⟩
    · intro z; cases z <;> exact ⟨rfl, rfl, rfl⟩
    · intro p; cases p <;> decide

/-! ### The edges of the select line -/

theorem PerPort.set_set {α : Type} (v : PerPort α) (p : Port) (x y : α) : (v.set p x).set p y = v.set p y := by
  cases p <;> rfl

/-- Of two writes of a port the second stands. -/
theorem State.setPort_setPort (s : State) (p : Port) (c d : Cpi) : (s.setPort p c).setPort p d = s.setPort p d := by
  simp [State.setPort, PerPort.set_set]

/-- A write of one port leaves the others. -/
theorem State.setPort_ports_of_ne (s : State) (p : Port) (c : Cpi) {q : Port} (h : q ≠ p) :
    (s.setPort p c).ports.get q = s.ports.get q := by
  rw [State.setPort_ports, PerPort.get_set, if_neg h]

theorem State.setPort_ports_self (s : State) (p : Port) (c : Cpi) : (s.setPort p c).ports.get p = c := by
  rw [State.setPort_ports, PerPort.get_set_self]

/-- The port that takes a falling edge opens a frame. -/
theorem selectFall_opens {s : State} {p : Port} (hl : (s.ports.get p).selectLow = false)
    (ha : s.awaitsAnswer p = false) : selectFall p s = s.setPort p (s.ports.get p).openFrame := by
  simp [selectFall, hl, ha]

/-- A port whose select line is low already, or whose ANNOUNCE the BAU holds, takes no falling edge. -/
theorem selectFall_stands {s : State} {p : Port} (h : (s.ports.get p).selectLow = true ∨ s.awaitsAnswer p = true) :
    selectFall p s = s := by
  rcases h with h | h <;> simp [selectFall, h]

theorem statusByteShifted_open {s : State} {p : Port} {f : Frame} (h : (s.ports.get p).frame = some f) :
    statusByteShifted p s = s.setPort p ((s.ports.get p).statusLeft f) := by
  simp [statusByteShifted, h]

/-- In an open frame the first byte's leaving collects the slot. -/
theorem statusLeft_slot {c : Cpi} {f : Frame} (h : c.frame = some f) : (c.statusLeft f).slot = collectedSlot c := by
  simp [Cpi.statusLeft, collectedSlot, Cpi.frameOr, h]

/-- Settles O4: by `selectFall_stands`, `selectFall_opens` and `statusByteShifted_open`. -/
theorem frameStartsOnTheSlotAndCollectsIt : Obligations.FrameStartsOnTheSlotAndCollectsIt := by
  refine ⟨fun p s ha => ?_, fun p s hl ha => ?_, fun p s f hf => ?_⟩
  · exact congrArg Host.Outcome.next (selectFall_stands (.inr ha))
  · refine ⟨_, congrArg Host.Outcome.next (selectFall_opens hl ha), rfl, fun q hq => s.setPort_ports_of_ne p _ hq, ?_⟩
    rw [State.setPort_ports_self]
    exact ⟨rfl, rfl, rfl, ⟨rfl, rfl⟩, fun n => rfl⟩
  · refine ⟨_, congrArg Host.Outcome.next (statusByteShifted_open hf), rfl, fun q hq => s.setPort_ports_of_ne p _ hq, ?_⟩
    rw [State.setPort_ports_self]
    exact ⟨⟨rfl, rfl⟩, rfl, statusLeft_slot hf⟩

/-! ### The end of a frame -/

/-- A released port keeps its slot and counters. -/
theorem portAfter_released (s : State) (p : Port) :
    PortAfter s (s.setPort p (s.ports.get p).released) p (s.ports.get p).slot := by
  refine ⟨⟨fun q hq => s.setPort_ports_of_ne p _ hq, ?_⟩, ?_⟩
  · rw [State.setPort_ports_self]
    exact ⟨rfl, rfl, rfl⟩
  · rw [State.setPort_ports_self]
    exact ⟨rfl, rfl⟩

/-- Ending the open frame of a port is what the ending of a request's frame makes of it. -/
theorem closeFrame_eq_endedPort {c : Cpi} {f : Frame} (h : c.frame = some f) (bytes : List Byte) :
    c.closeFrame f bytes = endedPort c bytes := by
  simp [endedPort, Cpi.inFrame, Cpi.frameOr, h]

/-- The rising edge that ends an open frame concludes it by its judgement. -/
theorem selectRise_concludes {s : State} {p : Port} {f : Frame} (hl : (s.ports.get p).selectLow = true)
    (hf : (s.ports.get p).frame = some f) {bytes : List Byte} {part : Bool} (hb : bytes.isEmpty = false ∨ part = true)
    (strap : Bool) :
    selectRise p bytes part strap s =
      concludeFrame p strap (judgeFrame p f bytes part) (s.setPort p (endedPort (s.ports.get p) bytes)) := by
  have hclock : ¬(bytes.isEmpty = true ∧ part = false) := by
    rintro ⟨he, hp⟩
    rcases hb with hb | hb
    · cases he.symm.trans hb
    · cases hp.symm.trans hb
  simp only [selectRise, if_pos hl, hf, endFrame, Bool.and_eq_true, Bool.not_eq_true', if_neg hclock,
    closeFrame_eq_endedPort hf]

/-- The rising edge of a port with no open frame frees the port. -/
theorem selectRise_frees {s : State} {p : Port} (hl : (s.ports.get p).selectLow = true)
    (hf : (s.ports.get p).frame = none) (bytes : List Byte) (part strap : Bool) :
    selectRise p bytes part strap s = s.setPort p (s.ports.get p).released := by
  simp [selectRise, hl, hf]

/-- With no clock edge there was no frame. -/
theorem selectRise_noClock {s : State} {p : Port} {f : Frame} (hl : (s.ports.get p).selectLow = true)
    (hf : (s.ports.get p).frame = some f) (strap : Bool) :
    selectRise p [] false strap s = s.setPort p (s.ports.get p).released := by
  simp [selectRise, hl, hf, endFrame]

/-- The slot at a frame's end: with no whole byte it stands. -/
theorem endedPort_slot_of_open {c : Cpi} {f : Frame} (h : c.frame = some f) (bytes : List Byte) :
    (endedPort c bytes).slot = if bytes.isEmpty then c.slot else collectedSlot c := by
  cases hb : bytes.isEmpty with
  | true => simp [endedPort, Cpi.inFrame, h, Cpi.closeFrame, Cpi.released, hb]
  | false => exact endedPort_slot c bytes hb

/-- A frame counted at its port: the port has ended, PORT is raised, and only the counters change besides. -/
theorem countFrame_spec (s : State) (p : Port) (bytes : List Byte) (count : Cpi → Cpi)
    (hslot : ∀ c, (count c).slot = c.slot) (hframe : ∀ c, (count c).frame = c.frame)
    (hlow : ∀ c, (count c).selectLow = c.selectLow) :
    PortEnded s (countFrame p count (s.setPort p (endedPort (s.ports.get p) bytes))) p
        (endedPort (s.ports.get p) bytes).slot ∧
      countFrame p count (s.setPort p (endedPort (s.ports.get p) bytes)) =
        { s with
          ports := (countFrame p count (s.setPort p (endedPort (s.ports.get p) bytes))).ports
          notices := s.notices ++ [portRaise p] } ∧
      (countFrame p count (s.setPort p (endedPort (s.ports.get p) bytes))).ports.get p =
        count (endedPort (s.ports.get p) bytes) := by
  have hport : (countFrame p count (s.setPort p (endedPort (s.ports.get p) bytes))).ports.get p =
      count (endedPort (s.ports.get p) bytes) := by
    simp [countFrame]
  refine ⟨⟨fun q hq => by simp [countFrame, PerPort.get_set, hq], ?_, ?_, ?_⟩, rfl, hport⟩
  · rw [hport, hslot]
  · rw [hport, hframe, endedPort_frame]
  · rw [hport, hlow, endedPort_selectLow]

/-- An answer straight after a frame's end changes nothing but its port. -/
theorem answeredOnly_of_ended (s : State) (p : Port) (bytes : List Byte) (st : Status) (k : Kind) (b : List Byte) :
    AnsweredOnly s ((s.setPort p (endedPort (s.ports.get p) bytes)).answer p st k.value b) p st k b := by
  refine ⟨portAfter_setSlot s p bytes _ _ ?_, rfl⟩
  simp [answerSlot]

/-! ### The judgement of a frame -/

theorem judgeFrame_truncated (p : Port) (f : Frame) {bytes : List Byte} {part : Bool}
    (h : part = true ∨ isComplete bytes = false) : judgeFrame p f bytes part = .truncated := by
  rcases h with h | h <;> simp [judgeFrame, h]

theorem judgeFrame_dropped (p : Port) {f : Frame} {bytes : List Byte} (hc : isComplete bytes = true)
    (hf : f.startedPending = true) (hk : byteAt bytes 0 ≠ Kind.poll.value) :
    judgeFrame p f bytes false = .dropped := by
  simp [judgeFrame, hc, hf, hk]

theorem judgeFrame_free (p : Port) {f : Frame} {bytes : List Byte} (hc : isComplete bytes = true)
    (hf : f.startedPending = false) : judgeFrame p f bytes false = judgeRequest p bytes := by
  simp [judgeFrame, hc, hf]

/-- A complete frame holds its kind byte and its length byte. -/
theorem isEmpty_of_isComplete {bytes : List Byte} (h : isComplete bytes = true) : bytes.isEmpty = false := by
  cases bytes with
  | nil => exact absurd h (by decide)
  | cons _ _ => rfl

/-- A kind byte names the kind whose value it is. -/
theorem value_of_kindOfByte {b : Byte} {k : Kind} (h : kindOfByte b = some k) : k.value = b :=
  of_decide_eq_true (List.find?_some (p := fun k : Kind => decide (k.value = b)) h)

/-- The request read from a payload is of the kind of the kind byte. -/
theorem parsePayload_kind (k : Kind) (b : List Byte) : (parsePayload k b).kind = k := by
  cases k <;> rfl

theorem judgeRequest_badRequest (p : Port) {bytes : List Byte} (h : kindOfByte (byteAt bytes 0) = none) :
    judgeRequest p bytes = .refused .badRequest (byteAt bytes 0) := by
  simp [judgeRequest, h]

theorem judgeRequest_badLength (p : Port) {bytes : List Byte} {k : Kind} (h : kindOfByte (byteAt bytes 0) = some k)
    (hl : lengthOk k (u8 bytes 1) (bytes.drop 2) = false) : judgeRequest p bytes = .refused .badLength k.value := by
  simp [judgeRequest, h, hl, value_of_kindOfByte h]

theorem judgeRequest_rightLength (p : Port) {bytes : List Byte} {k : Kind} (h : kindOfByte (byteAt bytes 0) = some k)
    (hl : lengthOk k (u8 bytes 1) (bytes.drop 2) = true) :
    judgeRequest p bytes = judgePermission p (parsePayload k ((bytes.drop 2).take (u8 bytes 1))) := by
  simp [judgeRequest, h, hl]

theorem judgePermission_denied {p : Port} {r : Request} (h : r.kind.permitted p = false) :
    judgePermission p r = .refused .denied r.kind.value := by
  simp [judgePermission, h]

/-- A complete frame on a slot not PENDING, once it has ended, is concluded by the judgement of its request. -/
theorem selectRise_judged {s : State} {p : Port} {f : Frame} (hl : (s.ports.get p).selectLow = true)
    (hf : (s.ports.get p).frame = some f) (hp : f.startedPending = false) {bytes : List Byte}
    (hc : isComplete bytes = true) (strap : Bool) :
    selectRise p bytes false strap s =
      concludeFrame p strap (judgeRequest p bytes) (s.setPort p (endedPort (s.ports.get p) bytes)) := by
  rw [selectRise_concludes hl hf (.inl (isEmpty_of_isComplete hc)), judgeFrame_free p hc hp]

/-- The outcome of a truncated frame. -/
theorem selectRise_truncated {s : State} {p : Port} {f : Frame} (hl : (s.ports.get p).selectLow = true)
    (hf : (s.ports.get p).frame = some f) {bytes : List Byte} {part : Bool} (strap : Bool)
    (h : part = true ∨ bytes ≠ [] ∧ isComplete bytes = false) :
    selectRise p bytes part strap s =
      countFrame p (fun c => { c with truncated := satInc16 c.truncated })
        (s.setPort p (endedPort (s.ports.get p) bytes)) := by
  have hclock : bytes.isEmpty = false ∨ part = true := by
    rcases h with h | ⟨h, -⟩
    · exact .inr h
    · exact .inl (List.isEmpty_eq_false_iff.2 h)
  rw [selectRise_concludes hl hf hclock, judgeFrame_truncated p f (h.imp_right And.right)]
  rfl

/-- The outcome of a dropped request. -/
theorem selectRise_dropped {s : State} {p : Port} {f : Frame} (hl : (s.ports.get p).selectLow = true)
    (hf : (s.ports.get p).frame = some f) {bytes : List Byte} (strap : Bool) (hc : isComplete bytes = true)
    (hp : f.startedPending = true) (hk : byteAt bytes 0 ≠ Kind.poll.value) :
    selectRise p bytes false strap s =
      countFrame p (fun c => { c with dropped := satInc16 c.dropped })
        (s.setPort p (endedPort (s.ports.get p) bytes)) := by
  rw [selectRise_concludes hl hf (.inl (isEmpty_of_isComplete hc)), judgeFrame_dropped p hc hp hk]
  rfl

/-- Settles O5: a frame is freed, counted or concluded by its judgement, and each outcome has its lemma above. -/
theorem selectRiseJudgesTheFrame : Obligations.SelectRiseJudgesTheFrame := by
  refine ⟨fun p s bytes part strap hl hf => ?_, fun p s f bytes part strap hl hf => ⟨fun hb hpart => ?_, fun h => ?_,
    fun hpart hc hp hk => ?_⟩, fun p s f bytes strap hl hf hp hc => ⟨fun hk => ?_, fun k hk => ⟨fun hlen => ?_,
    fun hlen hperm => ?_⟩⟩⟩
  · refine ⟨congrArg Host.Outcome.next (selectFall_stands (.inl hl)), _,
      congrArg Host.Outcome.next (selectRise_frees hl hf bytes part strap), portAfter_released s p, rfl, ?_⟩
    rw [State.setPort_ports_self]
    rfl
  · subst hb hpart
    exact ⟨_, congrArg Host.Outcome.next (selectRise_noClock hl hf strap), portAfter_released s p, rfl⟩
  · obtain ⟨hended, hrest, hport⟩ := countFrame_spec s p bytes (fun c => { c with truncated := satInc16 c.truncated })
      (fun _ => rfl) (fun _ => rfl) (fun _ => rfl)
    refine ⟨_, congrArg Host.Outcome.next (selectRise_truncated hl hf strap h), ?_, hrest, ?_, ?_⟩
    · rwa [endedPort_slot_of_open hf] at hended
    · rw [hport, endedPort_truncated]
    · rw [hport, endedPort_dropped]
  · subst hpart
    obtain ⟨hended, hrest, hport⟩ := countFrame_spec s p bytes (fun c => { c with dropped := satInc16 c.dropped })
      (fun _ => rfl) (fun _ => rfl) (fun _ => rfl)
    refine ⟨_, congrArg Host.Outcome.next (selectRise_dropped hl hf strap hc hp hk), ?_, hrest, ?_, ?_⟩
    · rwa [endedPort_slot _ _ (isEmpty_of_isComplete hc)] at hended
    · rw [hport, endedPort_dropped]
    · rw [hport, endedPort_truncated]
  · refine ⟨_, congrArg Host.Outcome.next (selectRise_judged hl hf hp hc strap), ?_⟩
    rw [judgeRequest_badRequest p hk]
    refine ⟨rfl, portAfter_setSlot s p bytes _ _ ?_⟩
    simp [concludeFrame]
  · refine ⟨_, congrArg Host.Outcome.next (selectRise_judged hl hf hp hc strap), ?_⟩
    rw [judgeRequest_badLength p hk hlen]
    exact answeredOnly_of_ended s p bytes .badLength k []
  · refine ⟨_, congrArg Host.Outcome.next (selectRise_judged hl hf hp hc strap), ?_⟩
    rw [judgeRequest_rightLength p hk hlen, judgePermission_denied (by rw [parsePayload_kind, hperm]), parsePayload_kind]
    exact answeredOnly_of_ended s p bytes .denied k []

/-! ### The bytes of a request -/

/-- A request's bytes, followed by others: kind, length, payload, and what follows. -/
theorem requestBytes_parts (r : Request) (extra : List Byte) (h : requestLengthOk r = true) :
    byteAt (requestBytes r ++ extra) 0 = r.kind.value ∧ u8 (requestBytes r ++ extra) 1 = (payloadBytes r).length ∧
      (requestBytes r ++ extra).drop 2 = payloadBytes r ++ extra ∧ isComplete (requestBytes r ++ extra) = true := by
  have hlen := payloadBytes_length_le r h
  have hlength : u8 (requestBytes r ++ extra) 1 = (payloadBytes r).length := by
    show (payloadBytes r).length % 256 = _
    omega
  refine ⟨rfl, hlength, rfl, ?_⟩
  simp only [isComplete, hlength, Bool.and_eq_true, decide_eq_true_eq]
  simp only [requestBytes, List.length_append, List.length_cons, List.length_nil]
  omega

/-- The request that a request's bytes carry is judged by its permission only. -/
theorem judgeRequest_requestBytes (p : Port) (r : Request) (extra : List Byte) (h : requestLengthOk r = true) :
    judgeRequest p (requestBytes r ++ extra) = judgePermission p r := by
  obtain ⟨hkind, hlength, hpayload, -⟩ := requestBytes_parts r extra h
  have hk : kindOfByte (byteAt (requestBytes r ++ extra) 0) = some r.kind := by rw [hkind, kindOfByte_value]
  rw [judgeRequest_rightLength p hk (by rw [hlength, hpayload]; exact lengthOk_payloadBytes r h extra), hlength, hpayload,
    List.take_left, parsePayload_payloadBytes]

/-- The kinds have different values. -/
theorem kindValue_inj {j k : Kind} : j.value = k.value ↔ j = k := by
  refine ⟨fun h => Option.some.inj ?_, fun h => h ▸ rfl⟩
  rw [← kindOfByte_value j, ← kindOfByte_value k, h]

theorem judgeFrame_requestBytes (p : Port) (f : Frame) (r : Request) (extra : List Byte)
    (h : requestLengthOk r = true) :
    judgeFrame p f (requestBytes r ++ extra) false =
      if f.startedPending && decide (r.kind ≠ .poll) then .dropped else judgePermission p r := by
  obtain ⟨hkind, -, -, hcomplete⟩ := requestBytes_parts r extra h
  simp only [judgeFrame, hcomplete, hkind, ne_eq, kindValue_inj, judgeRequest_requestBytes p r extra h, Bool.not_true,
    Bool.or_self, Bool.false_eq_true, if_false]

/-- Settles O6: the frame's bytes give the request back, so that their judgement is the request's. -/
theorem requestBytesReadBack : Obligations.RequestBytesReadBack :=
  ⟨fun r => ⟨kindOfByte_value r.kind, parsePayload_payloadBytes r⟩, judgeFrame_requestBytes⟩

/-! ### A frame by its edges -/

/-- A right length makes the judgement of the command that of its bytes. -/
theorem judgeFrame_eq_judgeCommand (p : Port) (f : Frame) (r : Request) (h : requestLengthOk r = true) :
    judgeFrame p f (requestBytes r) false = judgeCommand p f r := by
  rw [← List.append_nil (requestBytes r), judgeFrame_requestBytes p f r [] h]
  simp only [judgeCommand, h, if_true]

/-- A port with no frame open ends the frame it would open. -/
theorem endedPort_openFrame {c : Cpi} (h : c.frame = none) (bytes : List Byte) :
    endedPort c.openFrame bytes = endedPort c bytes := by
  simp [endedPort, Cpi.inFrame, Cpi.frameOr, Cpi.openFrame, h]

/-- Settles O7: the falling edge opens the frame in which the request's command would end. -/
theorem frameEdgesCarryOutTheRequest : Obligations.FrameEdgesCarryOutTheRequest := by
  intro c p r s hc hlen hl hf hw
  rw [exec_of_requestOf hc]
  refine ⟨_, rfl, congrArg Host.Outcome.next ?_⟩
  cases ha : s.awaitsAnswer p with
  | true =>
    rw [selectFall_stands (.inr ha)]
    simp [selectRise, hl, requestFrame, hw, ha]
  | false =>
    rw [selectFall_opens hl ha, requestFrame_concluded p r _ s ⟨hw, ha⟩]
    have hport := s.setPort_ports_self p (s.ports.get p).openFrame
    have hopen : ((s.setPort p (s.ports.get p).openFrame).ports.get p).frame =
        some (s.ports.get p).frameOr := by
      rw [hport]
      simp [Cpi.openFrame, Cpi.frameOr, hf]
    rw [selectRise_concludes (by rw [hport]; rfl) hopen (.inl (requestBytes_ne_nil r)),
      judgeFrame_eq_judgeCommand p _ r hlen, hport, endedPort_openFrame hf, State.setPort_setPort, State.frameEnded_eq]

/-! ### Requests that reach no block -/

theorem requestFrame_released {s : State} {p : Port} (h : (s.ports.get p).waitHigh = true) (r : Request)
    (strap : Bool) : requestFrame p r strap s = s.setPort p (s.ports.get p).released := by
  simp [requestFrame, h]

theorem requestFrame_awaiting {s : State} {p : Port} (hw : (s.ports.get p).waitHigh = false)
    (ha : s.awaitsAnswer p = true) (r : Request) (strap : Bool) : requestFrame p r strap s = s := by
  simp [requestFrame, hw, ha]

/-- Only the command DEVICE_RESET of port C carries a device reset of port C. -/
theorem deviceReset_of_requestOf {c : Instr} {p : Port} (h : requestOf c = some (p, .deviceReset)) :
    c = .deviceReset p := by
  cases c <;> cases h
  rfl

/-- Settles O8: the three outcomes of a request's end, and `requestFrame_ports_of_ne` for the other ports. -/
theorem portsDropWhilePendingAndStandApart : Obligations.PortsDropWhilePendingAndStandApart := by
  refine ⟨⟨fun c p r s hc hw => ?_, fun c p r s hc hw ha => ?_⟩, fun c p r s hc hk ht hp => ?_,
    fun c p r s t hc hne h q hq => ?_⟩
  · rw [exec_of_requestOf hc]
    refine ⟨_, congrArg Host.Outcome.next (requestFrame_released hw r _), portAfter_released s p, rfl, ?_⟩
    rw [State.setPort_ports_self]
    rfl
  · rw [exec_of_requestOf hc, requestFrame_awaiting hw ha]
  · obtain ⟨hended, hrest, hport⟩ := countFrame_spec s p (requestBytes r) (fun c => { c with dropped := satInc16 c.dropped })
      (fun _ => rfl) (fun _ => rfl) (fun _ => rfl)
    rw [exec_of_requestOf hc]
    refine ⟨_, congrArg Host.Outcome.next (requestFrame_dropped p r _ s ht hk hp), ?_, hrest, ?_, ?_⟩
    · rwa [endedPort_slot _ _ (requestBytes_ne_nil r)] at hended
    · rw [State.frameEnded_eq, hport, endedPort_dropped]
    · rw [State.frameEnded_eq, hport, endedPort_truncated]
  · rw [exec_of_requestOf hc] at h
    obtain rfl := Host.Outcome.next.inj h
    refine requestFrame_ports_of_ne hq r _ s ?_
    by_cases hr : r = .deviceReset
    · subst hr
      exact .inr fun hp => hne (hp ▸ deviceReset_of_requestOf hc)
    · exact .inl hr

end Sys2Proof.Machine

/-! The payloads of the reads, by byte position (section 9.10, R155, R156, R166). -/

namespace Sys2Proof.Machine

/-! ### Bytes at a place -/

/-- A number stands at a place where its little-endian bytes stand. -/
theorem fieldAt_of_take {b : List Byte} {n w v : Nat} (h : (b.drop n).take w = le w v) : FieldAt b n w v := by
  intro j hj
  rw [← List.getElem?_drop, ← List.getElem?_take_of_lt hj, h, le_getElem? w v j hj]

/-- The place of a field in a list's rest and in the list. -/
theorem fieldAt_drop {b : List Byte} {m n w v : Nat} (h : FieldAt (b.drop m) n w v) : FieldAt b (m + n) w v := by
  intro j hj
  rw [Nat.add_assoc, ← List.getElem?_drop]
  exact h j hj

/-- One byte that holds a number. -/
theorem fieldAt_byte {b : List Byte} {n v : Nat} {x : Byte} (h : b[n]? = some x) (hx : x = BitVec.ofNat 8 v) :
    FieldAt b n 1 v := by
  intro j hj
  obtain rfl : j = 0 := by omega
  rw [Nat.add_zero, h, hx, Nat.pow_zero, Nat.div_one]

/-- A byte of flags. -/
theorem bitsAt_flagByte {b : List Byte} {n : Nat} {bits : List Bool} (h : b[n]? = some (flagByte bits)) :
    BitsAt b n bits := ⟨_, h, flagByte_getLsbD bits⟩

/-- A byte that is one flag. -/
theorem bitsAt_boolByte {b : List Byte} {n : Nat} {x : Bool} (h : b[n]? = some (boolByte x)) : BitsAt b n [x] :=
  bitsAt_flagByte (h.trans (by cases x <;> rfl))

/-! ### Ceilings, caps and temperatures as two bytes -/

/-- The form byte of a ceiling (R162). -/
def ceilingForm : Ceiling → Byte
  | .code _ => 0
  | .off => 1

/-- The code byte of a ceiling (R162). -/
def ceilingCode : Ceiling → Byte
  | .code c => c
  | .off => 0

theorem ceilingBytes_eq (x : Ceiling) : ceilingBytes x = [ceilingForm x, ceilingCode x] := by cases x <;> rfl

theorem ceilingAt_of_bytes {b : List Byte} {n : Nat} {x : Ceiling} (hform : b[n]? = some (ceilingForm x))
    (hcode : b[n + 1]? = some (ceilingCode x)) : CeilingAt b n x := by
  cases x with
  | off => exact ⟨fieldAt_byte hform rfl, fieldAt_byte hcode rfl⟩
  | code c => exact ⟨fieldAt_byte hform rfl, hcode⟩

/-- The form byte of a cap (R162). -/
def capForm : Cap → Byte
  | .code _ => 0
  | .off => 1
  | .uncapped => 2

/-- The code byte of a cap (R162). -/
def capCode : Cap → Byte
  | .code c => c
  | .off => 0
  | .uncapped => 0

theorem capBytes_eq (x : Cap) : capBytes x = [capForm x, capCode x] := by cases x <;> rfl

theorem capAt_of_bytes {b : List Byte} {n : Nat} {x : Cap} (hform : b[n]? = some (capForm x))
    (hcode : b[n + 1]? = some (capCode x)) : CapAt b n x := by
  cases x with
  | off => exact ⟨fieldAt_byte hform rfl, fieldAt_byte hcode rfl⟩
  | code c => exact ⟨fieldAt_byte hform rfl, hcode⟩
  | uncapped => exact ⟨fieldAt_byte hform rfl, fieldAt_byte hcode rfl⟩

/-- A temperature's bytes are those of its remainder modulo 2^16. -/
theorem optionTemp_eq (t : Option Int) : optionTemp t = le 2 (t.getD (-32768) % 65536).toNat := by
  have hsigned : ∀ v : Int, leSigned16 v = le 2 (v % 65536).toNat := fun v => by
    rw [leSigned16, BitVec.toNat_ofInt]
    rfl
  cases t with
  | none => exact hsigned _
  | some v => exact hsigned v

/-! ### The ceiling report and READ_THERMAL -/

theorem deviceByte_eq (s : State) : s.deviceByte = BitVec.ofNat 8 (deviceState s) := by
  unfold State.deviceByte deviceState
  cases s.isLoading <;> rfl

theorem sensorByte_eq (x : SensorState) :
    sensorByte x = BitVec.ofNat 8 (match x with | .ok => 0 | .suspect => 1 | .fault => 2) := by cases x <;> rfl

theorem zoneByte_eq (z : Zone) : zoneByte z = BitVec.ofNat 8 (zoneIndex z) := by cases z <;> rfl

theorem ownerByte_eq (o : Owner) : ownerByte o = BitVec.ofNat 8 (ownerCode o) := by cases o <;> rfl

/-- A byte is the byte of its number. -/
theorem byte_eq_ofNat (x : Byte) : x = BitVec.ofNat 8 x.toNat := (BitVec.ofNat_toNat 8 x ▸ (BitVec.setWidth_eq x).symm)

theorem ceilingReport_layout (s : State) : CeilingReportLayout s (ceilingReport s) := by
  refine ⟨ceilingReport_length s, fieldAt_byte rfl (deviceByte_eq s), fieldAt_byte rfl (byte_eq_ofNat _), fun i => ?_⟩
  simp only [ceilingReport, entryBytes, ceilingBytes_eq]
  cases i <;> exact ⟨ceilingAt_of_bytes rfl rfl, bitsAt_flagByte rfl, bitsAt_flagByte rfl, bitsAt_boolByte rfl⟩

theorem thermalPayload_layout (s : State) : ThermalLayout s (thermalPayload s) := by
  refine ⟨?_, fieldAt_byte rfl (deviceByte_eq s), fun n => ?_, fun z => ?_, fun i => ?_⟩
  all_goals simp only [thermalPayload, sensorBytes, zoneBytes, optionTemp_eq]
  · rfl
  · cases n <;> exact ⟨fieldAt_byte rfl (sensorByte_eq _), fieldAt_of_take rfl, fieldAt_of_take rfl⟩
  · cases z <;> exact ⟨fieldAt_of_take rfl, fieldAt_byte rfl rfl, bitsAt_flagByte rfl⟩
  · cases i <;> exact fieldAt_byte rfl (zoneByte_eq _)

/-! ### The pages of READ_STATUS -/

theorem devicePage_caps (s : State) (i : Chain) : CapAt (devicePage s) (16 + 2 * chainIndex i) (s.pst.caps.get i) := by
  simp only [devicePage, capBytes_eq]
  cases i <;> exact capAt_of_bytes rfl rfl

theorem devicePage_owners (s : State) (i : Chain) :
    FieldAt (devicePage s) (24 + chainIndex i) 1 (ownerCode (s.pst.owners.get i)) := by
  simp only [devicePage, capBytes_eq]
  cases i <;> exact fieldAt_byte rfl (ownerByte_eq _)

theorem devicePage_layout (s : State) : DevicePageLayout s (devicePage s) := by
  have hchains : ∀ i, CapAt (devicePage s) (16 + 2 * chainIndex i) (s.pst.caps.get i) ∧
      FieldAt (devicePage s) (24 + chainIndex i) 1 (ownerCode (s.pst.owners.get i)) :=
    fun i => ⟨devicePage_caps s i, devicePage_owners s i⟩
  unfold DevicePageLayout
  simp only [devicePage, capBytes_eq] at hchains ⊢
  refine ⟨rfl, fieldAt_byte rfl (deviceByte_eq s), fieldAt_of_take rfl, fieldAt_byte rfl rfl, fieldAt_byte rfl ?_,
    bitsAt_flagByte rfl, ⟨rfl, rfl, rfl, rfl⟩, fieldAt_of_take rfl, fieldAt_of_take rfl, hchains,
    fieldAt_byte rfl ?_, bitsAt_boolByte rfl, bitsAt_boolByte rfl, fieldAt_byte rfl rfl⟩
  · cases s.pst.pendingIndex <;> rfl
  · cases s.ovu.level <;> rfl

theorem groupPage_layout (s : State) (g : Group) : GroupPageLayout s g (groupPage s g) :=
  ⟨rfl, fieldAt_of_take rfl, fieldAt_of_take rfl, fieldAt_of_take rfl, fieldAt_of_take rfl, fieldAt_of_take rfl,
    fieldAt_of_take rfl, fieldAt_of_take rfl, fieldAt_of_take rfl⟩

theorem chainsPage_layout (s : State) : ChainsPageLayout s (chainsPage s) := by
  refine ⟨rfl, fun i => ?_⟩
  cases i <;> exact ⟨fieldAt_byte rfl rfl, fieldAt_of_take rfl, fieldAt_of_take rfl, fieldAt_of_take rfl,
    fieldAt_of_take rfl, fieldAt_of_take rfl⟩

theorem portsPage_layout (s : State) : PortsPageLayout s (portsPage s) := by
  refine ⟨rfl, fun p => ?_⟩
  cases p <;> exact ⟨fieldAt_of_take rfl, fieldAt_of_take rfl⟩

/-- The pages by number (R156). -/
theorem statusPage_eq_some {s : State} {page : Byte} {b : List Byte} (h : statusPage s page = some b) :
    (page = 0 → b = devicePage s) ∧ (page = 1 → b = groupPage s .g0) ∧ (page = 2 → b = groupPage s .g1) ∧
      (page = 3 → b = chainsPage s) ∧ (page = 4 → b = portsPage s) := by
  refine ⟨?_, ?_, ?_, ?_, ?_⟩ <;> (rintro rfl; exact (Option.some.inj h).symm)

theorem statusPage_none {s : State} {page : Byte} (h : 4 < page.toNat) : statusPage s page = none := by
  unfold statusPage
  split <;> first | rfl | omega

theorem statusPage_layout {s : State} {page : Byte} {b : List Byte} (h : statusPage s page = some b) :
    (page = 0 → DevicePageLayout s b) ∧ (page = 1 → GroupPageLayout s .g0 b) ∧ (page = 2 → GroupPageLayout s .g1 b) ∧
      (page = 3 → ChainsPageLayout s b) ∧ (page = 4 → PortsPageLayout s b) := by
  obtain ⟨h0, h1, h2, h3, h4⟩ := statusPage_eq_some h
  exact ⟨fun e => h0 e ▸ devicePage_layout s, fun e => h1 e ▸ groupPage_layout s .g0,
    fun e => h2 e ▸ groupPage_layout s .g1, fun e => h3 e ▸ chainsPage_layout s, fun e => h4 e ▸ portsPage_layout s⟩

/-! ### The history response -/

/-- Blocks of one length stand one after another. -/
theorem flatMap_drop {α : Type} {f : α → List Byte} {k : Nat} (hf : ∀ a, (f a).length = k) {l : List α} {j : Nat} {a : α}
    (h : l[j]? = some a) : ∃ rest, (l.flatMap f).drop (k * j) = f a ++ rest := by
  induction l generalizing j with
  | nil => cases h
  | cons x l ih =>
    cases j with
    | zero =>
      cases h
      exact ⟨l.flatMap f, by simp⟩
    | succ j =>
      obtain ⟨rest, hrest⟩ := ih (j := j) (by simpa using h)
      refine ⟨rest, ?_⟩
      rw [List.flatMap_cons, Nat.mul_succ, Nat.add_comm, ← List.drop_drop, List.drop_left' (hf x), hrest]

/-- The flags of a record's byte (section 9.10). -/
theorem recordFlags_eq (assumed : Bool) (scenario : Nat) :
    BitVec.ofNat 8 ((if assumed then 1 else 0) + 2 * (scenario % 8)) =
      flagByte [assumed, scenario.testBit 0, scenario.testBit 1, scenario.testBit 2] := by
  have hbits : scenario % 8 = bitsByte [scenario.testBit 0, scenario.testBit 1, scenario.testBit 2] := by
    refine Nat.eq_of_testBit_eq fun j => ?_
    rw [bitsByte_testBit, show 8 = 2 ^ 3 from rfl, Nat.testBit_mod_two_pow]
    match j with
    | 0 => rfl
    | 1 => rfl
    | 2 => rfl
    | j + 3 =>
      rw [decide_eq_false (show ¬ j + 3 < 3 by omega), Bool.false_and]
      rfl
  rw [hbits]
  rfl

theorem recordBytes_length (r : EpochRecord) : (recordBytes r).length = 11 := rfl

/-- A response's records, each of 11 bytes. -/
theorem recordsBytes_length (records : List EpochRecord) : (records.flatMap recordBytes).length = 11 * records.length := by
  induction records with
  | nil => rfl
  | cons r records ih => rw [List.flatMap_cons, List.length_append, recordBytes_length, ih, List.length_cons]; omega

theorem historyPayload_layout (group : Byte) (ring records : List EpochRecord) :
    HistoryLayout group ring.length records (historyPayload group ring records) := by
  refine ⟨?_, rfl, fieldAt_of_take rfl, fieldAt_byte rfl rfl, fun j r hj => ?_⟩
  · simp only [historyPayload, List.length_append, recordsBytes_length, le_length, List.length_singleton]
  · obtain ⟨rest, hrest⟩ := flatMap_drop recordBytes_length hj
    have hdrop : (historyPayload group ring records).drop (4 + 11 * j) = recordBytes r ++ rest := by
      rw [← hrest, ← List.drop_drop]
      rfl
    have hat : ∀ n, (historyPayload group ring records)[4 + 11 * j + n]? = (recordBytes r ++ rest)[n]? := fun n => by
      rw [← hdrop, List.getElem?_drop]
    have hindex : FieldAt (historyPayload group ring records) (4 + 11 * j + 0) 4 r.epochIndex.toNat :=
      fieldAt_drop (by rw [hdrop]; exact fieldAt_of_take rfl)
    have henergy : FieldAt (historyPayload group ring records) (4 + 11 * j + 4) 5 r.energy.toNat :=
      fieldAt_drop (by rw [hdrop]; exact fieldAt_of_take rfl)
    have hflags : BitsAt (historyPayload group ring records) (4 + 11 * j + 9)
        [r.assumed, r.scenario.testBit 0, r.scenario.testBit 1, r.scenario.testBit 2] :=
      bitsAt_flagByte ((hat 9).trans (congrArg some (recordFlags_eq r.assumed r.scenario)))
    have hstrikes : (historyPayload group ring records)[4 + 11 * j + 10]? = some r.strikes := hat 10
    rw [show 8 + 11 * j = 4 + 11 * j + 4 by omega, show 13 + 11 * j = 4 + 11 * j + 9 by omega,
      show 14 + 11 * j = 4 + 11 * j + 10 by omega]
    exact ⟨hindex, henergy, hflags, hstrikes⟩

/-! ### READ_EVENTS -/

/-- The two bytes of a class in a payload: mask and count, zeros when it is not pending. -/
def classBytes : Option PendingEntry → List Byte
  | none => [0, 0]
  | some e => [BitVec.setWidth 8 e.mask, e.count]

theorem classBytes_length (o : Option PendingEntry) : (classBytes o).length = 2 := by cases o <;> rfl

theorem payload_eq (ps : PendingSet) :
    ps.payload = le 2 ps.classBits ++ EventClass.all.flatMap fun k => classBytes (ps.get k) := by
  have hclass : ∀ k, (match ps.get k with | none => [0, 0] | some e => [BitVec.setWidth 8 e.mask, e.count]) =
      classBytes (ps.get k) := fun k => by cases ps.get k <;> rfl
  exact congrArg (le 2 ps.classBits ++ EventClass.all.flatMap ·) (funext hclass)

/-- A class stands in the list of the classes at its bit. -/
theorem EventClass.getElem?_idxOf_all (k : EventClass) : EventClass.all[EventClass.all.idxOf k]? = some k := by
  cases k <;> decide

/-- Flags in n bits are a number below 2^n. -/
theorem bitsByte_lt (bs : List Bool) : bitsByte bs < 2 ^ bs.length := by
  induction bs with
  | nil => decide
  | cons b bs ih =>
    rw [bitsByte, List.length_cons, Nat.pow_succ]
    split <;> omega

theorem classBits_lt (ps : PendingSet) : ps.classBits < 2 ^ 12 := bitsByte_lt _

/-- The pending class set as a 16-bit word. -/
def classWord (ps : PendingSet) : BitVec 16 := BitVec.ofNat 16 ps.classBits

theorem classWord_toNat (ps : PendingSet) : (classWord ps).toNat = ps.classBits := by
  have hlt := classBits_lt ps
  rw [classWord, BitVec.toNat_ofNat, Nat.mod_eq_of_lt (by omega)]

/-- A bit of the word is the flag at that place, none from place 12 on. -/
theorem classWord_getLsbD (ps : PendingSet) (j : Nat) :
    (classWord ps).getLsbD j = (EventClass.all.map fun k => (ps.get k).isSome).getD j false := by
  rw [← BitVec.testBit_toNat, classWord_toNat, PendingSet.classBits, bitsByte_testBit]

theorem classWord_getLsbD_class (ps : PendingSet) (k : EventClass) :
    (classWord ps).getLsbD (EventClass.all.idxOf k) = (ps.get k).isSome := by
  rw [classWord_getLsbD, List.getD_eq_getElem?_getD, List.getElem?_map, EventClass.getElem?_idxOf_all]
  rfl

theorem classWord_getLsbD_high (ps : PendingSet) {j : Nat} (h : 12 ≤ j) : (classWord ps).getLsbD j = false := by
  rw [classWord_getLsbD, List.getD_eq_getElem?_getD, List.getElem?_eq_none (by exact h), Option.getD_none]

/-- A mask of four bits as a byte. -/
theorem setWidth_mask (m : Mask) : m.setWidth 8 = BitVec.ofNat 8 m.toNat :=
  BitVec.eq_of_toNat_eq (by simp)

theorem payload_class (ps : PendingSet) (k : EventClass) :
    FieldAt ps.payload (2 + 2 * EventClass.all.idxOf k + 0) 1 (match ps.get k with | none => 0 | some e => e.mask.toNat) ∧
      FieldAt ps.payload (2 + 2 * EventClass.all.idxOf k + 1) 1
        (match ps.get k with | none => 0 | some e => e.count.toNat) := by
  obtain ⟨rest, hrest⟩ := flatMap_drop (f := fun k => classBytes (ps.get k)) (fun k => classBytes_length _)
    (EventClass.getElem?_idxOf_all k)
  have hdrop : ps.payload.drop (2 + 2 * EventClass.all.idxOf k) = classBytes (ps.get k) ++ rest := by
    rw [payload_eq, ← List.drop_drop, List.drop_left' (le_length 2 _), hrest]
  refine ⟨fieldAt_drop ?_, fieldAt_drop ?_⟩
  · rw [hdrop]
    cases ps.get k with
    | none => exact fieldAt_byte rfl rfl
    | some e => exact fieldAt_byte rfl (setWidth_mask e.mask)
  · rw [hdrop]
    cases ps.get k with
    | none => exact fieldAt_byte rfl rfl
    | some e => exact fieldAt_byte rfl (byte_eq_ofNat e.count)

theorem eventsPayload_layout (ps : PendingSet) : EventsLayout ps ps.payload := by
  refine ⟨?_, ⟨classWord ps, ?_, fun j hj => classWord_getLsbD_high ps hj, classWord_getLsbD_class ps⟩, fun k => ?_⟩
  · rw [payload_eq, List.length_append, le_length, flatMap_length_two _ fun k => classBytes_length _]
    rfl
  · rw [classWord_toNat]
    exact fieldAt_of_take rfl
  · have hclass := payload_class ps k
    rwa [Nat.add_zero, show 2 + 2 * EventClass.all.idxOf k + 1 = 3 + 2 * EventClass.all.idxOf k by omega] at hclass

/-! ### The records of a READ_HISTORY (R58, R59) -/

theorem historyRecords_length (ring : List EpochRecord) (offset count : Nat) :
    (historyRecords ring offset count).length = min (min count 3) (ring.length - offset) := by
  rw [historyRecords, List.length_take, List.length_drop, List.length_reverse]
  rfl

/-- Newest first: record j is offset + j records before the last. -/
theorem historyRecords_getElem? {ring : List EpochRecord} {offset count j : Nat}
    (h : j < (historyRecords ring offset count).length) :
    (historyRecords ring offset count)[j]? = ring[ring.length - 1 - (offset + j)]? := by
  rw [historyRecords_length] at h
  have hj : j < min count Config.historyReadLimit := Nat.lt_of_lt_of_le h (Nat.min_le_left _ _)
  rw [historyRecords, List.getElem?_take_of_lt hj, List.getElem?_drop, List.getElem?_reverse (by omega)]

/-! ### The reads as commands -/

/-- A request that its port delivers is taken by its block once its frame has ended. -/
theorem exec_delivered {c : Instr} {p : Port} {r : Request} {s : State} (hc : requestOf c = some (p, r))
    (h : StartsFree s p) (hl : requestLengthOk r = true) (hp : r.kind.permitted p = true) :
    exec c s = .next (deliver p r (strapOf c s) (s.frameEnded p r)) := by
  obtain ⟨htakes, hfree⟩ := h
  rw [exec_of_requestOf hc, requestFrame_delivered p r _ s htakes (.inr hfree) hl hp]

/-- A delivered request that its block answers, and for which it does nothing else, changes its port only. -/
theorem exec_answered {c : Instr} {p : Port} {r : Request} {s : State} {st : Status} {b : List Byte}
    (hc : requestOf c = some (p, r)) (h : StartsFree s p) (hl : requestLengthOk r = true)
    (hp : r.kind.permitted p = true)
    (hd : deliver p r (strapOf c s) (s.frameEnded p r) = (s.frameEnded p r).answer p st r.kind.value b) :
    ∃ t, exec c s = .next t ∧ AnsweredOnly s t p st r.kind b := by
  refine ⟨_, exec_delivered hc h hl hp, ?_⟩
  rw [hd]
  exact answeredOnly_of_answer s p r st r.kind b

theorem groupOfByte_none {b : Byte} (h : 1 < b.toNat) : groupOfByte b = none := by
  unfold groupOfByte
  split <;> first | rfl | omega

/-- The end of a frame leaves what the status pages show, the ports' counters too. -/
theorem statusPage_frameEnded (s : State) (p : Port) (r : Request) (page : Byte) :
    statusPage (s.frameEnded p r) page = statusPage s page := by
  have hcounters : ∀ q, ((s.frameEnded p r).ports.get q).truncated = (s.ports.get q).truncated ∧
      ((s.frameEnded p r).ports.get q).dropped = (s.ports.get q).dropped := fun q => by
    rw [State.frameEnded_eq, State.setPort_ports, PerPort.get_set]
    split
    case isTrue hq =>
      subst hq
      exact ⟨endedPort_truncated _ _, endedPort_dropped _ _⟩
    case isFalse => exact ⟨rfl, rfl⟩
  have hports : portsPage (s.frameEnded p r) = portsPage s := by
    obtain ⟨ha, ha'⟩ := hcounters .portA
    obtain ⟨hb, hb'⟩ := hcounters .portB
    obtain ⟨hc, hc'⟩ := hcounters .portC
    simp only [PerPort.get] at ha ha' hb hb' hc hc'
    simp only [portsPage, ha, ha', hb, hb', hc, hc']
  unfold statusPage
  rw [hports]
  rfl

theorem takeReadStatus_page {s : State} {page : Byte} {b : List Byte} (h : statusPage s page = some b) (p : Port) :
    takeReadStatus p page s = s.answer p .ok Kind.readStatus.value b := by
  simp [takeReadStatus, h]

theorem takeReadStatus_noPage {s : State} {page : Byte} (h : statusPage s page = none) (p : Port) :
    takeReadStatus p page s = s.answer p .badValue Kind.readStatus.value [] := by
  simp [takeReadStatus, h]

theorem takeReadHistory_group {s : State} {group : Byte} {g : Group} (h : groupOfByte group = some g) (p : Port)
    (offset : BitVec 16) (count : Byte) :
    takeReadHistory p group offset count s =
      s.answer p .ok Kind.readHistory.value (historyPayload group (s.ewu.groups.get g).ring
        (historyRecords (s.ewu.groups.get g).ring offset.toNat count.toNat)) := by
  simp [takeReadHistory, h]

theorem takeReadHistory_noGroup {s : State} {group : Byte} (h : groupOfByte group = none) (p : Port)
    (offset : BitVec 16) (count : Byte) :
    takeReadHistory p group offset count s = s.answer p .badValue Kind.readHistory.value [] := by
  simp [takeReadHistory, h]

/-- A POLL on a port that takes frames only ends its frame. -/
theorem requestFrame_poll {s : State} {p : Port} (h : TakesFrames s p) (strap : Bool) :
    requestFrame p .poll strap s = s.frameEnded p .poll :=
  requestFrame_delivered p .poll strap s h (.inl rfl) rfl (by cases p <;> rfl)

/-- The frame of a request that stands for the whole frame shifts the slot out. -/
theorem endedPort_byteOut {c : Cpi} (h : c.frame = none) (bytes : List Byte) (n : Nat) :
    (endedPort c bytes).byteOut n = (slotBytes c.slot).getD n 0xFF := by
  cases hb : bytes.isEmpty <;>
    simp [endedPort, Cpi.inFrame, Cpi.openFrame, Cpi.closeFrame, Cpi.released, Cpi.statusLeft, Cpi.byteOut, h, hb]

/-- Settles O9: each read is an `exec_answered` with its payload, and each payload has its layout above. -/
theorem readsAnswerAndChangeOnlyTheirPort : Obligations.ReadsAnswerAndChangeOnlyTheirPort := by
  refine ⟨fun p s h => ⟨?_, fun page b hpage => ?_, fun page hpage => ?_, fun group g offset count hg => ?_,
    fun group offset count hg => ?_, ?_, ?_⟩,
    fun ring offset count => ⟨historyRecords_length ring offset count, fun j => historyRecords_getElem?⟩,
    fun p s h => ?_, fun s => ⟨ceilingReport_layout s, thermalPayload_layout s, fun p => eventsPayload_layout _,
      historyPayload_layout, fun page b hb => statusPage_layout hb⟩⟩
  · exact exec_answered (r := .readCeilings) rfl h rfl rfl rfl
  · exact exec_answered (r := .readStatus page) rfl h rfl rfl
      (takeReadStatus_page ((statusPage_frameEnded s p _ page).trans hpage) p)
  · exact exec_answered (r := .readStatus page) rfl h rfl rfl (takeReadStatus_noPage (statusPage_none hpage) p)
  · exact exec_answered (r := .readHistory group offset count) rfl h rfl rfl (takeReadHistory_group hg p offset count)
  · exact exec_answered (r := .readHistory group offset count) rfl h rfl rfl
      (takeReadHistory_noGroup (groupOfByte_none hg) p offset count)
  · exact exec_answered (r := .readThermal) rfl h rfl rfl rfl
  · exact exec_answered (r := .readEvents) rfl h rfl rfl rfl
  · refine ⟨_, congrArg Host.Outcome.next (requestFrame_poll h _),
      portAfter_ended s p (requestBytes .poll) rfl _ rfl, rfl, fun hf n => ?_⟩
    rw [State.frameEnded_eq, State.setPort_ports_self, endedPort_byteOut hf]

end Sys2Proof.Machine

/-! Events: raises, acknowledgements and routes (R163 to R168). -/

namespace Sys2Proof.Machine

/-! ### Whom a raise reaches (R164) -/

theorem delivered_named {routes : PerClass Mask} {r : Raise} {p : Port}
    (h : (routes.get r.cls).getLsbD (portIndex p) = true) (owners : PerChain Owner) :
    delivered routes owners r p = some (carriedMask r) := by
  simp [delivered, h]

theorem delivered_nobody {routes : PerClass Mask} {r : Raise} {p : Port}
    (h : (routes.get r.cls).getLsbD (portIndex p) = false) (hown : (routes.get r.cls).getLsbD 3 = false)
    (owners : PerChain Owner) : delivered routes owners r p = none := by
  simp only [delivered, h, hown, Bool.false_eq_true, if_false]

theorem delivered_own {routes : PerClass Mask} {r : Raise} {p : Port}
    (h : (routes.get r.cls).getLsbD (portIndex p) = false) (hown : (routes.get r.cls).getLsbD 3 = true)
    (owners : PerChain Owner) : delivered routes owners r p = ownDelivery owners r p := by
  simp only [delivered, h, hown, Bool.false_eq_true, if_false, if_true]

/-- A class with a mask of its own carries it whole (R165). -/
theorem carriedMask_of_ne {r : Raise} (h : maskKind r.cls ≠ .bare) : carriedMask r = r.mask := by
  unfold carriedMask
  split
  · contradiction
  · rfl

theorem ownDelivery_bare {r : Raise} (h : maskKind r.cls = .bare) (owners : PerChain Owner) (p : Port) :
    ownDelivery owners r p = none := by
  simp [ownDelivery, h]

theorem ownDelivery_port {r : Raise} (h : maskKind r.cls = .port) (owners : PerChain Owner) (p : Port) :
    ownDelivery owners r p = if r.mask &&& onePort p = 0 then none else some r.mask := by
  simp [ownDelivery, h, carriedMask_of_ne]

theorem ownDelivery_chains {r : Raise} (h : maskKind r.cls = .chains) (owners : PerChain Owner) (p : Port) :
    ownDelivery owners r p =
      if r.mask &&& ownedMask owners p = 0 then none else some (r.mask &&& ownedMask owners p) := by
  simp [ownDelivery, h, carriedMask_of_ne]

/-- Port C owns no chain (R144). -/
theorem ownedMask_portC (owners : PerChain Owner) : ownedMask owners .portC = 0 := by
  rw [ownedMask, chainMask_eq_zero_iff]
  rfl

/-! ### A raise at the event router (R165) -/

theorem receive_of_none {owners : PerChain Owner} {r : Raise} {e : Evr} {p : Port}
    (h : delivered e.routes owners r p = none) : Evr.receive owners r e p = e := by
  simp [Evr.receive, h]

theorem receive_of_some {owners : PerChain Owner} {r : Raise} {e : Evr} {p : Port} {m : Mask}
    (h : delivered e.routes owners r p = some m) :
    Evr.receive owners r e p = e.setPending p ((e.sets.get p).receive r.cls m) := by
  simp [Evr.receive, h]

/-- A port that a raise does not reach keeps its set and its line. -/
theorem takeRaise_unreached {owners : PerChain Owner} {r : Raise} {e : Evr} {p : Port}
    (h : delivered e.routes owners r p = none) :
    (e.takeRaise owners r).sets.get p = e.sets.get p ∧ (e.takeRaise owners r).irq.get p = e.irq.get p := by
  obtain ⟨hset, hirq⟩ := Evr.takeRaise_at owners r e p
  rw [receive_of_none h] at hset hirq
  exact ⟨hset, hirq⟩

/-- A port that a raise reaches takes its class into the set, and its line is asserted. -/
theorem takeRaise_reached {owners : PerChain Owner} {r : Raise} {e : Evr} {p : Port} {m : Mask}
    (h : delivered e.routes owners r p = some m) :
    (e.takeRaise owners r).sets.get p = (e.sets.get p).receive r.cls m ∧
      (e.takeRaise owners r).irq.get p = true := by
  obtain ⟨hset, hirq⟩ := Evr.takeRaise_at owners r e p
  obtain ⟨hset', hirq'⟩ := Evr.setPending_at e p p ((e.sets.get p).receive r.cls m)
  rw [receive_of_some h] at hset hirq
  refine ⟨by rw [hset, hset', if_pos rfl], ?_⟩
  rw [hirq, hirq', if_pos rfl, PendingSet.isEmpty_receive]
  rfl

theorem receive_other {k j : EventClass} (h : j ≠ k) (ps : PendingSet) (m : Mask) :
    (ps.receive k m).get j = ps.get j := by
  rw [PendingSet.receive, PerClass.get_set, if_neg h]

theorem receive_new {ps : PendingSet} {k : EventClass} (h : ps.get k = none) (m : Mask) :
    (ps.receive k m).get k = some { mask := m, count := 0 } := by
  simp [PendingSet.receive, h]

theorem receive_joined {ps : PendingSet} {k : EventClass} {e : PendingEntry} (h : ps.get k = some e) (m : Mask) :
    (ps.receive k m).get k = some { mask := e.mask ||| m, count := satInc8 e.count } := by
  simp [PendingSet.receive, h]

/-- Settles O10: the branches of `delivered`, and for a port reached or not what `takeRaise` makes of it. -/
theorem raisesReachAndEnterPendingSets : Obligations.RaisesReachAndEnterPendingSets := by
  refine ⟨fun routes owners r p => ⟨fun h => delivered_named h owners, fun h hown => delivered_nobody h hown owners,
    fun h hown => ?_⟩, fun r s hin => ?_⟩
  · rw [delivered_own h hown]
    refine ⟨fun hk => ownDelivery_bare hk owners p, fun hk => ownDelivery_port hk owners p,
      fun hk => ownDelivery_chains hk owners p, fun hk hp => ?_⟩
    rw [ownDelivery_chains hk, hp, ownedMask_portC]
    exact if_pos BitVec.and_zero
  · refine ⟨_, congrArg Host.Outcome.next (State.taking_of_inOrder _ hin), rfl, Evr.takeRaise_routes _ _ _,
      fun p => ⟨fun hd => takeRaise_unreached hd, fun m hd => ?_⟩⟩
    obtain ⟨hset, hirq⟩ := takeRaise_reached (e := s.evr) hd
    refine ⟨hirq, fun k hk => ?_, fun hn => ?_, fun e he => ?_⟩
    · exact (congrArg (·.get k) hset).trans (receive_other hk _ m)
    · exact (congrArg (·.get r.cls) hset).trans (receive_new hn m)
    · exact (congrArg (·.get r.cls) hset).trans (receive_joined he m)

/-! ### ACK_EVENTS and SET_ROUTE (R166, R167) -/

theorem remove_get (ps : PendingSet) (classes : BitVec 16) (k : EventClass) :
    (ps.remove classes).get k = if classes.getLsbD (EventClass.all.idxOf k) then none else ps.get k :=
  PerClass.get_build _ k

theorem classOfByte_none {b : Byte} (h : 12 ≤ b.toNat) : classOfByte b = none := List.getElem?_eq_none h

theorem takeSetRoute_class {cls : Byte} {k : EventClass} (h : classOfByte cls = some k) (p : Port) (dest : Byte)
    (s : State) :
    takeSetRoute p cls dest s =
      (s.setEvr { s.evr with routes := s.evr.routes.set k (destinationsOf dest) }).answer p .ok Kind.setRoute.value
        [cls, (destinationsOf dest).setWidth 8] := by
  simp [takeSetRoute, h]

theorem takeSetRoute_noClass {cls : Byte} (h : classOfByte cls = none) (p : Port) (dest : Byte) (s : State) :
    takeSetRoute p cls dest s = s.answer p .badValue Kind.setRoute.value [] := by
  simp [takeSetRoute, h]

/-- The low four bits of a byte, as a byte. -/
theorem destinations_and (b : Byte) : (destinationsOf b).setWidth 8 = b &&& 0x0F := by
  have hlow : ∀ x : Byte, (destinationsOf x).setWidth 8 = x &&& 0x0F := by decide +kernel
  exact hlow b

/-- The port's own set and line after its pending set is replaced. -/
theorem setPending_self (e : Evr) (p : Port) (ps : PendingSet) :
    (e.setPending p ps).sets.get p = ps ∧ (e.setPending p ps).irq.get p = !ps.isEmpty := by
  obtain ⟨hset, hirq⟩ := Evr.setPending_at e p p ps
  rw [if_pos rfl] at hset hirq
  exact ⟨hset, hirq⟩

/-- Any other port's set and line. -/
theorem setPending_other (e : Evr) {p q : Port} (h : q ≠ p) (ps : PendingSet) :
    (e.setPending p ps).sets.get q = e.sets.get q ∧ (e.setPending p ps).irq.get q = e.irq.get q := by
  obtain ⟨hset, hirq⟩ := Evr.setPending_at e p q ps
  rw [if_neg h] at hset hirq
  exact ⟨hset, hirq⟩

/-- Settles O11: ACK_EVENTS by `remove_get` and the lemmas about `setPending`, SET_ROUTE by its two outcomes. -/
theorem acknowledgeAndReroute : Obligations.AcknowledgeAndReroute := by
  refine ⟨fun p classes s h => ?_, fun cls dest s k h hk => ?_, fun cls dest s h hk => ?_, fun r s hin => ?_⟩
  · obtain ⟨hset, hirq⟩ := setPending_self s.evr p ((s.evr.sets.get p).remove classes)
    refine ⟨_, exec_delivered (r := .ackEvents classes) rfl h rfl (by cases p <;> rfl), rfl, rfl,
      portAfter_answered s _ _ p (.ackEvents classes) .ok .ackEvents _ rfl ?_,
      fun q hq => setPending_other s.evr hq _, fun k => ?_, ?_⟩
    · exact congrArg (fun ps => ((s.frameEnded p (.ackEvents classes)).answer p .ok Kind.ackEvents.value
        (le 2 (PendingSet.classBits ps))).ports) hset.symm
    · exact (congrArg (·.get k) hset).trans (remove_get _ classes k)
    · exact hirq.trans (congrArg (fun ps => !PendingSet.isEmpty ps) hset.symm)
  · refine ⟨_, (exec_delivered (r := .setRoute cls dest) rfl h rfl rfl).trans
      (congrArg Host.Outcome.next (takeSetRoute_class hk .portC dest _)), ?_, rfl, PerClass.get_set_self _ k _, fun j hj => ?_⟩
    · rw [destinations_and]
      exact portAfter_answered s _ _ .portC (.setRoute cls dest) .ok .setRoute _ rfl rfl
    · exact (PerClass.get_set _ k j _).trans (if_neg hj)
  · exact exec_answered (r := .setRoute cls dest) rfl h rfl rfl (takeSetRoute_noClass (classOfByte_none hk) _ dest _)
  · exact congrArg Host.Outcome.next (State.taking_of_inOrder _ hin)

end Sys2Proof.Machine

/-! Policy: scenario and cap selections, owners, port resets, and the epoch close at the policy store (R135 to R147,
R158, R175). -/

namespace Sys2Proof.Machine

/-! ### Refusals in LOADING and of values that are none -/

theorem chainOfByte_none {b : Byte} (h : 4 ≤ b.toNat) : chainOfByte b = none := by
  unfold chainOfByte
  split <;> first | rfl | omega

theorem ownerOfByte_none {b : Byte} (h : 3 ≤ b.toNat) : ownerOfByte b = none := by
  unfold ownerOfByte
  split <;> first | rfl | omega

theorem capOfWire_none {w : WireCeiling} (h : 3 ≤ w.form.toNat) : capOfWire w = none := by
  unfold capOfWire
  split <;> first | rfl | omega

/-! ### SELECT_SCENARIO (R137, R138) -/

theorem takeSelectScenario_loading {s : State} (h : s.isLoading = true) (p : Port) (index : Byte) :
    takeSelectScenario p index s = s.answer p .busy Kind.selectScenario.value [] := by
  simp [takeSelectScenario, h]

theorem takeSelectScenario_invalid {s : State} (h : s.isLoading = false) {index : Byte}
    (hi : s.pst.table.length ≤ index.toNat) (p : Port) :
    takeSelectScenario p index s = s.answer p .badValue Kind.selectScenario.value [] := by
  simp [takeSelectScenario, h, Nat.not_lt.2 hi]

theorem takeSelectScenario_valid {s : State} (h : s.isLoading = false) {index : Byte}
    (hi : index.toNat < s.pst.table.length) (p : Port) :
    takeSelectScenario p index s =
      ({ s with pst := { s.pst with pendingIndex := some index.toNat } }).answer p .ok Kind.selectScenario.value
        [BitVec.ofNat 8 s.pst.active, index] := by
  simp [takeSelectScenario, h, hi]

/-! ### SET_CAP (R142) -/

theorem takeSetCap_loading {s : State} (h : s.isLoading = true) (p : Port) (chain : Byte) (value : WireCeiling) :
    takeSetCap p chain value s = s.answer p .busy Kind.setCap.value [] := by
  simp [takeSetCap, h]

theorem takeSetCap_invalid {s : State} (h : s.isLoading = false) {chain : Byte} {value : WireCeiling}
    (hv : chainOfByte chain = none ∨ capOfWire value = none) (p : Port) :
    takeSetCap p chain value s = s.answer p .badValue Kind.setCap.value [] := by
  rcases hv with hv | hv
  · simp [takeSetCap, h, hv]
  · cases hc : chainOfByte chain <;> simp [takeSetCap, h, hv, hc]

theorem takeSetCap_valid {s : State} (h : s.isLoading = false) {chain : Byte} {value : WireCeiling} {i : Chain}
    {cap : Cap} (hc : chainOfByte chain = some i) (hv : capOfWire value = some cap) (p : Port) :
    takeSetCap p chain value s =
      (s.runPst (setCap i (storedCap (s.pst.chainParams.get i).cmax cap))).answer p .ok Kind.setCap.value
        ([chain] ++ capBytes (storedCap (s.pst.chainParams.get i).cmax cap)) := by
  simp [takeSetCap, h, hc, hv]

/-- A cap that is no code is stored as it is. -/
theorem storedCap_of_noCode {cap : Cap} (h : ∀ x, cap ≠ .code x) (cmax : Code) : storedCap cmax cap = cap := by
  cases cap with
  | code x => exact absurd rfl (h x)
  | off => rfl
  | uncapped => rfl

/-- Settles O12: the outcomes of `takeSelectScenario` and of `takeSetCap`. -/
theorem selectAndCapRequests : Obligations.SelectAndCapRequests := by
  refine ⟨fun index s h => ⟨fun hl => ?_, fun hl hi => ?_, fun hl hi => ?_⟩,
    fun chain value s h => ⟨fun hl => ?_, fun hl hv => ?_, fun hl i cap hc hv => ?_⟩⟩
  · exact exec_answered (r := .selectScenario index) rfl h rfl rfl (takeSelectScenario_loading (s := s.frameEnded .portC (.selectScenario index)) hl _ index)
  · exact exec_answered (r := .selectScenario index) rfl h rfl rfl (takeSelectScenario_invalid (s := s.frameEnded .portC (.selectScenario index)) hl hi _)
  · refine ⟨_, (exec_delivered (r := .selectScenario index) rfl h rfl rfl).trans
      (congrArg Host.Outcome.next (takeSelectScenario_valid (s := s.frameEnded .portC (.selectScenario index)) hl hi _)), rfl, ?_⟩
    exact portAfter_answered s _ _ .portC (.selectScenario index) .ok .selectScenario _ rfl rfl
  · exact exec_answered (r := .setCap chain value) rfl h rfl rfl (takeSetCap_loading (s := s.frameEnded .portC (.setCap chain value)) hl _ chain value)
  · exact exec_answered (r := .setCap chain value) rfl h rfl rfl
      (takeSetCap_invalid (s := s.frameEnded .portC (.setCap chain value)) hl (hv.imp chainOfByte_none capOfWire_none) _)
  · refine ⟨_, storedCap (s.pst.chainParams.get i).cmax cap, (exec_delivered (r := .setCap chain value) rfl h rfl rfl).trans
      (congrArg Host.Outcome.next (takeSetCap_valid (s := s.frameEnded .portC (.setCap chain value)) hl hc hv _)), fun x hx => ?_, fun hx => storedCap_of_noCode hx _, rfl, ?_⟩
    · rw [hx]
      rfl
    · exact portAfter_answered s _ _ .portC (.setCap chain value) .ok .setCap _ rfl rfl

/-! ### Flushes (R33, R34) -/

/-- A chain whose queue is flushed, each entry counted. -/
def flushedChain (c : BauChain) : BauChain :=
  { c with
    queue := []
    counters := { c.counters with flushed := satAdd16 c.counters.flushed c.queue.length } }

theorem flushOn_eq (sh : BauShared) (i : Chain) (c : BauChain) : flushOn sh i c = ⟨flushedChain c, []⟩ := rfl

theorem runChain_flushOn (s : State) (i : Chain) :
    s.runChain i flushOn =
      { s with bau := { s.bau with chains := s.bau.chains.set i (flushedChain (s.bau.chains.get i)) } } := by
  simp [State.runChain_frame, flushOn_eq]

/-- With no close notice held the BAU takes an event at once (R29). -/
theorem bauReceive_taken {s : State} (h : s.bau.closeNotice = none) (e : BauEvent) : bauReceive e s = bauTake s e := by
  simp [bauReceive, h]

/-! ### SET_OWNER (R144, R145) -/

theorem takeSetOwner_loading {s : State} (h : s.isLoading = true) (p : Port) (chain owner : Byte) :
    takeSetOwner p chain owner s = s.answer p .busy Kind.setOwner.value [] := by
  simp [takeSetOwner, h]

theorem takeSetOwner_invalid {s : State} (h : s.isLoading = false) {chain owner : Byte}
    (hv : chainOfByte chain = none ∨ ownerOfByte owner = none) (p : Port) :
    takeSetOwner p chain owner s = s.answer p .badValue Kind.setOwner.value [] := by
  rcases hv with hv | hv
  · simp [takeSetOwner, h, hv]
  · cases hc : chainOfByte chain <;> simp [takeSetOwner, h, hv, hc]

theorem takeSetOwner_valid {s : State} (h : s.isLoading = false) {chain owner : Byte} {i : Chain} {o : Owner}
    (hc : chainOfByte chain = some i) (ho : ownerOfByte owner = some o) (p : Port) :
    takeSetOwner p chain owner s = (setOwner i o s).answer p .ok Kind.setOwner.value [chain, owner] := by
  simp [takeSetOwner, h, hc, ho]

/-- With no close notice held the flush of a SET_OWNER is taken with it. -/
theorem setOwner_eq {s : State} (h : s.bau.closeNotice = none) (i : Chain) (o : Owner) :
    setOwner i o s =
      { s with
        pst := { s.pst with owners := s.pst.owners.set i o }
        bau := { s.bau with chains := s.bau.chains.set i (flushedChain (s.bau.chains.get i)) }
        notices := s.notices ++ clearRequest s i o } := by
  rw [setOwner, bauReceive_taken (by exact h)]
  exact runChain_flushOn _ i

theorem clearRequest_eq (s : State) (i : Chain) (o : Owner) :
    clearRequest s i o =
      if s.pst.owners.get i ≠ o ∧ (s.bau.chains.get i).enforced = true
      then [.enforcementClearRequest i s.bau.shared.epoch] else [] := by
  simp [clearRequest]

/-- Settles O13: the outcomes of `takeSetOwner`, and for the accepted one `setOwner_eq`. -/
theorem setOwnerReplacesTheOwnerAndFlushes : Obligations.SetOwnerReplacesTheOwnerAndFlushes := by
  refine fun chain owner s h => ⟨fun hl => ?_, fun hl hv => ?_, fun hl hn i o hc ho => ?_⟩
  · exact exec_answered (r := .setOwner chain owner) rfl h rfl rfl (takeSetOwner_loading (s := s.frameEnded .portC (.setOwner chain owner)) hl _ chain owner)
  · exact exec_answered (r := .setOwner chain owner) rfl h rfl rfl
      (takeSetOwner_invalid (s := s.frameEnded .portC (.setOwner chain owner)) hl (hv.imp chainOfByte_none ownerOfByte_none) _)
  · have hdeliver : deliver .portC (.setOwner chain owner) s.pins.strap (s.frameEnded .portC (.setOwner chain owner)) =
        _ := takeSetOwner_valid (s := s.frameEnded .portC (.setOwner chain owner)) hl hc ho .portC
    rw [setOwner_eq (s := s.frameEnded .portC (.setOwner chain owner)) hn] at hdeliver
    refine ⟨_, (exec_delivered (r := .setOwner chain owner) rfl h rfl rfl).trans (congrArg Host.Outcome.next hdeliver),
      ?_, ?_, otherChainsStand_of_runChain s _ i flushOn rfl, PerChain.get_set_self _ i _⟩
    · exact portAfter_answered s _ _ .portC (.setOwner chain owner) .ok .setOwner _ rfl rfl
    · rw [← clearRequest_eq]
      rfl

end Sys2Proof.Machine

/-! The port reset, and the epoch close and the start-up delivery at the policy store (R34, R139 to R141, R146, R158,
R175). -/

namespace Sys2Proof.Machine

/-! ### PORT_RESET (R34, R158, R168) -/

/-- With no close notice held a chain is flushed at once, if the port owns it. -/
theorem flushOwned_eq {s : State} (h : s.bau.closeNotice = none) (p : Port) (i : Chain) :
    flushOwned p s i =
      if s.owns p i then
        { s with bau := { s.bau with chains := s.bau.chains.set i (flushedChain (s.bau.chains.get i)) } }
      else s := by
  rw [flushOwned, bauReceive_taken h]
  exact congrArg (fun x => if s.owns p i then x else s) (runChain_flushOn s i)

/-- The flush of one chain, seen from any chain: only the chains of the BAU change. -/
theorem flushOwned_spec {s : State} (h : s.bau.closeNotice = none) (p : Port) (i : Chain) :
    (flushOwned p s i).bau = { s.bau with chains := (flushOwned p s i).bau.chains } ∧
      ∀ j, (flushOwned p s i).bau.chains.get j =
        if j = i ∧ s.owns p j = true then flushedChain (s.bau.chains.get j) else s.bau.chains.get j := by
  rw [flushOwned_eq h]
  split
  case isTrue hown =>
    refine ⟨rfl, fun j => (PerChain.get_set _ i j _).trans ?_⟩
    by_cases hj : j = i
    · subst hj
      rw [if_pos rfl, if_pos ⟨rfl, hown⟩]
    · rw [if_neg hj, if_neg fun hc => hj hc.1]
  case isFalse hown =>
    refine ⟨rfl, fun j => (if_neg ?_).symm⟩
    rintro ⟨rfl, hj⟩
    exact hown hj

/-- The flushes of several chains, each named once. -/
theorem flushOwnedAll_spec (p : Port) (is : List Chain) (hnodup : is.Nodup) (s : State)
    (h : s.bau.closeNotice = none) :
    (is.foldl (flushOwned p) s).bau = { s.bau with chains := (is.foldl (flushOwned p) s).bau.chains } ∧
      ∀ j, (is.foldl (flushOwned p) s).bau.chains.get j =
        if j ∈ is ∧ s.owns p j = true then flushedChain (s.bau.chains.get j) else s.bau.chains.get j := by
  induction is generalizing s with
  | nil => exact ⟨rfl, fun j => by simp⟩
  | cons i is ih =>
    obtain ⟨hi, his⟩ := List.nodup_cons.1 hnodup
    obtain ⟨hbau, hchain⟩ := flushOwned_spec h p i
    have hclose : (flushOwned p s i).bau.closeNotice = none := by rw [hbau]; exact h
    have howns : ∀ j, (flushOwned p s i).owns p j = s.owns p j := fun j => by simp [State.owns]
    obtain ⟨hbau', hchain'⟩ := ih his (flushOwned p s i) hclose
    refine ⟨?_, fun j => ?_⟩
    · rw [List.foldl_cons, hbau', hbau]
    · rw [List.foldl_cons, hchain' j, hchain j, howns]
      by_cases hj : j = i
      · subst hj
        simp [hi]
      · simp [hj]

/-- The chains of the BAU after a PORT_RESET: those the port owns are flushed. -/
theorem takePortReset_bau {s : State} (h : s.bau.closeNotice = none) (p : Port) :
    (takePortReset p s).bau = { s.bau with chains := (takePortReset p s).bau.chains } ∧
      ∀ i, (takePortReset p s).bau.chains.get i =
        if s.owns p i then flushedChain (s.bau.chains.get i) else s.bau.chains.get i := by
  obtain ⟨hbau, hchains⟩ :=
    flushOwnedAll_spec p Chain.all (by decide) (emptyPending p (s.setSlot p .empty)) h
  refine ⟨hbau, fun i => (hchains i).trans ?_⟩
  have howns : (emptyPending p (s.setSlot p .empty)).owns p i = s.owns p i := rfl
  simp only [howns, Chain.mem_all, true_and]
  rfl

/-- A flush that is ordered concerns the BAU only. -/
theorem flushOwned_frame (p : Port) (s : State) (i : Chain) :
    flushOwned p s i = { s with bau := (flushOwned p s i).bau } := by
  unfold flushOwned
  split
  · rw [bauReceive_frame, bauReceive_flush_ports, bauReceive_flush_notices]
  · rfl

theorem flushOwnedAll_frame (p : Port) (is : List Chain) (s : State) :
    is.foldl (flushOwned p) s = { s with bau := (is.foldl (flushOwned p) s).bau } := by
  induction is generalizing s with
  | nil => rfl
  | cons i is ih => rw [List.foldl_cons, ih, flushOwned_frame]

theorem takePortReset_frame (p : Port) (s : State) :
    takePortReset p s =
      { s with
        ports := s.ports.set p { s.ports.get p with slot := .empty }
        evr := s.evr.setPending p PendingSet.empty
        bau := (takePortReset p s).bau } :=
  flushOwnedAll_frame p Chain.all (emptyPending p (s.setSlot p .empty))

theorem empty_get (k : EventClass) : PendingSet.empty.get k = none := PerClass.get_build _ k

/-- Settles O14: what `takePortReset` makes of slot, pending set and chains. -/
theorem portResetActsOnOnePort : Obligations.PortResetActsOnOnePort := by
  intro p s h hn
  have hexec := exec_delivered (c := .portReset p) (r := .portReset) rfl h rfl (by cases p <;> rfl)
  have hframe := takePortReset_frame p (s.frameEnded p .portReset)
  obtain ⟨hbau, hchains⟩ := takePortReset_bau (s := s.frameEnded p .portReset) hn p
  obtain ⟨hset, hirq⟩ := setPending_self s.evr p PendingSet.empty
  refine ⟨_, hexec.trans (congrArg Host.Outcome.next hframe), rfl, portAfter_setSlot s p (requestBytes .portReset) _ _ ?_,
    rfl, fun k => ?_, hirq, fun q hq => setPending_other s.evr hq _, hbau, hchains⟩
  · simp [State.frameEnded_eq]
  · exact (congrArg (·.get k) hset).trans (empty_get k)

/-! ### Limits (R136) -/

/-- The clamps of R136, group by group. -/
theorem clampLimits_get (aMax : PerGroup Code) (r : ScenarioRecord) (g : Group) :
    (clampLimits aMax r).get g = clampGroup (aMax.get g) (r.limits.get g) := PerGroup.get_build _ g

/-! ### Applying a scenario (R140) -/

/-- The caps of an applied record: its default caps, clamped to each chain's cmax. -/
theorem applyScenario_caps (p : Pst) (j : Nat) (i : Chain) :
    (p.applyScenario j).caps.get i = defaultCap (p.chainParams.get i).cmax ((p.record j).defaultCaps.get i) :=
  PerChain.get_build _ i

/-- A default cap with the clamp written out. -/
theorem defaultCap_eq (cmax : Code) (o : Option Code) :
    defaultCap cmax o = match o with
      | none => .uncapped
      | some x => .code (if x.toNat ≤ cmax.toNat then x else cmax) := by
  cases o <;> rfl

/-! ### A close with no staged profile (R139) -/

theorem takePstClose_unstaged {s : State} (h : readyProfile s.pld = none) : takePstClose s = s.runPst (pstClose none) := by
  simp [takePstClose, h]

theorem takePstClose_staged {s : State} {x : Sections} (h : readyProfile s.pld = some x) :
    takePstClose s = (s.runPst (pstClose (some x))).runPld (profileTaken x) := by
  simp [takePstClose, h]

/-- With no index pending a close changes nothing and sends the two answers. -/
theorem pstClose_idle {p : Pst} (h : p.pendingIndex = none) :
    pstClose none p =
      ⟨p, [.policyAnswer { scenario := p.active, limits := p.limits, map := none }, .bauCloseAnswer none]⟩ := by
  simp [pstClose, closeNotices, Pst.afterClose, Pst.closeIndex, Pst.applyIndex, Pst.settle, h, optionally, Pst.answer,
    appliedLimits]

/-- With an index pending a close applies its scenario. -/
theorem pstClose_pending {p : Pst} {j : Nat} (h : p.pendingIndex = some j) :
    pstClose none p =
      ⟨p.applyScenario j, [raiseBare .scenario,
        .policyAnswer { scenario := j, limits := clampLimits p.aMax (p.record j), map := none }, .bauCloseAnswer none,
        .scenarioDelivery (p.record j).weights (p.applyScenario j).caps]⟩ := by
  simp [pstClose, closeNotices, Pst.afterClose, Pst.closeIndex, Pst.applyIndex, Pst.settle, h, optionally, Pst.answer,
    appliedLimits, Pst.scenarioNotice, Pst.applyScenario]

/-- The policy store's part of a step, with what it makes and sends. -/
theorem runPst_eq {s : State} {f : Pst → Eff Pst} {p : Pst} {sent : List Instr} (h : f s.pst = ⟨p, sent⟩) :
    s.runPst f = { s with pst := p, notices := s.notices ++ sent } := by
  rw [State.runPst, h]

/-- A close notice at the policy store with no staged profile. -/
theorem exec_pstClose_unstaged {s : State} (h : readyProfile s.pld = none) {p : Pst} {sent : List Instr}
    (hp : pstClose none s.pst = ⟨p, sent⟩) (n : CloseNotice) :
    exec (.pstCloseNotice n) s =
      .next { s with pst := p, notices := s.notices.erase (.pstCloseNotice n) ++ sent } :=
  congrArg Host.Outcome.next
    ((takePstClose_unstaged (s := s.takeNotice (.pstCloseNotice n)) h).trans
      (runPst_eq (s := s.takeNotice (.pstCloseNotice n)) hp))

/-- Settles O15: a close with no staged profile is `pstClose_idle` or `pstClose_pending`. -/
theorem closeWithoutAProfile : Obligations.CloseWithoutAProfile := by
  refine ⟨fun aMax r g => ?_, fun n s h => ⟨fun hp => ?_, fun j r hp hr => ?_⟩⟩
  · rw [clampLimits_get]
    exact ⟨minCode_toNat _ _, minCode_toNat _ _, rfl⟩
  · exact ⟨_, exec_pstClose_unstaged h (pstClose_idle hp) n, rfl⟩
  · have hclose := pstClose_pending hp
    have hlimits : (s.pst.applyScenario j).limits = clampLimits s.pst.aMax (s.pst.record j) := rfl
    have hweights : (s.pst.applyScenario j).weights = (s.pst.record j).weights := rfl
    have hcaps := applyScenario_caps s.pst j
    rw [record_of_getElem hr] at hclose hlimits hweights hcaps
    refine ⟨_, exec_pstClose_unstaged h hclose n, rfl, ?_, fun i => (hcaps i).trans (defaultCap_eq _ _)⟩
    rw [← hlimits, ← hweights]
    rfl

/-! ### A close with a staged profile (R141, R175) -/

/-- What taking a profile's sections leaves as it is. -/
theorem takeSections_frame (p : Pst) (x : Sections) :
    (p.takeSections x).active = p.active ∧ (p.takeSections x).pendingIndex = p.pendingIndex ∧
      (p.takeSections x).owners = p.owners ∧ (p.takeSections x).caps = p.caps ∧
      (p.takeSections x).weights = p.weights := by
  cases hl : x.limits <;> simp [Pst.takeSections, Pst.takeLimits, hl]

/-- The maxima, table and zones after taking a profile's sections. -/
theorem takeSections_values (p : Pst) (x : Sections) :
    (p.takeSections x).aMax = (x.limits.map (·.aMax)).getD p.aMax ∧
      (p.takeSections x).table = x.scenarios.getD p.table ∧
      (p.takeSections x).chainZone = (x.thermal.map (·.chainZone)).getD p.chainZone := by
  cases hl : x.limits <;> simp [Pst.takeSections, Pst.takeLimits, hl]

/-- With no LIMITS section chain parameters and limits stand. -/
theorem takeSections_noLimits (p : Pst) {x : Sections} (h : x.limits = none) :
    (p.takeSections x).chainParams = p.chainParams ∧ (p.takeSections x).limits = p.limits := by
  simp [Pst.takeSections, h]

/-- With a LIMITS section they are those of the section. -/
theorem takeSections_limits (p : Pst) {x : Sections} {l : LimitsSection} (h : x.limits = some l) :
    (p.takeSections x).chainParams = sectionChains l ∧
      (p.takeSections x).limits = clampLimits l.aMax (p.record p.active) := by
  simp [Pst.takeSections, Pst.takeLimits, h]

/-- Settling the scenario leaves all but what an applied record replaces. -/
theorem settle_frame (p : Pst) (j : Option Nat) :
    (p.settle j).owners = p.owners ∧ (p.settle j).aMax = p.aMax ∧ (p.settle j).table = p.table ∧
      (p.settle j).chainZone = p.chainZone ∧ (p.settle j).chainParams = p.chainParams ∧
      (p.settle j).active = j.getD p.active := by
  cases j <;> simp [Pst.settle, Pst.applyScenario]

/-- The index that a close with a table applies (R141). -/
def reappliedIndex (p : Pst) (tab : List ScenarioRecord) : Nat :=
  match p.pendingIndex with
  | some j => if j < tab.length then j else if p.active < tab.length then p.active else 0
  | none => if p.active < tab.length then p.active else 0

/-- A close that brings a table always applies an index; one that does not applies the pending one (R141). -/
theorem closeIndex_eq (p : Pst) (x : Sections) :
    p.closeIndex (some x) =
      match x.scenarios with
      | some tab => some (reappliedIndex p tab)
      | none => p.pendingIndex := by
  obtain ⟨hactive, hpending, -⟩ := takeSections_frame p x
  obtain ⟨-, htable, -⟩ := takeSections_values p x
  cases hx : x.scenarios with
  | none => simp [Pst.closeIndex, Pst.applyIndex, hx, hpending]
  | some tab =>
    cases hp : p.pendingIndex with
    | none => simp [Pst.closeIndex, Pst.applyIndex, Pst.reapplied, reappliedIndex, hx, hp, htable, hactive, hpending]
    | some j =>
      simp only [Pst.closeIndex, Pst.applyIndex, Pst.reapplied, reappliedIndex, hx, hp, htable, hactive, hpending,
        Option.isSome_some, Option.getD_some]
      split <;> rfl

theorem afterClose_staged (p : Pst) (x : Sections) :
    p.afterClose (some x) = (p.takeSections x).settle (p.closeIndex (some x)) := rfl

theorem optionally_eq {α : Type} (f : α → Instr) (o : Option α) : optionally f o = o.toList.map f := by
  cases o <;> rfl

/-- A close notice at the policy store with a staged profile. -/
theorem exec_pstClose_staged {s : State} {x : Sections} (hs : s.pld.state = .staged) (hx : s.pld.staged = some x)
    (n : CloseNotice) :
    exec (.pstCloseNotice n) s =
      .next { s with
        pst := s.pst.afterClose (some x)
        pld := (profileTaken x s.pld).val
        notices := s.notices.erase (.pstCloseNotice n) ++ closeNotices (some x) s.pst ++ [raiseBare .profile] } := by
  have hready : readyProfile (s.takeNotice (.pstCloseNotice n)).pld = some x := by simp [readyProfile, hs, hx]
  exact congrArg Host.Outcome.next (takePstClose_staged hready)

/-- Whether a close with a staged profile applies an index. -/
theorem closeIndex_isSome (p : Pst) (x : Sections) :
    (p.closeIndex (some x)).isSome = (x.scenarios.isSome || p.pendingIndex.isSome) := by
  rw [closeIndex_eq]
  cases x.scenarios <;> simp

/-- The policy store after a close that applies an index. -/
theorem afterClose_applied {p : Pst} {x : Sections} {j : Nat} (h : p.closeIndex (some x) = some j) :
    p.afterClose (some x) = (p.takeSections x).applyScenario j := by
  rw [afterClose_staged, h]
  rfl

/-- The policy store after a close that applies none. -/
theorem afterClose_unapplied {p : Pst} {x : Sections} (h : p.closeIndex (some x) = none) :
    p.afterClose (some x) = p.takeSections x := by
  rw [afterClose_staged, h]
  rfl

/-- No index is pending after a close. -/
theorem afterClose_pendingIndex (p : Pst) (x : Sections) : (p.afterClose (some x)).pendingIndex = none := by
  cases h : p.closeIndex (some x) with
  | some j => rw [afterClose_applied h]; rfl
  | none =>
    obtain ⟨-, hpending, -⟩ := takeSections_frame p x
    have hnone : p.pendingIndex = none := by
      have hsome := closeIndex_isSome p x
      rw [h] at hsome
      cases hp : p.pendingIndex <;> simp [hp] at hsome ⊢
    rw [afterClose_unapplied h, hpending, hnone]

/-- The limits after a close that applies an index, or brings a LIMITS section, are the active record's. -/
theorem afterClose_limits {p : Pst} {x : Sections} {r : ScenarioRecord}
    (hr : (p.afterClose (some x)).table[(p.afterClose (some x)).active]? = some r)
    (h : (p.closeIndex (some x)).isSome ∨ x.limits.isSome) :
    (p.afterClose (some x)).limits = clampLimits (p.afterClose (some x)).aMax r := by
  cases hj : p.closeIndex (some x) with
  | some j =>
    rw [afterClose_applied hj] at hr ⊢
    have hrec : (p.takeSections x).record j = r := record_of_getElem hr
    rw [← hrec]
    rfl
  | none =>
    rw [hj] at h
    obtain ⟨l, hl⟩ := Option.isSome_iff_exists.1 (h.resolve_left (by simp))
    obtain ⟨hactive, -⟩ := takeSections_frame p x
    obtain ⟨hmax, htable, -⟩ := takeSections_values p x
    obtain ⟨-, hlimits⟩ := takeSections_limits p hl
    have hscenarios : x.scenarios = none := by
      have hsome := closeIndex_isSome p x
      rw [hj] at hsome
      cases hx : x.scenarios <;> simp [hx] at hsome ⊢
    rw [afterClose_unapplied hj, htable, hscenarios, hactive] at hr
    rw [afterClose_unapplied hj, hmax, hlimits, record_of_getElem hr, hl]
    rfl

/-- Weights and caps after a close that applies an index are the active record's. -/
theorem afterClose_weights {p : Pst} {x : Sections} {r : ScenarioRecord}
    (hr : (p.afterClose (some x)).table[(p.afterClose (some x)).active]? = some r)
    (h : (p.closeIndex (some x)).isSome) :
    (p.afterClose (some x)).weights = r.weights ∧ ∀ i, (p.afterClose (some x)).caps.get i =
      defaultCap ((p.afterClose (some x)).chainParams.get i).cmax (r.defaultCaps.get i) := by
  obtain ⟨j, hj⟩ := Option.isSome_iff_exists.1 h
  rw [afterClose_applied hj] at hr ⊢
  have hrec : (p.takeSections x).record j = r := record_of_getElem hr
  rw [← hrec]
  exact ⟨rfl, applyScenario_caps _ j⟩

/-- What a close with a staged profile sends, in its order (log 25). -/
theorem closeNotices_staged (p : Pst) (x : Sections) :
    closeNotices (some x) p =
      (if x.scenarios.isSome || p.pendingIndex.isSome then [raiseBare .scenario] else []) ++
        [.policyAnswer ((p.afterClose (some x)).answer (x.limits.map sectionMap)),
          .bauCloseAnswer (x.limits.map sectionBau), (p.afterClose (some x)).profileNotice] ++
        (if x.scenarios.isSome || p.pendingIndex.isSome then [(p.afterClose (some x)).scenarioNotice] else []) ++
        (x.thermal.toList.map .thermalDelivery ++ x.overload.toList.map .overloadDelivery ++
          x.routing.toList.map .routingDelivery) := by
  have happlied := closeIndex_isSome p x
  rw [← happlied]
  cases h : p.closeIndex (some x) <;> simp [closeNotices, optionally_eq, appliedLimits, sectionNotices, h]

/-- Settles O16: the fields after `takeSections` and `settle`, limits, weights and caps by the index applied, and the
notices of `closeNotices_staged`. -/
theorem closeAppliesAStagedProfile : Obligations.CloseAppliesAStagedProfile := by
  intro n s x hs hx
  have hclose := afterClose_staged s.pst x
  obtain ⟨howners, hmax, htable, hzone, hparams, hactive⟩ := settle_frame (s.pst.takeSections x) (s.pst.closeIndex (some x))
  obtain ⟨hsActive, -, hsOwners, hsCaps, hsWeights⟩ := takeSections_frame s.pst x
  obtain ⟨hsMax, hsTable, hsZone⟩ := takeSections_values s.pst x
  have hindex := closeIndex_eq s.pst x
  have happlied := closeIndex_isSome s.pst x
  rw [← hclose] at howners hmax htable hzone hparams hactive
  refine ⟨_, exec_pstClose_staged hs hx n, rfl, rfl, howners.trans hsOwners, hmax.trans hsMax, htable.trans hsTable,
    fun i => congrArg (·.get i) (hzone.trans hsZone), fun l hl i => ?_, fun hl => ?_, fun tab htab => ?_, fun hn => ?_,
    fun hn hp => ?_, fun hn hp hl => ?_, fun r hr => ⟨fun h => ?_, fun h => ?_⟩, ?_⟩
  · obtain ⟨hchains, -⟩ := takeSections_limits s.pst hl
    exact (congrArg (·.get i) (hparams.trans hchains)).trans (PerChain.get_build _ i)
  · exact hparams.trans (takeSections_noLimits s.pst hl).1
  · rw [htab] at hindex
    rw [hindex] at hactive
    exact ⟨afterClose_pendingIndex s.pst x, hactive⟩
  · rw [hn] at hindex
    rw [hindex, hsActive] at hactive
    exact ⟨afterClose_pendingIndex s.pst x, hactive⟩
  · rw [hn, hp] at hindex
    exact ⟨(congrArg Pst.caps (afterClose_unapplied hindex)).trans hsCaps,
      (congrArg Pst.weights (afterClose_unapplied hindex)).trans hsWeights⟩
  · rw [hn, hp] at hindex
    exact (congrArg Pst.limits (afterClose_unapplied hindex)).trans (takeSections_noLimits s.pst hl).2
  · exact afterClose_limits hr (by rw [happlied]; simpa [or_assoc] using h)
  · obtain ⟨hw, hcaps⟩ := afterClose_weights hr (by rw [happlied]; simpa using h)
    exact ⟨hw, fun i => (hcaps i).trans (defaultCap_eq _ _)⟩
  · simp only [closeNotices_staged, List.append_assoc]
    rfl

/-! ### The start-up delivery (R146) -/

/-- The policy store with entry 0 of a delivery applied. -/
theorem started_record {d : PolicyDelivery} {r : ScenarioRecord} (h : d.scenarios[0]? = some r) (p : Pst) :
    (p.started d).limits = clampLimits d.limits.aMax r ∧ (p.started d).weights = r.weights ∧
      ∀ i, (p.started d).caps.get i = defaultCap (d.limits.chains.get i).cmax (r.defaultCaps.get i) := by
  have hrec : (p.started d).record 0 = r := record_of_getElem h
  rw [← hrec]
  refine ⟨rfl, rfl, fun i => (applyScenario_caps _ 0 i).trans ?_⟩
  exact congrArg (fun c : ChainParams => defaultCap c.cmax (((p.started d).record 0).defaultCaps.get i))
    (PerChain.get_build _ i)

theorem sectionChains_get (l : LimitsSection) (i : Chain) :
    (sectionChains l).get i =
      { cmax := (l.chains.get i).cmax, k := (l.chains.get i).k, group := (l.chains.get i).group } :=
  PerChain.get_build _ i

theorem sectionOwners_get (l : LimitsSection) (i : Chain) : (sectionOwners l).get i = (l.chains.get i).owner :=
  PerChain.get_build _ i

theorem started_profileNotice (p : Pst) (d : PolicyDelivery) :
    (p.started d).profileNotice =
      .profileDelivery (PerChain.build fun i =>
        { cmax := (d.limits.chains.get i).cmax
          k := (d.limits.chains.get i).k
          group := (d.limits.chains.get i).group
          zone := d.zones.get i }) := rfl

/-- Settles O17: the delivery's values, with entry 0 applied by `started_record`. -/
theorem startupDeliveryAppliesEntryZero : Obligations.StartupDeliveryAppliesEntryZero := by
  intro d s r hr
  obtain ⟨hlimits, hweights, hcaps⟩ := started_record hr s.pst
  refine ⟨_, rfl, rfl, rfl, rfl, rfl, rfl, hlimits, hweights, fun i => (hcaps i).trans (defaultCap_eq _ _), fun _ => rfl,
    fun i => ⟨sectionOwners_get d.limits i, sectionChains_get d.limits i⟩, ?_⟩
  rw [← hlimits, ← hweights, ← started_profileNotice s.pst]
  rfl

end Sys2Proof.Machine

/-! The profile loader: requests, transfers, the start-up load and reloads (R169 to R177). -/

namespace Sys2Proof.Machine

/-! ### LOAD_PROFILE and FLASH_XFER (R173, R176, R177) -/

theorem takeLoadProfile_idle {s : State} (h : s.pld.state = .idle) (p : Port) :
    takeLoadProfile p s =
      ({ s with pld := { s.pld with state := .reloading, loadPort := some p } }).setSlot p
        (.pending Kind.loadProfile.value) := by
  simp [takeLoadProfile, h]

theorem takeLoadProfile_busy {s : State} (h : s.pld.state ≠ .idle) (p : Port) :
    takeLoadProfile p s = s.answer p .busy Kind.loadProfile.value [] := by
  simp [takeLoadProfile, h]

/-- The fields the loader checks lie in their ranges (R176). -/
theorem xferFieldsOk_iff (x : XferRequest) :
    xferFieldsOk x = true ↔ x.addressMode.toNat ≤ 1 ∧ x.dummy.toNat ≤ 15 ∧ x.direction.toNat ≤ 1 := by
  simp [xferFieldsOk, inRange, and_assoc]

theorem takeFlashXfer_busy {s : State} (h : s.pld.state ≠ .idle) (p : Port) (x : XferRequest) (strap : Bool) :
    takeFlashXfer p x strap s =
      (s.setPins { s.pins with strap := strap }).answer p .busy Kind.flashXfer.value [] := by
  simp [takeFlashXfer, h]

theorem takeFlashXfer_badValue {s : State} (h : s.pld.state = .idle) {x : XferRequest} (hx : xferFieldsOk x = false)
    (p : Port) (strap : Bool) :
    takeFlashXfer p x strap s =
      (s.setPins { s.pins with strap := strap }).answer p .badValue Kind.flashXfer.value [] := by
  simp [takeFlashXfer, h, hx]

theorem takeFlashXfer_protected {s : State} (h : s.pld.state = .idle) {x : XferRequest} (hx : xferFieldsOk x = true)
    (hg : isGuarded s.pld.protectedEnd s.pld.guardedList x = true) (p : Port) :
    takeFlashXfer p x false s =
      (s.setPins { s.pins with strap := false }).answer p .isProtected Kind.flashXfer.value [] := by
  simp [takeFlashXfer, h, hx, hg]

theorem takeFlashXfer_started {s : State} (h : s.pld.state = .idle) {x : XferRequest} (hx : xferFieldsOk x = true)
    {strap : Bool} (hg : isGuarded s.pld.protectedEnd s.pld.guardedList x = true → strap = true) (p : Port) :
    takeFlashXfer p x strap s = startTransfer p x (s.setPins { s.pins with strap := strap }) := by
  cases hs : strap with
  | true => simp [takeFlashXfer, h, hx]
  | false =>
    have hfree : isGuarded s.pld.protectedEnd s.pld.guardedList x = false :=
      Bool.eq_false_iff.2 fun hc => Bool.false_ne_true (hs.symm.trans (hg hc))
    simp [takeFlashXfer, h, hx, hfree]

/-- A FLASH_XFER on port C with a right length and a slot not PENDING reaches the loader. -/
theorem exec_flashXfer {s : State} {x : XferRequest} {strap : Bool} (h : StartsFree s .portC)
    (hl : requestLengthOk (.flashXfer x) = true) {t : State}
    (ht : takeFlashXfer .portC x strap (s.frameEnded .portC (.flashXfer x)) = t) :
    exec (.flashXfer .portC x strap) s = .next t :=
  (exec_delivered (c := .flashXfer .portC x strap) (r := .flashXfer x) rfl h hl rfl).trans
    (congrArg Host.Outcome.next ht)

/-- Settles O18: the outcomes of `takeLoadProfile` and `takeFlashXfer`. -/
theorem loaderTakesRequestsOnlyInIdle : Obligations.LoaderTakesRequestsOnlyInIdle := by
  refine ⟨fun s x strap h hl => ⟨fun hi => ?_, fun hi => ?_, fun hi => ?_, fun hi ha hd hdir hg => ?_⟩,
    fun s x strap h hl hi => ⟨fun hbad => ?_, fun ha hd hdir hstrap hg => ?_⟩⟩
  · refine ⟨_, (exec_delivered (r := .loadProfile) rfl h rfl rfl).trans (congrArg Host.Outcome.next
      (takeLoadProfile_idle (s := s.frameEnded .portC .loadProfile) hi .portC)),
      portAfter_setSlot s .portC (requestBytes .loadProfile) _ _ ?_, rfl⟩
    simp [State.frameEnded_eq]
  · exact exec_answered (r := .loadProfile) rfl h rfl rfl
      (takeLoadProfile_busy (s := s.frameEnded .portC .loadProfile) hi .portC)
  · refine ⟨_, exec_flashXfer h hl (takeFlashXfer_busy (s := s.frameEnded .portC (.flashXfer x)) hi .portC x strap), ?_,
      rfl⟩
    exact portAfter_answered s _ _ .portC (.flashXfer x) .busy .flashXfer _ rfl rfl
  · refine ⟨_, exec_flashXfer h hl (takeFlashXfer_started (s := s.frameEnded .portC (.flashXfer x)) hi
      ((xferFieldsOk_iff x).2 ⟨ha, hd, hdir⟩) hg .portC),
      portAfter_setSlot s .portC (requestBytes (.flashXfer x)) _ _ ?_, rfl⟩
    simp [startTransfer, State.frameEnded_eq]
  · have hfields : xferFieldsOk x = false := Bool.eq_false_iff.2 fun hc => by
      obtain ⟨ha, hd, hdir⟩ := (xferFieldsOk_iff x).1 hc
      omega
    refine ⟨_, exec_flashXfer h hl
      (takeFlashXfer_badValue (s := s.frameEnded .portC (.flashXfer x)) hi hfields .portC strap), ?_, rfl⟩
    exact portAfter_answered s _ _ .portC (.flashXfer x) .badValue .flashXfer _ rfl rfl
  · subst hstrap
    refine ⟨_, exec_flashXfer h hl (takeFlashXfer_protected (s := s.frameEnded .portC (.flashXfer x)) hi
      ((xferFieldsOk_iff x).2 ⟨ha, hd, hdir⟩) hg .portC), ?_, rfl⟩
    exact portAfter_answered s _ _ .portC (.flashXfer x) .isProtected .flashXfer _ rfl rfl

/-! ### Guarded transfers (R177) -/

theorem belowProtected_iff (pe : Nat) (x : XferRequest) : belowProtected pe x = true ↔ x.address.toNat < pe * 4096 :=
  decide_eq_true_iff

theorem isGuarded_iff (pe : Nat) (list : List Byte) (x : XferRequest) :
    isGuarded pe list x = true ↔
      (x.direction = 1 ∧ 0 < x.count.toNat ∧ x.addressMode = 1 ∧ x.address.toNat < pe * 4096) ∨
        (x.command ∈ list ∧ (x.addressMode = 0 ∨ x.address.toNat < pe * 4096)) := by
  simp only [isGuarded, Bool.or_eq_true, Bool.and_eq_true, decide_eq_true_eq, List.contains_iff_mem, belowProtected_iff,
    and_assoc]

/-- A transfer that a step starts: guarded by the loader's own limits, and then under a strap that is high. -/
def StartedUnderStrap (s t : State) : Prop :=
  ∀ tr, t.pld.transfer = some tr →
    tr.guarded = isGuarded s.pld.protectedEnd s.pld.guardedList tr.request ∧ (tr.guarded = true → t.pins.strap = true)

theorem startedUnderStrap_of_none {s t : State} (h : t.pld.transfer = none) : StartedUnderStrap s t := fun tr ht => by
  rw [h] at ht
  cases ht

/-- FLASH_XFER starts a guarded transfer only under a strap that is high. -/
theorem startedUnderStrap_takeFlashXfer {s : State} (h : s.pld.transfer = none) (p : Port) (x : XferRequest)
    (strap : Bool) : StartedUnderStrap s (takeFlashXfer p x strap s) := by
  by_cases hi : s.pld.state = .idle
  · cases hx : xferFieldsOk x with
    | false =>
      rw [takeFlashXfer_badValue hi hx]
      exact startedUnderStrap_of_none h
    | true =>
      by_cases hg : isGuarded s.pld.protectedEnd s.pld.guardedList x = true → strap = true
      · rw [takeFlashXfer_started hi hx hg]
        rintro tr ⟨⟩
        exact ⟨rfl, hg⟩
      · obtain ⟨hguarded, hlow⟩ := Classical.not_imp.1 hg
        rw [Bool.eq_false_iff.2 hlow, takeFlashXfer_protected hi hx hguarded]
        exact startedUnderStrap_of_none h
  · rw [takeFlashXfer_busy hi]
    exact startedUnderStrap_of_none h

/-- Of the requests only FLASH_XFER starts a transfer. -/
theorem startedUnderStrap_deliver {s : State} (h : s.pld.transfer = none) (p : Port) (r : Request) (strap : Bool) :
    StartedUnderStrap s (deliver p r strap s) := by
  cases r
  case flashXfer x => exact startedUnderStrap_takeFlashXfer h p x strap
  case deviceReset => exact startedUnderStrap_of_none rfl
  case loadProfile =>
    by_cases hi : s.pld.state = .idle
    · exact startedUnderStrap_of_none ((congrArg (fun t => t.pld.transfer) (takeLoadProfile_idle hi p)).trans h)
    · exact startedUnderStrap_of_none ((congrArg (fun t => t.pld.transfer) (takeLoadProfile_busy hi p)).trans h)
  all_goals exact startedUnderStrap_of_none (by rw [deliver_pld _ _ _ _ (by simp) (by simp) (by simp), h])

theorem startedUnderStrap_concludeFrame {s u : State} (hu : u.pld = s.pld) (h : s.pld.transfer = none) (p : Port)
    (strap : Bool) (j : Judgement) : StartedUnderStrap s (concludeFrame p strap j u) := by
  have hnone : u.pld.transfer = none := hu ▸ h
  cases j with
  | delivered r =>
    have hdeliver := startedUnderStrap_deliver hnone p r strap
    unfold StartedUnderStrap at hdeliver
    rwa [hu] at hdeliver
  | _ => exact startedUnderStrap_of_none hnone

theorem startedUnderStrap_requestFrame {s : State} (h : s.pld.transfer = none) (p : Port) (r : Request) (strap : Bool) :
    StartedUnderStrap s (requestFrame p r strap s) := by
  rcases requestFrame_cases p r strap s with ⟨e, -⟩ | ⟨e, -⟩ | ⟨e, -⟩ <;> rw [e]
  · exact startedUnderStrap_of_none h
  · exact startedUnderStrap_of_none h
  · exact startedUnderStrap_concludeFrame (u := s.frameEnded p r) rfl h p strap _

theorem startedUnderStrap_selectRise {s : State} (h : s.pld.transfer = none) (p : Port) (bytes : List Byte)
    (part strap : Bool) : StartedUnderStrap s (selectRise p bytes part strap s) := by
  unfold selectRise
  split
  · split
    · exact startedUnderStrap_of_none h
    · unfold endFrame
      split
      · exact startedUnderStrap_of_none h
      · exact startedUnderStrap_concludeFrame (u := s.setPort p _) rfl h p strap _
  · exact startedUnderStrap_of_none h

@[simp] theorem State.enterRun_transfer (s : State) : s.enterRunWhenDelivered.pld.transfer = s.pld.transfer := by
  unfold State.enterRunWhenDelivered
  split <;> rfl

theorem takeStartupEnd_transfer (img : FlashImage) (p : Pld) : (takeStartupEnd img p).val.transfer = p.transfer := by
  unfold takeStartupEnd
  split <;> rfl

theorem takePstClose_transfer (s : State) : (takePstClose s).pld.transfer = s.pld.transfer := by
  unfold takePstClose
  split <;> rfl

theorem takeReloadEnd_transfer (img : FlashImage) (s : State) :
    (takeReloadEnd img s).pld.transfer = s.pld.transfer := by
  unfold takeReloadEnd
  split
  · dsimp only
    rw [answerPending_pld]
    exact (reloadPld_frame _ s.pld).2
  · rfl

theorem startedUnderStrap_exec {c : Instr} {s t : State} (hn : s.pld.transfer = none) (h : exec c s = .next t) :
    StartedUnderStrap s t := by
  cases c <;> obtain rfl := Host.Outcome.next.inj h
  case selectRise => exact startedUnderStrap_selectRise hn _ _ _ _
  case announceNext | announceNow | readCeilings | readStatus | readHistory | readThermal | readEvents | ackEvents |
      poll | portReset | selectScenario | setCap | setOwner | setRoute | loadProfile | flashXfer | deviceReset =>
    exact startedUnderStrap_requestFrame hn _ _ _
  case reset => exact startedUnderStrap_of_none rfl
  case pstCloseNotice => exact startedUnderStrap_of_none ((takePstClose_transfer _).trans hn)
  case startupLoadEnd => exact startedUnderStrap_of_none ((takeStartupEnd_transfer _ _).trans hn)
  case reloadEnd => exact startedUnderStrap_of_none ((takeReloadEnd_transfer _ s).trans hn)
  case transferEnd => exact startedUnderStrap_of_none (by simp [takeTransferEnd, hn])
  case strapFall => exact startedUnderStrap_of_none (by simp [takeStrapFall, hn])
  case scenarioDelivery | profileDelivery | stageTripNotice | levelLockNotice | routingDelivery =>
    exact State.taking_induct (startedUnderStrap_of_none hn) (startedUnderStrap_of_none (by simp [hn]))
  all_goals exact startedUnderStrap_of_none (by simp [hn])

/-- Settles O19: by `isGuarded_iff` and `startedUnderStrap_exec`. -/
theorem guardedTransfersNeedTheStrap : Obligations.GuardedTransfersNeedTheStrap :=
  ⟨isGuarded_iff, fun _ _ _ tr h hn => startedUnderStrap_exec hn h tr⟩

/-! ### The end of a transfer (R176, R177) -/

theorem takeTransferEnd_eq {s : State} {tr : Transfer} (h : s.pld.transfer = some tr) (read : List Byte) :
    takeTransferEnd read s =
      ({ s with pld := endTransfer (xferSequence tr.request) s.pld }).answer tr.port .ok Kind.flashXfer.value
        ([tr.request.count] ++ readBytes tr.request read) := by
  simp [takeTransferEnd, h]

theorem takeStrapFall_guarded {s : State} {tr : Transfer} (h : s.pld.transfer = some tr) (hg : tr.guarded = true)
    (n : Nat) : takeStrapFall n s = abortTransfer tr n s := by
  simp [takeStrapFall, h, hg]

theorem takeStrapFall_unguarded {s : State} {tr : Transfer} (h : s.pld.transfer = some tr) (hg : tr.guarded = false)
    (n : Nat) : takeStrapFall n s = s := by
  simp [takeStrapFall, h, hg]

/-- The bytes an IN transfer answers are those read, as many as it counts. -/
theorem readBytes_in {x : XferRequest} (h : x.direction = 0) (read : List Byte) :
    (readBytes x read).length = x.count.toNat ∧
      ∀ j, j < x.count.toNat → j < read.length → (readBytes x read)[j]? = read[j]? := by
  refine ⟨by simp [readBytes, h], fun j hj hr => ?_⟩
  simp [readBytes, h, hj, hr]

theorem readBytes_out {x : XferRequest} (h : x.direction ≠ 0) (read : List Byte) : readBytes x read = [] :=
  if_neg h

/-- Settles O20: the ends of a transfer are `takeTransferEnd_eq` and `takeStrapFall_guarded`. -/
theorem transfersEndOrAreCut : Obligations.TransfersEndOrAreCut := by
  refine fun s tr htr => ⟨fun read => ?_, fun n hg hn => ?_, fun n hg => ?_⟩
  · refine ⟨_, congrArg Host.Outcome.next (takeTransferEnd_eq htr read), rfl, ?_, fun q hq => ?_,
      readBytes tr.request read, ?_, fun hin => readBytes_in hin read, fun hout => readBytes_out hout read⟩
    · rw [← xferSequence_eq]
      rfl
    · exact State.setPort_ports_of_ne _ tr.port _ hq
    · exact congrArg Cpi.slot (State.setPort_ports_self _ tr.port _)
  · refine ⟨_, congrArg Host.Outcome.next
      (takeStrapFall_guarded (s := s.setPins { s.pins with strap := false }) htr hg n), rfl, ?_, fun q hq => ?_, ?_⟩
    · rw [← xferSequence_eq]
      rfl
    · exact State.setPort_ports_of_ne _ tr.port _ hq
    · rw [← dataShifted_of_le hn]
      exact congrArg Cpi.slot (State.setPort_ports_self _ tr.port _)
  · exact congrArg Host.Outcome.next
      (takeStrapFall_unguarded (s := s.setPins { s.pins with strap := false }) htr hg n)

end Sys2Proof.Machine

/-! The start-up load and the end of a reload (R170 to R174). -/

namespace Sys2Proof.Machine

/-! ### The end of reading at start-up (R172) -/

theorem takeStartupEnd_first {p : Pld} (hs : p.state = .startup) (hr : p.startupResult = none) (img : FlashImage) :
    takeStartupEnd img p = startupEnd img p := by
  simp [takeStartupEnd, hs, hr]

theorem takeStartupEnd_again {p : Pld} (hr : p.startupResult.isSome = true) (img : FlashImage) :
    takeStartupEnd img p = Eff.pure p := by
  obtain ⟨r, hr⟩ := Option.isSome_iff_exists.1 hr
  simp [takeStartupEnd, hr]

/-- The loader's part of a step, with what it makes and sends. -/
theorem runPld_eq {s : State} {f : Pld → Eff Pld} {e : Eff Pld} (h : f s.pld = e) :
    s.runPld f = { s with pld := e.val, notices := s.notices ++ e.out } := by
  rw [State.runPld, h]

/-- An accepted section is the one delivered. -/
theorem getD_accepted {α : Type} {v : Verdict α} {a : α} (h : v = .accepted a) (rom : α) : v.section?.getD rom = a := by
  rw [h]
  rfl

/-- With none accepted the ROM value is delivered. -/
theorem getD_unaccepted {α : Type} {v : Verdict α} (h : ∀ a, v ≠ .accepted a) (rom : α) : v.section?.getD rom = rom := by
  cases v with
  | accepted a => exact absurd rfl (h a)
  | absent => rfl
  | rejected => rfl

/-! ### The entry to RUN (R172) -/

theorem startupDelivered_iff (s : State) :
    s.startupDelivered = true ↔
      s.pld.state = .startup ∧ s.pld.startupResult.isSome = true ∧ ∀ c ∈ s.notices, isStartupDelivery c = false := by
  simp [State.startupDelivered, and_assoc]

/-! ### What is no image (R170) -/

/-- The header's bytes, byte by byte. -/
theorem headerOk_flashRead (img : FlashImage) :
    headerOk (flashRead img 0 6) = true ↔
      flashRead img 0 4 = [0x54, 0x42, 0x33, 0x31] ∧ flashByte img 4 = 1 ∧
        1 ≤ (flashByte img 5).toNat ∧ (flashByte img 5).toNat ≤ 8 := by
  have hmarker : (flashRead img 0 6).take 4 = flashRead img 0 4 := rfl
  have hversion : byteAt (flashRead img 0 6) 4 = flashByte img 4 := rfl
  have hcount : u8 (flashRead img 0 6) 5 = (flashByte img 5).toNat := rfl
  simp only [headerOk, hmarker, hversion, hcount, Bool.and_eq_true, decide_eq_true_eq, inRange_iff, and_assoc]

theorem readImage_wrongHeader {img : FlashImage} (h : flashRead img 0 4 ≠ [0x54, 0x42, 0x33, 0x31] ∨
    flashByte img 4 ≠ 1 ∨ (flashByte img 5).toNat = 0 ∨ 8 < (flashByte img 5).toNat) (inForce : Option Nat) :
    readImage img inForce = noImageRead := by
  have hbad : ¬headerOk (flashRead img 0 6) = true := fun hok => by
    obtain ⟨hmarker, hversion, hlow, hhigh⟩ := (headerOk_flashRead img).1 hok
    rcases h with h | h | h | h
    · exact h hmarker
    · exact h hversion
    · omega
    · omega
  rw [readImage, if_neg hbad]

/-! ### The reads of a load (R170; log 16) -/

/-- The entries that name a section are of the directory, and of a kind that is a section's. -/
theorem namedAfter_subset {seen : List Nat} {d : List DirEntry} {e : DirEntry} (h : e ∈ namedAfter seen d) :
    e ∈ d ∧ 1 ≤ e.kind ∧ e.kind ≤ 5 := by
  induction d generalizing seen with
  | nil => cases h
  | cons x d ih =>
    rw [namedAfter] at h
    split at h
    case isTrue hx =>
      rcases List.mem_cons.1 h with rfl | h
      · rw [Bool.and_eq_true, inRange_iff] at hx
        exact ⟨List.mem_cons_self, hx.1⟩
      · obtain ⟨hd, hk⟩ := ih h
        exact ⟨List.mem_cons_of_mem _ hd, hk⟩
    case isFalse =>
      obtain ⟨hd, hk⟩ := ih h
      exact ⟨List.mem_cons_of_mem _ hd, hk⟩

/-- The first entry of a kind not seen before names its section. -/
theorem mem_namedAfter {seen : List Nat} {d : List DirEntry} {e : DirEntry} {k : Nat}
    (h : entryOf d k = some e) (hk : 1 ≤ k ∧ k ≤ 5) (hseen : k ∉ seen) : e ∈ namedAfter seen d := by
  induction d generalizing seen with
  | nil => cases h
  | cons x d ih =>
    rw [namedAfter]
    by_cases hx : x.kind = k
    · have hex : e = x := by simpa [entryOf, hx] using h.symm
      have hnames : (inRange 1 5 x.kind && !seen.contains x.kind) = true := by
        simp [inRange_iff, hx, hk, hseen]
      rw [if_pos hnames, hex]
      exact List.mem_cons_self
    · have hrest : entryOf d k = some e := by simpa [entryOf, hx] using h
      split
      · exact List.mem_cons_of_mem _ (ih hrest (List.not_mem_cons_of_ne_of_not_mem (Ne.symm hx) hseen))
      · exact ih hrest hseen

/-- Each read shifts out the read command and the offset of an entry. -/
theorem eq_readSequence_of_mem {img : FlashImage} {e : DirEntry} {r : List Byte} (h : r ∈ entryReads img e) :
    r = readSequence e.offset := by
  have hone : ∀ b : Bool, r ∈ (if b then [readSequence e.offset] else []) → r = readSequence e.offset := fun b hb => by
    cases b with
    | true => exact List.mem_singleton.1 hb
    | false => cases hb
  unfold entryReads at h
  split at h
  case h_1 =>
    rcases List.mem_append.1 h with h | h
    · exact List.mem_singleton.1 h
    · split at h
      · exact hone _ h
      · cases h
  case h_6 => cases h
  all_goals exact hone _ h

theorem entryOf_kind {d : List DirEntry} {k : Nat} {e : DirEntry} (h : entryOf d k = some e) : e ∈ d ∧ e.kind = k :=
  ⟨List.mem_of_find?_eq_some h, of_decide_eq_true (List.find?_some (p := fun e : DirEntry => decide (e.kind = k)) h)⟩

/-- An entry of LIMITS with the right length and place is read. -/
theorem readSequence_mem_entryReads {img : FlashImage} {e : DirEntry} (hk : e.kind = 1) (hp : placeOk 34 e = true) :
    readSequence e.offset ∈ entryReads img e := by
  unfold entryReads
  rw [hk]
  simp [hp]

/-- An accepted LIMITS section is that of its kind's first entry. -/
theorem entry_of_accepted {α : Type} {o : Option DirEntry} {judge : DirEntry → Option α} {a : α}
    (h : verdictOf o judge = .accepted a) : ∃ e, o = some e ∧ judge e = some a := by
  unfold verdictOf at h
  split at h
  · cases h
  · split at h
    · cases h
    · cases h
      exact ⟨_, rfl, by assumption⟩

theorem placeOk_of_sectionChecked {img : FlashImage} {e : DirEntry} {n : Nat} (h : SectionChecked img e n) :
    placeOk n e = true := by
  obtain ⟨hlen, hplace, -⟩ := h
  simp [placeOk, hlen, Config.flashBytes]
  omega

/-- The image's reads after header and directory, in the order of the named entries. -/
theorem readImage_bus {img : FlashImage} {inForce : Option Nat} (h : (readImage img inForce).noImage = false) :
    (readImage img inForce).bus =
        [readSequence 0, readSequence 6] ++ (namedEntries (directory img)).flatMap (entryReads img) ∧
      (readImage img inForce).limits = verdictOf (entryOf (directory img) 1) (judgeLimits img inForce) := by
  unfold readImage at h ⊢
  split at h
  case isTrue hok => rw [if_pos hok]; exact ⟨rfl, rfl⟩
  case isFalse => cases h

theorem readImage_bus_noImage {img : FlashImage} {inForce : Option Nat} (h : (readImage img inForce).noImage = true) :
    (readImage img inForce).bus = [readSequence 0] := by
  unfold readImage at h ⊢
  split at h
  case isTrue => cases h
  case isFalse hok => rw [if_neg hok]; rfl

/-- Settles O21: the end of reading by `takeStartupEnd_first`, the entry to RUN by `startupDelivered_iff`, the reads by the
named entries of the directory. -/
theorem startupLoadDeliversAndEntersRun : Obligations.StartupLoadDeliversAndEntersRun := by
  refine ⟨⟨fun img s hs hr => ?_, fun img s hr => ?_, fun s hs hr hn => ?_, fun s h => ?_⟩,
    ⟨by decide +kernel, by decide +kernel, fun img inForce h => readImage_wrongHeader h inForce⟩,
    fun img inForce => ⟨readImage_bus_noImage, fun h => ?_⟩⟩
  · refine ⟨_, startupSet (readImage img none), congrArg Host.Outcome.next (runPld_eq (takeStartupEnd_first hs hr img)), rfl,
      rfl, ?_, rfl, fun _ h => getD_accepted h _, fun h => getD_unaccepted h _, fun _ h => getD_accepted h _,
      fun h => getD_unaccepted h _, fun _ h => getD_accepted h _, fun h => getD_unaccepted h _,
      fun _ h => getD_accepted h _, fun h => getD_unaccepted h _, fun _ h => getD_accepted h _,
      fun h => getD_unaccepted h _, rfl⟩
    exact decide_eq_true hs
  · refine congrArg Host.Outcome.next ((runPld_eq (takeStartupEnd_again hr img)).trans ?_)
    simp
  · rw [State.enterRun_of_delivered ((startupDelivered_iff s).2 ⟨hs, hr, hn⟩)]
    rfl
  · refine State.enterRun_of_not (Bool.eq_false_iff.2 fun hd => ?_)
    obtain ⟨hs, hr, hn⟩ := (startupDelivered_iff s).1 hd
    rcases h with h | h | ⟨c, hc, h⟩
    · exact h hs
    · rw [h] at hr
      cases hr
    · exact Bool.false_ne_true ((hn c hc).symm.trans h)
  · obtain ⟨hbus, hlimits⟩ := readImage_bus h
    refine ⟨_, hbus, fun r hr => ?_, fun l hl => ?_⟩
    · obtain ⟨e, he, hread⟩ := List.mem_flatMap.1 hr
      obtain ⟨hmem, hlow, hhigh⟩ := namedAfter_subset he
      exact ⟨e, hmem, hlow, hhigh, eq_readSequence_of_mem hread⟩
    · obtain ⟨e, he, hjudge⟩ := entry_of_accepted (hlimits.symm.trans hl)
      obtain ⟨hmem, hkind⟩ := entryOf_kind he
      obtain ⟨hchecked, -⟩ := judgeLimits_eq_some.1 hjudge
      exact ⟨e, hmem, hkind, List.mem_flatMap.2 ⟨e, mem_namedAfter he (by omega) List.not_mem_nil,
        readSequence_mem_entryReads hkind (placeOk_of_sectionChecked hchecked)⟩⟩

/-! ### The end of a reload (R173, R174) -/

theorem resultByte_eq (r : SectionResult) : resultByte r = BitVec.ofNat 8 (ResultAt.resultCode r) := by
  cases r <;> rfl

/-- A result record's seven bytes at the start of a list, and after a first record. -/
theorem resultAt_first (r : LoadResult) (rest : List Byte) : ResultAt (resultBytes r ++ rest) 0 r :=
  ⟨bitsAt_boolByte rfl, fieldAt_byte rfl (resultByte_eq _), fieldAt_byte rfl (resultByte_eq _),
    fieldAt_byte rfl (resultByte_eq _), fieldAt_byte rfl (resultByte_eq _), fieldAt_byte rfl (resultByte_eq _),
    bitsAt_boolByte rfl⟩

theorem resultAt_second (q r : LoadResult) : ResultAt (resultBytes q ++ resultBytes r) 7 r :=
  ⟨bitsAt_boolByte rfl, fieldAt_byte rfl (resultByte_eq _), fieldAt_byte rfl (resultByte_eq _),
    fieldAt_byte rfl (resultByte_eq _), fieldAt_byte rfl (resultByte_eq _), fieldAt_byte rfl (resultByte_eq _),
    bitsAt_boolByte rfl⟩

/-- The reload's own record stands first in its answer. -/
theorem reloadPayload_first (p : Pld) (r : ImageRead) :
    ResultAt (reloadPayload p r) 0 (loadResult .absent (holdsT p (acceptedSections r)) r) :=
  resultAt_first _ _

/-- The T of an accepted LIMITS section differs from the one in force. -/
theorem holdsT_acceptedSections (p : Pld) (r : ImageRead) :
    holdsT p (acceptedSections r) = match r.limits with | .accepted l => decide (l.tMs ≠ p.tMs) | _ => false := by
  unfold holdsT acceptedSections
  cases r.limits <;> rfl

/-- The loader after a reload, and what it raises. -/
theorem reloadPld_eq (r : ImageRead) (p : Pld) :
    reloadPld r p =
      ⟨{ p with
          state := if (acceptedSections r).any then .staged else .idle
          staged := if (acceptedSections r).any then some (acceptedSections r) else none
          loadPort := none
          busOut := r.bus },
        if (acceptedSections r).any then [] else [raiseBare .profile]⟩ := by
  unfold reloadPld
  cases (acceptedSections r).any <;> rfl

theorem takeReloadEnd_eq {s : State} {p : Port} (hs : s.pld.state = .reloading) (hp : s.pld.loadPort = some p)
    (img : FlashImage) :
    takeReloadEnd img s =
      (s.runPld (reloadPld (readImage img (some s.pld.protectedEnd)))).answer p .ok Kind.loadProfile.value
        (reloadPayload s.pld (readImage img (some s.pld.protectedEnd))) := by
  simp [takeReloadEnd, hs, hp, answerPending]

/-- Settles O22: the loader by `reloadPld_eq`, the answer by its two result records. -/
theorem reloadStagesOrGivesUp : Obligations.ReloadStagesOrGivesUp := by
  intro img s p hs hp
  have hreload := reloadPld_eq (readImage img (some s.pld.protectedEnd)) s.pld
  refine ⟨_, readImage img (some s.pld.protectedEnd), _, rfl, rfl,
    congrArg Host.Outcome.next (takeReloadEnd_eq hs hp img), rfl, fun q hq => State.setPort_ports_of_ne _ p _ hq,
    congrArg Cpi.slot (State.setPort_ports_self _ p _), reloadPayload_length _ _, ?_, fun z hz => ?_,
    congrArg Eff.val hreload, congrArg (s.notices ++ Eff.out ·) hreload⟩
  · generalize readImage img (some s.pld.protectedEnd) = r
    refine Eq.mp (congrArg (ResultAt _ 0) ?_) (reloadPayload_first s.pld r)
    rw [loadResult, LoadResult.mk.injEq]
    refine ⟨rfl, ?_, ?_, ?_, ?_, ?_, holdsT_acceptedSections _ _⟩
    · cases r.limits <;> rfl
    · cases r.scenarios <;> rfl
    · cases r.thermal <;> rfl
    · cases r.overload <;> rfl
    · cases r.routing <;> rfl
  · unfold reloadPayload
    rw [hz]
    exact resultAt_second _ z

end Sys2Proof.Machine

/-! The supply overload response: rises, step attempts, LOCK, the droop history and the entry to RUN (R122 to R132). -/

namespace Sys2Proof.Machine

/-! ### The droop history (R123) -/

theorem pushStamp_of_room {h : List Stamp} (x : Stamp) (hlen : h.length < 8) : pushStamp h x = h ++ [x] := by
  have hzero : h.length + 1 - Config.historyCapacity = 0 := by unfold Config.historyCapacity; omega
  rw [pushStamp, hzero, List.drop_zero]

/-- A stamp that joins a full history drives the oldest out. -/
theorem pushStamp_of_full {h : List Stamp} (x : Stamp) (hlen : h.length = 8) : pushStamp h x = h.tail ++ [x] := by
  have hone : h.length + 1 - Config.historyCapacity = 1 := by unfold Config.historyCapacity; omega
  rw [pushStamp, hone, List.drop_append_of_le_length (by omega), List.drop_one]

/-! ### What the overload unit does in a step -/

/-- The overload unit's part of a step, with what it makes and sends. -/
theorem runOvu_eq {s : State} {f : Ovu → Eff Ovu} {e : Eff Ovu} (h : f s.ovu = e) :
    s.runOvu f = { s with ovu := e.val, notices := s.notices ++ e.out } := by
  rw [State.runOvu, h]

/-- What sends nothing leaves the notices as they are. -/
theorem runOvu_pure {s : State} {f : Ovu → Eff Ovu} {o : Ovu} (h : f s.ovu = Eff.pure o) :
    s.runOvu f = { s with ovu := o } := by
  rw [runOvu_eq h]
  simp [Eff.pure]

/-- A running timer that has reached its deadline expires with that stamp (log 3). -/
theorem onExpiry_due {now d : Stamp} {timer : Option Stamp} (ht : timer = some d) (hd : reached now d = true)
    (f : Stamp → Ovu → Eff Ovu) (o : Ovu) : onExpiry now timer f o = f d o := by
  rw [onExpiry, ht, dueTimer_of_reached hd]

/-- A stopped timer does not expire. -/
theorem onExpiry_stopped {now : Stamp} {timer : Option Stamp} (ht : timer = none) (f : Stamp → Ovu → Eff Ovu)
    (o : Ovu) : onExpiry now timer f o = Eff.pure o := by
  rw [onExpiry, ht]
  rfl

/-! ### Rises (R124, R125, R129) -/

theorem rise_of_lt {o : Ovu} {n : Nat} (hl : o.level = .level n) (hn : n < 4) (t : Stamp) :
    rise t o = raiseLevel t n o := by
  simp [rise, hl, hn]

theorem rise_at_four {o : Ovu} (hl : o.level = .level 4) (t : Stamp) : rise t o = enterLock t o := by
  simp [rise, hl]

theorem rise_in_lock {o : Ovu} (hl : o.level = .lock) (t : Stamp) : rise t o = Eff.pure o := by
  simp [rise, hl]

/-- A rise changes the level and its timers, and nothing else. -/
theorem rise_frame (t : Stamp) (o : Ovu) :
    (rise t o).val =
      { o with
        level := (rise t o).val.level
        hold := (rise t o).val.hold
        release := (rise t o).val.release
        reStrike := (rise t o).val.reStrike
        lock := (rise t o).val.lock } := by
  unfold rise
  split
  · rfl
  · split <;> rfl

/-- What a rising edge sets before the rise that follows: the line, the history and the chronic flag. -/
def edgeTaken (t : Stamp) (o : Ovu) : Ovu :=
  { o with
    droopHeld := true
    history := pushStamp o.history t
    chronic := isChronic t { o with droopHeld := true, history := pushStamp o.history t } }

theorem risingEdge_eq (t : Stamp) (o : Ovu) : risingEdge t o = rise t (edgeTaken t o) := rfl

theorem risingEdge_of_lt {o : Ovu} {n : Nat} (hl : o.level = .level n) (hn : n < 4) (t : Stamp) :
    risingEdge t o = raiseLevel t n (edgeTaken t o) := rise_of_lt (o := edgeTaken t o) hl hn t

theorem risingEdge_at_four {o : Ovu} (hl : o.level = .level 4) (t : Stamp) :
    risingEdge t o = enterLock t (edgeTaken t o) := rise_at_four (o := edgeTaken t o) hl t

theorem risingEdge_in_lock {o : Ovu} (hl : o.level = .lock) (t : Stamp) :
    risingEdge t o = Eff.pure (edgeTaken t o) := rise_in_lock (o := edgeTaken t o) hl t

/-- The line rises: the pin, and what the OVU makes of the edge. -/
theorem exec_droopRise {s : State} {e : Eff Ovu} (hd : s.pins.droop = false)
    (he : ovuEdge s.isLoading { rising := true, stamp := s.timeBase } s.ovu = e) :
    exec .droopRise s =
      .next { s with
        pins := { s.pins with droop := true }
        ovu := e.val
        notices := s.notices ++ e.out } := by
  have hexec : exec .droopRise s = .next (droopRises s) := rfl
  have hlow : ¬s.pins.droop = true := by simp [hd]
  rw [hexec, droopRises, if_neg hlow, runOvu_eq (s := s.setPins { s.pins with droop := true }) he]
  rfl

/-- The line falls: the pin, and what the OVU makes of the edge. -/
theorem exec_droopFall_edge {s : State} {e : Eff Ovu} (hd : s.pins.droop = true)
    (he : ovuEdge s.isLoading { rising := false, stamp := s.timeBase } s.ovu = e) :
    exec .droopFall s =
      .next { s with
        pins := { s.pins with droop := false }
        ovu := e.val
        notices := s.notices ++ e.out } := by
  have hexec : exec .droopFall s = .next (droopFalls s) := rfl
  rw [hexec, droopFalls, if_pos hd, runOvu_eq (s := s.setPins { s.pins with droop := false }) he]
  rfl

theorem ovuEdge_inRun {o : Ovu} (hr : o.inRun = true) (loading : Bool) (e : LineEdge) :
    ovuEdge loading e o = droopEdge e o := by
  simp [ovuEdge, hr]

theorem ovuEdge_loading {o : Ovu} (hr : o.inRun = false) (e : LineEdge) : ovuEdge true e o = Eff.pure o := by
  simp [ovuEdge, hr]

theorem ovuEdge_awaits {o : Ovu} (hr : o.inRun = false) (e : LineEdge) :
    ovuEdge false e o = Eff.pure { o with early := o.early ++ [e] } := by
  simp [ovuEdge, hr, awaitOvuEntry]

/-- What sends nothing, at an edge of the line. -/
theorem droopRise_pure {s : State} {o : Ovu} (hd : s.pins.droop = false)
    (he : ovuEdge s.isLoading { rising := true, stamp := s.timeBase } s.ovu = Eff.pure o) :
    exec .droopRise s = .next { s with pins := { s.pins with droop := true }, ovu := o } := by
  rw [exec_droopRise hd he]
  simp [Eff.pure]

theorem droopFall_pure {s : State} {o : Ovu} (hd : s.pins.droop = true)
    (he : ovuEdge s.isLoading { rising := false, stamp := s.timeBase } s.ovu = Eff.pure o) :
    exec .droopFall s = .next { s with pins := { s.pins with droop := false }, ovu := o } := by
  rw [exec_droopFall_edge hd he]
  simp [Eff.pure]

/-- A rise of the line found high, and a fall of the line found low, leave everything as it is. -/
theorem droopRises_high {s : State} (hd : s.pins.droop = true) :
    droopRises s = { s with pins := { s.pins with droop := true } } := by
  rw [droopRises, if_pos hd, ← hd]

theorem droopFalls_low {s : State} (hd : s.pins.droop = false) :
    droopFalls s = { s with pins := { s.pins with droop := false } } := by
  rw [droopFalls, if_neg (Bool.eq_false_iff.1 hd), ← hd]

/-- In LOADING an edge changes the pin only, also one that finds the line there already. -/
theorem exec_droop_loading {s : State} (hr : s.ovu.inRun = false) (hl : s.isLoading = true) :
    exec .droopRise s = .next { s with pins := { s.pins with droop := true } } ∧
      exec .droopFall s = .next { s with pins := { s.pins with droop := false } } := by
  have hpure : ∀ e, ovuEdge s.isLoading e s.ovu = Eff.pure s.ovu := fun e => by rw [hl, ovuEdge_loading hr]
  cases hd : s.pins.droop with
  | false =>
    exact ⟨droopRise_pure hd (hpure _), congrArg Host.Outcome.next (droopFalls_low hd)⟩
  | true =>
    exact ⟨congrArg Host.Outcome.next (droopRises_high hd), droopFall_pure hd (hpure _)⟩

theorem droopEdge_rising (t : Stamp) (o : Ovu) : droopEdge { rising := true, stamp := t } o = risingEdge t o := rfl

/-- The chronic flag after a rise is that of before it. -/
theorem rise_chronic (t : Stamp) (o : Ovu) : (rise t o).val.chronic = o.chronic := by rw [rise_frame]

theorem rise_history (t : Stamp) (o : Ovu) : (rise t o).val.history = o.history := by rw [rise_frame]

/-- A rising edge holds the line, pushes its stamp and evaluates the chronic condition, whatever level it leads to. -/
theorem risingEdge_evaluates (t : Stamp) (o : Ovu) :
    (risingEdge t o).val.droopHeld = true ∧ (risingEdge t o).val.history = pushStamp o.history t ∧
      (risingEdge t o).val.params = o.params ∧
      ((risingEdge t o).val.chronic = true ↔ (risingEdge t o).val.history.length = 8 ∧
        ∃ x rest, (risingEdge t o).val.history = x :: rest ∧ elapsed x t ≤ o.params.chronicS * 1000000) := by
  rw [risingEdge_eq, rise_frame]
  exact ⟨rfl, rfl, rfl, isChronic_iff _ _⟩

/-- Settles O44: edges by `risingEdge_eq`, the level they lead to by the three rules of a rise. -/
theorem droopRisesClimbAndLock : Obligations.DroopRisesClimbAndLock := by
  refine ⟨fun h x _ => ⟨pushStamp_of_room x, pushStamp_of_full x, pushStamp_length_le h x⟩, fun s =>
    ⟨fun hd hr => ?_, exec_droop_loading, fun hr hl => ⟨fun hd => ?_, fun hd => ?_⟩, fun d n ht hdue hlevel => ?_⟩⟩
  · have hexec := exec_droopRise hd (ovuEdge_inRun hr s.isLoading { rising := true, stamp := s.timeBase })
    obtain ⟨hheld, hhistory, hparams, hchronic⟩ := risingEdge_evaluates s.timeBase s.ovu
    refine ⟨_, hexec, rfl, hheld, hhistory, hparams, hchronic, fun n hn hlt => ?_, fun h4 => ?_, fun hlock => ?_⟩
    · rw [droopEdge_rising, risingEdge_of_lt hn hlt]
      exact ⟨rfl, rfl, rfl, rfl, rfl⟩
    · rw [droopEdge_rising, risingEdge_at_four h4]
      exact ⟨rfl, rfl, rfl, rfl, rfl, rfl⟩
    · rw [droopEdge_rising, risingEdge_in_lock hlock]
      exact ⟨hlock, rfl, rfl, List.append_nil _⟩
  · exact droopRise_pure hd (by rw [hl, ovuEdge_awaits hr])
  · exact droopFall_pure hd (by rw [hl, ovuEdge_awaits hr])
  · have hexec : exec .reStrikeExpiry s = .next _ := congrArg Host.Outcome.next (runOvu_eq (onExpiry_due ht hdue _ _))
    refine ⟨_, hexec, rfl, rise_history _ _, rise_chronic _ _, fun hlt => ?_, fun h4 => ?_⟩
    · rw [reStrikeExpired, rise_of_lt (o := { s.ovu with reStrike := none }) hlevel hlt]
      exact ⟨rfl, rfl, rfl, rfl, rfl⟩
    · subst h4
      rw [reStrikeExpired, rise_at_four (o := { s.ovu with reStrike := none }) hlevel]
      exact ⟨rfl, rfl, rfl, rfl, rfl, rfl⟩

/-! ### Step attempts (R127, R128) -/

theorem stepAttempt_lowers_level {t : Stamp} {o : Ovu} {n : Nat} (hl : o.level = .level (n + 1))
    (h : isChronic t o = false ∨ 0 < n) : stepAttempt t o = lowerLevel t n (evaluateChronic t o) := by
  have hno : (decide (n = 0) && isChronic t o) = false := by
    rcases h with h | h
    · rw [h, Bool.and_false]
    · rw [decide_eq_false (Nat.ne_of_gt h), Bool.false_and]
  simp [stepAttempt, stepDown, evaluateChronic, hl, hno]

theorem lowerLevel_zero (t : Stamp) (o : Ovu) : lowerLevel t 0 o = levelChanged (settleAtZero o) := rfl

theorem lowerLevel_pos {n : Nat} (h : 0 < n) (t : Stamp) (o : Ovu) :
    lowerLevel t n o = levelChanged (restartRelease t { o with level := .level n }) := by
  rw [lowerLevel, if_neg (Nat.ne_of_gt h)]

/-- Under the chronic flag the level does not fall below 1: the release timer restarts. -/
theorem stepAttempt_chronic {t : Stamp} {o : Ovu} (hl : o.level = .level 1) (h : isChronic t o = true) :
    stepAttempt t o = Eff.pure { o with chronic := true, release := some (afterMs t o.params.releaseMs) } := by
  simp [stepAttempt, stepDown, evaluateChronic, restartRelease, hl, h]

theorem holdExpired_held {o : Ovu} (h : o.droopHeld = true) (t : Stamp) :
    holdExpired t o = Eff.pure { o with hold := none } := by
  simp [holdExpired, h]

theorem holdExpired_at_zero {o : Ovu} (h : o.droopHeld = false) (hl : o.level = .level 0) (t : Stamp) :
    holdExpired t o = Eff.pure { o with hold := none } := by
  simp [holdExpired, holdExpired.holdAttempt, h, hl]

theorem holdExpired_attempts {o : Ovu} (h : o.droopHeld = false) (hl : o.level ≠ .level 0) (t : Stamp) :
    holdExpired t o = stepAttempt t { o with hold := none } := by
  simp [holdExpired, holdExpired.holdAttempt, h, hl]

/-- HOLD_EXPIRY with the timer due. -/
theorem exec_holdExpiry {s : State} {d : Stamp} {e : Eff Ovu} (hh : s.ovu.hold = some d)
    (hdue : reached s.timeBase d = true) (he : holdExpired d s.ovu = e) :
    exec .holdExpiry s = .next { s with ovu := e.val, notices := s.notices ++ e.out } :=
  congrArg Host.Outcome.next (runOvu_eq ((onExpiry_due hh hdue _ _).trans he))

theorem exec_holdExpiry_pure {s : State} {d : Stamp} {o : Ovu} (hh : s.ovu.hold = some d)
    (hdue : reached s.timeBase d = true) (he : holdExpired d s.ovu = Eff.pure o) :
    exec .holdExpiry s = .next { s with ovu := o } :=
  congrArg Host.Outcome.next (runOvu_pure ((onExpiry_due hh hdue _ _).trans he))

/-- Settles O46: the three cases of `holdExpired`; in LOCK the invariant has the timer stopped. -/
theorem holdExpiryAttemptsAStep : Obligations.HoldExpiryAttemptsAStep := by
  refine ⟨fun s d hh hdue => ⟨fun hlow hl => ?_, fun hheld => ⟨?_, fun n hn h1 => ?_⟩, fun hlow hl => ?_⟩,
    fun _ _ => rfl, fun s hi hl => ?_⟩
  · exact ⟨_, exec_holdExpiry hh hdue (holdExpired_attempts hlow hl d), rfl, rfl, rfl⟩
  · exact exec_holdExpiry_pure hh hdue (holdExpired_held hheld d)
  · exact holdAfterFall_restarts hn h1
  · exact exec_holdExpiry_pure hh hdue (holdExpired_at_zero hlow hl d)
  · obtain ⟨-, -, -, hInLock, -⟩ := hi
    obtain ⟨hstopped, -⟩ := hInLock hl
    exact congrArg Host.Outcome.next (runOvu_pure (onExpiry_stopped hstopped _ _))

/-! ### How far a command lowers the level (R128) -/

/-- What a command may do to a level m: it keeps it or raises it, or makes one step down, to 0 only while the unit is not
chronic. -/
def StepsDownFrom (m : Nat) (o : Ovu) : Prop :=
  ∀ n, o.level = .level n → n < m → n + 1 = m ∧ (n = 0 → o.chronic = false)

theorem stepsDownFrom_of_notBelow {m : Nat} {o : Ovu} (h : NotBelow m o.level) : StepsDownFrom m o :=
  fun n hn hlt => absurd (h n hn) (Nat.not_le.2 hlt)

theorem notBelow_self {m : Nat} {l : OverloadLevel} (h : l = .level m) : NotBelow m l := fun n hn => by
  rw [h] at hn
  exact Nat.le_of_eq (OverloadLevel.level.inj hn)

theorem stepsDownFrom_stepAttempt {m : Nat} {o : Ovu} (h : o.level = .level m) (t : Stamp) :
    StepsDownFrom m (stepAttempt t o).val := fun n => stepAttempt_lowers t o m n h

/-- An expiry steps down as its meaning does, and not at all while its timer does not run out. -/
theorem stepsDownFrom_onExpiry {m : Nat} {o : Ovu} (h : o.level = .level m) {now : Stamp} {timer : Option Stamp}
    {f : Stamp → Ovu → Eff Ovu} (hf : ∀ d, timer = some d → StepsDownFrom m (f d o).val) :
    StepsDownFrom m (onExpiry now timer f o).val := by
  unfold onExpiry
  split
  case h_1 => exact stepsDownFrom_of_notBelow (notBelow_self h)
  case h_2 d hd => exact hf d (running_of_dueTimer hd)

theorem stepsDownFrom_holdExpired {m : Nat} {o : Ovu} (h : o.level = .level m) (d : Stamp) :
    StepsDownFrom m (holdExpired d o).val := by
  by_cases hheld : o.droopHeld = true
  · rw [holdExpired_held hheld]
    exact stepsDownFrom_of_notBelow (notBelow_self h)
  · by_cases hl : o.level = .level 0
    · rw [holdExpired_at_zero (Bool.eq_false_iff.2 hheld) hl]
      exact stepsDownFrom_of_notBelow (notBelow_self h)
    · rw [holdExpired_attempts (Bool.eq_false_iff.2 hheld) hl]
      exact stepsDownFrom_stepAttempt (o := { o with hold := none }) h d

/-- The lock timer runs only in LOCK, so at a level it does not expire. -/
theorem lock_stopped_at_level {o : Ovu} {m : Nat} (hi : OverloadInv o) (h : o.level = .level m) : o.lock = none := by
  obtain ⟨-, -, hlock, -⟩ := hi
  rw [← Option.not_isSome_iff_eq_none, hlock, h]
  nofun

theorem notBelow_ovuEdge {m : Nat} {o : Ovu} (h : NotBelow m o.level) (loading : Bool) (e : LineEdge) :
    NotBelow m (ovuEdge loading e o).val.level := by
  unfold ovuEdge
  split
  · exact notBelow_droopEdge e o m h
  · split <;> exact h

theorem notBelow_droopRises {m : Nat} {s : State} (h : NotBelow m s.ovu.level) : NotBelow m (droopRises s).ovu.level := by
  unfold droopRises
  split
  · exact h
  · exact notBelow_ovuEdge h _ _

theorem notBelow_droopFalls {m : Nat} {s : State} (h : NotBelow m s.ovu.level) : NotBelow m (droopFalls s).ovu.level := by
  unfold droopFalls
  split
  · exact notBelow_ovuEdge h _ _
  · exact h

theorem retireStamp_level (now : Stamp) (o : Ovu) : (retireStamp now o).level = o.level := by
  unfold retireStamp
  split
  · rfl
  · split <;> rfl

/-- A device reset apart, a command lowers a level by one step at most. -/
theorem stepsDownFrom_exec {c : Instr} {s t : State} {m : Nat} (hi : OverloadInv s.ovu) (hm : s.ovu.level = .level m)
    (h : exec c s = .next t) (hr : t.ovu.inRun = true) : StepsDownFrom m t.ovu := by
  have hstay : ∀ o : Ovu, o.inRun = true → o = s.ovu ∨ o = Ovu.reset → StepsDownFrom m o := fun o hrun ho => by
    rcases ho with rfl | rfl
    · exact stepsDownFrom_of_notBelow (notBelow_self hm)
    · cases hrun
  cases c <;> obtain rfl := Host.Outcome.next.inj h
  case reset => cases hr
  case selectRise => exact hstay _ hr (selectRise_ovu _ _ _ _ s)
  case announceNext | announceNow | readCeilings | readStatus | readHistory | readThermal | readEvents | ackEvents |
      poll | portReset | selectScenario | setCap | setOwner | setRoute | loadProfile | flashXfer | deviceReset =>
    exact hstay _ hr (requestFrame_ovu _ _ _ s)
  case droopRise => exact stepsDownFrom_of_notBelow (notBelow_droopRises (notBelow_self hm))
  case droopFall => exact stepsDownFrom_of_notBelow (notBelow_droopFalls (notBelow_self hm))
  case reStrikeExpiry =>
    exact stepsDownFrom_onExpiry hm fun d _ =>
      stepsDownFrom_of_notBelow (notBelow_rise d { s.ovu with reStrike := none } m (notBelow_self hm))
  case holdExpiry => exact stepsDownFrom_onExpiry hm fun d _ => stepsDownFrom_holdExpired hm d
  case releaseExpiry =>
    exact stepsDownFrom_onExpiry hm fun d _ => stepsDownFrom_stepAttempt (o := { s.ovu with release := none }) hm d
  case lockExpiry =>
    refine stepsDownFrom_onExpiry hm fun d hd => ?_
    rw [lock_stopped_at_level hi hm] at hd
    cases hd
  case droopStampRetirement =>
    exact stepsDownFrom_of_notBelow (notBelow_self ((retireStamp_level _ _).trans hm))
  case overloadDelivery => exact stepsDownFrom_of_notBelow (notBelow_self hm)
  case ovuEntryToRun => exact stepsDownFrom_of_notBelow (notBelow_takeOvuEntry _ _ _ _ (notBelow_self hm))
  all_goals exact stepsDownFrom_of_notBelow (notBelow_self (by simpa using hm))

/-- Settles O47: a step attempt by its two equations, any other command by `stepsDownFrom_exec`. -/
theorem stepAttemptsLowerTheLevel : Obligations.StepAttemptsLowerTheLevel := by
  refine ⟨⟨fun t o n hl h => ?_, fun t o hl h => ?_, fun s d hrel hdue => ?_⟩,
    fun c s t m n hi hexec hm hn hlt hr _ => stepsDownFrom_exec hi hm hexec hr n hn hlt⟩
  · rw [stepAttempt_lowers_level hl h]
    rcases Nat.eq_zero_or_pos n with rfl | hpos
    · exact ⟨rfl, rfl, fun hlt => absurd hlt (Nat.lt_irrefl 0), fun _ => ⟨rfl, rfl, rfl, rfl⟩, rfl⟩
    · rw [lowerLevel_pos hpos]
      exact ⟨rfl, rfl, fun _ => rfl, fun h0 => absurd h0 (Nat.ne_of_gt hpos), rfl⟩
  · rw [stepAttempt_chronic hl h]
    exact ⟨rfl, rfl⟩
  · exact ⟨_, congrArg Host.Outcome.next (runOvu_eq (onExpiry_due hrel hdue _ _)), rfl, rfl, rfl⟩

/-! ### LOCK, retirement, parameters and the entry to RUN (R122, R123, R129, R132) -/

theorem lockExpired_low {o : Ovu} (h : o.droopHeld = false) (t : Stamp) :
    lockExpired t o =
      levelChanged { o with level := .level 4, lock := none, hold := some (afterMs t o.params.holdMs) } := by
  simp [lockExpired, h]

theorem lockExpired_high {o : Ovu} (h : o.droopHeld = true) (t : Stamp) :
    lockExpired t o = Eff.pure { o with lock := some (afterMs t o.params.lockMs) } := by
  simp [lockExpired, h]

theorem retireStamp_due {o : Ovu} {now x : Stamp} {rest : List Stamp} (h : o.history = x :: rest)
    (hage : 60000000 < elapsed x now) : retireStamp now o = { o with history := rest } := by
  simp [retireStamp, h, retirementDue, Config.stampLifetime, hage]

theorem retireStamp_notDue {o : Ovu} {now x : Stamp} {rest : List Stamp} (h : o.history = x :: rest)
    (hage : elapsed x now ≤ 60000000) : retireStamp now o = o := by
  simp [retireStamp, h, retirementDue, Config.stampLifetime, Nat.not_lt.2 hage]

/-- The entry to RUN: the line as it stood at the entry stamp, then the edges that waited. -/
theorem takeOvuEntry_eq {o : Ovu} {now line : Bool} (hr : o.inRun = false) (hline : levelBefore o.early now = line)
    (at_ : Stamp) :
    takeOvuEntry at_ now o =
      (edgeAtEntry at_ line { o with inRun := true, early := [] }).andThen (droopEdges o.early) := by
  simp [takeOvuEntry, hr, hline]

theorem droopEdges_cons (e : LineEdge) (rest : List LineEdge) (o : Ovu) :
    droopEdges (e :: rest) o = (droopEdge e o).andThen (droopEdges rest) := rfl

/-- One edge alone. -/
theorem droopEdges_singleton (e : LineEdge) (o : Ovu) : droopEdges [e] o = droopEdge e o := by
  rw [droopEdges_cons]
  simp [Eff.andThen, droopEdges, Eff.pure]

/-- Settles O48: LOCK's timer and the retirement by their equations, the entry by `takeOvuEntry_eq`. -/
theorem lockExpiryRetirementAndEntry : Obligations.LockExpiryRetirementAndEntry := by
  refine ⟨⟨fun s d hlock hdue => ⟨fun hlow => ?_, fun hhigh => ?_⟩, fun s x rest hh => ⟨fun hage => ?_, fun hage => ?_⟩⟩,
    ⟨fun x s => ⟨_, rfl, rfl, ?_⟩, fun at_ s line hr hline => ?_⟩, fun _ => rfl, fun e rest o => ?_, fun s hr =>
      ⟨fun hd => ?_, fun hd => ?_⟩⟩
  · exact congrArg Host.Outcome.next (runOvu_eq ((onExpiry_due hlock hdue _ _).trans (lockExpired_low hlow d)))
  · exact congrArg Host.Outcome.next (runOvu_pure ((onExpiry_due hlock hdue _ _).trans (lockExpired_high hhigh d)))
  · exact congrArg Host.Outcome.next (runOvu_pure (congrArg Eff.pure (retireStamp_due hh hage)))
  · exact congrArg Host.Outcome.next (runOvu_pure (congrArg Eff.pure (retireStamp_notDue hh hage)))
  · simp [takeOverload, levelNotice, State.takeNotice]
  · have htake := takeOvuEntry_eq hr ((stoodAtEntry_iff _ _ _).1 hline) at_
    refine ⟨_, edgeAtEntry at_ line { s.ovu with inRun := true, early := [] },
      congrArg Host.Outcome.next (runOvu_eq (s := s.takeNotice (.ovuEntryToRun at_)) htake), rfl, rfl,
      (List.append_assoc _ _ _).symm, fun hlow => ?_, fun hhigh hl => ?_⟩
    · rw [hlow]
      rfl
    · rw [hhigh, edgeAtEntry, if_pos rfl,
        risingEdge_of_lt (o := { s.ovu with inRun := true, early := [] }) hl (by decide)]
      exact ⟨rfl, isChronic_iff _ _, rfl⟩
  · rw [droopEdges_singleton]
    rfl
  · refine ⟨_, exec_droopRise hd (ovuEdge_inRun hr _ _), ?_⟩
    rw [droopEdges_singleton]
    exact ⟨rfl, rfl⟩
  · refine ⟨_, exec_droopFall_edge hd (ovuEdge_inRun hr _ _), ?_⟩
    rw [droopEdges_singleton]
    exact ⟨rfl, rfl⟩

end Sys2Proof.Machine

/-! The ceiling table: deliveries, the least contribution, activity and enforcement (R63 to R84, R98). -/

namespace Sys2Proof.Machine

/-! ### What a recompute changes and reports (R72, R79, R80) -/

theorem entryChanges_iff (c : Clu) (i : Chain) :
    entryChanges c i = true ↔
      finalCeiling c i ≠ (c.chains.get i).entry.final ∨ (causesOf c i).any ≠ (c.chains.get i).entry.inhibit := by
  rw [entryChanges, Bool.or_eq_true, decide_eq_true_iff, decide_eq_true_iff]
  exact Iff.rfl

theorem withTable_chain (c : Clu) (i : Chain) :
    (withTable c).chains.get i = { c.chains.get i with entry := tableEntry c i } := PerChain.get_build _ i

/-- The table does not change exactly when no chain is in the mask. -/
theorem chainMask_entryChanges (c : Clu) : chainMask (entryChanges c) = 0 ↔ tableChanges c = false :=
  chainMask_eq_zero_iff _

/-- With no change no chain is reported. -/
theorem filter_entryChanges_of_unchanged {c : Clu} (h : tableChanges c = false) :
    Chain.all.filter (entryChanges c) = [] :=
  List.filter_eq_nil_iff.2 fun i hi hchange => by
    rw [tableChanges, List.any_eq_false] at h
    exact h i hi hchange

/-- What a recompute sends, by the mask of the changed chains. -/
theorem recompute_sends (now : Stamp) (c : Clu) :
    (if tableChanges c then changeNotices now c else []) =
      (Chain.all.filter (entryChanges c)).map (changeNotice now c) ++
        if chainMask (entryChanges c) = 0 then []
        else [.eventRaise { cls := .ceiling, mask := chainMask (entryChanges c) }] := by
  cases h : tableChanges c with
  | true =>
    rw [if_pos rfl, if_neg fun hz => Bool.true_eq_false.mp (h.symm.trans ((chainMask_entryChanges c).1 hz))]
    rfl
  | false =>
    rw [if_neg Bool.false_ne_true, if_pos ((chainMask_entryChanges c).2 h), filter_entryChanges_of_unchanged h]
    rfl

/-- The generation a recompute leaves, by the mask of the changed chains. -/
theorem recompute_generation (c : Clu) :
    (if tableChanges c then c.generation + 1 else c.generation) =
      if chainMask (entryChanges c) = 0 then c.generation else c.generation + 1 := by
  cases h : tableChanges c with
  | true => rw [if_pos rfl, if_neg fun hz => Bool.true_eq_false.mp (h.symm.trans ((chainMask_entryChanges c).1 hz))]
  | false => rw [if_neg Bool.false_ne_true, if_pos ((chainMask_entryChanges c).2 h)]

theorem Recomputed.chain {now : Stamp} {base : List Instr} {c : Clu} {t : State} (h : Recomputed now base c t)
    (i : Chain) : t.clu.chains.get i = { c.chains.get i with entry := tableEntry c i } := by
  rw [h.1]
  exact withTable_chain c i

/-! ### Deliveries (R73 to R77, R82) -/

/-- The ceiling unit's part of a step, with what it makes and sends. -/
theorem runClu_eq {s : State} {f : Clu → Eff Clu} {e : Eff Clu} (h : f s.clu = e) :
    s.runClu f = { s with clu := e.val, notices := s.notices ++ e.out } := by
  rw [State.runClu, h]

/-- What sends nothing leaves the notices as they are. -/
theorem runClu_pure {s : State} {f : Clu → Eff Clu} {c : Clu} (h : f s.clu = Eff.pure c) :
    s.runClu f = { s with clu := c } := by
  rw [runClu_eq h]
  simp [Eff.pure]

/-- The next state is this state but for the ceiling unit and the notices, and the table is recomputed over these inputs. -/
def RecomputesTo (s : State) (m : Instr) (inputs : Clu) (t : State) : Prop :=
  t = { s with clu := t.clu, notices := t.notices } ∧ Recomputed s.timeBase (s.notices.erase m) inputs t

/-- A notice taken, with a recompute over the inputs it leaves. -/
theorem recomputesTo_runClu {s : State} {f : Clu → Eff Clu} {inputs : Clu} (m : Instr)
    (h : f s.clu = recompute s.timeBase inputs) : RecomputesTo s m inputs ((s.takeNotice m).runClu f) :=
  ⟨rfl, recomputed_of_recompute _ inputs s _ _ (congrArg Eff.val h) (congrArg (s.notices.erase m ++ Eff.out ·) h)⟩

/-- A notice whose order no rule keeps. -/
theorem exec_recomputes {c : Instr} {s : State} {f : Clu → Eff Clu} {inputs : Clu}
    (hexec : exec c s = .next ((s.takeNotice c).runClu f)) (h : f s.clu = recompute s.timeBase inputs) :
    ∃ t, exec c s = .next t ∧ RecomputesTo s c inputs t :=
  ⟨_, hexec, recomputesTo_runClu c h⟩

/-- A notice in its order. -/
theorem exec_recomputes_inOrder {c : Instr} {s : State} {f : Stamp → Clu → Eff Clu} {inputs : Clu}
    (hexec : exec c s = .next (s.taking c fun x => x.runClu (f x.timeBase))) (hin : s.inOrder c = true)
    (h : f s.timeBase s.clu = recompute s.timeBase inputs) : ∃ t, exec c s = .next t ∧ RecomputesTo s c inputs t :=
  ⟨_, hexec.trans (congrArg Host.Outcome.next (State.taking_of_inOrder _ hin)), recomputesTo_runClu c h⟩

/-- A delivery in its order, of those the entry to RUN waits for. -/
theorem exec_recomputes_delivery {c : Instr} {s : State} {f : Stamp → Clu → Eff Clu} {inputs : Clu}
    (hexec : exec c s = .next (s.taking c fun x => (x.runClu (f x.timeBase)).enterRunWhenDelivered))
    (hin : s.inOrder c = true) (h : f s.timeBase s.clu = recompute s.timeBase inputs) :
    ∃ t : State, exec c s = .next t.enterRunWhenDelivered ∧ RecomputesTo s c inputs t :=
  ⟨_, hexec.trans (congrArg Host.Outcome.next (State.taking_of_inOrder _ hin)), recomputesTo_runClu c h⟩

/-- Settles O37: what a recompute reports by `recompute_sends`; each delivery is a recompute over the inputs it leaves. -/
theorem deliveriesRecomputeTheTable : Obligations.DeliveriesRecomputeTheTable := by
  refine ⟨fun now base c t h => ?_, fun s => ⟨fun g p => ?_, fun w caps hin => ?_, fun i cap hin => ?_, fun p hin => ?_,
    fun n hin => ?_, fun l o hin => ?_, fun hl => ?_⟩⟩
  · refine ⟨entryChanges c, chainMask (entryChanges c), fun i => ?_, chainMask_getLsbD _, ?_, h.chain, ?_⟩
    · rw [entryChanges_iff, h.chain i]
      exact Iff.rfl
    · rw [← recompute_generation, h.1]
      rfl
    · have hnotice : ∀ i, changeNotice now c i = .ceilingChangeNotice
          { chain := i
            ceiling := (t.clu.chains.get i).entry.final
            inhibit := (t.clu.chains.get i).entry.inhibit
            stamp := now } := fun i => by
        rw [h.chain i]
        rfl
      rw [h.2, recompute_sends, funext hnotice]
      exact (List.append_assoc _ _ _).symm
  · exact exec_recomputes rfl rfl
  · exact exec_recomputes_delivery (f := fun now => takeScenario now w caps) rfl hin rfl
  · exact exec_recomputes_inOrder (f := fun now => takeCap now i cap) rfl hin rfl
  · exact exec_recomputes_delivery (f := fun now => takeProfile now p) rfl hin rfl
  · exact exec_recomputes_delivery (f := fun now => takeStage now n) rfl hin rfl
  · exact exec_recomputes_delivery (f := fun now => takeLevel now l o) rfl hin rfl
  · exact exec_recomputes rfl (if_pos hl)

/-! ### The final ceiling (R66 to R72) -/

/-- The four contributions that always take part. -/
def leastOfFour (c : Clu) (i : Chain) : Ceiling :=
  leastCeiling (leastCeiling (exposureContribution c i) (thermalContribution c i))
    (leastCeiling (overloadContribution c i) (cmaxContribution c i))

theorem finalCeiling_eq (c : Clu) (i : Chain) :
    finalCeiling c i = leastWith (leastWith (leastOfFour c i) (capContribution c i)) (inhibitContribution c i) := rfl

theorem finalCeiling_atMost_leastOfFour (c : Clu) (i : Chain) : atMost (finalCeiling c i) (leastOfFour c i) :=
  atMost_trans (leastWith_atMost _ _).1 (leastWith_atMost _ _).1

theorem leastOfFour_atMost (c : Clu) (i : Chain) :
    atMost (leastOfFour c i) (exposureContribution c i) ∧ atMost (leastOfFour c i) (thermalContribution c i) ∧
      atMost (leastOfFour c i) (overloadContribution c i) ∧ atMost (leastOfFour c i) (cmaxContribution c i) := by
  obtain ⟨hleft, hright⟩ := leastCeiling_atMost
    (leastCeiling (exposureContribution c i) (thermalContribution c i))
    (leastCeiling (overloadContribution c i) (cmaxContribution c i))
  obtain ⟨hexposure, hthermal⟩ := leastCeiling_atMost (exposureContribution c i) (thermalContribution c i)
  obtain ⟨hoverload, hcmax⟩ := leastCeiling_atMost (overloadContribution c i) (cmaxContribution c i)
  exact ⟨atMost_trans hleft hexposure, atMost_trans hleft hthermal, atMost_trans hright hoverload,
    atMost_trans hright hcmax⟩

theorem finalCeiling_atMost_cap {c : Clu} {i : Chain} {x : Ceiling} (h : capContribution c i = some x) :
    atMost (finalCeiling c i) x :=
  atMost_trans (leastWith_atMost _ _).1 ((leastWith_atMost _ _).2 x h)

theorem inhibitContribution_of_any {c : Clu} {i : Chain} (h : (causesOf c i).any = true) :
    inhibitContribution c i = some .off := if_pos h

theorem inhibitContribution_of_none {c : Clu} {i : Chain} (h : (causesOf c i).any = false) :
    inhibitContribution c i = none := if_neg (Bool.eq_false_iff.1 h)

/-- An asserted line has final ceiling OFF. -/
theorem finalCeiling_of_any {c : Clu} {i : Chain} (h : (causesOf c i).any = true) : finalCeiling c i = .off :=
  eq_off_of_atMost_off ((leastWith_atMost _ _).2 .off (inhibitContribution_of_any h))

theorem leastOfFour_eq_or (c : Clu) (i : Chain) :
    leastOfFour c i = exposureContribution c i ∨ leastOfFour c i = thermalContribution c i ∨
      leastOfFour c i = overloadContribution c i ∨ leastOfFour c i = cmaxContribution c i := by
  unfold leastOfFour
  rcases leastCeiling_eq_or (leastCeiling (exposureContribution c i) (thermalContribution c i))
    (leastCeiling (overloadContribution c i) (cmaxContribution c i)) with h | h <;> rw [h]
  · rcases leastCeiling_eq_or (exposureContribution c i) (thermalContribution c i) with h | h <;> simp [h]
  · rcases leastCeiling_eq_or (overloadContribution c i) (cmaxContribution c i) with h | h <;> simp [h]

/-- The final ceiling is one of the contributions that take part. -/
theorem finalCeiling_eq_or (c : Clu) (i : Chain) :
    finalCeiling c i = exposureContribution c i ∨ finalCeiling c i = thermalContribution c i ∨
      finalCeiling c i = overloadContribution c i ∨ finalCeiling c i = cmaxContribution c i ∨
      capContribution c i = some (finalCeiling c i) ∨ inhibitContribution c i = some (finalCeiling c i) := by
  rw [finalCeiling_eq]
  rcases leastWith_eq_or (leastWith (leastOfFour c i) (capContribution c i)) (inhibitContribution c i) with h | h
  · rw [h]
    rcases leastWith_eq_or (leastOfFour c i) (capContribution c i) with h | h
    · rw [h]
      rcases leastOfFour_eq_or c i with h | h | h | h <;> simp [h]
    · exact .inr (.inr (.inr (.inr (.inl h))))
  · exact .inr (.inr (.inr (.inr (.inr h))))

/-- The line binds exactly while it is asserted: then both are OFF. -/
theorem bindingOf_inhibit (c : Clu) (i : Chain) : (bindingOf c i).inhibit = true ↔ (causesOf c i).any = true := by
  have hdecide : (bindingOf c i).inhibit = true ↔ inhibitContribution c i = some (finalCeiling c i) :=
    decide_eq_true_iff
  rw [hdecide]
  cases h : (causesOf c i).any with
  | true => exact iff_of_true (by rw [inhibitContribution_of_any h, finalCeiling_of_any h]) rfl
  | false => exact iff_of_false (by rw [inhibitContribution_of_none h]; nofun) Bool.false_ne_true

/-! ### The contributions (R66, R68 to R71) -/

theorem exposureCeiling_of_idle {c : Clu} {i : Chain}
    (h : (c.chains.get i).active = false ∨ (c.chains.get i).weight = 0) : exposureCeiling c i = .off := by
  rcases h with h | h <;> simp [exposureCeiling, h]

/-- The weight total of a group, chain by chain. -/
theorem weightTotal_eq (c : Clu) (g : Group) :
    weightTotal c g = (Chain.all.map fun j =>
      if (c.chains.get j).profile.group = g ∧ (c.chains.get j).active = true then (c.chains.get j).weight else 0).sum := by
  have hone : activeWeight c g = fun j =>
      if (c.chains.get j).profile.group = g ∧ (c.chains.get j).active = true then (c.chains.get j).weight else 0 :=
    funext fun j => by simp [activeWeight]
  rw [← hone]
  simp only [weightTotal, Chain.all, List.map_cons, List.map_nil, List.sum_cons, List.sum_nil]
  omega

theorem exposureCeiling_of_active {c : Clu} {i : Chain} (ha : (c.chains.get i).active = true)
    (hw : 0 < (c.chains.get i).weight) :
    exposureCeiling c i = codeOf ((c.power.get (c.chains.get i).profile.group).toNat * (c.chains.get i).weight /
      weightTotal c (c.chains.get i).profile.group) := by
  simp [exposureCeiling, ha, hw, shareOf]

theorem thermalContribution_trip {c : Clu} {i : Chain} (h : (zoneOf c i).trip = true) :
    thermalContribution c i = .off := if_pos h

theorem thermalContribution_backoff {c : Clu} {i : Chain} (h : (zoneOf c i).trip = false) :
    thermalContribution c i = .code (lessCodes (c.chains.get i).profile.cmax (zoneOf c i).backoff) :=
  if_neg (Bool.eq_false_iff.1 h)

theorem overloadContribution_lock {c : Clu} (h : c.level = .lock) (i : Chain) : overloadContribution c i = .off := by
  rw [overloadContribution, h]

theorem overloadContribution_level {c : Clu} {n : Nat} (h : c.level = .level n) (i : Chain) :
    overloadContribution c i = .code (lessCodes (c.chains.get i).profile.cmax (n * c.oStep)) := by
  rw [overloadContribution, h]

/-- In LOADING every line is asserted. -/
theorem causesOf_any_of_loading {c : Clu} (h : c.loading = true) (i : Chain) : (causesOf c i).any = true := by
  simp [Causes.any, causesOf, h]

/-- Settles O39: the least by `leastWith_atMost` and `leastCeiling_atMost`, each contribution by its equation; the table by
the invariant. -/
theorem finalCeilingIsTheLeastContribution : Obligations.FinalCeilingIsTheLeastContribution := by
  refine ⟨fun c i => ?_, fun c i => ⟨fun h => ?_, fun ha hw => ?_, thermalContribution_trip, thermalContribution_backoff,
    fun h => overloadContribution_lock h i, fun n h => overloadContribution_level h i, rfl, fun h => ?_, fun h => ?_,
    fun x h => ?_, inhibitContribution_of_any, inhibitContribution_of_none⟩, fun c i hinv => ?_⟩
  · have hfour := finalCeiling_atMost_leastOfFour c i
    obtain ⟨hexposure, hthermal, hoverload, hcmax⟩ := leastOfFour_atMost c i
    exact ⟨atMost_trans hfour hexposure, atMost_trans hfour hthermal, atMost_trans hfour hoverload,
      atMost_trans hfour hcmax, fun _ => finalCeiling_atMost_cap, finalCeiling_of_any, finalCeiling_eq_or c i,
      decide_eq_true_iff, decide_eq_true_iff, decide_eq_true_iff, decide_eq_true_iff, decide_eq_true_iff,
      bindingOf_inhibit c i⟩
  · rw [exposureContribution, exposureCeiling_of_idle h]
    rfl
  · rw [exposureContribution, exposureCeiling_of_active ha hw, weightTotal_eq]
  · rw [capContribution, h]
  · rw [capContribution, h]
  · rw [capContribution, h]
  · rw [hinv i]
    exact ⟨finalCeiling_of_any, rfl, fun h => causesOf_any_of_loading h i, rfl, rfl, Iff.rfl, decide_eq_true_iff⟩

/-! ### Activity (R63, R64) -/

/-- The ceiling unit's part of a notice that only replaces inputs. -/
theorem exec_replaces {m : Instr} {s : State} {f : Clu → Eff Clu} {c : Clu}
    (hexec : exec m s = .next ((s.takeNotice m).runClu f)) (h : f s.clu = Eff.pure c) :
    exec m s = .next { s with clu := c, notices := s.notices.erase m } :=
  hexec.trans (congrArg Host.Outcome.next (runClu_pure (s := s.takeNotice m) h))

/-- The same for a notice in its order. -/
theorem exec_replaces_inOrder {m : Instr} {s : State} {f : Stamp → Clu → Eff Clu} {c : Clu}
    (hexec : exec m s = .next (s.taking m fun x => x.runClu (f x.timeBase))) (hin : s.inOrder m = true)
    (h : f s.timeBase s.clu = Eff.pure c) : exec m s = .next { s with clu := c, notices := s.notices.erase m } :=
  hexec.trans (congrArg Host.Outcome.next
    ((State.taking_of_inOrder _ hin).trans (runClu_pure (s := s.takeNotice m) h)))

theorem takeActivity_idle {c : Clu} {i : Chain} (h : (c.chains.get i).active = false) (now : Stamp) :
    takeActivity now i c = recompute now (c.setChain i fun x => { x with active := true, activitySinceClose := true }) :=
  if_neg (Bool.eq_false_iff.1 h)

theorem takeActivity_active {c : Clu} {i : Chain} (h : (c.chains.get i).active = true) (now : Stamp) :
    takeActivity now i c = Eff.pure (c.setChain i fun x => { x with activitySinceClose := true }) := if_pos h

theorem retires_iff (quiet : PerChain Bool) (c : Clu) (i : Chain) :
    retires quiet c i = true ↔
      quiet.get i = true ∧ (c.chains.get i).active = true ∧ (c.chains.get i).activitySinceClose = false := by
  simp [retires, and_assoc]

/-- The chains after a quiet summary, one by one: a chain that is marked and has had no activity is IDLE. -/
theorem retired_chain (quiet : PerChain Bool) (c : Clu) (i : Chain) :
    (if retires quiet c i then { c.chains.get i with active := false } else c.chains.get i) =
      { c.chains.get i with
        active := (c.chains.get i).active && !(quiet.get i && !(c.chains.get i).activitySinceClose) } := by
  unfold retires
  generalize c.chains.get i = x
  obtain ⟨active, since⟩ := x
  cases quiet.get i <;> cases active <;> cases since <;> rfl

theorem takeQuiet_some {quiet : PerChain Bool} {c : Clu} (h : ∃ i, quiet.get i = true ∧ (c.chains.get i).active = true ∧
    (c.chains.get i).activitySinceClose = false) (now : Stamp) :
    takeQuiet now quiet c =
      recompute now (c.mapChains fun i x =>
        { x with active := x.active && !(quiet.get i && !x.activitySinceClose) }) := by
  obtain ⟨i, hi⟩ := h
  rw [takeQuiet, if_pos ((chain_any_iff _).2 ⟨i, (retires_iff quiet c i).2 hi⟩)]
  exact congrArg (fun f => recompute now { c with chains := PerChain.build f }) (funext (retired_chain quiet c))

theorem takeQuiet_none {quiet : PerChain Bool} {c : Clu} (h : ∀ i, quiet.get i = true → (c.chains.get i).active = true →
    (c.chains.get i).activitySinceClose = true) (now : Stamp) : takeQuiet now quiet c = Eff.pure c := by
  refine if_neg fun hany => ?_
  obtain ⟨i, hi⟩ := (chain_any_iff _).1 hany
  obtain ⟨hquiet, hactive, hflag⟩ := (retires_iff quiet c i).1 hi
  exact Bool.false_ne_true (hflag.symm.trans (h i hquiet hactive))

/-! ### Enforcement (R78, R98, R99) -/

theorem takeSet_now {c : Clu} {e : EpochIndex} (h : e = c.epoch ∨ c.loading = true ∧ e = nextEpoch c.epoch) (now : Stamp)
    (i : Chain) :
    takeSet now i e c = recompute now (c.setChain i fun x => { x with enforcedEpoch := some e }) := by
  have hnow : appliesNow c e = true := by
    simpa [appliesNow] using h
  rw [takeSet, if_pos hnow]
  rfl

theorem appliesNow_false {c : Clu} {e : EpochIndex} (hne : e ≠ c.epoch) (h : c.loading = false ∨ e ≠ nextEpoch c.epoch) :
    appliesNow c e = false := by
  rcases h with h | h <;> simp [appliesNow, hne, h]

theorem takeSet_held {c : Clu} {e : EpochIndex} (hne : e ≠ c.epoch) (he : e = nextEpoch c.epoch) (hl : c.loading = false)
    (now : Stamp) (i : Chain) : takeSet now i e c = Eff.pure { c with heldSets := c.heldSets ++ [(i, e)] } := by
  rw [takeSet, if_neg (Bool.eq_false_iff.1 (appliesNow_false hne (.inl hl))), if_pos he]

theorem takeSet_ignored {c : Clu} {e : EpochIndex} (hne : e ≠ c.epoch) (he : e ≠ nextEpoch c.epoch) (now : Stamp)
    (i : Chain) : takeSet now i e c = Eff.pure c := by
  rw [takeSet, if_neg (Bool.eq_false_iff.1 (appliesNow_false hne (.inr he))), if_neg he]

/-! ### The close notice at the ceiling unit (R65, R78, R98) -/

/-- What the close notice releases the enforcement of: the flags cleared, the next epoch recorded, no request held. -/
def atClose (closing : EpochIndex) (c : Clu) : Clu := { beginEpoch closing c with heldSets := [] }

theorem takeCluClose_eq (now : Stamp) (closing : EpochIndex) (c : Clu) :
    takeCluClose now closing c = (releaseEnforcement now (atClose closing c)).andThen (applySets now c.heldSets) := rfl

theorem atClose_chain (closing : EpochIndex) (c : Clu) (i : Chain) :
    (atClose closing c).chains.get i = { c.chains.get i with activitySinceClose := false } := PerChain.get_build _ i

theorem releaseEnforcement_none {c : Clu} (h : ∀ i, (c.chains.get i).enforcedEpoch = none) (now : Stamp) :
    releaseEnforcement now c = Eff.pure c := by
  refine if_neg fun hany => ?_
  obtain ⟨i, hi⟩ := (chain_any_iff _).1 hany
  rw [h i] at hi
  cases hi

theorem releaseEnforcement_some {c : Clu} (h : ∃ i, (c.chains.get i).enforcedEpoch.isSome = true) (now : Stamp) :
    releaseEnforcement now c = recompute now (c.mapChains fun _ x => { x with enforcedEpoch := none }) :=
  if_pos ((chain_any_iff _).2 h)

/-- What a release keeps: every input but the enforcements. -/
theorem releaseEnforcement_frame (now : Stamp) (c : Clu) :
    (releaseEnforcement now c).val.epoch = c.epoch ∧ (releaseEnforcement now c).val.heldSets = c.heldSets ∧
      (releaseEnforcement now c).val.power = c.power ∧ (releaseEnforcement now c).val.zones = c.zones ∧
      (releaseEnforcement now c).val.level = c.level ∧ (releaseEnforcement now c).val.oStep = c.oStep ∧
      (releaseEnforcement now c).val.loading = c.loading ∧
      ∀ i, (releaseEnforcement now c).val.chains.get i =
        { c.chains.get i with
          entry := ((releaseEnforcement now c).val.chains.get i).entry
          enforcedEpoch := none } := by
  by_cases h : ∃ i, (c.chains.get i).enforcedEpoch.isSome = true
  · rw [releaseEnforcement_some h]
    obtain ⟨hepoch, hheld, hpower, hzones, hlevel, hstep, hloading, hchains⟩ :=
      recompute_frame now (c.mapChains fun _ x => { x with enforcedEpoch := none })
    refine ⟨hepoch, hheld, hpower, hzones, hlevel, hstep, hloading, fun i => (hchains i).trans ?_⟩
    simp only [Clu.mapChains, PerChain.get_build]
  · have hnone : ∀ i, (c.chains.get i).enforcedEpoch = none := fun i =>
      Option.not_isSome_iff_eq_none.1 fun hi => h ⟨i, hi⟩
    rw [releaseEnforcement_none hnone]
    refine ⟨rfl, rfl, rfl, rfl, rfl, rfl, rfl, fun i => ?_⟩
    rw [← hnone i]
    rfl

/-- With no held request for the epoch that begins, the close notice only releases. -/
theorem takeCluClose_none {c : Clu} {closing : EpochIndex} (h : ∀ r ∈ c.heldSets, r.2 ≠ nextEpoch closing) (now : Stamp) :
    takeCluClose now closing c = releaseEnforcement now (atClose closing c) := by
  have hepoch : (releaseEnforcement now (atClose closing c)).val.epoch = nextEpoch closing :=
    (releaseEnforcement_frame now _).1
  rw [takeCluClose_eq, Eff.andThen, applySets_none now c.heldSets _ (by rwa [hepoch])]
  simp [Eff.pure]

/-- One held request for the epoch that begins follows the release, with a recompute of its own. -/
theorem takeCluClose_one {c : Clu} {closing : EpochIndex} {i : Chain} (h : c.heldSets = [(i, nextEpoch closing)])
    (now : Stamp) :
    takeCluClose now closing c =
      (releaseEnforcement now (atClose closing c)).andThen (applySet now i (nextEpoch closing)) := by
  have hepoch : (releaseEnforcement now (atClose closing c)).val.epoch = nextEpoch closing :=
    (releaseEnforcement_frame now _).1
  rw [takeCluClose_eq, h]
  simp [Eff.andThen, applySets, hepoch, Eff.pure]

/-- What the close notice keeps and makes, chain by chain. -/
theorem takeCluClose_frame (now : Stamp) (closing : EpochIndex) (c : Clu) :
    (takeCluClose now closing c).val.heldSets = [] ∧ (takeCluClose now closing c).val.epoch = nextEpoch closing ∧
      (takeCluClose now closing c).val.power = c.power ∧ (takeCluClose now closing c).val.zones = c.zones ∧
      (takeCluClose now closing c).val.level = c.level ∧ (takeCluClose now closing c).val.oStep = c.oStep ∧
      (takeCluClose now closing c).val.loading = c.loading ∧
      ∀ i, (takeCluClose now closing c).val.chains.get i =
        { c.chains.get i with
          activitySinceClose := false
          enforcedEpoch := if (i, nextEpoch closing) ∈ c.heldSets then some (nextEpoch closing) else none
          entry := ((takeCluClose now closing c).val.chains.get i).entry } := by
  obtain ⟨repoch, rheld, rpower, rzones, rlevel, rstep, rloading, rchains⟩ :=
    releaseEnforcement_frame now (atClose closing c)
  obtain ⟨hepoch, hheld, hpower, hzones, hlevel, hstep, hloading, hchains⟩ :=
    applySets_frame now c.heldSets (releaseEnforcement now (atClose closing c)).val
  refine ⟨hheld.trans rheld, hepoch.trans repoch, hpower.trans rpower, hzones.trans rzones, hlevel.trans rlevel,
    hstep.trans rstep, hloading.trans rloading, fun i => (hchains i).trans ?_⟩
  rw [repoch, rchains i, atClose_chain]
  rfl

/-- Settles O38: activity and enforcement by the equations of their cases, the close notice by `takeCluClose_frame`. -/
theorem activityAndEnforcement : Obligations.ActivityAndEnforcement := by
  refine ⟨⟨fun i s h => ?_, fun i s h => ?_, fun quiet s => ⟨fun h => ?_, fun h => ?_⟩⟩,
    fun i e s hin => ⟨fun h => ?_, fun hne he hl => ?_, fun hne he => ?_⟩, fun i e s hin => ⟨fun h => ?_, fun h => ?_⟩,
    fun n s => ?_, fun n s i h => ?_, fun n s hheld => ⟨fun h => ?_, fun h => ?_⟩⟩
  · exact exec_recomputes rfl (takeActivity_idle h s.timeBase)
  · exact exec_replaces rfl (takeActivity_active h s.timeBase)
  · exact exec_recomputes rfl (takeQuiet_some h s.timeBase)
  · exact exec_replaces rfl (takeQuiet_none h s.timeBase)
  · exact exec_recomputes_inOrder (f := fun now => takeSet now i e) rfl hin (takeSet_now h s.timeBase i)
  · exact exec_replaces_inOrder (f := fun now => takeSet now i e) rfl hin (takeSet_held hne he hl s.timeBase i)
  · exact exec_replaces_inOrder (f := fun now => takeSet now i e) rfl hin (takeSet_ignored hne he s.timeBase i)
  · exact exec_recomputes_inOrder (f := fun now => takeClear now i e) rfl hin (if_pos h)
  · exact exec_replaces_inOrder (f := fun now => takeClear now i e) rfl hin (if_neg h)
  · obtain ⟨hheld, hepoch, hpower, hzones, hlevel, hstep, hloading, hchains⟩ :=
      takeCluClose_frame s.timeBase n.closing s.clu
    refine ⟨_, rfl, rfl, hheld, hepoch, hpower, hzones, hlevel, hstep, hloading, fun i => ?_⟩
    have hchain : ((s.takeNotice (.cluCloseNotice n)).runClu (takeCluClose s.timeBase n.closing)).clu.chains.get i = _ :=
      hchains i
    rw [hchain]
    exact ⟨rfl, rfl, rfl, rfl, rfl, rfl⟩
  · have hnone := takeCluClose_none (c := { s.clu with heldSets := [] }) (closing := n.closing) (fun _ h => nomatch h)
      s.timeBase
    have hone := takeCluClose_one h s.timeBase
    refine ⟨_, _, congrArg Host.Outcome.next (runClu_eq (s := State.takeNotice _ (.cluCloseNotice n)) hnone),
      congrArg Host.Outcome.next (runClu_eq (s := s.takeNotice (.cluCloseNotice n)) hone), rfl,
      recomputed_of_recompute _ _ s _ _ rfl ?_⟩
    exact (List.append_assoc _ _ _).symm
  · exact exec_replaces rfl ((takeCluClose_none hheld s.timeBase).trans (releaseEnforcement_none (fun i => by
      rw [atClose_chain]
      exact h i) _))
  · refine exec_recomputes rfl ((takeCluClose_none hheld s.timeBase).trans ((releaseEnforcement_some ?_ _).trans ?_))
    · obtain ⟨i, hi⟩ := h
      refine ⟨i, ?_⟩
      rw [atClose_chain]
      exact hi
    · simp only [Clu.mapChains, atClose_chain]
      rfl

end Sys2Proof.Machine

/-! Thermal supervision: readings, sensors, the stage machine, rounds and parameters (R102 to R121). -/

namespace Sys2Proof.Machine

/-! ### Readings and sensors (R103 to R105) -/

theorem linearise_eq (table : List Int) (raw : BitVec 10) :
    linearise table raw = max (-320) (min 1200 (interpolate table raw.toNat)) := rfl

/-- Interpolation rounds toward negative infinity. -/
theorem interpolate_rounds (table : List Int) (n : Nat) :
    32 * interpolate table n ≤ 32 * table.getD (n / 32) 0 +
        (table.getD (n / 32 + 1) 0 - table.getD (n / 32) 0) * (n % 32 : Nat) ∧
      32 * table.getD (n / 32) 0 + (table.getD (n / 32 + 1) 0 - table.getD (n / 32) 0) * (n % 32 : Nat) <
        32 * interpolate table n + 32 := by
  simp only [interpolate, tablePoint]
  generalize (table.getD (n / 32 + 1) 0 - table.getD (n / 32) 0) * ((n % 32 : Nat) : Int) = product
  omega

theorem readSensor_good {raw : BitVec 10} (hlow : 3 ≤ raw.toNat) (hhigh : raw.toNat ≤ 1020) (table : List Int)
    (r : SensorRecord) :
    readSensor table raw r = goodReading (linearise table raw) { r with lastRaw := some raw } := by
  have hgood : ¬isFaultReading raw = true := by
    simp only [isFaultReading, Bool.or_eq_true, decide_eq_true_eq]
    omega
  rw [readSensor, if_neg hgood]

theorem readSensor_fault {raw : BitVec 10} (h : raw.toNat < 3 ∨ 1020 < raw.toNat) (table : List Int)
    (r : SensorRecord) : readSensor table raw r = faultReading { r with lastRaw := some raw } := by
  have hfault : isFaultReading raw = true := by simpa [isFaultReading] using h
  rw [readSensor, if_pos hfault]

theorem goodReading_ok {r : SensorRecord} (h : r.state = .ok) (t : Int) :
    goodReading t r = Eff.pure { r with temperature := some t } := by
  simp [goodReading, h]

theorem goodReading_suspect {r : SensorRecord} (h : r.state = .suspect) (t : Int) :
    goodReading t r = Eff.pure { r with state := .ok, temperature := some t, faultRun := 0 } := by
  simp [goodReading, h]

theorem goodReading_returns {r : SensorRecord} (h : r.state = .fault) (hrun : r.goodRun + 1 = 3) (t : Int) :
    goodReading t r =
      ⟨{ r with state := .ok, temperature := some t, faultRun := 0, goodRun := 3 }, [raiseBare .sensor]⟩ := by
  simp only [goodReading, h, if_pos hrun]

theorem goodReading_counts {r : SensorRecord} (h : r.state = .fault) (hrun : r.goodRun + 1 ≠ 3) (t : Int) :
    goodReading t r = Eff.pure { r with temperature := some t, goodRun := r.goodRun + 1 } := by
  simp only [goodReading, h, if_neg hrun]

theorem faultReading_ok {r : SensorRecord} (h : r.state = .ok) :
    faultReading r = Eff.pure { r with state := .suspect, faultRun := 1 } := by
  simp [faultReading, h]

theorem faultReading_enters {r : SensorRecord} (h : r.state = .suspect) (hrun : r.faultRun + 1 = 3) :
    faultReading r = ⟨{ r with state := .fault, faultRun := 3, goodRun := 0 }, [raiseBare .sensor]⟩ := by
  simp only [faultReading, h, if_pos hrun]

theorem faultReading_counts {r : SensorRecord} (h : r.state = .suspect) (hrun : r.faultRun + 1 ≠ 3) :
    faultReading r = Eff.pure { r with faultRun := r.faultRun + 1 } := by
  simp only [faultReading, h, if_neg hrun]

theorem faultReading_fault {r : SensorRecord} (h : r.state = .fault) :
    faultReading r = Eff.pure { r with goodRun := 0 } := by
  simp [faultReading, h]

/-- A good reading gives the sensor its temperature, in every state. -/
theorem goodReading_keeps (t : Int) (r : SensorRecord) :
    (goodReading t r).val.lastRaw = r.lastRaw ∧ (goodReading t r).val.temperature = some t := by
  unfold goodReading
  split
  · exact ⟨rfl, rfl⟩
  · exact ⟨rfl, rfl⟩
  · split <;> exact ⟨rfl, rfl⟩

/-- A fault reading leaves the temperature. -/
theorem faultReading_keeps (r : SensorRecord) :
    (faultReading r).val.lastRaw = r.lastRaw ∧ (faultReading r).val.temperature = r.temperature := by
  unfold faultReading
  split
  · exact ⟨rfl, rfl⟩
  · split <;> exact ⟨rfl, rfl⟩
  · exact ⟨rfl, rfl⟩

theorem readSensor_lastRaw (table : List Int) (raw : BitVec 10) (r : SensorRecord) :
    (readSensor table raw r).val.lastRaw = some raw := by
  by_cases h : raw.toNat < 3 ∨ 1020 < raw.toNat
  · rw [readSensor_fault h]
    exact (faultReading_keeps _).1
  · rw [readSensor_good (by omega) (by omega)]
    exact (goodReading_keeps _ _).1

/-! ### Rounds (R102, R112) -/

/-- The thermal unit's part of a step, with what it makes and sends. -/
theorem runThu_eq {s : State} {f : Thu → Eff Thu} {e : Eff Thu} (h : f s.thu = e) :
    s.runThu f = { s with thu := e.val, notices := s.notices ++ e.out } := by
  rw [State.runThu, h]

/-- What sends nothing leaves the notices as they are. -/
theorem runThu_pure {s : State} {f : Thu → Eff Thu} {t : Thu} (h : f s.thu = Eff.pure t) :
    s.runThu f = { s with thu := t } := by
  rw [runThu_eq h]
  simp [Eff.pure]

theorem samplingRound_due {now at_ : Stamp} {t : Thu} (ht : t.timer = some at_) (hdue : reached now at_ = true)
    (raw : PerSensor (BitVec 10)) : samplingRound now raw t = roundAt raw at_ t := by
  rw [samplingRound, ht, dueTimer_of_reached hdue]

theorem dwellExpiry_due {now d : Stamp} {t : Thu} {z : Zone} (hd : (t.zones.get z).dwell = some d)
    (hdue : reached now d = true) :
    dwellExpiry now z t = { t with zones := t.zones.set z { t.zones.get z with dwell := none } } := by
  rw [dwellExpiry, hd, dueTimer_of_reached hdue]

theorem readSensors_out (raw : PerSensor (BitVec 10)) (t : Thu) :
    (readSensors raw t).out = [Sensor.s0, .s1, .s2, .s3].flatMap fun n =>
      (readSensor (t.params.tables.get n) (raw.get n) (t.sensors.get n)).out := by
  simp [readSensors]

theorem updateZones_out (sensors : PerSensor SensorRecord) (at_ : Stamp) (t : Thu) :
    (updateZones sensors at_ t).out = [Zone.z0, .z1, .z2].flatMap fun z =>
      (updateZone z (t.params.zones.get z) sensors at_ (t.zones.get z)).out := by
  simp [updateZones]

/-- Settles O41: a reading by the rows of its sensor's state, a round sensor by sensor and zone by zone. -/
theorem roundsReadSensorsAndUpdateZones : Obligations.RoundsReadSensorsAndUpdateZones := by
  refine ⟨fun table raw => ?_, fun table raw r => ⟨readSensor_lastRaw table raw r, fun hlow hhigh => ?_, fun h => ?_⟩,
    fun raw s at_ ht hdue => ?_, fun z s d hd hdue => ?_⟩
  · obtain ⟨hle, hlt⟩ := interpolate_rounds table raw.toNat
    exact ⟨_, hle, hlt, linearise_eq table raw⟩
  · rw [readSensor_good hlow hhigh]
    refine ⟨(goodReading_keeps _ _).2, fun h => ?_, fun h => ?_, fun h hrun => ?_, fun h hrun => ?_⟩
    · rw [goodReading_ok (r := { r with lastRaw := some raw }) h]
      exact ⟨h, rfl⟩
    · rw [goodReading_suspect (r := { r with lastRaw := some raw }) h]
      exact ⟨rfl, rfl, rfl⟩
    · rw [goodReading_returns (r := { r with lastRaw := some raw }) h hrun]
      exact ⟨rfl, rfl, rfl⟩
    · rw [goodReading_counts (r := { r with lastRaw := some raw }) h hrun]
      exact ⟨h, rfl, rfl⟩
  · rw [readSensor_fault h]
    refine ⟨(faultReading_keeps _).2, fun h => ?_, fun h hrun => ?_, fun h hrun => ?_, fun h => ?_⟩
    · rw [faultReading_ok (r := { r with lastRaw := some raw }) h]
      exact ⟨rfl, rfl, rfl⟩
    · rw [faultReading_enters (r := { r with lastRaw := some raw }) h hrun]
      exact ⟨rfl, rfl, rfl⟩
    · rw [faultReading_counts (r := { r with lastRaw := some raw }) h hrun]
      exact ⟨h, rfl, rfl⟩
    · rw [faultReading_fault (r := { r with lastRaw := some raw }) h]
      exact ⟨h, rfl, rfl⟩
  · refine ⟨_, congrArg Host.Outcome.next (runThu_eq (samplingRound_due ht hdue raw)), rfl, rfl, rfl,
      fun n => PerSensor.get_build _ n, fun z => PerZone.get_build _ z, ?_⟩
    rw [List.append_assoc, ← readSensors_out, ← updateZones_out]
    rfl
  · exact congrArg Host.Outcome.next (runThu_pure (congrArg Eff.pure (dwellExpiry_due hd hdue)))

/-! ### Parameters and the entry to RUN (R102, R119) -/

/-- Settles O43: before RUN the notices of the start-up load, in RUN those of the zones whose backoff changes. -/
theorem thermalParametersAndEntry : Obligations.ThermalParametersAndEntry := by
  refine ⟨fun x s => ⟨_, rfl, rfl, fun ht => ?_, fun ht => ?_⟩, fun at_ s ht => ?_⟩
  · have hout : (takeThermal x s.thu).out = startupStageNotices := if_pos (by rw [ht]; rfl)
    exact congrArg (s.notices.erase (.thermalDelivery x) ++ ·) hout
  · have hout : (takeThermal x s.thu).out = applyStageNotices x s.thu :=
      if_neg (by rwa [Option.isNone_iff_eq_none])
    exact congrArg (s.notices.erase (.thermalDelivery x) ++ ·) hout
  · refine congrArg Host.Outcome.next (runThu_pure (s := s.takeNotice (.thuEntryToRun at_)) (congrArg Eff.pure ?_))
    rw [State.takeNotice_thu, takeThuEntry, ht]
    rfl

/-! ### The stage machine (R110 to R113) -/

theorem changeStage_eq (z : Zone) (p : ZoneParams) (at_ : Stamp) (n : Nat) (r : ZoneRecord) :
    changeStage z p at_ n r =
      ⟨{ r with stage := n, dwell := some (afterMs at_ p.dwellMs) },
        [raiseBare .thermal, .stageTripNotice { zone := z, stage := n, backoff := backoffOf p n, trip := r.trip }]⟩ := rfl

theorem changeTrip_eq (z : Zone) (p : ZoneParams) (at_ : Stamp) (trip : Bool) (r : ZoneRecord) :
    changeTrip z p at_ trip r =
      ⟨{ r with stage := 7, trip := trip, dwell := some (afterMs at_ p.dwellMs) },
        [raiseBare .trip, .stageTripNotice { zone := z, stage := 7, backoff := backoffOf p 7, trip := trip }]⟩ := rfl

section
variable {z : Zone} {p : ZoneParams} {at_ : Stamp} {t : Int} {r : ZoneRecord}

/-- TRIP is left below its threshold less the hysteresis. -/
theorem evaluateZone_leavesTrip (htrip : r.trip = true) (ht : t < p.riseTrip - (p.hyst : Int)) :
    evaluateZone z p at_ t r = changeTrip z p at_ false r := by
  rw [evaluateZone, if_pos htrip, if_pos ht]

theorem evaluateZone_staysInTrip (htrip : r.trip = true) (ht : p.riseTrip - (p.hyst : Int) ≤ t) :
    evaluateZone z p at_ t r = Eff.pure r := by
  rw [evaluateZone, if_pos htrip, if_neg (Int.not_lt.2 ht)]

theorem evaluateZone_entersTrip (htrip : r.trip = false) (ht : p.riseTrip ≤ t) :
    evaluateZone z p at_ t r = changeTrip z p at_ true r := by
  rw [evaluateZone, if_neg (Bool.eq_false_iff.1 htrip), if_pos ht]

/-- Outside TRIP and below its threshold the stage's own rows apply. -/
theorem evaluateZone_outsideTrip (htrip : r.trip = false) (ht : t < p.riseTrip) :
    evaluateZone z p at_ t r =
      if r.stage < 7 && decide (riseOf p (r.stage + 1) ≤ t) then changeStage z p at_ (stageReached p t 7) r
      else if 0 < r.stage && decide (t < riseOf p r.stage - (p.hyst : Int)) && r.dwell.isNone then
        changeStage z p at_ (r.stage - 1) r
      else Eff.pure r := by
  rw [evaluateZone, if_neg (Bool.eq_false_iff.1 htrip), if_neg (Int.not_le.2 ht)]

theorem evaluateZone_rises (htrip : r.trip = false) (ht : t < p.riseTrip) (hstage : r.stage < 7)
    (hrise : riseOf p (r.stage + 1) ≤ t) :
    evaluateZone z p at_ t r = changeStage z p at_ (stageReached p t 7) r := by
  rw [evaluateZone_outsideTrip htrip ht, if_pos (by simp [hstage, hrise])]

/-- Below the next stage's threshold no rise takes place. -/
theorem evaluateZone_noRise (htrip : r.trip = false) (ht : t < p.riseTrip)
    (hrise : r.stage < 7 → t < riseOf p (r.stage + 1)) :
    evaluateZone z p at_ t r =
      if 0 < r.stage && decide (t < riseOf p r.stage - (p.hyst : Int)) && r.dwell.isNone then
        changeStage z p at_ (r.stage - 1) r
      else Eff.pure r := by
  have hno : ¬(r.stage < 7 && decide (riseOf p (r.stage + 1) ≤ t)) = true := by
    simp only [Bool.and_eq_true, decide_eq_true_eq, not_and]
    exact fun h => Int.not_le.2 (hrise h)
  rw [evaluateZone_outsideTrip htrip ht, if_neg hno]

theorem evaluateZone_stepsDown (htrip : r.trip = false) (ht : t < p.riseTrip)
    (hrise : r.stage < 7 → t < riseOf p (r.stage + 1)) (hpos : 0 < r.stage)
    (hcool : t < riseOf p r.stage - (p.hyst : Int)) (hdwell : r.dwell = none) :
    evaluateZone z p at_ t r = changeStage z p at_ (r.stage - 1) r := by
  rw [evaluateZone_noRise htrip ht hrise, if_pos (by simp [hpos, hcool, hdwell])]

/-- While the dwell runs the stage does not fall. -/
theorem evaluateZone_dwells (htrip : r.trip = false) (ht : t < p.riseTrip)
    (hrise : r.stage < 7 → t < riseOf p (r.stage + 1)) (hdwell : r.dwell ≠ none) :
    evaluateZone z p at_ t r = Eff.pure r := by
  rw [evaluateZone_noRise htrip ht hrise, if_neg (by simp [Option.isNone_iff_eq_none, hdwell])]

theorem evaluateZone_stays (htrip : r.trip = false) (ht : t < p.riseTrip)
    (hrise : r.stage < 7 → t < riseOf p (r.stage + 1))
    (hwarm : 0 < r.stage → riseOf p r.stage - (p.hyst : Int) ≤ t) : evaluateZone z p at_ t r = Eff.pure r := by
  have hno : ¬(decide (0 < r.stage) && decide (t < riseOf p r.stage - (p.hyst : Int)) && r.dwell.isNone) = true := by
    simp only [Bool.and_eq_true, decide_eq_true_eq, not_and]
    exact fun h => absurd h.2 (Int.not_lt.2 (hwarm h.1))
  rw [evaluateZone_noRise htrip ht hrise, if_neg hno]

/-- An evaluation leaves what the round has set of the zone. -/
theorem evaluateZone_keeps :
    (evaluateZone z p at_ t r).val.forced = r.forced ∧ (evaluateZone z p at_ t r).val.temperature = r.temperature := by
  unfold evaluateZone
  repeat' split
  all_goals exact ⟨rfl, rfl⟩

/-! ### Forced zones (R108, R114) -/

theorem handleForced_inTrip (htrip : r.trip = true) : handleForced z p at_ r = Eff.pure r := if_pos htrip

theorem handleForced_rises (htrip : r.trip = false) (hstage : r.stage < p.faultStage) :
    handleForced z p at_ r = changeStage z p at_ p.faultStage r := by
  rw [handleForced, if_neg (Bool.eq_false_iff.1 htrip), if_pos hstage]

theorem handleForced_stepsDown (htrip : r.trip = false) (hstage : p.faultStage < r.stage) (hdwell : r.dwell = none) :
    handleForced z p at_ r = changeStage z p at_ (r.stage - 1) r := by
  rw [handleForced, if_neg (Bool.eq_false_iff.1 htrip), if_neg (Nat.not_lt.2 (Nat.le_of_lt hstage)),
    if_pos (by simp [hstage, hdwell])]

theorem handleForced_dwells (htrip : r.trip = false) (hstage : p.faultStage < r.stage) (hdwell : r.dwell ≠ none) :
    handleForced z p at_ r = Eff.pure r := by
  rw [handleForced, if_neg (Bool.eq_false_iff.1 htrip), if_neg (Nat.not_lt.2 (Nat.le_of_lt hstage)),
    if_neg (by simp [Option.isNone_iff_eq_none, hdwell])]

theorem handleForced_atFaultStage (hstage : r.stage = p.faultStage) : handleForced z p at_ r = Eff.pure r := by
  simp [handleForced, hstage]

/-- A forced zone keeps its TRIP and what the round has set of it. -/
theorem handleForced_keeps :
    (handleForced z p at_ r).val.forced = r.forced ∧ (handleForced z p at_ r).val.temperature = r.temperature ∧
      (handleForced z p at_ r).val.trip = r.trip := by
  unfold handleForced
  repeat' split
  all_goals exact ⟨rfl, rfl, rfl⟩

/-- The stage falls by one at most, with the dwell ELAPSED, and the dwell restarts. -/
def FallsByOne (p : ZoneParams) (at_ : Stamp) (r r' : ZoneRecord) : Prop :=
  r'.stage < r.stage → r'.stage + 1 = r.stage ∧ r.dwell = none ∧ r'.dwell = some (afterMs at_ p.dwellMs)

theorem fallsByOne_of_le {r' : ZoneRecord} (h : r.stage ≤ r'.stage) : FallsByOne p at_ r r' :=
  fun hlt => absurd h (Nat.not_le.2 hlt)

theorem fallsByOne_stepDown (hpos : 0 < r.stage) (hdwell : r.dwell = none) :
    FallsByOne p at_ r (changeStage z p at_ (r.stage - 1) r).val :=
  fun _ => ⟨Nat.succ_pred_eq_of_pos hpos, hdwell, rfl⟩

theorem fallsByOne_handleForced : FallsByOne p at_ r (handleForced z p at_ r).val := by
  cases htrip : r.trip with
  | true => rw [handleForced_inTrip htrip]; exact fallsByOne_of_le (Nat.le_refl _)
  | false =>
    rcases Nat.lt_trichotomy r.stage p.faultStage with hlt | heq | hgt
    · rw [handleForced_rises htrip hlt]
      exact fallsByOne_of_le (Nat.le_of_lt hlt)
    · rw [handleForced_atFaultStage heq]
      exact fallsByOne_of_le (Nat.le_refl _)
    · cases hdwell : r.dwell with
      | none => rw [handleForced_stepsDown htrip hgt hdwell]; exact fallsByOne_stepDown (by omega) hdwell
      | some d =>
        rw [handleForced_dwells htrip hgt (hdwell ▸ Option.some_ne_none d)]
        exact fallsByOne_of_le (Nat.le_refl _)

/-- A rise leads above the stage it starts from. -/
theorem lt_stageReached (hstage : r.stage < 7) (hrise : riseOf p (r.stage + 1) ≤ t) : r.stage < stageReached p t 7 := by
  obtain ⟨-, -, -, hmax⟩ := stageReached_spec p t 7
  exact hmax (r.stage + 1) hstage (Nat.succ_ne_zero _) hrise

theorem fallsByOne_evaluateZone (hstage : r.stage ≤ 7) : FallsByOne p at_ r (evaluateZone z p at_ t r).val := by
  unfold evaluateZone
  split
  · split
    · exact fallsByOne_of_le hstage
    · exact fallsByOne_of_le (Nat.le_refl _)
  · split
    · exact fallsByOne_of_le hstage
    · split
      case isTrue hrise =>
        simp only [Bool.and_eq_true, decide_eq_true_eq] at hrise
        exact fallsByOne_of_le (Nat.le_of_lt (lt_stageReached hrise.1 hrise.2))
      case isFalse =>
        split
        case isTrue hcool =>
          simp only [Bool.and_eq_true, decide_eq_true_eq, Option.isNone_iff_eq_none] at hcool
          obtain ⟨⟨hpos, -⟩, hdwell⟩ := hcool
          exact fallsByOne_stepDown hpos hdwell
        case isFalse => exact fallsByOne_of_le (Nat.le_refl _)

end

/-! ### A zone's part of a round (R108, R109) -/

section
variable {z : Zone} {p : ZoneParams} {sensors : PerSensor SensorRecord} {at_ : Stamp} {r : ZoneRecord}

theorem updateZone_forced (h : isForced sensors p = true) :
    updateZone z p sensors at_ r = handleForced z p at_ { r with forced := true, temperature := none } := if_pos h

theorem updateZone_cold (h : isForced sensors p = false) (ht : zoneTemperature sensors p = none) :
    updateZone z p sensors at_ r = Eff.pure { r with forced := false, temperature := none } := by
  rw [updateZone, if_neg (Bool.eq_false_iff.1 h), ht]

theorem updateZone_warm (h : isForced sensors p = false) {x : Int} (ht : zoneTemperature sensors p = some x) :
    updateZone z p sensors at_ r = evaluateZone z p at_ x { r with forced := false, temperature := some x } := by
  rw [updateZone, if_neg (Bool.eq_false_iff.1 h), ht]

theorem updateZone_forced_eq : (updateZone z p sensors at_ r).val.forced = isForced sensors p := by
  cases h : isForced sensors p with
  | true => rw [updateZone_forced h]; exact handleForced_keeps.1
  | false =>
    cases ht : zoneTemperature sensors p with
    | none => rw [updateZone_cold h ht]; rfl
    | some x => rw [updateZone_warm h ht]; exact evaluateZone_keeps.1

theorem zoneTemperature_eq_some {x : Int} : zoneTemperature sensors p = some x ↔
    (∃ n, p.members.get n = true ∧ (sensors.get n).state ≠ .fault ∧ (sensors.get n).temperature = some x) ∧
      ∀ n y, p.members.get n = true → (sensors.get n).state ≠ .fault → (sensors.get n).temperature = some y → y ≤ x := by
  simp only [zoneTemperature_eq_some_iff, contribution_eq_some_iff, and_imp]

/-- No member of a forced zone contributes. -/
theorem zoneTemperature_of_forced (h : isForced sensors p = true) : zoneTemperature sensors p = none := by
  refine Option.eq_none_iff_forall_ne_some.2 fun x hx => ?_
  obtain ⟨⟨n, hmember, hok, -⟩, -⟩ := zoneTemperature_eq_some.1 hx
  exact hok ((isForced_iff sensors p).1 h n hmember)

theorem updateZone_temperature : (updateZone z p sensors at_ r).val.temperature = zoneTemperature sensors p := by
  cases h : isForced sensors p with
  | true =>
    rw [updateZone_forced h, zoneTemperature_of_forced h]
    obtain ⟨-, htemperature, -⟩ :=
      handleForced_keeps (z := z) (p := p) (at_ := at_) (r := { r with forced := true, temperature := none })
    exact htemperature
  | false =>
    cases ht : zoneTemperature sensors p with
    | none => rw [updateZone_cold h ht]; rfl
    | some x => rw [updateZone_warm h ht]; exact evaluateZone_keeps.2

theorem isForced_eq_false (h : ∃ n, p.members.get n = true ∧ (sensors.get n).state ≠ .fault) :
    isForced sensors p = false := by
  obtain ⟨n, hmember, hok⟩ := h
  exact Bool.eq_false_iff.2 fun hf => hok ((isForced_iff sensors p).1 hf n hmember)

theorem fallsByOne_updateZone (hstage : r.stage ≤ 7) : FallsByOne p at_ r (updateZone z p sensors at_ r).val := by
  cases h : isForced sensors p with
  | true =>
    rw [updateZone_forced h]
    exact fallsByOne_handleForced (r := { r with forced := true, temperature := none })
  | false =>
    cases ht : zoneTemperature sensors p with
    | none => rw [updateZone_cold h ht]; exact fallsByOne_of_le (Nat.le_refl _)
    | some x =>
      rw [updateZone_warm h ht]
      exact fallsByOne_evaluateZone (r := { r with forced := false, temperature := some x }) hstage

end

/-- Settles O42: each row by its equation, a zone's part of a round by the three cases of `updateZone`. -/
theorem stageMachineOutcomes : Obligations.StageMachineOutcomes := by
  refine ⟨fun z p at_ t r => ⟨fun htrip ht => ?_, fun htrip ht => evaluateZone_staysInTrip htrip ht, fun htrip ht => ?_,
    fun htrip ht hstage hrise => ?_, fun htrip ht hrise hpos hcool => ⟨fun hdwell => ?_, fun hdwell =>
      evaluateZone_dwells htrip ht hrise hdwell⟩, fun htrip ht hrise hwarm => evaluateZone_stays htrip ht hrise hwarm⟩,
    fun p n => ⟨rfl, rfl, rfl⟩, fun z p sensors at_ r => ⟨?_, fun x => ?_, fun hok => ⟨fun ht => ?_, fun x ht => ?_⟩,
      fun hall => ?_⟩, fun z p sensors at_ r hstage _ => ⟨fallsByOne_updateZone hstage, fun hforced => ?_⟩⟩
  · rw [evaluateZone_leavesTrip htrip ht, changeTrip_eq]
    exact ⟨rfl, rfl⟩
  · rw [evaluateZone_entersTrip htrip ht, changeTrip_eq]
    exact ⟨rfl, rfl⟩
  · obtain ⟨hle, habove, hreached, -⟩ := stageReached_spec p t 7
    have hlt := lt_stageReached hstage hrise
    rw [evaluateZone_rises htrip ht hstage hrise, changeStage_eq, htrip]
    exact ⟨_, hlt, hle, hreached (Nat.ne_of_gt (Nat.zero_lt_of_lt hlt)), habove, rfl, rfl⟩
  · rw [evaluateZone_stepsDown htrip ht hrise hpos hcool hdwell, changeStage_eq, htrip]
    exact ⟨rfl, rfl⟩
  · rw [updateZone_forced_eq]
    exact isForced_iff sensors p
  · rw [updateZone_temperature]
    exact zoneTemperature_eq_some
  · rw [updateZone_temperature] at ht
    exact updateZone_cold (isForced_eq_false hok) ht
  · rw [updateZone_temperature] at ht
    exact updateZone_warm (isForced_eq_false hok) ht
  · have hforced := (isForced_iff sensors p).2 hall
    refine ⟨fun htrip => ?_, fun htrip hlt => ?_, fun htrip hgt hdwell => ?_, fun htrip hgt hdwell => ?_,
      fun htrip heq => ?_⟩ <;> rw [updateZone_forced hforced]
    · exact handleForced_inTrip htrip
    · rw [handleForced_rises (r := { r with forced := true, temperature := none }) htrip hlt, changeStage_eq, htrip]
    · rw [handleForced_stepsDown (r := { r with forced := true, temperature := none }) htrip hgt hdwell, changeStage_eq,
        htrip]
    · exact handleForced_dwells htrip hgt hdwell
    · exact handleForced_atFaultStage heq
  · obtain ⟨hset, htemp, htrip⟩ :=
      handleForced_keeps (z := z) (p := p) (at_ := at_) (r := { r with forced := true, temperature := none })
    rw [updateZone_forced hforced]
    refine ⟨hset, htemp, htrip, fun hno hlt => ?_, fun heq => ?_⟩
    · rw [handleForced_rises (r := { r with forced := true, temperature := none }) hno hlt]
      rfl
    · rw [handleForced_atFaultStage (r := { r with forced := true, temperature := none }) heq]
      exact heq

end Sys2Proof.Machine

/-! The exposure windows: epochs, the close computation, the window figures and the entry to RUN (R9 to R11, R39 to R62). -/

namespace Sys2Proof.Machine

/-! ### What the window unit does in a step -/

/-- The window unit's part of a step, with what it makes and sends. -/
theorem runEwu_eq {s : State} {f : Ewu → Eff Ewu} {e : Eff Ewu} (h : f s.ewu = e) :
    s.runEwu f = { s with ewu := e.val, notices := s.notices ++ e.out } := by
  rw [State.runEwu, h]

/-- What sends nothing leaves the notices as they are. -/
theorem runEwu_pure {s : State} {f : Ewu → Eff Ewu} {e : Ewu} (h : f s.ewu = Eff.pure e) :
    s.runEwu f = { s with ewu := e } := by
  rw [runEwu_eq h]
  simp [Eff.pure]

/-- A notice the window unit takes and holds. -/
theorem exec_ewuHolds {m : Instr} {s : State} {f : Ewu → Eff Ewu} {e : Ewu}
    (hexec : exec m s = .next ((s.takeNotice m).runEwu f)) (h : f s.ewu = Eff.pure e) :
    exec m s = .next { s with ewu := e, notices := s.notices.erase m } :=
  hexec.trans (congrArg Host.Outcome.next (runEwu_pure (s := s.takeNotice m) h))

/-! ### The epoch timer and COLLECTING (R39 to R41, R46, R47) -/

theorem epochTimer_due {e : Ewu} {b now : Stamp} (hs : e.state = .steady) (ht : e.timer = some b)
    (hdue : reached now b = true) : epochTimer now e = epochExpiry b e := by
  rw [epochTimer, if_pos hs, ht, dueTimer_of_reached hdue]

theorem holdReport_collecting {e : Ewu} (hs : e.state = .collecting) (r : PerChain ChainReport) :
    holdReport r e = { e with report := some r } := if_pos hs

theorem holdAnswer_collecting {e : Ewu} (hs : e.state = .collecting) (a : PolicyAnswer) :
    holdAnswer a e = { e with answer := some a } := if_pos hs

/-- Settles O33: the expiry by `epochTimer_due`, the two held items by the state COLLECTING. -/
theorem epochTimerClosesAndCollects : Obligations.EpochTimerClosesAndCollects := by
  refine ⟨fun s b hs ht hdue => ?_, fun s hs r a => ⟨?_, ?_⟩⟩
  · exact congrArg Host.Outcome.next (runEwu_eq (epochTimer_due hs ht hdue))
  · exact exec_ewuHolds rfl (congrArg Eff.pure (holdReport_collecting hs r))
  · exact exec_ewuHolds rfl (congrArg Eff.pure (holdAnswer_collecting hs a))

/-! ### The close computation (R42 to R44, R48) -/

theorem closeComputation_held {e : Ewu} {r : PerChain ChainReport} {a : PolicyAnswer} (hs : e.state = .collecting)
    (hr : e.report = some r) (ha : e.answer = some a) : closeComputation e = closeWith r a e := by
  rw [closeComputation, if_pos hs, hr, ha]

theorem groupEnergy_eq (map : PerChain Group) (r : PerChain ChainReport) (g : Group) :
    groupEnergy map r g = (Chain.all.map fun i => if map.get i = g then (r.get i).energy.toNat else 0).sum :=
  sum_filter (fun i => map.get i = g) (fun i => (r.get i).energy.toNat) Chain.all

theorem groupStrikes_eq (map : PerChain Group) (r : PerChain ChainReport) (g : Group) :
    groupStrikes map r g = BitVec.ofNat 8
      (min 255 (Chain.all.map fun i => if map.get i = g then (r.get i).strikes.toNat else 0).sum) :=
  congrArg (fun n => BitVec.ofNat 8 (min 255 n))
    (sum_filter (fun i => map.get i = g) (fun i => (r.get i).strikes.toNat) Chain.all)

theorem closingRecord_eq (e : Ewu) (r : PerChain ChainReport) (g : Group) :
    closingRecord e r g =
      { epochIndex := e.closing
        energy := BitVec.ofNat 40
          (Chain.all.map fun i => if e.params.map.get i = g then (r.get i).energy.toNat else 0).sum
        assumed := false
        strikes := BitVec.ofNat 8
          (min 255 (Chain.all.map fun i => if e.params.map.get i = g then (r.get i).strikes.toNat else 0).sum)
        scenario := e.scenario } := by
  rw [closingRecord, groupEnergy_eq, groupStrikes_eq]

/-- Refreshed figures are those of the ring and the limits. -/
theorem EwuGroup.refresh_figures (tMs : Nat) (w : EwuGroup) :
    (w.refresh tMs).figures = figuresOf (w.refresh tMs).ring (w.refresh tMs).limits tMs := rfl

theorem closeGroup_ring (e : Ewu) (r : PerChain ChainReport) (a : PolicyAnswer) (g : Group) :
    (closeGroup e r a g).ring = pushRecord (e.groups.get g).ring (closingRecord e r g) := by
  rw [closeGroup, EwuGroup.refresh]

theorem closedEwu_group (e : Ewu) (r : PerChain ChainReport) (a : PolicyAnswer) (g : Group) :
    (closedEwu e r a).groups.get g = closeGroup e r a g := PerGroup.get_build _ g

theorem pushRecord_of_room {ring : List EpochRecord} (r : EpochRecord) (h : ring.length < 1024) :
    pushRecord ring r = ring ++ [r] := by
  have hzero : ring.length + 1 - 1024 = 0 := by omega
  rw [pushRecord_eq, hzero, List.drop_zero]

/-- A record that joins a full ring drives the oldest out. -/
theorem pushRecord_of_full {ring : List EpochRecord} (r : EpochRecord) (h : ring.length = 1024) :
    pushRecord ring r = ring.tail ++ [r] := by
  have hone : ring.length + 1 - 1024 = 1 := by omega
  rw [pushRecord_eq, hone, List.drop_one]

theorem pushRecord_length {ring : List EpochRecord} (r : EpochRecord) (h : ring.length ≤ 1024) :
    (pushRecord ring r).length = min 1024 (ring.length + 1) := by
  rw [pushRecord_eq, List.length_append, List.length_drop, List.length_singleton]
  omega

theorem pushRecord_newest (ring : List EpochRecord) (r : EpochRecord) : (pushRecord ring r).getLast? = some r := by
  rw [pushRecord_eq, List.getLast?_concat]

/-- Settles O34: the record by `closingRecord_eq`, the groups by `closedEwu_group`, a push by `pushRecord_eq`. -/
theorem closeComputationPushesAndGrants : Obligations.CloseComputationPushesAndGrants := by
  refine ⟨fun s r a hs hr ha => ?_, fun ring r hlen =>
    ⟨pushRecord_length r hlen, pushRecord_newest ring r, pushRecord_of_room r, pushRecord_of_full r⟩⟩
  refine ⟨_, congrArg Host.Outcome.next (runEwu_eq (closeComputation_held hs hr ha)), rfl, rfl, rfl, rfl, rfl, rfl, rfl,
    rfl, rfl, rfl, fun g => ?_⟩
  have hgroup : (closeWith r a s.ewu).val.groups.get g = closeGroup s.ewu r a g := closedEwu_group s.ewu r a g
  rw [← closingRecord_eq, hgroup]
  exact ⟨rfl, closeGroup_ring _ _ _ _, EwuGroup.refresh_figures _ _⟩

/-! ### The window figures (R9, R10, R49 to R52) -/

theorem windowOf_length (ring : List EpochRecord) (n : Nat) : (windowOf ring n).length = min (n - 1) ring.length := by
  rw [windowOf, List.length_drop]
  omega

theorem windowOf_isSuffixOf (ring : List EpochRecord) (n : Nat) : (windowOf ring n).isSuffixOf ring = true :=
  List.isSuffixOf_iff_suffix.2 (List.drop_suffix _ _)

theorem mem_of_mem_windowOf {ring : List EpochRecord} {n : Nat} {r : EpochRecord} (h : r ∈ windowOf ring n) : r ∈ ring :=
  List.mem_of_mem_drop h

theorem windowExcess_le (w : List EpochRecord) (eRes : Nat) : windowExcess w eRes ≤ windowEnergy w := by
  induction w with
  | nil => exact Nat.le_refl _
  | cons r w ih =>
    simp only [windowEnergy, windowExcess, List.map_cons, List.sum_cons] at ih ⊢
    unfold excess at ih ⊢
    omega

theorem windowEnergy_le_of_bound {w : List EpochRecord} {b : Nat} (h : ∀ r ∈ w, r.energy.toNat ≤ b) :
    windowEnergy w ≤ w.length * b := by
  induction w with
  | nil => exact Nat.zero_le _
  | cons r w ih =>
    have hr := h r List.mem_cons_self
    have hw := ih fun x hx => h x (List.mem_cons_of_mem _ hx)
    simp only [windowEnergy, List.map_cons, List.sum_cons, List.length_cons, Nat.succ_mul] at hw ⊢
    omega

/-- The greatest linear power (R2). -/
theorem lin_le_max (c : Code) : lin c ≤ 2371000000 := lin_255 ▸ lin_le_lin (code_toNat_le_255 c)

theorem epochEnergy_le_max (c : Code) {tMs : Nat} (h : tMs ≤ 500) : epochEnergy c tMs ≤ 1185500000 :=
  calc epochEnergy c tMs ≤ 2371000000 * 500 / 1000 := Nat.div_le_div_right (Nat.mul_le_mul (lin_le_max c) h)
    _ = 1185500000 := by decide

/-- X_max and one e_res are N times the difference and one e_res: at most N times e_avg. -/
theorem bound_add_le {n eAvg eRes : Nat} (hn : 1 ≤ n) (h : eRes ≤ eAvg) : eRes + n * (eAvg - eRes) ≤ n * eAvg := by
  have hdiff : n * (eAvg - eRes) + n * eRes = n * eAvg := by rw [← Nat.mul_add, Nat.sub_add_cancel h]
  have hone : eRes ≤ n * eRes := Nat.le_mul_of_pos_left eRes hn
  omega

/-- N windows of e_res, and N times the difference, are N times e_avg. -/
theorem residual_add_bound {n eAvg eRes : Nat} (h : eRes ≤ eAvg) : n * eRes + n * (eAvg - eRes) = n * eAvg := by
  rw [← Nat.mul_add, Nat.add_sub_cancel' h]

/-- The exposure law over the window and the epoch that comes. -/
theorem window_law {w : List EpochRecord} {n eAvg eRes e : Nat} (hn : 1 ≤ n) (hlen : w.length ≤ n - 1) (h : eRes ≤ eAvg)
    (hx : windowExcess w eRes ≤ n * (eAvg - eRes)) (he : e ≤ eRes + (n * (eAvg - eRes) - windowExcess w eRes)) :
    windowEnergy w + e ≤ n * eAvg := by
  have henergy : windowEnergy w ≤ windowExcess w eRes + w.length * eRes := energies_le_excesses w eRes
  have hres : w.length * eRes + eRes ≤ n * eRes :=
    calc w.length * eRes + eRes = (w.length + 1) * eRes := (Nat.succ_mul _ _).symm
      _ ≤ n * eRes := Nat.mul_le_mul_right _ (by omega)
  have htotal := residual_add_bound (n := n) h
  omega

/-- The allowance is never above N times the average energy. -/
theorem allowance_le (w : List EpochRecord) {n eAvg eRes : Nat} (hn : 1 ≤ n) (h : eRes ≤ eAvg) :
    eRes + (n * (eAvg - eRes) - windowExcess w eRes) ≤ n * eAvg :=
  calc eRes + (n * (eAvg - eRes) - windowExcess w eRes) ≤ eRes + n * (eAvg - eRes) :=
        Nat.add_le_add_left (Nat.sub_le _ _) _
    _ ≤ n * eAvg := bound_add_le hn h

/-- The power of an allowance is at most N times the greatest linear power. -/
theorem groupPower_le {e n tMs : Nat} {c : Code} (hn : n ≤ 1024) (ht : 50 ≤ tMs) (he : e ≤ n * epochEnergy c tMs) :
    e * 1000 / tMs ≤ 24279040000000 := by
  have hmul : epochEnergy c tMs * 1000 ≤ lin c * tMs := Nat.div_mul_le_self _ _
  refine Nat.div_le_of_le_mul ?_
  calc e * 1000 ≤ n * epochEnergy c tMs * 1000 := Nat.mul_le_mul_right _ he
    _ = n * (epochEnergy c tMs * 1000) := Nat.mul_assoc _ _ _
    _ ≤ 1024 * (2371000000 * tMs) :=
        Nat.mul_le_mul hn (Nat.le_trans hmul (Nat.mul_le_mul_right _ (lin_le_max c)))
    _ ≤ tMs * 24279040000000 := by omega

/-- What fits the 48 bits is held as it is (R12). -/
theorem held_toNat {n : Nat} (h : n < 281474976710656) : (BitVec.ofNat 48 n).toNat = n := by
  rw [BitVec.toNat_ofNat]
  exact Nat.mod_eq_of_lt h

/-- Settles O35: the law by `window_law`, the ranges by the bounds on energies, allowance and power. -/
theorem windowAndAllowanceKeepTheAverage : Obligations.WindowAndAllowanceKeepTheAverage := by
  refine ⟨fun ring l tMs => ⟨windowOf_length _ _, windowOf_isSuffixOf _ _, rfl, rfl, rfl, Nat.le_add_right _ _,
    Nat.add_le_add_left (Nat.sub_le _ _) _, fun h => ?_, fun h => ?_, rfl⟩, fun ring l tMs e hn hfloor hx he => ?_,
    fun ring l tMs hring hn ht htMax hfloor hpos => ?_⟩
  · exact congrArg (epochEnergy l.floor tMs + ·) (Nat.sub_eq_zero_of_le h)
  · have heq : (exactFigures ring l tMs).eAllow =
        epochEnergy l.floor tMs + ((exactFigures ring l tMs).xMax - (exactFigures ring l tMs).xWin) := rfl
    omega
  · have hallow : (exactFigures ring l tMs).eAllow =
        epochEnergy l.floor tMs + ((exactFigures ring l tMs).xMax - (exactFigures ring l tMs).xWin) := rfl
    have hlen : (windowOf ring l.window).length ≤ l.window - 1 := by
      rw [windowOf_length]
      exact Nat.min_le_left _ _
    refine ⟨window_law hn hlen (epochEnergy_mono l.floor l.avg tMs hfloor) hx he, ?_⟩
    unfold excess
    omega
  · have hres := epochEnergy_mono l.floor l.avg tMs hfloor
    have havg := epochEnergy_le_max l.avg htMax
    have hwindow : (windowOf ring l.window).length * 4742000000 ≤ 1023 * 4742000000 := by
      rw [windowOf_length]
      omega
    have hsWin : (exactFigures ring l tMs).sWin ≤ 1023 * 4742000000 :=
      Nat.le_trans (windowEnergy_le_of_bound fun r hr => hring r (mem_of_mem_windowOf hr)) hwindow
    have hxWin : (exactFigures ring l tMs).xWin ≤ (exactFigures ring l tMs).sWin := windowExcess_le _ _
    have hallow : (exactFigures ring l tMs).eAllow ≤ l.window * epochEnergy l.avg tMs := allowance_le _ hpos hres
    have hbound : l.window * epochEnergy l.avg tMs ≤ 1024 * 1185500000 := Nat.mul_le_mul hn havg
    have hxMax : (exactFigures ring l tMs).xMax ≤ l.window * epochEnergy l.avg tMs :=
      Nat.mul_le_mul_left _ (Nat.sub_le _ _)
    have hpower : (exactFigures ring l tMs).power ≤ 24279040000000 := groupPower_le hn ht hallow
    have hheld : (figuresOf ring l tMs).power.toNat = (exactFigures ring l tMs).power := held_toNat (by omega)
    exact ⟨held_toNat (by omega), held_toNat (by omega), held_toNat (by omega), held_toNat (by omega), hheld,
      hheld ▸ hpower⟩

/-! ### Start-up (R45, R53) -/

theorem takeEwuParams_stopped {e : Ewu} (hs : e.state = .stopped) (x : EwuParams) :
    takeEwuParams x e = { e with params := x } := if_pos hs

theorem takeStartupAnswer_held {e : Ewu} (hs : e.state = .stopped) (hh : e.heldEntry = none) (a : PolicyAnswer) :
    takeStartupAnswer a e = Eff.pure { e with startupAnswer := some a } := by
  rw [takeStartupAnswer, if_pos hs, hh]

theorem takeStartupAnswer_enters {e : Ewu} {t : Stamp} (hs : e.state = .stopped) (hh : e.heldEntry = some t)
    (a : PolicyAnswer) : takeStartupAnswer a e = enterRun t a e := by
  rw [takeStartupAnswer, if_pos hs, hh]

theorem takeEntry_held {e : Ewu} (hs : e.state = .stopped) (ha : e.startupAnswer = none) (t : Stamp) :
    takeEntry t e = Eff.pure { e with heldEntry := some t } := by
  rw [takeEntry, if_pos hs, ha]

theorem takeEntry_enters {e : Ewu} {a : PolicyAnswer} (hs : e.state = .stopped) (ha : e.startupAnswer = some a)
    (t : Stamp) : takeEntry t e = enterRun t a e := by
  rw [takeEntry, if_pos hs, ha]

theorem startedEwu_group (t : Stamp) (a : PolicyAnswer) (e : Ewu) (g : Group) :
    (startedEwu t a e).groups.get g = startGroup e a g := PerGroup.get_build _ g

/-- The entry and the start-up answer taken together, in the step of the one that comes second. -/
theorem exec_enters {c : Instr} {s : State} {f : Ewu → Eff Ewu} {at_ : Stamp} {a : PolicyAnswer}
    (hexec : exec c s = .next ((s.takeNotice c).runEwu f)) (h : f s.ewu = enterRun at_ a s.ewu) :
    exec c s = .next { s with
      ewu := startedEwu at_ a s.ewu
      notices := s.notices.erase c ++ allowanceNotices (startedEwu at_ a s.ewu) } :=
  hexec.trans (congrArg Host.Outcome.next (runEwu_eq (s := s.takeNotice c) h))

/-- The window of a precharged ring holds N - 1 assumed records. -/
theorem windowOf_prechargedRing {n : Nat} (hn : n ≤ 1024) (energy scenario : Nat) :
    windowOf (prechargedRing .full energy scenario) n = List.replicate (n - 1) (assumedRecord energy scenario) := by
  rw [windowOf, prechargedRing, List.length_replicate, List.drop_replicate]
  congr 1
  unfold Config.ringCapacity
  omega

theorem assumedRecord_energy {energy : Nat} (h : energy ≤ 1185500000) (scenario : Nat) :
    (assumedRecord energy scenario).energy.toNat = energy := by
  rw [assumedRecord, BitVec.toNat_ofNat]
  exact Nat.mod_eq_of_lt (by omega)

/-- Under full precharge the window has spent N - 1 of the N excesses. -/
theorem windowExcess_precharged {n energy eRes : Nat} (h : energy ≤ 1185500000) (scenario : Nat) :
    windowExcess (List.replicate n (assumedRecord energy scenario)) eRes = n * (energy - eRes) := by
  rw [windowExcess, List.map_replicate, List.sum_replicate_nat, assumedRecord_energy h]
  rfl

/-- Settles O36: the entry by `exec_enters`, the first allowance by the excess that a precharged window leaves. -/
theorem windowUnitStartsUp : Obligations.WindowUnitStartsUp := by
  refine ⟨⟨fun x s hs => ?_, fun a s hs hh => ?_, fun at_ s hs ha => ?_, fun at_ a s c hs hc => ?_⟩,
    fun l tMs scenario h2 hn hfloor ht => ?_⟩
  · exact congrArg (fun t : State => Host.Outcome.next t.enterRunWhenDelivered)
      (runEwu_pure (s := s.takeNotice (.ewuLimitsDelivery x)) (congrArg Eff.pure (takeEwuParams_stopped hs x)))
  · exact exec_ewuHolds rfl (takeStartupAnswer_held hs hh a)
  · exact exec_ewuHolds rfl (takeEntry_held hs ha at_)
  · have hstep : exec c s = .next { s with
        ewu := startedEwu at_ a s.ewu
        notices := s.notices.erase c ++ allowanceNotices (startedEwu at_ a s.ewu) } := by
      rcases hc with ⟨rfl, ha⟩ | ⟨rfl, hh⟩
      · exact exec_enters rfl (takeEntry_enters hs ha at_)
      · exact exec_enters rfl (takeStartupAnswer_enters hs hh a)
    refine ⟨_, hstep, rfl, rfl, rfl, rfl, rfl, rfl, rfl, fun g => ?_⟩
    rw [startedEwu_group]
    refine ⟨rfl, ?_, rfl⟩
    unfold startGroup EwuGroup.refresh prechargedRing
    cases s.ewu.params.precharge <;> rfl
  · have havg := epochEnergy_le_max l.avg ht
    have hres := epochEnergy_mono l.floor l.avg tMs hfloor
    have hwindow : (exactFigures (prechargedRing .full (epochEnergy l.avg tMs) scenario) l tMs).eAllow =
        epochEnergy l.floor tMs + (l.window * (epochEnergy l.avg tMs - epochEnergy l.floor tMs) -
          (l.window - 1) * (epochEnergy l.avg tMs - epochEnergy l.floor tMs)) := by
      rw [← windowExcess_precharged (n := l.window - 1) (scenario := scenario) havg, ← windowOf_prechargedRing hn]
      rfl
    have hone : l.window * (epochEnergy l.avg tMs - epochEnergy l.floor tMs) -
        (l.window - 1) * (epochEnergy l.avg tMs - epochEnergy l.floor tMs) =
          epochEnergy l.avg tMs - epochEnergy l.floor tMs := by
      rw [← Nat.sub_mul, Nat.sub_sub_self (by omega), Nat.one_mul]
    have hallow : (exactFigures (prechargedRing .full (epochEnergy l.avg tMs) scenario) l tMs).eAllow =
        epochEnergy l.avg tMs := by
      rw [hwindow, hone, Nat.add_sub_cancel' hres]
    exact (held_toNat (by omega)).trans hallow

end Sys2Proof.Machine

/-! Transmit bursts: rises, falls and expiries (R17 to R26, R86 to R98). -/

namespace Sys2Proof.Machine

/-! ### One chain of the burst unit takes an event -/

/-- The burst unit's part of a step that concerns one chain: what the chain becomes and what it sends. -/
theorem runChain_eq {s : State} {i : Chain} {f : BauShared → Chain → BauChain → Eff BauChain} {e : Eff BauChain}
    (h : f s.bau.shared i (s.bau.chains.get i) = e) :
    s.runChain i f =
      { s with bau := { s.bau with chains := s.bau.chains.set i e.val }, notices := s.notices ++ e.out } := by
  rw [State.runChain_frame, h]

/-- From the first state to the second one chain of the burst unit takes an event with this effect, and no other unit
changes. -/
def ChainTakes (s t : State) (i : Chain) (e : Eff BauChain) : Prop :=
  t = { s with bau := t.bau, notices := t.notices } ∧ t.notices = s.notices ++ e.out ∧ OtherChainsStand s t i ∧
    t.bau.chains.get i = e.val

theorem chainTakes_runChain {s : State} {i : Chain} {f : BauShared → Chain → BauChain → Eff BauChain} {e : Eff BauChain}
    (h : f s.bau.shared i (s.bau.chains.get i) = e) : ChainTakes s (s.runChain i f) i e := by
  refine ⟨rfl, ?_, otherChainsStand_of_runChain _ _ i f rfl, ?_⟩
  · rw [runChain_eq h]
  · rw [State.runChain_get_self, h]

/-- An event that concerns one chain is taken at once while no close notice is held (R29). -/
theorem bauReceive_chainTakes {s : State} {i : Chain} {f : BauShared → Chain → BauChain → Eff BauChain}
    {e : Eff BauChain} {event : BauEvent} (hevent : bauTake s event = s.runChain i f) (hn : s.bau.closeNotice = none)
    (h : f s.bau.shared i (s.bau.chains.get i) = e) : ChainTakes s (bauReceive event s) i e := by
  rw [bauReceive_taken hn, hevent]
  exact chainTakes_runChain h

/-! ### The edges of a line (R20 to R22) -/

theorem lineRises_inRun {s : State} {i : Chain} (hl : s.pins.txen.get i = false) (hr : s.bau.inRun = true) :
    lineRises i s =
      bauReceive (.rise i s.timeBase) (s.setPins { s.pins with txen := s.pins.txen.set i true }) := by
  simp [lineRises, hl, hr]

theorem lineFalls_inRun {s : State} {i : Chain} (hl : s.pins.txen.get i = true) (hr : s.bau.inRun = true) :
    lineFalls i s =
      bauReceive (.fall i s.timeBase) (s.setPins { s.pins with txen := s.pins.txen.set i false }) := by
  simp [lineFalls, hl, hr]

/-- A rise that the burst unit takes at once. -/
theorem exec_txenRise {s : State} {i : Chain} {e : Eff BauChain} (hl : s.pins.txen.get i = false)
    (hr : s.bau.inRun = true) (hn : s.bau.closeNotice = none)
    (h : riseOn s.bau.shared i s.timeBase (s.bau.chains.get i) = e) :
    ∃ t, exec (.txenRise i) s = .next t ∧
      ChainTakes (s.setPins { s.pins with txen := s.pins.txen.set i true }) t i e :=
  ⟨_, congrArg Host.Outcome.next (lineRises_inRun hl hr),
    bauReceive_chainTakes (s := s.setPins { s.pins with txen := s.pins.txen.set i true })
      (f := fun sh j => riseOn sh j s.timeBase) rfl hn h⟩

theorem exec_txenFall {s : State} {i : Chain} {e : Eff BauChain} (hl : s.pins.txen.get i = true)
    (hr : s.bau.inRun = true) (hn : s.bau.closeNotice = none)
    (h : fallOn s.bau.shared i s.timeBase (s.bau.chains.get i) = e) :
    ∃ t, exec (.txenFall i) s = .next t ∧
      ChainTakes (s.setPins { s.pins with txen := s.pins.txen.set i false }) t i e :=
  ⟨_, congrArg Host.Outcome.next (lineFalls_inRun hl hr),
    bauReceive_chainTakes (s := s.setPins { s.pins with txen := s.pins.txen.set i false })
      (f := fun sh j => fallOn sh j s.timeBase) rfl hn h⟩

/-! ### Rises (R20, R21, R86, R96) -/

theorem riseOn_paired {c : BauChain} {e : QueueEntry} {rest : List QueueEntry} (hp : c.pulse = none)
    (hq : c.queue = e :: rest) (sh : BauShared) (i : Chain) (t : Stamp) :
    riseOn sh i t c = pairedRise sh i t e rest c := by
  rw [riseOn, hp, hq]

theorem riseOn_unannounced {c : BauChain} (hp : c.pulse = none) (hq : c.queue = []) (sh : BauShared) (i : Chain)
    (t : Stamp) : riseOn sh i t c = unannouncedRise sh i t c := by
  rw [riseOn, hp, hq]

/-- A chain with a pulse just opened on an entry, before its first segment is judged. -/
def withPairedPulse (t : Stamp) (e : QueueEntry) (rest : List QueueEntry) (c : BauChain) : BauChain :=
  { c with
    queue := rest
    pulse := some (openPulse c t e.code false e.maxDuration)
    grace := none
    pulsedInEpoch := true }

theorem pairedRise_eq (sh : BauShared) (i : Chain) (t : Stamp) (e : QueueEntry) (rest : List QueueEntry) (c : BauChain) :
    pairedRise sh i t e rest c =
      ⟨(judgeStart sh i (withPairedPulse t e rest c)).val,
        .activityNotice i :: (judgeStart sh i (withPairedPulse t e rest c)).out⟩ := rfl

/-- A paired pulse: the head leaves the queue, the pulse and its first segment, and the judgement of that segment. -/
theorem pairedRise_spec (sh : BauShared) (i : Chain) (t : Stamp) (e : QueueEntry) (rest : List QueueEntry) (c : BauChain) :
    (sameAccount c (pairedRise sh i t e rest c).val ∧ (pairedRise sh i t e rest c).val.queue = rest ∧
      (pairedRise sh i t e rest c).val.pulse =
        some { openPulse c t e.code false e.maxDuration with
          segment := { newSegment c e.code t with marked := overshoots c e.code } } ∧
      (pairedRise sh i t e rest c).val.pulsedInEpoch = true ∧ (pairedRise sh i t e rest c).val.grace = none) ∧
    JudgedAs (overshoots c e.code) sh c (pairedRise sh i t e rest c).val ∧
    (pairedRise sh i t e rest c).out = .activityNotice i :: judgedNotices (overshoots c e.code) sh i c := by
  obtain ⟨hjudged, hout⟩ := judgeStart_judged sh i (withPairedPulse t e rest c)
    (openPulse c t e.code false e.maxDuration) rfl rfl
  rw [pairedRise_eq]
  refine ⟨?_, hjudged, congrArg (Instr.activityNotice i :: ·) hout⟩
  dsimp only
  rw [judgeStart_frame sh i (withPairedPulse t e rest c) (openPulse c t e.code false e.maxDuration) rfl rfl rfl rfl]
  exact ⟨⟨rfl, rfl, rfl, rfl, rfl⟩, rfl, rfl, rfl, rfl⟩

/-- Settles O26: a rise on the queue's head by `pairedRise_spec`, one on an empty queue by `unannouncedRise_spec`. -/
theorem riseOpensAPulse : Obligations.RiseOpensAPulse := by
  intro i s hl hr hn hp
  refine ⟨fun e rest hq => ?_, fun hq => ?_⟩
  · obtain ⟨t, hexec, hframe, hsent, hothers, hchain⟩ := exec_txenRise hl hr hn (riseOn_paired hp hq _ i _)
    obtain ⟨⟨haccount, hqueue, hpulse, hpulsed, hgrace⟩, hjudged, hout⟩ :=
      pairedRise_spec s.bau.shared i s.timeBase e rest (s.bau.chains.get i)
    rw [← hchain] at haccount hqueue hpulse hpulsed hgrace hjudged
    refine ⟨t, _, hexec, hframe, hothers, haccount, hqueue, hpulse, rfl, rfl, rfl, rfl, rfl, rfl, rfl, rfl, rfl,
      rfl, hpulsed, hgrace, hjudged, ?_⟩
    rw [hsent, hout]
    exact (List.append_assoc _ [_] _).symm
  · obtain ⟨t, hexec, hframe, hsent, hothers, hchain⟩ := exec_txenRise hl hr hn (riseOn_unannounced hp hq _ i _)
    obtain ⟨haccount, hqueue, hpulsed, hgrace, ⟨pl, hpulse, hrise, hunannounced, hmax, hdeadline, hmark, hsegment⟩,
      struck, hstruck, hjudged, hout⟩ := unannouncedRise_spec s.bau.shared i s.timeBase (s.bau.chains.get i) hq
    rw [← hchain] at haccount hqueue hpulse hpulsed hgrace hjudged
    refine ⟨t, pl, struck, _, hexec, hframe, hothers, haccount, rfl, hqueue, hpulse, hrise, hunannounced, hmax,
      hdeadline, hmark, hsegment, hpulsed, hgrace, hstruck, hjudged, ?_⟩
    rw [hsent, hout]
    simp only [List.append_assoc]
    rfl

/-! ### Falls and the energy of a segment (R8, R12, R22, R26) -/

theorem segmentEnergy_zero (p : Code) (k : Nat) : segmentEnergy p k 0 = 0 := by simp [segmentEnergy]

/-- The energy is the linear power of the exposure code times the length, rounded up to a nanojoule. -/
theorem segmentEnergy_rounds (p : Code) (k d : Nat) :
    lin (exposureCode p k) * d ≤ segmentEnergy p k d * 1000000 ∧
      segmentEnergy p k d * 1000000 < lin (exposureCode p k) * d + 1000000 := by
  unfold segmentEnergy
  omega

theorem lin_exposureCode (p : Code) (k : Nat) : lin (exposureCode p k) = linNat (p.toNat - k) :=
  congrArg linNat (exposureCode_toNat p k)

/-- Within an epoch a segment's energy stays within the bound of R12. -/
theorem segmentEnergy_le (p : Code) (k : Nat) {d : Nat} (hd : d ≤ 500000) : segmentEnergy p k d ≤ 1185500000 := by
  have hproduct : lin (exposureCode p k) * d ≤ 2371000000 * 500000 := Nat.mul_le_mul (lin_le_max _) hd
  obtain ⟨-, hlt⟩ := segmentEnergy_rounds p k d
  omega

/-- A segment that is inhibited, or whose end stamp lies before its start stamp, is charged 0 (log 33). -/
theorem segmentCharge_eq (g : Segment) (t : Stamp) :
    segmentCharge g t =
      if g.inhibited || !reached t g.start then 0 else BitVec.ofNat 32 (segmentEnergy g.code g.k (elapsed g.start t)) := by
  unfold segmentCharge segmentDuration
  cases g.inhibited <;> cases reached t g.start <;> simp [segmentEnergy_zero]

theorem fallOn_open {c : BauChain} {pl : Pulse} (hp : c.pulse = some pl) (sh : BauShared) (i : Chain) (t : Stamp) :
    fallOn sh i t c =
      Eff.pure { c with accumulator := c.accumulator + segmentCharge pl.segment t, pulse := none, grace := none } := by
  rw [fallOn, hp]

/-- Settles O27: the fall by `fallOn_open` and `segmentCharge_eq`, the energy by its rounding. -/
theorem fallChargesAndClosesThePulse : Obligations.FallChargesAndClosesThePulse := by
  refine ⟨fun i s pl hl hr hn hp => ?_, fun p k d => ?_⟩
  · obtain ⟨t, hexec, hframe, hsent, hothers, hchain⟩ := exec_txenFall hl hr hn (fallOn_open hp _ i _)
    rw [hsent] at hframe
    rw [← segmentCharge_eq]
    exact ⟨t, hexec, hframe.trans (by simp [State.setPins, Eff.pure]), hothers, hchain⟩
  · obtain ⟨hle, hlt⟩ := segmentEnergy_rounds p k d
    rw [lin_exposureCode] at hle hlt
    exact ⟨hle, hlt, segmentEnergy_zero p k, segmentEnergy_le p k⟩

/-! ### Expiries (R17, R89, R93) -/

theorem staleExpiryOn_due {sh : BauShared} {c : BauChain} {e : QueueEntry} {rest : List QueueEntry} {t : Stamp}
    (hq : c.queue = e :: rest) (hdue : reached t (afterMs e.arrival sh.staleMs) = true) (i : Chain) :
    staleExpiryOn sh i t c = removeStale i rest c := by
  rw [staleExpiryOn, hq]
  exact if_pos hdue

theorem overrunDue_of_due {pl : Pulse} {t d : Stamp} (hd : pl.overrunDeadline = some d) (hdue : reached t d = true)
    (hm : pl.overrunMark = false) : overrunDue t pl = true := by
  rw [overrunDue, hm, hd, dueTimer_of_reached hdue]
  rfl

/-- A chain whose pulse has overrun: the mark, the counter and the strike. -/
def overrun (sh : BauShared) (pl : Pulse) (c : BauChain) : BauChain :=
  struckOnce sh { c with pulse := some { pl with overrunMark := true }, counters := c.counters.incOvershoots }

theorem overrunExpiryOn_released {sh : BauShared} {c : BauChain} {pl : Pulse} {t : Stamp} (hp : c.pulse = some pl)
    (hdue : overrunDue t pl = true) (hi : pl.segment.inhibited = false) (i : Chain) :
    overrunExpiryOn sh i t c = ⟨overrun sh pl c, overshootNotices sh i c⟩ := by
  simp only [overrunExpiryOn, hp, hdue, if_pos, hi, strike_eq]
  rfl

/-- Under inhibit the deadline is only spent. -/
theorem overrunExpiryOn_inhibited {sh : BauShared} {c : BauChain} {pl : Pulse} {t : Stamp} (hp : c.pulse = some pl)
    (hdue : overrunDue t pl = true) (hi : pl.segment.inhibited = true) (i : Chain) :
    overrunExpiryOn sh i t c = Eff.pure { c with pulse := some { pl with overrunMark := true } } := by
  simp only [overrunExpiryOn, hp, hdue, if_pos, hi]

/-- An overrun, or a deadline spent under inhibit: the pulse is marked, and judged unless it is inhibited. -/
theorem overrunExpiryOn_spec {sh : BauShared} {c : BauChain} {pl : Pulse} {t : Stamp} (hp : c.pulse = some pl)
    (hdue : overrunDue t pl = true) (i : Chain) :
    (sameAccount c (overrunExpiryOn sh i t c).val ∧ (overrunExpiryOn sh i t c).val.queue = c.queue ∧
      (overrunExpiryOn sh i t c).val.pulse = some { pl with overrunMark := true } ∧
      (overrunExpiryOn sh i t c).val.grace = c.grace) ∧
    JudgedAs (!pl.segment.inhibited) sh c (overrunExpiryOn sh i t c).val ∧
    (overrunExpiryOn sh i t c).out = judgedNotices (!pl.segment.inhibited) sh i c := by
  cases hi : pl.segment.inhibited with
  | true =>
    rw [overrunExpiryOn_inhibited hp hdue hi]
    exact ⟨⟨⟨rfl, rfl, rfl, rfl, rfl⟩, rfl, rfl, rfl⟩, ⟨rfl, rfl, rfl⟩, rfl⟩
  | false =>
    rw [overrunExpiryOn_released hp hdue hi]
    exact ⟨⟨⟨rfl, rfl, rfl, rfl, rfl⟩, rfl, rfl, rfl⟩, ⟨rfl, rfl, rfl⟩, rfl⟩

theorem graceExpiryOn_due {sh : BauShared} {c : BauChain} {pl : Pulse} {t d : Stamp} (hg : c.grace = some d)
    (hdue : reached t d = true) (hp : c.pulse = some pl) (i : Chain) :
    graceExpiryOn sh i t c = overshoot sh i pl { c with grace := none } := by
  simp only [graceExpiryOn, hg, dueTimer_of_reached hdue, hp]

/-- What an overshoot leaves of a chain. -/
theorem overshoot_keeps (sh : BauShared) (i : Chain) (pl : Pulse) (c : BauChain) :
    sameAccount c (overshoot sh i pl c).val ∧ (overshoot sh i pl c).val.queue = c.queue ∧
      (overshoot sh i pl c).val.grace = none ∧ (overshoot sh i pl c).val.pulse = some pl.mark := by
  rw [overshoot_frame]
  exact ⟨⟨rfl, rfl, rfl, rfl, rfl⟩, rfl, rfl, rfl⟩

/-! ### Strikes (R96, R97) -/

theorem strikeEnforces_iff (sh : BauShared) (c : BauChain) :
    strikeEnforces sh c = true ↔
      sh.threshold ≠ 0 ∧ (satInc8 c.strikes).toNat = sh.threshold ∧ c.enforced = false := by
  simp [strikeEnforces, and_assoc]

/-- A strike that enforces no chain raises the count, and nothing else. -/
theorem struckOnce_of_not {sh : BauShared} {c : BauChain} (h : strikeEnforces sh c = false) :
    struckOnce sh c = { c with strikes := satInc8 c.strikes } := by
  simp [struckOnce, h]

/-- Settles O28: each expiry by its equation on the chain, a strike by `strike_eq`. -/
theorem expiriesAndStrikes : Obligations.ExpiriesAndStrikes := by
  refine ⟨fun i s hn => ⟨fun e rest hq hdue => ?_, fun pl d hp hd hdue hm => ?_, fun pl d hp hg hdue => ?_⟩,
    fun sh i c => ?_⟩
  · obtain ⟨hframe, hsent, hothers, hchain⟩ := bauReceive_chainTakes (event := .staleExpiry i s.timeBase)
      (f := fun sh j => staleExpiryOn sh j s.timeBase) rfl hn (staleExpiryOn_due hq hdue i)
    rw [hsent] at hframe
    exact ⟨_, rfl, hframe, hothers, hchain⟩
  · obtain ⟨hframe, hsent, hothers, hchain⟩ := bauReceive_chainTakes (event := .overrunExpiry i s.timeBase)
      (f := fun sh j => overrunExpiryOn sh j s.timeBase) rfl hn rfl
    obtain ⟨⟨haccount, hqueue, hpulse, hgrace⟩, hjudged, hout⟩ :=
      overrunExpiryOn_spec (sh := s.bau.shared) hp (overrunDue_of_due hd hdue hm) i
    rw [← hchain] at haccount hqueue hpulse hgrace hjudged
    rw [hout] at hsent
    exact ⟨_, rfl, hframe, hothers, haccount, hqueue, hpulse, hgrace, hjudged, hsent⟩
  · obtain ⟨hframe, hsent, hothers, hchain⟩ := bauReceive_chainTakes (event := .graceExpiry i s.timeBase)
      (f := fun sh j => graceExpiryOn sh j s.timeBase) rfl hn (graceExpiryOn_due hg hdue hp i)
    obtain ⟨haccount, hqueue, hgrace, hpulse⟩ :=
      overshoot_keeps s.bau.shared i pl { s.bau.chains.get i with grace := none }
    obtain ⟨hjudged, hout⟩ := overshoot_judged s.bau.shared i pl { s.bau.chains.get i with grace := none }
    rw [← hchain] at haccount hqueue hgrace hpulse hjudged
    rw [hout] at hsent
    exact ⟨_, rfl, hframe, hothers, haccount, hqueue, hgrace, hpulse, hjudged, hsent⟩
  · rw [strike_eq]
    refine ⟨rfl, fun hthreshold hcount hfree => ?_, fun h => ?_⟩
    · have henforces := (strikeEnforces_iff sh c).2 ⟨hthreshold, hcount, hfree⟩
      simp [struckOnce, strikeNotices, henforces]
    · have hnot : strikeEnforces sh c = false := by
        refine Bool.eq_false_iff.2 fun henforces => ?_
        obtain ⟨hthreshold, hcount, hfree⟩ := (strikeEnforces_iff sh c).1 henforces
        rcases h with h | h | h
        · exact hthreshold h
        · exact h hcount
        · exact Bool.false_ne_true (hfree.symm.trans h)
      exact ⟨struckOnce_of_not hnot, if_neg (Bool.eq_false_iff.1 hnot)⟩

end Sys2Proof.Machine

/-! Transmit bursts: ceiling changes under an open pulse (R27, R37, R91, R92). -/

namespace Sys2Proof.Machine

/-! ### A notice that leaves the inhibit as it is (R37, R91) -/

/-- A chain that has taken the values of a ceiling change notice. -/
def withHeld (n : CeilingChange) (c : BauChain) : BauChain := { c with heldCeiling := n.ceiling, heldInhibit := n.inhibit }

section
variable {n : CeilingChange} {sh : BauShared} {i : Chain} {c : BauChain} {pl : Pulse} {t : Stamp}

theorem ceilingChangeOn_closed (hp : c.pulse = none) : ceilingChangeOn n sh i c = Eff.pure (withHeld n c) := by
  unfold ceilingChangeOn
  split
  case h_1 => rfl
  case h_2 pl hopen => exact nomatch hp.symm.trans hopen

/-- Under an open pulse the inhibit before and after decides. -/
theorem ceilingChangeOn_open (hp : c.pulse = some pl) :
    ceilingChangeOn n sh i c =
      if c.heldInhibit = n.inhibit then
        if n.inhibit then Eff.pure (withHeld n c) else judgeDrop sh i n.stamp pl (withHeld n c)
      else inhibitChange sh i n.stamp pl (withHeld n c) := by
  unfold ceilingChangeOn
  split
  case h_1 hclosed => exact nomatch hp.symm.trans hclosed
  case h_2 pl' hopen =>
    obtain rfl := Option.some.inj (hp.symm.trans hopen)
    rfl

theorem ceilingChangeOn_inhibited (hh : c.heldInhibit = true) (hi : n.inhibit = true) :
    ceilingChangeOn n sh i c = Eff.pure (withHeld n c) := by
  cases hp : c.pulse with
  | none => exact ceilingChangeOn_closed hp
  | some pl => rw [ceilingChangeOn_open hp, if_pos (hh.trans hi.symm), if_pos hi]

theorem ceilingChangeOn_released (hp : c.pulse = some pl) (hh : c.heldInhibit = false) (hi : n.inhibit = false) :
    ceilingChangeOn n sh i c = judgeDrop sh i n.stamp pl (withHeld n c) := by
  rw [ceilingChangeOn_open hp, if_pos (hh.trans hi.symm), if_neg (Bool.eq_false_iff.1 hi)]

theorem ceilingChangeOn_changes (hp : c.pulse = some pl) (hi : c.heldInhibit ≠ n.inhibit) :
    ceilingChangeOn n sh i c = inhibitChange sh i n.stamp pl (withHeld n c) := by
  rw [ceilingChangeOn_open hp, if_neg hi]

/-! ### The table of R91 -/

theorem judgeDrop_marked (hm : pl.segment.marked = true) : judgeDrop sh i t pl c = Eff.pure c := if_pos hm

theorem judgeDrop_within (hm : pl.segment.marked = false) (hx : exceeds pl.segment.code c.heldCeiling = false) :
    judgeDrop sh i t pl c = Eff.pure { c with grace := none } := by
  rw [judgeDrop, if_neg (Bool.eq_false_iff.1 hm), if_neg (Bool.eq_false_iff.1 hx)]

theorem judgeDrop_running {d : Stamp} (hm : pl.segment.marked = false)
    (hx : exceeds pl.segment.code c.heldCeiling = true) (hg : c.grace = some d) :
    judgeDrop sh i t pl c = Eff.pure c := by
  rw [judgeDrop, if_neg (Bool.eq_false_iff.1 hm), if_pos hx, hg]

theorem judgeDrop_starts (hm : pl.segment.marked = false) (hx : exceeds pl.segment.code c.heldCeiling = true)
    (hg : c.grace = none) : judgeDrop sh i t pl c = graceStart sh i t pl c := by
  rw [judgeDrop, if_neg (Bool.eq_false_iff.1 hm), if_pos hx, hg]

theorem graceStart_atOnce (h : sh.graceMs = 0) : graceStart sh i t pl c = overshoot sh i pl c := if_pos h

theorem graceStart_runs (h : sh.graceMs ≠ 0) :
    graceStart sh i t pl c = Eff.pure { c with grace := some (afterMs t sh.graceMs) } := if_neg h

/-! ### A notice that changes the inhibit (R27, R92) -/

/-- The segment cut by a change of the inhibit is an overshoot at once: released above the ceiling, with no grace. -/
def cutOvershoots (sh : BauShared) (pl : Pulse) (c : BauChain) : Bool :=
  !c.heldInhibit && exceeds pl.segment.code c.heldCeiling && decide (sh.graceMs = 0)

/-- The grace timer after a cut: it runs where the inhibit is released above the ceiling, with a grace interval. -/
def graceAfterCut (sh : BauShared) (t : Stamp) (pl : Pulse) (c : BauChain) : Option Stamp :=
  if c.heldInhibit = false ∧ exceeds pl.segment.code c.heldCeiling = true ∧ sh.graceMs ≠ 0 then
    some (afterMs t sh.graceMs)
  else none

/-- A chain whose segment has been cut at the same code, with the grace timer stopped. -/
def withCut (t : Stamp) (pl : Pulse) (c : BauChain) : BauChain := { cutSegment pl pl.segment.code t c with grace := none }

theorem inhibitChange_asserts (hh : c.heldInhibit = true) :
    inhibitChange sh i t pl c = Eff.pure (withCut t pl c) := if_pos hh

theorem inhibitChange_within (hh : c.heldInhibit = false) (hx : exceeds pl.segment.code c.heldCeiling = false) :
    inhibitChange sh i t pl c = Eff.pure (withCut t pl c) := by
  rw [inhibitChange, if_neg (Bool.eq_false_iff.1 hh), if_neg (Bool.eq_false_iff.1 hx)]
  rfl

theorem inhibitChange_above (hh : c.heldInhibit = false) (hx : exceeds pl.segment.code c.heldCeiling = true) :
    inhibitChange sh i t pl c =
      graceStart sh i t { pl with segment := newSegment c pl.segment.code t } (withCut t pl c) := by
  rw [inhibitChange, if_neg (Bool.eq_false_iff.1 hh), if_pos hx]
  rfl

/-- What a cut by a change of the inhibit makes of a chain and sends. -/
def CutAs (sh : BauShared) (i : Chain) (t : Stamp) (pl : Pulse) (c : BauChain) (e : Eff BauChain) : Prop :=
  (e.val.heldCeiling = c.heldCeiling ∧ e.val.heldInhibit = c.heldInhibit ∧ e.val.queue = c.queue ∧
    e.val.accumulator = c.accumulator + segmentCharge pl.segment t ∧
    e.val.pulse = some
      { pl with segment := { newSegment c pl.segment.code t with marked := cutOvershoots sh pl c } } ∧
    e.val.grace = graceAfterCut sh t pl c) ∧
  JudgedAs (cutOvershoots sh pl c) sh c e.val ∧ e.out = judgedNotices (cutOvershoots sh pl c) sh i c

/-- A cut whose segment is no overshoot at once. -/
theorem cutAs_pure {g : Option Stamp} (ho : cutOvershoots sh pl c = false) (hg : graceAfterCut sh t pl c = g) :
    CutAs sh i t pl c (Eff.pure { withCut t pl c with grace := g }) := by
  rw [CutAs, ho, hg]
  exact ⟨⟨rfl, rfl, rfl, rfl, rfl, rfl⟩, ⟨rfl, rfl, rfl⟩, rfl⟩

/-- A cut whose segment is an overshoot at once. -/
theorem cutAs_overshoot (ho : cutOvershoots sh pl c = true) (hg : graceAfterCut sh t pl c = none) :
    CutAs sh i t pl c
      (overshoot sh i { pl with segment := newSegment c pl.segment.code t } (withCut t pl c)) := by
  obtain ⟨hjudged, hout⟩ :=
    overshoot_judged sh i { pl with segment := newSegment c pl.segment.code t } (withCut t pl c)
  rw [CutAs, ho, hg]
  refine ⟨?_, hjudged, hout⟩
  rw [overshoot_frame]
  exact ⟨rfl, rfl, rfl, rfl, rfl, rfl⟩

theorem inhibitChange_cutAs : CutAs sh i t pl c (inhibitChange sh i t pl c) := by
  cases hh : c.heldInhibit with
  | true =>
    rw [inhibitChange_asserts hh]
    exact cutAs_pure (by simp [cutOvershoots, hh]) (by simp [graceAfterCut, hh])
  | false =>
    cases hx : exceeds pl.segment.code c.heldCeiling with
    | false =>
      rw [inhibitChange_within hh hx]
      exact cutAs_pure (by simp [cutOvershoots, hx]) (by simp [graceAfterCut, hx])
    | true =>
      rw [inhibitChange_above hh hx]
      by_cases hms : sh.graceMs = 0
      · rw [graceStart_atOnce hms]
        exact cutAs_overshoot (by simp [cutOvershoots, hh, hx, hms]) (by simp [graceAfterCut, hms])
      · rw [graceStart_runs hms]
        exact cutAs_pure (by simp [cutOvershoots, hms]) (by simp [graceAfterCut, hh, hx, hms])

end

/-- A ceiling change notice in its order, taken at once. -/
theorem exec_ceilingChangeNotice {n : CeilingChange} {s : State} {e : Eff BauChain} (hn : s.bau.closeNotice = none)
    (hin : s.inOrder (.ceilingChangeNotice n) = true)
    (h : ceilingChangeOn n s.bau.shared n.chain (s.bau.chains.get n.chain) = e) :
    ∃ t, exec (.ceilingChangeNotice n) s = .next t ∧
      ChainTakes (s.takeNotice (.ceilingChangeNotice n)) t n.chain e :=
  ⟨_, congrArg Host.Outcome.next (State.taking_of_inOrder _ hin),
    bauReceive_chainTakes (s := s.takeNotice (.ceilingChangeNotice n)) (f := ceilingChangeOn n) rfl hn h⟩

/-- What sends nothing leaves the notices under way as the taking left them. -/
theorem ChainTakes.of_pure {s t : State} {i : Chain} {c : BauChain} (h : ChainTakes s t i (Eff.pure c)) :
    t.notices = s.notices ∧ t.bau.chains.get i = c := by
  obtain ⟨-, hsent, -, hchain⟩ := h
  exact ⟨hsent.trans (List.append_nil _), hchain⟩

/-- Settles O29: a kept inhibit by the table of `judgeDrop`, a changed one by `inhibitChange_cutAs`. -/
theorem ceilingChangesStartGraceOrCut : Obligations.CeilingChangesStartGraceOrCut := by
  refine ⟨fun n s hn hin => ⟨fun h => ?_, fun pl hp hh hi => ?_⟩, fun n s pl hn hin hp hi => ?_⟩
  · have heffect : ceilingChangeOn n s.bau.shared n.chain (s.bau.chains.get n.chain) =
        Eff.pure (withHeld n (s.bau.chains.get n.chain)) := by
      rcases h with hp | ⟨hh, hi⟩
      · exact ceilingChangeOn_closed hp
      · exact ceilingChangeOn_inhibited hh hi
    obtain ⟨t, hexec, htakes⟩ := exec_ceilingChangeNotice hn hin heffect
    obtain ⟨hsent, hchain⟩ := htakes.of_pure
    obtain ⟨hframe, -, hothers, -⟩ := htakes
    rw [hsent] at hframe
    exact ⟨t, hexec, hframe, hothers, hchain⟩
  · obtain ⟨t, hexec, htakes⟩ := exec_ceilingChangeNotice hn hin (ceilingChangeOn_released hp hh hi)
    obtain ⟨hframe, hsent, hothers, hchain⟩ := id htakes
    obtain ⟨i, ceiling, inhibit, stamp⟩ := n
    obtain rfl : inhibit = false := hi
    refine ⟨t, hexec, hframe, hothers, fun hm => ?_, fun hm hx => ?_, fun hm hx => ⟨fun d hg => ?_, fun hg hms => ?_,
      fun hg hms => ?_⟩⟩
    · rw [judgeDrop_marked hm] at htakes
      exact htakes.of_pure.symm
    · rw [judgeDrop_within hm hx] at htakes
      exact htakes.of_pure.symm
    · rw [judgeDrop_running (c := withHeld ⟨i, ceiling, false, stamp⟩ (s.bau.chains.get i)) hm hx hg] at htakes
      exact htakes.of_pure.symm
    · rw [judgeDrop_starts (c := withHeld ⟨i, ceiling, false, stamp⟩ (s.bau.chains.get i)) hm hx hg,
        graceStart_runs hms] at htakes
      exact htakes.of_pure.symm
    · rw [judgeDrop_starts (c := withHeld ⟨i, ceiling, false, stamp⟩ (s.bau.chains.get i)) hm hx hg,
        graceStart_atOnce hms] at hsent hchain
      obtain ⟨⟨haccount, -, hceiling, hinhibit, -⟩, hqueue, hgrace, hpulse⟩ :=
        overshoot_keeps s.bau.shared i pl (withHeld ⟨i, ceiling, false, stamp⟩ (s.bau.chains.get i))
      obtain ⟨hjudged, hout⟩ :=
        overshoot_judged s.bau.shared i pl (withHeld ⟨i, ceiling, false, stamp⟩ (s.bau.chains.get i))
      rw [← hchain] at haccount hceiling hinhibit hqueue hgrace hpulse hjudged
      rw [hout] at hsent
      exact ⟨hpulse, hgrace, hceiling, hinhibit, haccount, hqueue, hjudged, hsent⟩
  · obtain ⟨t, hexec, hframe, hsent, hothers, hchain⟩ :=
      exec_ceilingChangeNotice hn hin (ceilingChangeOn_changes hp hi)
    obtain ⟨⟨hceiling, hinhibit, hqueue, haccumulator, hpulse, hgrace⟩, hjudged, hout⟩ :=
      inhibitChange_cutAs (sh := s.bau.shared) (i := n.chain) (t := n.stamp) (pl := pl)
        (c := withHeld n (s.bau.chains.get n.chain))
    rw [← hchain] at hceiling hinhibit hqueue haccumulator hpulse hgrace hjudged
    rw [hout] at hsent
    exact ⟨t, _, _, hexec, hframe, hothers, hceiling, hinhibit, hqueue, haccumulator, hpulse, rfl, rfl, rfl, rfl, rfl,
      rfl, hgrace, hjudged, hsent⟩

end Sys2Proof.Machine

/-! Transmit bursts: ANNOUNCE, taken and refused (R14 to R16, R35, R94, R155). -/

namespace Sys2Proof.Machine

/-! ### The checks of R14 -/

section
variable {s : State} {p : Port} {chain kind : Byte} {code : Code} {d : BitVec 16} {i : Chain}

theorem announceCheck_loading (hr : s.bau.inRun = false) : announceCheck s p chain kind d = .error .busy := by
  simp [announceCheck, hr]

/-- The BAU in RUN checks the chain before all else. -/
theorem announceCheck_noChain (hr : s.bau.inRun = true) (hc : chainOfByte chain = none) :
    announceCheck s p chain kind d = .error .badValue := by
  simp [announceCheck, hr, hc]

theorem announceCheck_next (hr : s.bau.inRun = true) (hc : chainOfByte chain = some i) :
    announceCheck s p chain 0 d =
      if !s.owns p i then .error .notOwner
      else if (s.bau.chains.get i).queue.length < 8 then .ok i
      else .error .queueFull := by
  rw [announceCheck, hr, hc]
  rfl

theorem announceCheck_now (hr : s.bau.inRun = true) (hc : chainOfByte chain = some i) :
    announceCheck s p chain 1 0 =
      if !s.owns p i then .error .notOwner
      else if (s.bau.chains.get i).pulse.isSome then .ok i
      else .error .noPulse := by
  simp [announceCheck, hr, hc]

/-- A kind byte that is neither NEXT nor NOW, or a NOW with a duration, is a bad value on every chain. -/
theorem announceCheck_badKind (hr : s.bau.inRun = true) (hk : 2 ≤ kind.toNat ∨ kind = 1 ∧ d ≠ 0) :
    announceCheck s p chain kind d = .error .badValue := by
  have hnext : kind ≠ 0 := by
    rintro rfl
    rcases hk with hk | ⟨hk, -⟩
    · exact absurd hk (by decide)
    · exact absurd hk (by decide)
  have hnow : ¬(kind = 1 && decide (d = 0)) = true := by
    rw [Bool.and_eq_true, decide_eq_true_eq, decide_eq_true_eq]
    rintro ⟨rfl, hd⟩
    rcases hk with hk | ⟨-, hk⟩
    · exact absurd hk (by decide)
    · exact hk hd
  cases hc : chainOfByte chain with
  | none => exact announceCheck_noChain hr hc
  | some i =>
    rw [announceCheck, hr, hc]
    exact (if_neg hnext).trans (if_neg hnow)

theorem takeAnnounce_refused {st : Status} (h : announceCheck s p chain kind d = .error st) :
    takeAnnounce p chain kind code d s = s.answer p st Kind.announce.value [] := by
  rw [takeAnnounce, h]

/-- An accepted ANNOUNCE is answered with what the chain then holds. -/
theorem takeAnnounce_accepted (h : announceCheck s p chain kind d = .ok i) :
    takeAnnounce p chain kind code d s =
      (acceptAnnounce i kind code d s).answer p .ok Kind.announce.value
        (announcePayload ((acceptAnnounce i kind code d s).bau.chains.get i)) := by
  rw [takeAnnounce, h]

end

/-- While a close notice is held the BAU holds an event behind it (R29). -/
theorem bauReceive_held {s : State} (h : s.bau.closeNotice.isSome = true) (e : BauEvent) :
    bauReceive e s = { s with bau := { s.bau with held := s.bau.held ++ [e] } } := if_pos h

/-! ### ANNOUNCE as a command -/

/-- An ANNOUNCE of a modem port reaches the BAU once its frame has ended. -/
theorem exec_announce {c : Instr} {s : State} {p : Port} {chain kind : Byte} {code : Code} {d : BitVec 16}
    (hc : requestOf c = some (p, .announce chain kind code d)) (hp : p ≠ .portC) (h : StartsFree s p) :
    exec c s = .next (bauReceive (.announce p chain kind code d) (s.frameEnded p (.announce chain kind code d))) :=
  exec_delivered hc h rfl (announce_permitted p hp)

/-- With no close notice held the BAU takes it at once. -/
theorem exec_announce_taken {c : Instr} {s : State} {p : Port} {chain kind : Byte} {code : Code} {d : BitVec 16}
    (hc : requestOf c = some (p, .announce chain kind code d)) (hp : p ≠ .portC) (h : StartsFree s p)
    (hn : s.bau.closeNotice = none) :
    exec c s = .next (takeAnnounce p chain kind code d (s.frameEnded p (.announce chain kind code d))) :=
  (exec_announce hc hp h).trans (congrArg Host.Outcome.next
    (bauReceive_taken (s := s.frameEnded p (.announce chain kind code d)) hn _))

/-- A refused ANNOUNCE changes nothing but its slot. -/
theorem exec_announce_refused {c : Instr} {s : State} {p : Port} {chain kind : Byte} {code : Code} {d : BitVec 16}
    {st : Status} (hc : requestOf c = some (p, .announce chain kind code d)) (hp : p ≠ .portC) (h : StartsFree s p)
    (hn : s.bau.closeNotice = none) (hcheck : announceCheck s p chain kind d = .error st) :
    ∃ t, exec c s = .next t ∧ AnsweredOnly s t p st .announce [] := by
  refine ⟨_, (exec_announce_taken hc hp h hn).trans (congrArg Host.Outcome.next (takeAnnounce_refused hcheck)), ?_⟩
  exact answeredOnly_of_answer s p (.announce chain kind code d) st .announce []

/-- The port of the flash and the policy may not announce. -/
theorem exec_announce_denied {c : Instr} {s : State} {chain kind : Byte} {code : Code} {d : BitVec 16}
    (hc : requestOf c = some (.portC, .announce chain kind code d)) :
    ∃ t, exec c s = .next t ∧ (StartsFree s .portC → AnsweredOnly s t .portC .denied .announce []) := by
  refine ⟨_, exec_of_requestOf hc s, fun h => ?_⟩
  rw [requestFrame_denied .portC (.announce chain kind code d) _ s h rfl rfl]
  exact answeredOnly_of_answer s .portC (.announce chain kind code d) .denied .announce []

/-! ### The bytes of an ANNOUNCE -/

theorem le_two_append (hi lo : Byte) : le 2 (hi ++ lo).toNat = [lo, hi] := by
  have hvalue : (hi ++ lo).toNat = hi.toNat * 256 + lo.toNat := by
    rw [BitVec.toNat_append, ← Nat.shiftLeft_add_eq_or_of_lt lo.isLt, Nat.shiftLeft_eq]
  have hlow : BitVec.ofNat 8 (hi.toNat * 256 + lo.toNat) = lo := by
    refine BitVec.eq_of_toNat_eq ?_
    rw [BitVec.toNat_ofNat]
    omega
  have hhigh : BitVec.ofNat 8 ((hi.toNat * 256 + lo.toNat) / 256) = hi := by
    refine BitVec.eq_of_toNat_eq ?_
    rw [BitVec.toNat_ofNat]
    omega
  calc le 2 (hi ++ lo).toNat = le 2 (hi.toNat * 256 + lo.toNat) := congrArg (le 2) hvalue
    _ = [BitVec.ofNat 8 (hi.toNat * 256 + lo.toNat), BitVec.ofNat 8 ((hi.toNat * 256 + lo.toNat) / 256)] := rfl
    _ = [lo, hi] := by rw [hlow, hhigh]

theorem requestBytes_announce (chain kind code lo hi : Byte) :
    requestBytes (.announce chain kind code (hi ++ lo)) = [0x01, 5, chain, kind, code, lo, hi] := by
  have hbytes : requestBytes (.announce chain kind code (hi ++ lo)) =
      [0x01, 5, chain, kind, code] ++ le 2 (hi ++ lo).toNat := rfl
  rw [hbytes, le_two_append]
  rfl

/-- A frame whose bytes are an ANNOUNCE's reaches the BAU, whatever bytes follow. -/
theorem selectRise_announce {s : State} {p : Port} {f : Frame} (hp : p ≠ .portC) (hl : (s.ports.get p).selectLow = true)
    (hf : (s.ports.get p).frame = some f) (hpending : f.startedPending = false) (chain kind code lo hi : Byte)
    (extra : List Byte) (strap : Bool) :
    selectRise p ([0x01, 5, chain, kind, code, lo, hi] ++ extra) false strap s =
      bauReceive (.announce p chain kind code (hi ++ lo))
        (s.setPort p (endedPort (s.ports.get p) ([0x01, 5, chain, kind, code, lo, hi] ++ extra))) := by
  rw [← requestBytes_announce]
  obtain ⟨-, -, -, hcomplete⟩ := requestBytes_parts (.announce chain kind code (hi ++ lo)) extra rfl
  rw [selectRise_judged hl hf hpending hcomplete, judgeRequest_requestBytes p _ extra rfl, judgePermission,
    if_pos (show (Request.announce chain kind code (hi ++ lo)).kind.permitted p = true from announce_permitted p hp)]
  rfl

/-! ### The outcomes -/

/-- An accepted ANNOUNCE NEXT on its chain. -/
theorem announceNextOn_eq (code : Code) (d : BitVec 16) (t : Stamp) (sh : BauShared) (i : Chain) (c : BauChain) :
    announceNextOn code d t sh i c =
      ⟨{ c with
          queue := c.queue ++ [{ code := code, maxDuration := if d = 0 then none else some d, arrival := t }]
          announcedInEpoch := true },
        [.activityNotice i]⟩ := rfl

/-- An accepted ANNOUNCE: its chain takes it at the time base, and the answer carries what the chain then holds. -/
theorem exec_announce_accepted {c : Instr} {s : State} {p : Port} {chain kind : Byte} {code : Code} {d : BitVec 16}
    {i : Chain} {f : Stamp → BauShared → Chain → BauChain → Eff BauChain}
    (hc : requestOf c = some (p, .announce chain kind code d)) (hp : p ≠ .portC) (h : StartsFree s p)
    (hn : s.bau.closeNotice = none) (hcheck : announceCheck s p chain kind d = .ok i)
    (hf : ∀ x : State, acceptAnnounce i kind code d x = x.runChain i (f x.timeBase)) :
    exec c s =
      .next (((s.frameEnded p (.announce chain kind code d)).runChain i (f s.timeBase)).answer p .ok Kind.announce.value
        (announcePayload (f s.timeBase s.bau.shared i (s.bau.chains.get i)).val)) := by
  refine (exec_announce_taken hc hp h hn).trans (congrArg Host.Outcome.next
    ((takeAnnounce_accepted (s := s.frameEnded p (.announce chain kind code d)) hcheck).trans ?_))
  rw [hf, State.runChain_get_self]
  rfl

/-- Settles O24: each refusal by its check, the acceptance by `exec_announce_accepted`. -/
theorem announceNextJoinsTheQueueOrIsRefused : Obligations.AnnounceNextJoinsTheQueueOrIsRefused := by
  refine ⟨fun p chain code d s i hp h hr hn hc ho hq => ?_, fun p chain code d s hp h hn => ⟨fun hr => ?_, fun hr hc => ?_,
    fun hr hd => ?_, fun i hr hc => ⟨fun ho => ?_, fun ho hq => ?_, fun ho hpulse => ?_⟩⟩,
    fun p chain code d s hp h hn => ⟨fun hr => ?_, fun hr hc => ?_, fun i hr hc ho => ?_, ?_⟩,
    fun p chain kind code lo hi extra strap s f hp hl hf hpending hk => ?_⟩
  · have hcheck : announceCheck s p chain 0 d = .ok i := by
      rw [announceCheck_next hr hc, ho, if_neg (by decide), if_pos hq]
    refine ⟨_, exec_announce_accepted (f := announceNextOn code d) rfl hp h hn hcheck (fun _ => rfl), rfl,
      otherChainsStand_of_runChain s _ i (announceNextOn code d s.timeBase) rfl, PerChain.get_set_self _ i _, ?_⟩
    have hdepth : (s.bau.chains.get i).queue.length + 1 =
        (announceNextOn code d s.timeBase s.bau.shared i (s.bau.chains.get i)).val.queue.length := by
      rw [announceNextOn_eq]
      simp
    rw [hdepth]
    exact portAfter_answered s _ _ p (.announce chain 0 code d) .ok .announce _ rfl rfl
  · exact exec_announce_refused rfl hp h hn (announceCheck_loading hr)
  · exact exec_announce_refused rfl hp h hn (announceCheck_noChain hr (chainOfByte_none hc))
  · exact exec_announce_refused rfl hp h hn (announceCheck_badKind hr (.inr ⟨rfl, hd⟩))
  · exact exec_announce_refused rfl hp h hn (by rw [announceCheck_next hr hc, ho, if_pos (by decide)])
  · exact exec_announce_refused rfl hp h hn
      (by rw [announceCheck_next hr hc, ho, if_neg (by decide), if_neg (Nat.not_lt.2 hq)])
  · exact exec_announce_refused rfl hp h hn
      (by rw [announceCheck_now hr hc, ho, if_neg (by decide), hpulse, if_neg (by decide)])
  · exact exec_announce_refused rfl hp h hn (announceCheck_loading hr)
  · exact exec_announce_refused rfl hp h hn (announceCheck_noChain hr (chainOfByte_none hc))
  · exact exec_announce_refused rfl hp h hn (by rw [announceCheck_now hr hc, ho, if_pos (by decide)])
  · obtain ⟨t, hnext, ht⟩ := exec_announce_denied (s := s) (c := .announceNext .portC chain code d) rfl
    obtain ⟨u, hnow, hu⟩ := exec_announce_denied (s := s) (c := .announceNow .portC chain code d) rfl
    exact ⟨t, u, hnext, hnow, fun h => ⟨ht h, hu h⟩⟩
  · have answered : ∀ st : Status, announceCheck s p chain kind (hi ++ lo) = .error st → AnsweredOnly s
        (takeAnnounce p chain kind code (hi ++ lo)
          (s.setPort p (endedPort (s.ports.get p) ([0x01, 5, chain, kind, code, lo, hi] ++ extra)))) p st .announce [] :=
      fun st hcheck => by
        rw [takeAnnounce_refused (by exact hcheck)]
        exact answeredOnly_of_ended s p _ st .announce []
    refine ⟨_, congrArg Host.Outcome.next (selectRise_announce hp hl hf hpending chain kind code lo hi extra strap),
      fun hn hr => ?_, fun hn hr => ?_, fun hn => ⟨?_, ?_⟩⟩
    · rw [bauReceive_taken (by exact hn)]
      exact answered .badValue (announceCheck_badKind hr (.inl hk))
    · rw [bauReceive_taken (by exact hn)]
      exact answered .busy (announceCheck_loading hr)
    · rw [bauReceive_held (by exact hn)]
      exact portAfter_ended s p _ rfl _ rfl
    · rw [bauReceive_held (by exact hn)]
      rfl

/-- A chain whose current segment is ended and charged at a stamp by an accepted ANNOUNCE NOW, before the new segment is
judged. -/
def withNow (code : Code) (t : Stamp) (pl : Pulse) (c : BauChain) : BauChain :=
  { cutSegment pl code t c with grace := none, announcedInEpoch := true }

theorem announceNowOn_open {c : BauChain} {pl : Pulse} (hp : c.pulse = some pl) (code : Code) (t : Stamp)
    (sh : BauShared) (i : Chain) :
    announceNowOn code t sh i c =
      ⟨(judgeStart sh i (withNow code t pl c)).val, .activityNotice i :: (judgeStart sh i (withNow code t pl c)).out⟩ := by
  rw [announceNowOn, hp]
  rfl

/-- An accepted ANNOUNCE NOW on its chain: the charge, the new segment, and its judgement. -/
theorem announceNowOn_spec {c : BauChain} {pl : Pulse} (hp : c.pulse = some pl) (code : Code) (t : Stamp)
    (sh : BauShared) (i : Chain) :
    ((announceNowOn code t sh i c).val.queue = c.queue ∧ (announceNowOn code t sh i c).val.grace = none ∧
      (announceNowOn code t sh i c).val.accumulator = c.accumulator + segmentCharge pl.segment t ∧
      (announceNowOn code t sh i c).val.pulse =
        some { pl with segment := { newSegment c code t with marked := overshoots c code } } ∧
      (announceNowOn code t sh i c).val.announcedInEpoch = true ∧
      (announceNowOn code t sh i c).val.heldCeiling = c.heldCeiling ∧
      (announceNowOn code t sh i c).val.heldInhibit = c.heldInhibit) ∧
    JudgedAs (overshoots c code) sh c (announceNowOn code t sh i c).val ∧
    (announceNowOn code t sh i c).out = .activityNotice i :: judgedNotices (overshoots c code) sh i c := by
  obtain ⟨hjudged, hout⟩ :=
    judgeStart_judged sh i (withNow code t pl c) { pl with segment := newSegment c code t } rfl rfl
  rw [announceNowOn_open hp]
  refine ⟨?_, hjudged, congrArg (Instr.activityNotice i :: ·) hout⟩
  dsimp only
  rw [judgeStart_frame sh i (withNow code t pl c) { pl with segment := newSegment c code t } rfl rfl rfl rfl]
  exact ⟨rfl, rfl, rfl, rfl, rfl, rfl, rfl⟩

/-- Settles O25: the chain by `announceNowOn_spec`, the answer by the values it then holds. -/
theorem announceNowChangesTheSegment : Obligations.AnnounceNowChangesTheSegment := by
  intro p chain code s i pl hp h hr hn hc ho hpulse
  have hcheck : announceCheck s p chain 1 0 = .ok i := by
    rw [announceCheck_now hr hc, ho, if_neg (by decide), hpulse, if_pos (by rfl)]
  obtain ⟨⟨hqueue, hgrace, haccumulator, hopen, hannounced, hceiling, hinhibit⟩, hjudged, hout⟩ :=
    announceNowOn_spec hpulse code s.timeBase s.bau.shared i
  have hexec := exec_announce_accepted (c := .announceNow p chain code 0) (f := announceNowOn code) rfl hp h hn hcheck
    (fun _ => rfl)
  obtain ⟨⟨-, hslot, -⟩, -⟩ := portAfter_answered s
    ((s.frameEnded p (.announce chain 1 code 0)).runChain i (announceNowOn code s.timeBase)) _ p (.announce chain 1 code 0)
    .ok .announce (announcePayload (announceNowOn code s.timeBase s.bau.shared i (s.bau.chains.get i)).val) rfl rfl
  obtain ⟨-, hsent, hothers, hchain⟩ := chainTakes_runChain (s := s) (i := i) (f := announceNowOn code s.timeBase) rfl
  rw [hout] at hsent
  rw [← hchain] at hqueue hgrace haccumulator hopen hannounced hjudged
  refine ⟨_, _, hexec, rfl, hothers, hqueue, hgrace, haccumulator, hopen, rfl, hjudged, hannounced,
    hsent.trans (List.append_assoc _ [_] _).symm, hslot.trans ?_⟩
  rw [announcePayload, hceiling, hinhibit, ← hchain, hqueue]

end Sys2Proof.Machine

/-! Transmit bursts: the close notice and what is held behind it (R29). -/

namespace Sys2Proof.Machine

/-! ### What is held behind a close notice -/

/-- The burst unit's part of a step that sends nothing. -/
theorem runBau_pure {s : State} {f : Bau → Eff Bau} {b : Bau} (h : f s.bau = Eff.pure b) :
    s.runBau f = { s with bau := b } := by
  rw [State.runBau, h]
  simp [Eff.pure]

/-- Behind a close notice a PORT_RESET's flushes are held, one for each of its chains in their order. -/
theorem flushOwnedAll_held (p : Port) (is : List Chain) {s : State} (h : s.bau.closeNotice.isSome = true) :
    (is.foldl (flushOwned p) s).bau =
      { s.bau with held := s.bau.held ++ (is.filter (s.owns p)).map .flush } := by
  induction is generalizing s with
  | nil => simp
  | cons i is ih =>
    rw [List.foldl_cons]
    cases ho : s.owns p i with
    | false =>
      have hstays : flushOwned p s i = s := by simp [flushOwned, ho]
      rw [hstays, ih h, List.filter_cons_of_neg (Bool.eq_false_iff.1 ho)]
    | true =>
      have hholds : flushOwned p s i = { s with bau := { s.bau with held := s.bau.held ++ [.flush i] } } := by
        rw [flushOwned, if_pos ho, bauReceive_held h]
      rw [hholds, ih (by exact h), List.filter_cons_of_pos ho]
      simp only [List.append_assoc]
      rfl

/-- An ANNOUNCE behind a close notice is held; its port stands between two frames. -/
theorem exec_announce_held {c : Instr} {s : State} {p : Port} {chain kind : Byte} {code : Code} {d : BitVec 16}
    (hc : requestOf c = some (p, .announce chain kind code d)) (hp : p ≠ .portC) (h : StartsFree s p)
    (hn : s.bau.closeNotice.isSome = true) :
    ∃ t, exec c s = .next t ∧ PortAfter s t p (collectedSlot (s.ports.get p)) ∧
      t = { s with
        ports := t.ports
        bau := { s.bau with held := s.bau.held ++ [.announce p chain kind code d] } } := by
  refine ⟨_, (exec_announce hc hp h).trans (congrArg Host.Outcome.next
    (bauReceive_held (s := s.frameEnded p (.announce chain kind code d)) hn _)), ?_, rfl⟩
  exact portAfter_ended s p (requestBytes (.announce chain kind code d)) rfl _ (congrArg State.ports (State.frameEnded_eq _ _ _))

/-- No event but an ANNOUNCE looks at the time base. -/
theorem bauTake_timeBase_irrelevant (s : State) {e : BauEvent} (now : Stamp)
    (he : ∀ p chain kind code d, e ≠ .announce p chain kind code d) :
    bauTake { s with timeBase := now } e = { bauTake s e with timeBase := now } := by
  cases e with
  | announce p chain kind code d => exact absurd rfl (he p chain kind code d)
  | rise => rfl
  | fall => rfl
  | staleExpiry => rfl
  | overrunExpiry => rfl
  | graceExpiry => rfl
  | ceilingChange => rfl
  | flush => rfl

/-- Settles O30: what is taken by `bauReceive_taken`, what is held by `bauReceive_held`. -/
theorem closeNoticeHoldsEveryEvent : Obligations.CloseNoticeHoldsEveryEvent := by
  refine ⟨fun n s => ⟨_, congrArg Host.Outcome.next (runBau_pure (s := s.takeNotice (.bauCloseNotice n)) rfl), rfl⟩,
    fun a s => ⟨_, congrArg Host.Outcome.next (runBau_pure (s := s.takeNotice (.bauCloseAnswer a)) rfl), rfl⟩,
    fun s hn => ⟨fun i => ?_, fun m hin => ?_, fun p chain code d hp h => ?_⟩,
    fun s i => ⟨_, rfl, ?_, ?_⟩, fun s e now he => bauTake_timeBase_irrelevant s now he, fun s n hn => ?_⟩
  · exact ⟨congrArg Host.Outcome.next (bauReceive_taken hn _), congrArg Host.Outcome.next (bauReceive_taken hn _),
      congrArg Host.Outcome.next (bauReceive_taken hn _)⟩
  · exact congrArg Host.Outcome.next ((State.taking_of_inOrder _ hin).trans
      (bauReceive_taken (s := s.takeNotice (.ceilingChangeNotice m)) hn _))
  · exact ⟨exec_announce_taken rfl hp h hn, exec_announce_taken rfl hp h hn⟩
  · exact runChain_flushOn s i
  · obtain ⟨-, -, hothers, hchain⟩ := chainTakes_runChain (s := s) (i := i) (flushOn_eq _ _ _)
    exact ⟨hothers, hchain⟩
  · have hheld : s.bau.closeNotice.isSome = true := by rw [hn]; rfl
    refine ⟨fun i hr hl => ?_, fun i hr hl => ?_, fun i => ?_, fun m hin => ?_, fun p chain code d hp h =>
      ⟨exec_announce_held rfl hp h hheld, exec_announce_held rfl hp h hheld⟩, fun p hi ha => ?_,
      fun chain owner i o h hl hc ho => ?_, fun p h => ?_⟩
    · exact congrArg Host.Outcome.next ((lineRises_inRun hl hr).trans
        (bauReceive_held (s := s.setPins { s.pins with txen := s.pins.txen.set i true }) hheld _))
    · exact congrArg Host.Outcome.next ((lineFalls_inRun hl hr).trans
        (bauReceive_held (s := s.setPins { s.pins with txen := s.pins.txen.set i false }) hheld _))
    · exact ⟨congrArg Host.Outcome.next (bauReceive_held hheld _), congrArg Host.Outcome.next (bauReceive_held hheld _),
        congrArg Host.Outcome.next (bauReceive_held hheld _)⟩
    · exact congrArg Host.Outcome.next ((State.taking_of_inOrder _ hin).trans
        (bauReceive_held (s := s.takeNotice (.ceilingChangeNotice m)) hheld _))
    · obtain ⟨-, -, -, hawait⟩ := hi
      obtain ⟨-, hslot, -⟩ := hawait p ha
      exact hslot
    · have hdeliver : deliver .portC (.setOwner chain owner) s.pins.strap (s.frameEnded .portC (.setOwner chain owner)) =
          _ := takeSetOwner_valid (s := s.frameEnded .portC (.setOwner chain owner)) hl hc ho .portC
      rw [setOwner, bauReceive_held (by exact hheld)] at hdeliver
      refine ⟨_, (exec_delivered (r := .setOwner chain owner) rfl h rfl rfl).trans
        (congrArg Host.Outcome.next hdeliver), ?_, rfl, rfl⟩
      exact portAfter_answered s _ _ .portC (.setOwner chain owner) .ok .setOwner _ rfl rfl
    · have hexec := exec_delivered (c := .portReset p) (r := .portReset) rfl h rfl (by cases p <;> rfl)
      have hframe := takePortReset_frame p (s.frameEnded p .portReset)
      refine ⟨_, hexec.trans (congrArg Host.Outcome.next hframe),
        portAfter_setSlot s p (requestBytes .portReset) _ _ ?_, ?_⟩
      · simp [State.frameEnded_eq]
      · exact flushOwnedAll_held p Chain.all
          (s := emptyPending p ((s.frameEnded p .portReset).setSlot p .empty)) hheld

end Sys2Proof.Machine

/-! Transmit bursts: the epoch close at the burst unit (R18, R28 to R31, R88). -/

namespace Sys2Proof.Machine

/-! ### The report and the summary (R28, R30, R31) -/

/-- A chain's energy up to the boundary: what it has accumulated, and the open segment's charge. -/
theorem sealChain_accumulator (b : Stamp) (c : BauChain) :
    (sealChain b c).accumulator =
      c.accumulator + match c.pulse with | some pl => segmentCharge pl.segment b | none => 0 := by
  unfold sealChain
  cases c.pulse with
  | none => simp
  | some pl => rfl

/-! ### A chain opens the next epoch (R18, R28, R29) -/

/-- The queue after the recheck: with a new stale limit the entries at the head that are due leave. -/
def queueAfterClose (old new : BauShared) (b : Stamp) (c : BauChain) : List QueueEntry :=
  if new.staleMs = old.staleMs then c.queue
  else c.queue.dropWhile fun e => reached b (afterMs e.arrival new.staleMs)

/-- How many entries the recheck removes. -/
def staleAtClose (old new : BauShared) (b : Stamp) (c : BauChain) : Nat :=
  c.queue.length - (queueAfterClose old new b c).length

/-- A chain in the epoch that begins, before its boundary segment is judged. -/
def reopened (old new : BauShared) (b : Stamp) (power : ChainPower) (c : BauChain) : BauChain :=
  { openEpoch b power c with
    queue := queueAfterClose old new b c
    counters := { c.counters with stale := satAdd16 c.counters.stale (staleAtClose old new b c) } }

theorem recheckAfter_eq (old new : BauShared) (i : Chain) (b : Stamp) (power : ChainPower) (c : BauChain) :
    recheckAfter old new i b (openEpoch b power c) =
      ⟨reopened old new b power c, List.replicate (staleAtClose old new b c) (raiseChain .stale i)⟩ := by
  by_cases h : new.staleMs = old.staleMs
  · have hqueue : queueAfterClose old new b c = c.queue := if_pos h
    rw [recheckAfter, if_pos h.symm]
    simp only [reopened, staleAtClose, hqueue, Nat.sub_self, satAdd16_zero, List.replicate_zero]
    rfl
  · have hqueue : queueAfterClose old new b c =
        (openEpoch b power c).queue.dropWhile fun e => reached b (staleDeadline new.staleMs e) := if_neg h
    rw [recheckAfter, if_neg (Ne.symm h)]
    exact recheckStale_eq new i b _ (openEpoch b power c) (Nat.le_refl _) _ hqueue

theorem closeChain_eq (old new : BauShared) (a : Option BauParams) (b : Stamp) (i : Chain) (c : BauChain) :
    closeChain old new a b i c =
      ⟨(judgeBoundary new i (reopened old new b (powerAfter c a i) c)).val,
        List.replicate (staleAtClose old new b c) (raiseChain .stale i) ++
          (judgeBoundary new i (reopened old new b (powerAfter c a i) c)).out⟩ := by
  rw [closeChain, recheckAfter_eq]
  rfl

/-! ### The judgement of the boundary segment (R88) -/

/-- Without an open pulse there is no segment to judge. -/
theorem judgeBoundary_closed {c : BauChain} (hp : c.pulse = none) (sh : BauShared) (i : Chain) :
    judgeBoundary sh i c = Eff.pure c := by
  cases hg : c.grace <;> simp only [judgeBoundary, hg, judgeStart, hp]

/-- A boundary segment that inherits a running grace timer is not judged, any other one is, and of the chain nothing else
changes. -/
theorem judgeBoundary_open {c : BauChain} {pl : Pulse} (hp : c.pulse = some pl)
    (hi : pl.segment.inhibited = c.heldInhibit) (hm : pl.segment.marked = false) (sh : BauShared) (i : Chain) :
    (sameAccount c (judgeBoundary sh i c).val ∧ (judgeBoundary sh i c).val.queue = c.queue ∧
      (judgeBoundary sh i c).val.pulsedInEpoch = c.pulsedInEpoch ∧ (judgeBoundary sh i c).val.grace = c.grace ∧
      (judgeBoundary sh i c).val.pulse =
        some { pl with segment := { pl.segment with
          marked := c.grace.isNone && overshoots c pl.segment.code } }) ∧
    JudgedAs (c.grace.isNone && overshoots c pl.segment.code) sh c (judgeBoundary sh i c).val ∧
    (judgeBoundary sh i c).out = judgedNotices (c.grace.isNone && overshoots c pl.segment.code) sh i c := by
  cases hg : c.grace with
  | some d =>
    have hpure : judgeBoundary sh i c = Eff.pure c := by rw [judgeBoundary, hg]
    have hsame : { pl with segment := { pl.segment with marked := false } } = pl := by rw [← hm]
    rw [hpure]
    exact ⟨⟨⟨rfl, rfl, rfl, rfl, rfl⟩, rfl, rfl, hg, hp.trans (congrArg some hsame.symm)⟩, ⟨rfl, rfl, rfl⟩, rfl⟩
  | none =>
    have hjudge : judgeBoundary sh i c = judgeStart sh i c := by rw [judgeBoundary, hg]
    obtain ⟨hjudged, hout⟩ := judgeStart_judged sh i c pl hp hi
    rw [hjudge]
    refine ⟨?_, hjudged, hout⟩
    rw [judgeStart_frame sh i c pl hp hi hm hg]
    exact ⟨⟨rfl, rfl, rfl, rfl, rfl⟩, rfl, rfl, hg, rfl⟩

/-! ### The boundary segment of a chain that reopens -/

section
variable {old new : BauShared} {b : Stamp} {power : ChainPower} {c : BauChain}

theorem reopened_pulse_eq : (reopened old new b power c).pulse =
    c.pulse.map fun pl => { pl with segment := newSegment { c with power := power } pl.segment.code b } := rfl

/-- The boundary segment has the code of the segment before it. -/
theorem reopened_pulse {pl : Pulse} (hp : c.pulse = some pl) :
    (reopened old new b power c).pulse =
      some { pl with segment := newSegment { c with power := power } pl.segment.code b } := by
  rw [reopened_pulse_eq, hp]
  rfl

theorem reopened_closed (hp : c.pulse = none) : (reopened old new b power c).pulse = none := by
  rw [reopened_pulse_eq, hp]
  rfl

/-- A chain as the close event's judgements find it: no strike and no enforcement in the new epoch, and the entries that
left counted. -/
def opening (old new : BauShared) (b : Stamp) (c : BauChain) : BauChain :=
  { c with
    strikes := 0
    enforced := false
    counters := { c.counters with stale := satAdd16 c.counters.stale (staleAtClose old new b c) } }

/-- The boundary segment of a chain is judged in the new epoch, unless it inherits a grace timer. -/
def boundaryOvershoots (c : BauChain) (pl : Pulse) : Bool := c.grace.isNone && overshoots c pl.segment.code

/-- A chain with no open pulse in the new epoch. -/
theorem reopened_judged_closed (hp : c.pulse = none) (i : Chain) :
    judgeBoundary new i (reopened old new b power c) = Eff.pure (reopened old new b power c) ∧
      JudgedAs false new (opening old new b c) (reopened old new b power c) :=
  ⟨judgeBoundary_closed (reopened_closed hp) new i, rfl, rfl, rfl⟩

/-- A chain with an open pulse in the new epoch, its boundary segment judged. -/
theorem reopened_judged_open {pl : Pulse} (hp : c.pulse = some pl) (i : Chain) :
    (sameAccount (reopened old new b power c) (judgeBoundary new i (reopened old new b power c)).val ∧
      (judgeBoundary new i (reopened old new b power c)).val.queue = queueAfterClose old new b c ∧
      (judgeBoundary new i (reopened old new b power c)).val.pulsedInEpoch = c.pulse.isSome ∧
      (judgeBoundary new i (reopened old new b power c)).val.grace = c.grace ∧
      (judgeBoundary new i (reopened old new b power c)).val.pulse =
        some { pl with segment := { newSegment { c with power := power } pl.segment.code b with
          marked := boundaryOvershoots c pl } }) ∧
    JudgedAs (boundaryOvershoots c pl) new (opening old new b c) (judgeBoundary new i (reopened old new b power c)).val ∧
    (judgeBoundary new i (reopened old new b power c)).out =
      judgedNotices (boundaryOvershoots c pl) new i (opening old new b c) :=
  judgeBoundary_open (c := reopened old new b power c) (reopened_pulse hp) rfl rfl new i

/-- What a chain holds in the new epoch, whether a pulse is open or not. -/
theorem reopened_judged (i : Chain) :
    sameAccount (reopened old new b power c) (judgeBoundary new i (reopened old new b power c)).val ∧
      (judgeBoundary new i (reopened old new b power c)).val.queue = queueAfterClose old new b c ∧
      (judgeBoundary new i (reopened old new b power c)).val.pulsedInEpoch = c.pulse.isSome := by
  cases hp : c.pulse with
  | none =>
    obtain ⟨hpure, -⟩ := reopened_judged_closed (old := old) (new := new) (b := b) (power := power) hp i
    rw [hpure]
    exact ⟨⟨rfl, rfl, rfl, rfl, rfl⟩, rfl, congrArg Option.isSome hp⟩
  | some pl =>
    obtain ⟨⟨haccount, hqueue, hpulsed, -⟩, -⟩ :=
      reopened_judged_open (old := old) (new := new) (b := b) (power := power) hp i
    exact ⟨haccount, hqueue, hpulsed.trans (congrArg Option.isSome hp)⟩

end

/-! ### The close event -/

theorem exec_bauCloseEvent {s : State} {n : CloseNotice} {a : Option BauParams} (hn : s.bau.closeNotice = some n)
    (ha : s.bau.closeAnswer = some a) :
    exec .bauCloseEvent s = .next (s.bau.held.foldl bauTake (s.runBau (bauClose n a))) := by
  refine congrArg Host.Outcome.next ?_
  rw [bauCloseEvent, hn, ha]

theorem bauClose_chain (n : CloseNotice) (a : Option BauParams) (b : Bau) (i : Chain) :
    (bauClose n a b).val.chains.get i =
      (judgeBoundary (sharedAfter b.shared n.closing a) i (reopened b.shared (sharedAfter b.shared n.closing a) n.boundary
        (powerAfter (b.chains.get i) a i) (b.chains.get i))).val := by
  have hget : (bauClose n a b).val.chains.get i = (closeChain b.shared (sharedAfter b.shared n.closing a) a n.boundary i
      (b.chains.get i)).val := PerChain.get_build _ i
  rw [hget, closeChain_eq]

/-- Without the notice or the answer the close event changes nothing (log 4). -/
theorem bauCloseEvent_waits {s : State} (h : s.bau.closeNotice = none ∨ s.bau.closeAnswer = none) :
    bauCloseEvent s = s := by
  unfold bauCloseEvent
  split
  case h_1 n a hn ha =>
    rcases h with h | h
    · exact nomatch h.symm.trans hn
    · exact nomatch h.symm.trans ha
  case h_2 => rfl

/-- What the close event sends: the report, the summary, and what each chain's recheck and judgement send. -/
theorem bauClose_out (n : CloseNotice) (a : Option BauParams) (b : Bau) {staleOut overOut : Chain → List Instr}
    (h : ∀ i, (closeChain b.shared (sharedAfter b.shared n.closing a) a n.boundary i (b.chains.get i)).out =
      staleOut i ++ overOut i) :
    (bauClose n a b).out =
      [.epochEnergyReport (PerChain.build fun i =>
          { energy := (b.chains.get i).accumulator +
              match (b.chains.get i).pulse with
              | some pl => segmentCharge pl.segment n.boundary
              | none => 0
            strikes := (b.chains.get i).strikes }),
        .quietSummary (PerChain.build fun i =>
          !(b.chains.get i).announcedInEpoch && !(b.chains.get i).pulsedInEpoch && (b.chains.get i).queue.isEmpty &&
            (b.chains.get i).pulse.isNone)] ++
        (staleOut .tx0 ++ overOut .tx0) ++ (staleOut .tx1 ++ overOut .tx1) ++ (staleOut .tx2 ++ overOut .tx2) ++
        (staleOut .tx3 ++ overOut .tx3) := by
  simp only [bauClose, runChains, h, chainReport, sealChain_accumulator, isQuiet, List.append_assoc]

theorem sharedAfter_epoch (sh : BauShared) (closing : EpochIndex) (a : Option BauParams) :
    (sharedAfter sh closing a).epoch = nextEpoch closing := by
  cases a <;> rfl

/-- Settles O31: the report by `bauClose_out`, the chains by `reopened` and the judgement of their boundary segments. -/
theorem closeEventReportsAndOpensTheEpoch : Obligations.CloseEventReportsAndOpensTheEpoch := by
  refine ⟨fun s h => congrArg Host.Outcome.next (bauCloseEvent_waits h), fun s n a hn ha =>
    ⟨_, exec_bauCloseEvent (s := { s with bau := { s.bau with held := [] } }) hn ha, exec_bauCloseEvent hn ha⟩,
    fun s n a hn ha hheld => ?_⟩
  have hexec := exec_bauCloseEvent hn ha
  rw [hheld] at hexec
  let new := sharedAfter s.bau.shared n.closing a
  have hsent := bauClose_out n a s.bau fun i =>
    congrArg Eff.out (closeChain_eq s.bau.shared new a n.boundary i (s.bau.chains.get i))
  have hchain := bauClose_chain n a s.bau
  have hpower : ∀ i, ((bauClose n a s.bau).val.chains.get i).power = powerAfter (s.bau.chains.get i) a i := fun i => by
    obtain ⟨⟨-, -, -, -, hpower⟩, -⟩ := reopened_judged (old := s.bau.shared) (new := new) (b := n.boundary)
      (power := powerAfter (s.bau.chains.get i) a i) (c := s.bau.chains.get i) i
    exact (congrArg BauChain.power (hchain i)).trans hpower
  refine ⟨_, fun i => List.replicate (staleAtClose s.bau.shared new n.boundary (s.bau.chains.get i)) (raiseChain .stale i),
    fun i => (judgeBoundary new i (reopened s.bau.shared new n.boundary (powerAfter (s.bau.chains.get i) a i)
      (s.bau.chains.get i))).out, fun i => opening s.bau.shared new n.boundary (s.bau.chains.get i), hexec, rfl, ?_, rfl,
    rfl, rfl, rfl, sharedAfter_epoch _ _ a, fun ha => ?_, fun x ha => ?_, fun i => ?_⟩
  · simp only [List.append_assoc] at hsent ⊢
    exact congrArg (s.notices ++ ·) hsent
  · subst ha
    exact ⟨rfl, hpower⟩
  · subst ha
    exact ⟨rfl, hpower⟩
  · have hget : (s.runBau (bauClose n a)).bau.chains.get i = _ := hchain i
    rw [List.foldl_nil, hget]
    obtain ⟨⟨haccumulator, hannounced, hceiling, hinhibit, hpow⟩, hqueue, hpulsed⟩ :=
      reopened_judged (old := s.bau.shared) (new := new) (b := n.boundary)
        (power := powerAfter (s.bau.chains.get i) a i) (c := s.bau.chains.get i) i
    rw [hqueue]
    refine ⟨rfl, rfl, haccumulator, rfl, hannounced, hpulsed, hceiling, hinhibit, fun hp => ?_, fun pl hp => ?_⟩
    · obtain ⟨hpure, hjudged⟩ := reopened_judged_closed (old := s.bau.shared) (new := new) (b := n.boundary)
        (power := powerAfter (s.bau.chains.get i) a i) hp i
      rw [hpure]
      exact ⟨reopened_closed hp, rfl, hjudged, congrArg Eff.out hpure⟩
    · obtain ⟨⟨-, -, -, hgrace, hpulse⟩, hjudged, hout⟩ := reopened_judged_open (old := s.bau.shared) (new := new)
        (b := n.boundary) (power := powerAfter (s.bau.chains.get i) a i) hp i
      exact ⟨_, _, hpulse, rfl, rfl, (congrArg ChainPower.k hpow).symm, rfl, rfl, rfl, hgrace, hjudged, hout⟩

end Sys2Proof.Machine

/-! Transmit bursts: the start-up of the burst unit (R24, R100, R172). -/

namespace Sys2Proof.Machine

/-! ### Edges before and after the entry (R24) -/

/-- A rise before the burst unit's entry sets the line, and then awaits the entry. -/
theorem lineRises_beforeRun {s : State} {i : Chain} (hline : s.pins.txen.get i = false) (hr : s.bau.inRun = false) :
    lineRises i s = (s.setPins { s.pins with txen := s.pins.txen.set i true }).awaitEntry i true := by
  simp [lineRises, hline, hr]

/-- A fall before the burst unit's entry sets the line, and then awaits the entry. -/
theorem lineFalls_beforeRun {s : State} {i : Chain} (hline : s.pins.txen.get i = true) (hr : s.bau.inRun = false) :
    lineFalls i s = (s.setPins { s.pins with txen := s.pins.txen.set i false }).awaitEntry i false := by
  simp [lineFalls, hline, hr]

/-- A rise of a line found high, and a fall of a line found low, leave everything as it is. -/
theorem lineRises_high {s : State} {i : Chain} (hline : s.pins.txen.get i = true) :
    lineRises i s = { s with pins := { s.pins with txen := s.pins.txen.set i true } } := by
  rw [lineRises, if_pos hline, ← hline, PerChain.set_get_self]

theorem lineFalls_low {s : State} {i : Chain} (hline : s.pins.txen.get i = false) :
    lineFalls i s = { s with pins := { s.pins with txen := s.pins.txen.set i false } } := by
  rw [lineFalls, if_neg (Bool.eq_false_iff.1 hline), ← hline, PerChain.set_get_self]

/-- In LOADING nothing waits: the line at the entry will tell. -/
theorem awaitEntry_loading {s : State} (hl : s.isLoading = true) (i : Chain) (rising : Bool) :
    s.awaitEntry i rising = s := if_pos hl

/-- Between the device's entry to RUN and the burst unit's taking of it an edge waits, with its own stamp. -/
theorem awaitEntry_waits {s : State} (hl : s.isLoading = false) (i : Chain) (rising : Bool) :
    s.awaitEntry i rising =
      { s with bau := { s.bau with early := s.bau.early ++ [(i, { rising := rising, stamp := s.timeBase })] } } :=
  if_neg (Bool.eq_false_iff.1 hl)

/-- In LOADING an edge changes the line only, also one that finds it there already. -/
theorem exec_txen_loading {s : State} (i : Chain) (hr : s.bau.inRun = false) (hl : s.isLoading = true) :
    exec (.txenRise i) s = .next { s with pins := { s.pins with txen := s.pins.txen.set i true } } ∧
      exec (.txenFall i) s = .next { s with pins := { s.pins with txen := s.pins.txen.set i false } } := by
  have hawait (x : Pins) (rising : Bool) : (s.setPins x).awaitEntry i rising = s.setPins x :=
    awaitEntry_loading (s := s.setPins x) hl i rising
  cases hline : s.pins.txen.get i with
  | false =>
    exact ⟨congrArg Host.Outcome.next ((lineRises_beforeRun hline hr).trans (hawait _ _)),
      congrArg Host.Outcome.next (lineFalls_low hline)⟩
  | true =>
    exact ⟨congrArg Host.Outcome.next (lineRises_high hline),
      congrArg Host.Outcome.next ((lineFalls_beforeRun hline hr).trans (hawait _ _))⟩

/-! ### The entry to RUN (R24, R100) -/

/-- What a chain makes and sends at the entry: a line found high is a rise at the stamp of entry, in the first epoch. -/
def atEntry (t : Stamp) (s : State) (i : Chain) : Eff BauChain :=
  if s.lineAtEntry i then riseOn { s.bau.shared with epoch := 1 } i t (s.bau.chains.get i)
  else Eff.pure (s.bau.chains.get i)

/-- The state once the lines found high at the entry have risen, before the edges that came since. -/
def enteredRun (t : Stamp) (s : State) : State :=
  { s with
    bau := { s.bau with
      inRun := true
      shared := { s.bau.shared with epoch := 1 }
      early := []
      chains := PerChain.build fun i => (atEntry t s i).val }
    notices := s.notices ++ (atEntry t s .tx0).out ++ (atEntry t s .tx1).out ++ (atEntry t s .tx2).out ++
      (atEntry t s .tx3).out }

/-- The entry: the rises of the lines found high, and then the edges that came since. -/
theorem takeBauEntry_eq {s : State} (hr : s.bau.inRun = false) (t : Stamp) :
    takeBauEntry t s = (s.bau.early.map edgeEvent).foldl bauTake (enteredRun t s) := by
  have hrises : Chain.all.foldl (riseAtEntry t s.lineAtEntry) s.beginFirstEpoch = enteredRun t s :=
    risesAtEntry_spec t s.lineAtEntry s.beginFirstEpoch (atEntry t s) fun _ => rfl
  rw [takeBauEntry, if_neg (Bool.eq_false_iff.1 hr), bauEntry, hrises, List.foldl_map]
  rfl

theorem atEntry_low {t : Stamp} {s : State} {i : Chain} (h : s.lineAtEntry i = false) :
    atEntry t s i = Eff.pure (s.bau.chains.get i) := if_neg (Bool.eq_false_iff.1 h)

/-- A line found high opens an unannounced pulse where no pulse is open and nothing is queued. -/
theorem atEntry_high {t : Stamp} {s : State} {i : Chain} (h : s.lineAtEntry i = true)
    (hq : (s.bau.chains.get i).queue = []) (hp : (s.bau.chains.get i).pulse = none) :
    UnannouncedAt t { s.bau.shared with epoch := 1 } i (s.bau.chains.get i) (atEntry t s i).val (atEntry t s i).out := by
  rw [atEntry, if_pos h, riseOn_unannounced hp hq]
  exact unannouncedRise_spec _ i t _ hq

/-- Settles O32: the entry by `takeBauEntry_eq`, chain by chain by `atEntry`. -/
theorem burstUnitStartsUp : Obligations.BurstUnitStartsUp := by
  refine ⟨⟨fun x s => ?_, fun at_ s line hr hidle hline => ?_⟩, fun i s hr hl => exec_txen_loading i hr hl,
    fun i s hr hl => ⟨fun hline => ?_, fun hline => ?_⟩, fun i s hr hn => ⟨fun hline => ?_, fun hline => ?_⟩⟩
  · exact ⟨_, congrArg (fun t : State => Host.Outcome.next t.enterRunWhenDelivered)
      (runBau_pure (s := s.takeNotice (.bauLimitsDelivery x)) rfl), rfl, rfl, fun i => PerChain.get_build _ i⟩
  · have hentry := takeBauEntry_eq (s := s.takeNotice (.bauEntryToRun at_)) hr at_
    have hframe := bauEntry_frame at_ (s.takeNotice (.bauEntryToRun at_))
    have hlines : ∀ i, (s.takeNotice (.bauEntryToRun at_)).lineAtEntry i = line i := fun i =>
      (stoodAtEntry_iff _ _ _).1 (hline i)
    refine ⟨_, enteredRun at_ (s.takeNotice (.bauEntryToRun at_)), fun i =>
      (atEntry at_ (s.takeNotice (.bauEntryToRun at_)) i).out, rfl, ?_, hentry, rfl, rfl, rfl, fun i =>
        ⟨fun hlow => ?_, fun hhigh => ?_⟩⟩
    · rw [takeBauEntry, if_neg (Bool.eq_false_iff.1 (by exact hr))]
      exact hframe
    · have hpure := atEntry_low (t := at_) ((hlines i).trans hlow)
      exact ⟨(PerChain.get_build _ i).trans (congrArg Eff.val hpure), congrArg Eff.out hpure⟩
    · obtain ⟨hq, hp⟩ := hidle i
      have hget : (enteredRun at_ (s.takeNotice (.bauEntryToRun at_))).bau.chains.get i = _ := PerChain.get_build _ i
      rw [hget]
      exact atEntry_high ((hlines i).trans hhigh) hq hp
  · exact congrArg Host.Outcome.next ((lineRises_beforeRun hline hr).trans
      (awaitEntry_waits (s := s.setPins { s.pins with txen := s.pins.txen.set i true }) hl i true))
  · exact congrArg Host.Outcome.next ((lineFalls_beforeRun hline hr).trans
      (awaitEntry_waits (s := s.setPins { s.pins with txen := s.pins.txen.set i false }) hl i false))
  · exact congrArg Host.Outcome.next ((lineRises_inRun hline hr).trans
      (bauReceive_taken (s := s.setPins { s.pins with txen := s.pins.txen.set i true }) hn _))
  · exact congrArg Host.Outcome.next ((lineFalls_inRun hline hr).trans
      (bauReceive_taken (s := s.setPins { s.pins with txen := s.pins.txen.set i false }) hn _))

end Sys2Proof.Machine
